-- ==== Sys2Proof/Word.lean ====
section
/-! DEFINITION. The word of the block: 64 bits (R6 `W`, R11, R51), the smallest addressable unit of either address
space, and the passage between words and the unbounded naturals in which the spec writes its arithmetic (R11). -/

namespace Sys2Proof

/-- A word: an integer in [0, 2^64) (R11). A limb, a Montgomery value, a scalar register and a bank word are words. -/
abbrev Word := BitVec 64

/-- The word a natural truncates to: every place where the spec's hardware width truncates is `mod 2^64` (R11). -/
abbrev Word.ofNat (n : Nat) : Word := BitVec.ofNat 64 n

/-- The Montgomery radix `R = 2^64` (R6), which is also the number of words. -/
abbrev radix : Nat := 2 ^ 64

/-- The field `v[hi:lo]`, `(v >> lo) mod 2^(hi-lo+1)`, of a natural (R12), given by its lowest bit and its width. -/
def bitField (v lo width : Nat) : Nat := v / 2 ^ lo % 2 ^ width

end Sys2Proof
end

