-- ==== Sys2Proof/Config.lean ====
section
/-! DEFINITION. The configuration of the block: the open parameters of R6 (primes, roots, lengths, threshold), the
constraints of R7 that make a record of them a configuration OF THIS HARDWARE, the two configurations the spec gives for
its vectors (R8 REFCFG, R9 TOYCFG), and the one free value of the model, the word a bank holds where nothing has written
since reset (R57). The constants DERIVED from a configuration (R10) are in Machine/Rom.lean. -/

namespace Sys2Proof

/-- A modulus index k (R14): the three moduli of R6 (`NMOD` = 3), in the order of the configuration. -/
inductive Modulus where
  | m0 | m1 | m2
deriving DecidableEq, Repr

/-- The index as a number. -/
def Modulus.idx : Modulus → Nat
  | .m0 => 0
  | .m1 => 1
  | .m2 => 2

/-- Byte order of a word on a byte-addressed platform bus (R53, `PLAT_BYTE_ORDER`); no rule reads it. -/
inductive ByteOrder where
  | little | big
deriving DecidableEq, Repr

/-- The open parameters of one modulus (R6): the prime `P[k]` and the root `ROOT[k]`, plain integers. -/
structure ModParams where
  p    : Nat
  root : Nat
deriving DecidableEq, Repr

/-- The record of R6. `platBase` and `platByteOrder` are the platform's (R50, R53): no rule reads them. -/
structure Params where
  mod0          : ModParams
  mod1          : ModParams
  mod2          : ModParams
  logNmax       : Nat
  logNcap       : Nat
  logThresh     : Nat
  platBase      : Nat
  platByteOrder : ByteOrder
deriving DecidableEq, Repr

/-- The parameters of modulus k. -/
def Params.modParams (c : Params) : Modulus → ModParams
  | .m0 => c.mod0
  | .m1 => c.mod1
  | .m2 => c.mod2

/-- `P[k]` (R6). -/
def Params.p (c : Params) (k : Modulus) : Nat := (c.modParams k).p

/-- `ROOT[k]` (R6). -/
def Params.root (c : Params) (k : Modulus) : Nat := (c.modParams k).root

/-- What R7 (a) to (d) and R6 ask of one modulus. -/
structure Params.LegalModulus (c : Params) (k : Modulus) : Prop where
  /-- R7 (a): a prime. -/
  prime       : (c.p k).Prime
  /-- R7 (a): odd. -/
  odd         : c.p k % 2 = 1
  /-- R7 (a): below 2^63, so that the doubled modulus fits a word. -/
  lt          : c.p k < 2 ^ 63
  /-- R7 (c): `2^LOG_NMAX` divides `P[k] - 1`. -/
  nmax_dvd    : 2 ^ c.logNmax ∣ c.p k - 1
  /-- R6: `ROOT[k]` is a plain integer in [1, P[k]). -/
  root_pos    : 1 ≤ c.root k
  /-- R6: `ROOT[k]` is a plain integer in [1, P[k]). -/
  root_lt     : c.root k < c.p k
  /-- R7 (d): `ROOT[k]^(2^(LOG_NMAX-1)) ≡ -1`, so that its order is exactly `2^LOG_NMAX`. -/
  root_half   : c.root k ^ 2 ^ (c.logNmax - 1) % c.p k = c.p k - 1

/-- R7 (a) to (d) and the ranges of R6: a record that does not satisfy them is no configuration of this hardware. R7 (f)
follows (`Laws/Config.lean`); R7 (e), which TOYCFG lacks by R9, is `Params.ProductBound`. `logThresh_lt` is DEDUCED from
`CFG`'s six-bit field (R27; notes/assumptions/5.md). -/
structure Params.Legal (c : Params) : Prop where
  modulus      : ∀ k, c.LegalModulus k
  /-- R7 (b). -/
  distinct01   : c.p .m0 ≠ c.p .m1
  /-- R7 (b). -/
  distinct02   : c.p .m0 ≠ c.p .m2
  /-- R7 (b). -/
  distinct12   : c.p .m1 ≠ c.p .m2
  nmax_ge      : 3 ≤ c.logNmax
  nmax_le      : c.logNmax ≤ 63
  ncap_le      : c.logNcap ≤ c.logNmax
  thresh_ge    : 1 ≤ c.logThresh
  logThresh_lt : c.logThresh < 64

/-- A configuration of this hardware: the record with the proof that R7 admits it, so that an inadmissible one cannot be
built (R7: "a model should refuse it"; I13). -/
structure Config where
  params : Params
  legal  : params.Legal
deriving DecidableEq, Repr

namespace Config

/-- `P[k]` (R6). -/
def p (c : Config) (k : Modulus) : Nat := c.params.p k

/-- `ROOT[k]` (R6). -/
def root (c : Config) (k : Modulus) : Nat := c.params.root k

/-- `LOG_NMAX` (R6). -/
def logNmax (c : Config) : Nat := c.params.logNmax

/-- `LOG_NCAP` (R6). -/
def logNcap (c : Config) : Nat := c.params.logNcap

/-- `LOG_THRESH` (R6). -/
def logThresh (c : Config) : Nat := c.params.logThresh

/-- `NCAP = 2^LOG_NCAP`, the capacity of a transform bank in words (R6). -/
def ncap (c : Config) : Nat := 2 ^ c.logNcap

/-- `TWCAP = 2^min(LOG_THRESH, LOG_NCAP)`, the capacity of a twiddle bank in words (R30). -/
def twcap (c : Config) : Nat := 2 ^ min c.logThresh c.logNcap

/-- `PPP = P[0]·P[1]·P[2]` (R10). -/
def ppp (c : Config) : Nat := c.p .m0 * c.p .m1 * c.p .m2

/-- R7 (e): the product of the primes exceeds every coefficient the banks admit. Only the product law R254 needs it; under
a configuration without it the commands still execute their rules (R9, R227, I12). -/
def ProductBound (c : Config) : Prop := max 1 (c.ncap / 2) * (2 ^ 64 - 1) ^ 2 < c.ppp

end Config

/-- FREE VALUE (R57, R301, I4): the word that the bank with this id holds at this index while nothing has written it
since reset number `epoch`: an arbitrary word, fixed once chosen, chosen anew by each reset. It has no body, so nothing
can be proved of it (notes/assumptions/2.md). -/
opaque Config.unwrittenWord (epoch bankId index : Nat) : Word

/-! ### REFCFG and TOYCFG -/

/-- n squarings modulo p, from r: how the checks of R7 (d) below are evaluated. -/
def squarings (p r : Nat) : Nat → Nat
  | 0 => r % p
  | n + 1 => squarings p (r * r % p) n

theorem squarings_eq (p : Nat) : ∀ n r, squarings p r n = r ^ 2 ^ n % p
  | 0, r => by simp [squarings]
  | n + 1, r => by
    rw [squarings, squarings_eq p n, ← Nat.pow_mod, ← pow_two, ← pow_mul, ← pow_succ']

/-- A number with a root of -1 of order `2^n` whose square root is below `2^n` is prime: every prime divisor q of it has
`2^n` dividing q - 1. -/
theorem prime_of_half_root {p r n : Nat} (hp : 1 < p) (hodd : p % 2 = 1) (hn : 1 ≤ n) (hlt : p < 2 ^ n * 2 ^ n)
    (hr : r ^ 2 ^ (n - 1) % p = p - 1) : p.Prime := by
  by_contra hnp
  have hq : (p.minFac).Prime := Nat.minFac_prime (by omega)
  have hle : p.minFac ^ 2 ≤ p := Nat.minFac_sq_le_self (by omega) hnp
  have : Fact (p.minFac).Prime := ⟨hq⟩
  have hcast : ((p : Nat) : ZMod p.minFac) = 0 := (ZMod.natCast_eq_zero_iff _ _).2 (Nat.minFac_dvd p)
  have hneg : (r : ZMod p.minFac) ^ 2 ^ (n - 1) = -1 := by
    have h : ((r ^ 2 ^ (n - 1) + 1 : Nat) : ZMod p.minFac) = 0 := by
      rw [ZMod.natCast_eq_zero_iff]
      refine (Nat.minFac_dvd p).trans (Nat.dvd_of_mod_eq_zero ?_)
      rw [Nat.add_mod, hr, Nat.mod_eq_of_lt hp]
      simp [Nat.sub_add_cancel hp.le]
    push_cast at h
    exact eq_neg_of_add_eq_zero_left h
  have hq2 : p.minFac ≠ 2 := by
    intro h2
    have := Nat.minFac_dvd p
    rw [h2] at this
    omega
  have : Fact (2 < p.minFac) := ⟨lt_of_le_of_ne hq.two_le (Ne.symm hq2)⟩
  have hord : orderOf (r : ZMod p.minFac) = 2 ^ (n - 1 + 1) := by
    apply orderOf_eq_prime_pow
    · rw [hneg]
      exact ZMod.neg_one_ne_one
    · rw [pow_succ, pow_mul, hneg]
      norm_num
  have hne : (r : ZMod p.minFac) ≠ 0 := by
    intro h0
    rw [h0, zero_pow (by positivity)] at hneg
    exact absurd hneg.symm (by simp)
  have hdvd : 2 ^ n ∣ p.minFac - 1 := by
    have := ZMod.orderOf_dvd_card_sub_one hne
    rwa [hord, Nat.sub_add_cancel hn] at this
  have hge : 2 ^ n < p.minFac := by
    have := Nat.le_of_dvd (Nat.sub_pos_of_lt hq.one_lt) hdvd
    have := hq.one_lt
    omega
  have := Nat.mul_le_mul hge.le hge.le
  rw [pow_two] at hle
  omega

/-- One modulus is admitted when these evaluable checks of its numbers hold. -/
theorem Params.legalModulus_of_checks {c : Params} {k : Modulus} (p r n : Nat) (ep : c.p k = p) (er : c.root k = r)
    (en : c.logNmax = n) (hp : 1 < p) (hodd : p % 2 = 1) (hlt : p < 2 ^ 63) (hn : 1 ≤ n) (hbig : p < 2 ^ n * 2 ^ n)
    (hdvd : (p - 1) % 2 ^ n = 0) (hpos : 1 ≤ r) (hroot : r < p) (hhalf : squarings p r (n - 1) = p - 1) :
    c.LegalModulus k := by
  subst ep er en
  have hh := (squarings_eq _ _ _).symm.trans hhalf
  exact ⟨prime_of_half_root hp hodd hn hbig hh, hodd, hlt, Nat.dvd_of_mod_eq_zero hdvd, hpos, hroot, hh⟩

/-- REFCFG (R8), which leaves `LOG_NCAP` to the instantiation. R8 gives `PLAT_BASE` and `PLAT_BYTE_ORDER` no value: 0 and little
are the model's (DESIGN CHOICE, notes/assumptions/21.md). -/
def refParams (logNcap logThresh : Nat) : Params where
  mod0 := ⟨0x7FFFFE0000000001, 0x749BE8248B05AE2E⟩
  mod1 := ⟨0x7FFFEF0000000001, 0x5D868E1951745E6F⟩
  mod2 := ⟨0x7FFFE90000000001, 0x72E48ED3638D3854⟩
  logNmax := 40
  logNcap := logNcap
  logThresh := logThresh
  platBase := 0
  platByteOrder := .little

/-- TOYCFG (R9) with `LOG_THRESH` as a vector names it; `PLAT_BASE` and `PLAT_BYTE_ORDER` as in `refParams` (DESIGN CHOICE,
notes/assumptions/21.md). -/
def toyParams (logThresh : Nat) : Params where
  mod0 := ⟨97, 28⟩
  mod1 := ⟨193, 185⟩
  mod2 := ⟨257, 136⟩
  logNmax := 5
  logNcap := 5
  logThresh := logThresh
  platBase := 0
  platByteOrder := .little

theorem refParams_legal {cap thr : Nat} (hc : cap ≤ 40) (h1 : 1 ≤ thr) (h2 : thr < 64) : (refParams cap thr).Legal where
  modulus k := by
    cases k
    · exact Params.legalModulus_of_checks ((refParams 0 0).p .m0) ((refParams 0 0).root .m0) 40 rfl rfl rfl (by decide)
        (by decide) (by decide) (by decide) (by decide) (by decide) (by decide) (by decide) (by decide +kernel)
    · exact Params.legalModulus_of_checks ((refParams 0 0).p .m1) ((refParams 0 0).root .m1) 40 rfl rfl rfl (by decide)
        (by decide) (by decide) (by decide) (by decide) (by decide) (by decide) (by decide) (by decide +kernel)
    · exact Params.legalModulus_of_checks ((refParams 0 0).p .m2) ((refParams 0 0).root .m2) 40 rfl rfl rfl (by decide)
        (by decide) (by decide) (by decide) (by decide) (by decide) (by decide) (by decide) (by decide +kernel)
  distinct01 := show (_ : Nat) ≠ _ by simp [Params.p, Params.modParams, refParams]
  distinct02 := show (_ : Nat) ≠ _ by simp [Params.p, Params.modParams, refParams]
  distinct12 := show (_ : Nat) ≠ _ by simp [Params.p, Params.modParams, refParams]
  nmax_ge := Nat.le_of_ble_eq_true rfl
  nmax_le := Nat.le_of_ble_eq_true rfl
  ncap_le := hc
  thresh_ge := h1
  logThresh_lt := h2

theorem toyParams_legal {thr : Nat} (h1 : 1 ≤ thr) (h2 : thr < 64) : (toyParams thr).Legal where
  modulus k := by
    cases k
    · exact Params.legalModulus_of_checks ((toyParams 0).p .m0) ((toyParams 0).root .m0) 5 rfl rfl rfl (by decide)
        (by decide) (by decide) (by decide) (by decide) (by decide) (by decide) (by decide) (by decide +kernel)
    · exact Params.legalModulus_of_checks ((toyParams 0).p .m1) ((toyParams 0).root .m1) 5 rfl rfl rfl (by decide)
        (by decide) (by decide) (by decide) (by decide) (by decide) (by decide) (by decide) (by decide +kernel)
    · exact Params.legalModulus_of_checks ((toyParams 0).p .m2) ((toyParams 0).root .m2) 5 rfl rfl rfl (by decide)
        (by decide) (by decide) (by decide) (by decide) (by decide) (by decide) (by decide) (by decide +kernel)
  distinct01 := show (_ : Nat) ≠ _ by simp [Params.p, Params.modParams, toyParams]
  distinct02 := show (_ : Nat) ≠ _ by simp [Params.p, Params.modParams, toyParams]
  distinct12 := show (_ : Nat) ≠ _ by simp [Params.p, Params.modParams, toyParams]
  nmax_ge := Nat.le_of_ble_eq_true rfl
  nmax_le := Nat.le_of_ble_eq_true rfl
  ncap_le := Nat.le_of_ble_eq_true rfl
  thresh_ge := h1
  logThresh_lt := h2

/-- REFCFG (R8) with `LOG_THRESH` = 17 and `LOG_NCAP` = 5, the largest that a vector needs: the instance that
`State.reset` carries (DESIGN CHOICE, notes/assumptions/1.md). -/
def Config.ref : Config := ⟨refParams 5 17, refParams_legal (by decide) (by decide) (by decide)⟩

/-- REFCFG with `LOG_THRESH` lowered to 2, which R6 allows (V-OR5, V-OR6). -/
def Config.refLow : Config := ⟨refParams 5 2, refParams_legal (by decide) (by decide) (by decide)⟩

/-- TOYCFG (R9) with `LOG_THRESH` = 17. -/
def Config.toy : Config := ⟨toyParams 17, toyParams_legal (by decide) (by decide)⟩

/-- TOYCFG (R9) with `LOG_THRESH` = 2, under which the recursive path is taken from length 8. -/
def Config.toyLow : Config := ⟨toyParams 2, toyParams_legal (by decide) (by decide)⟩

end Sys2Proof
end

