-- ==== Sys2Proof/Syntax.lean ====
section
/-! DEFINITION. The commands of the block, one constructor of `Instr` for each of the 33 rows of the opcode map (R77), with
the operands its format uses (R71). An operand that its format bounds only by a width has that bound in its type; the
choices among banks and the three-register bound of `CRT3` are checks of WellFormed.lean (R75 steps 5 and 6). -/

namespace Sys2Proof

/-- A scalar register number, 0 to 15 (R21). -/
abbrev Reg := Fin 16

/-- The `LG` field, the log2 of a length, 0 to 63 (R70). -/
abbrev Lg := Fin 64

/-- The nine banks (R30). The ids 9 to 15 name no bank. -/
inductive Bank where
  | ch0 | ch1 | ch2 | scr | twf | twi | ina | inb | out
deriving DecidableEq, Repr

/-- The commands (R77), with the fields of the command word in the order of the assembler syntax (R80). -/
inductive Instr where
  /-- `nop` (R112). -/
  | nop
  /-- `mto sd, sa, mod` (R100). -/
  | mto (rd ra : Reg) (k : Modulus)
  /-- `mfrom sd, sa, mod` (R101). -/
  | mfrom (rd ra : Reg) (k : Modulus)
  /-- `mmul sd, sa, sb, mod` (R102). -/
  | mmul (rd ra rb : Reg) (k : Modulus)
  /-- `madd sd, sa, sb, mod` (R103). -/
  | madd (rd ra rb : Reg) (k : Modulus)
  /-- `msub sd, sa, sb, mod` (R104). -/
  | msub (rd ra rb : Reg) (k : Modulus)
  /-- `mnorm sd, sa, mod` (R105). -/
  | mnorm (rd ra : Reg) (k : Modulus)
  /-- `mpow sd, sa, sb, mod` (R106): `rb` holds the plain exponent. -/
  | mpow (rd ra rb : Reg) (k : Modulus)
  /-- `minv sd, sa, mod` (R107). -/
  | minv (rd ra : Reg) (k : Modulus)
  /-- `lde sd, bank[sb]` (R110). -/
  | lde (rd : Reg) (bank : Bank) (rb : Reg)
  /-- `ste bank[sa], sb` (R111). -/
  | ste (bank : Bank) (ra rb : Reg)
  /-- `twb mod, lg` (R126). -/
  | twb (k : Modulus) (lg : Lg)
  /-- `kdif bank[sa], mod, lg` (R146). -/
  | kdif (bank : Bank) (ra : Reg) (k : Modulus) (lg : Lg)
  /-- `kdit bank[sa], mod, lg` (R147). -/
  | kdit (bank : Bank) (ra : Reg) (k : Modulus) (lg : Lg)
  /-- `r4dif bank[sa], mod, lg` (R150). -/
  | r4dif (bank : Bank) (ra : Reg) (k : Modulus) (lg : Lg)
  /-- `r4dit bank[sa], mod, lg` (R151). -/
  | r4dit (bank : Bank) (ra : Reg) (k : Modulus) (lg : Lg)
  /-- `nttf bank[sa], mod, lg` (R154). -/
  | nttf (bank : Bank) (ra : Reg) (k : Modulus) (lg : Lg)
  /-- `ntti bank[sa], mod, lg` (R155). -/
  | ntti (bank : Bank) (ra : Reg) (k : Modulus) (lg : Lg)
  /-- `pwmul bankd[sb], banks, mod, lg` (R171). -/
  | pwmul (bankd banks : Bank) (rb : Reg) (k : Modulus) (lg : Lg)
  /-- `pwsqr bank[sa], mod, lg` (R172). -/
  | pwsqr (bank : Bank) (ra : Reg) (k : Modulus) (lg : Lg)
  /-- `scl bank[sa], sb, mod, lg` (R173): `rb` holds the scale factor. -/
  | scl (bank : Bank) (ra rb : Reg) (k : Modulus) (lg : Lg)
  /-- `fwd bank[sa], mod, lg` (R196). -/
  | fwd (bank : Bank) (ra : Reg) (k : Modulus) (lg : Lg)
  /-- `cnv2 bankd[sb], banks, mod, lg [, norm]` (R197). -/
  | cnv2 (bankd banks : Bank) (rb : Reg) (k : Modulus) (lg : Lg) (nf : Bool)
  /-- `cnv1 bankd[sb], banks, mod, lg [, norm]` (R198). -/
  | cnv1 (bankd banks : Bank) (rb : Reg) (k : Modulus) (lg : Lg) (nf : Bool)
  /-- `cnvsq bank[sa], mod, lg [, norm]` (R199). -/
  | cnvsq (bank : Bank) (ra : Reg) (k : Modulus) (lg : Lg) (nf : Bool)
  /-- `crt3 sa` (R218): the first of three consecutive scalar registers. -/
  | crt3 (ra : Reg)
  /-- `cacc` (R220). -/
  | cacc
  /-- `cemit sd` (R221). -/
  | cemit (rd : Reg)
  /-- `cclr` (R222). -/
  | cclr
  /-- `crtc` (R223). -/
  | crtc
  /-- `ldm bank, ina|inb, mod, lg` (R246). -/
  | ldm (bank src : Bank) (k : Modulus) (lg : Lg)
  /-- `mul` (R250). -/
  | mul
  /-- `sqr` (R251). -/
  | sqr
deriving DecidableEq, Repr

end Sys2Proof
end

