-- ==== Sys2Proof/WellFormed.lean ====
section
/-! DEFINITION. When a term of `Instr` is a command of the block: the bank choices of R71 and R75 step 5, and the bound of
`CRT3` of R75 step 6. Every other bound of the encoding is in the operand's type (Syntax.lean). -/

namespace Sys2Proof

/-- A transform bank id is 0, 1, 2 or 3 (R71, R30). -/
def Bank.isTransform : Bank → Bool
  | .ch0 | .ch1 | .ch2 | .scr => true
  | .twf | .twi | .ina | .inb | .out => false

/-- The banks of the twiddle table, whose writes clear `TWCFG.TVALID` (R56). -/
def Bank.isTwiddle : Bank → Bool
  | .twf | .twi => true
  | .ch0 | .ch1 | .ch2 | .scr | .ina | .inb | .out => false

/-- The input banks, which no command writes (R30): the two sources of `LDM` (R71). -/
def Bank.isInput : Bank → Bool
  | .ina | .inb => true
  | .ch0 | .ch1 | .ch2 | .scr | .twf | .twi | .out => false

/-- R75 steps 5 and 6, as a check of the decoded term. -/
def Instr.wellFormed : Instr → Bool
  | .nop | .cacc | .cclr | .crtc | .mul | .sqr => true
  | .mto _ _ _ | .mfrom _ _ _ | .mnorm _ _ _ | .minv _ _ _ => true
  | .mmul _ _ _ _ | .madd _ _ _ _ | .msub _ _ _ _ | .mpow _ _ _ _ => true
  | .lde _ _ _ => true
  | .ste bank _ _ => !bank.isInput
  | .twb _ _ => true
  | .kdif bank _ _ _ | .kdit bank _ _ _ | .r4dif bank _ _ _ | .r4dit bank _ _ _ => bank.isTransform
  | .nttf bank _ _ _ | .ntti bank _ _ _ => bank.isTransform
  | .pwmul bankd banks _ _ _ => bankd.isTransform && banks.isTransform
  | .pwsqr bank _ _ _ | .scl bank _ _ _ _ | .fwd bank _ _ _ => bank.isTransform
  | .cnv2 bankd banks _ _ _ _ | .cnv1 bankd banks _ _ _ _ => bankd.isTransform && banks.isTransform
  | .cnvsq bank _ _ _ _ => bank.isTransform
  | .crt3 ra => ra.val ≤ 13
  | .cemit _ => true
  | .ldm bank src _ _ => bank.isTransform && src.isInput

end Sys2Proof
end

