-- ==== Sys2Proof/Decode.lean ====
section
/-! DEFINITION. The decoder, total on all 2^64 words written to `CMD` (R75), rejecting by name, and the encoder. One layout
of fields (R70), one format per opcode (R71, R77). Every rejection is the fault `F_ILLEGAL` (R79). -/

namespace Sys2Proof

/-! ### Fields of the command word -/

/-- The fields of the command word (R70), each as the unsigned value of its bits. -/
structure Fields where
  op   : Nat
  m    : Nat
  nf   : Nat
  zero : Nat
  lg   : Nat
  rd   : Nat
  ra   : Nat
  rb   : Nat
deriving DecidableEq, Repr

/-- The fields of the low 32 bits of a word (R70): `OP` 31:24, `M` 23:22, `NF` 21, zero 20:18, `LG` 17:12, `RD` 11:8,
`RA` 7:4, `RB` 3:0. -/
def Fields.ofWord (c : Nat) : Fields where
  op := bitField c 24 8
  m := bitField c 22 2
  nf := bitField c 21 1
  zero := bitField c 18 3
  lg := bitField c 12 6
  rd := bitField c 8 4
  ra := bitField c 4 4
  rb := bitField c 0 4

/-- The word with these fields (R70, R82). -/
def Fields.pack (f : Fields) : Nat :=
  f.op * 2 ^ 24 + f.m * 2 ^ 22 + f.nf * 2 ^ 21 + f.zero * 2 ^ 18 + f.lg * 2 ^ 12 + f.rd * 2 ^ 8 + f.ra * 2 ^ 4 + f.rb

/-! ### Formats and the opcode map -/

/-- The formats of R71. -/
inductive Format where
  | z | s3 | s2 | sd | sa | el | es | t | b1 | b1n | b1s | b2 | b2n | ld
deriving DecidableEq, Repr

/-- The formats that use `M` (R71). -/
def Format.usesM : Format → Bool
  | .s3 | .s2 | .t | .b1 | .b1n | .b1s | .b2 | .b2n | .ld => true
  | .z | .sd | .sa | .el | .es => false

/-- The formats that use `NF` (R71). -/
def Format.usesNf : Format → Bool
  | .b1n | .b2n => true
  | .z | .s3 | .s2 | .sd | .sa | .el | .es | .t | .b1 | .b1s | .b2 | .ld => false

/-- The formats that use `LG` (R71). -/
def Format.usesLg : Format → Bool
  | .t | .b1 | .b1n | .b1s | .b2 | .b2n | .ld => true
  | .z | .s3 | .s2 | .sd | .sa | .el | .es => false

/-- The formats that use `RD` (R71). -/
def Format.usesRd : Format → Bool
  | .s3 | .s2 | .sd | .el | .es | .b1 | .b1n | .b1s | .b2 | .b2n | .ld => true
  | .z | .sa | .t => false

/-- The formats that use `RA` (R71). -/
def Format.usesRa : Format → Bool
  | .s3 | .s2 | .sa | .el | .es | .b1 | .b1n | .b1s | .b2 | .b2n | .ld => true
  | .z | .sd | .t => false

/-- The formats that use `RB` (R71). -/
def Format.usesRb : Format → Bool
  | .s3 | .el | .es | .b1s | .b2 | .b2n => true
  | .z | .s2 | .sd | .sa | .t | .b1 | .b1n | .ld => false

/-- Every bit outside the fields the format uses, other than `OP`, is 0 (R75 step 3). -/
def Format.unusedAreZero (fm : Format) (f : Fields) : Bool :=
  (fm.usesM || f.m == 0) && (fm.usesNf || f.nf == 0) && f.zero == 0 && (fm.usesLg || f.lg == 0) && (fm.usesRd || f.rd == 0)
    && (fm.usesRa || f.ra == 0) && (fm.usesRb || f.rb == 0)

/-- The `mask` column of R77: a 1 at `OP` and at every bit the format does not use. -/
def Format.mask (fm : Format) : Nat :=
  Fields.pack
    { op := 0xFF, zero := 7
      m := if fm.usesM then 0 else 3
      nf := if fm.usesNf then 0 else 1
      lg := if fm.usesLg then 0 else 63
      rd := if fm.usesRd then 0 else 15
      ra := if fm.usesRa then 0 else 15
      rb := if fm.usesRb then 0 else 15 }

/-- The opcode map (R77): the format of an opcode, none where the value is no opcode. -/
def formatOf : Nat → Option Format
  | 0x00 => some .z
  | 0x10 => some .s2
  | 0x11 => some .s2
  | 0x12 => some .s3
  | 0x13 => some .s3
  | 0x14 => some .s3
  | 0x15 => some .s2
  | 0x16 => some .s3
  | 0x17 => some .s2
  | 0x18 => some .el
  | 0x19 => some .es
  | 0x20 => some .t
  | 0x30 => some .b1
  | 0x31 => some .b1
  | 0x32 => some .b1
  | 0x33 => some .b1
  | 0x34 => some .b1
  | 0x35 => some .b1
  | 0x40 => some .b2
  | 0x41 => some .b1
  | 0x42 => some .b1s
  | 0x50 => some .b1
  | 0x51 => some .b2n
  | 0x52 => some .b2n
  | 0x53 => some .b1n
  | 0x60 => some .sa
  | 0x61 => some .z
  | 0x62 => some .sd
  | 0x63 => some .z
  | 0x64 => some .z
  | 0x70 => some .ld
  | 0x71 => some .z
  | 0x72 => some .z
  | _ => none

/-! ### Decoding -/

/-- Why a word is no command (R75 steps 1 to 6, R79 (a) to (g)). -/
inductive Illegal where
  /-- Step 1, R79 (g): a 1 in bits 63:32. -/
  | upperHalf
  /-- Step 2, R79 (a): `OP` is no opcode. -/
  | opcode
  /-- Step 3, R79 (b), (c): a 1 in bits 20:18 or in a field the format does not use. -/
  | unusedField
  /-- Step 4, R79 (d): `M` = 3 where `M` is used. -/
  | modulus
  /-- Step 5, R79 (e): a bank id the format does not allow. -/
  | bank
  /-- Step 6, R79 (f): `CRT3` with `RA` > 13. -/
  | triple
deriving DecidableEq, Repr

/-- A scalar register field (R72). -/
def regOf (n : Nat) : Reg := Fin.ofNat 16 n

/-- The `LG` field (R70). -/
def lgOf (n : Nat) : Lg := Fin.ofNat 64 n

/-- The `NF` field (R70): 1 asks for the normalisation. -/
def flagOf (n : Nat) : Bool := n == 1

/-- The bank with an id (R30); ids 9 to 15 name no bank. -/
def bankOf : Nat → Option Bank
  | 0 => some .ch0
  | 1 => some .ch1
  | 2 => some .ch2
  | 3 => some .scr
  | 4 => some .twf
  | 5 => some .twi
  | 6 => some .ina
  | 7 => some .inb
  | 8 => some .out
  | _ => none

/-- R75 step 4. -/
def modulusOf : Nat → Except Illegal Modulus
  | 0 => .ok .m0
  | 1 => .ok .m1
  | 2 => .ok .m2
  | _ => .error .modulus

/-- R75 step 5: a field read as a bank id, with the ids the format allows. -/
def bankWhere (allowed : Bank → Bool) (n : Nat) : Except Illegal Bank :=
  match bankOf n with
  | some b => if allowed b then .ok b else .error .bank
  | none => .error .bank

/-- R75 step 5: a transform bank id. -/
def transformOf (n : Nat) : Except Illegal Bank := bankWhere Bank.isTransform n

/-- A command of format `S2` from its fields. -/
def buildS2 (f : Fields) (mk : Reg → Reg → Modulus → Instr) : Except Illegal Instr := do
  let k ← modulusOf f.m
  return mk (regOf f.rd) (regOf f.ra) k

/-- A command of format `S3` from its fields. -/
def buildS3 (f : Fields) (mk : Reg → Reg → Reg → Modulus → Instr) : Except Illegal Instr := do
  let k ← modulusOf f.m
  return mk (regOf f.rd) (regOf f.ra) (regOf f.rb) k

/-- A command of format `B1` from its fields. -/
def buildB1 (f : Fields) (mk : Bank → Reg → Modulus → Lg → Instr) : Except Illegal Instr := do
  let k ← modulusOf f.m
  let b ← transformOf f.rd
  return mk b (regOf f.ra) k (lgOf f.lg)

/-- A command of format `B2` or `B2N` from its fields. -/
def buildB2 (f : Fields) (mk : Bank → Bank → Reg → Modulus → Lg → Instr) : Except Illegal Instr := do
  let k ← modulusOf f.m
  let d ← transformOf f.rd
  let b ← transformOf f.ra
  return mk d b (regOf f.rb) k (lgOf f.lg)

/-- The command of an opcode of R77, with the checks of R75 steps 4 to 6. -/
def build (f : Fields) : Except Illegal Instr :=
  match f.op with
  | 0x00 => .ok .nop
  | 0x10 => buildS2 f .mto
  | 0x11 => buildS2 f .mfrom
  | 0x12 => buildS3 f .mmul
  | 0x13 => buildS3 f .madd
  | 0x14 => buildS3 f .msub
  | 0x15 => buildS2 f .mnorm
  | 0x16 => buildS3 f .mpow
  | 0x17 => buildS2 f .minv
  | 0x18 => do
    let b ← bankWhere (fun _ => true) f.ra
    return .lde (regOf f.rd) b (regOf f.rb)
  | 0x19 => do
    let b ← bankWhere (fun b => !b.isInput) f.rd
    return .ste b (regOf f.ra) (regOf f.rb)
  | 0x20 => do
    let k ← modulusOf f.m
    return .twb k (lgOf f.lg)
  | 0x30 => buildB1 f .kdif
  | 0x31 => buildB1 f .kdit
  | 0x32 => buildB1 f .r4dif
  | 0x33 => buildB1 f .r4dit
  | 0x34 => buildB1 f .nttf
  | 0x35 => buildB1 f .ntti
  | 0x40 => buildB2 f .pwmul
  | 0x41 => buildB1 f .pwsqr
  | 0x42 => buildB1 f fun b ra k lg => .scl b ra (regOf f.rb) k lg
  | 0x50 => buildB1 f .fwd
  | 0x51 => buildB2 f fun d b rb k lg => .cnv2 d b rb k lg (flagOf f.nf)
  | 0x52 => buildB2 f fun d b rb k lg => .cnv1 d b rb k lg (flagOf f.nf)
  | 0x53 => buildB1 f fun b ra k lg => .cnvsq b ra k lg (flagOf f.nf)
  | 0x60 => if f.ra ≤ 13 then .ok (.crt3 (regOf f.ra)) else .error .triple
  | 0x61 => .ok .cacc
  | 0x62 => .ok (.cemit (regOf f.rd))
  | 0x63 => .ok .cclr
  | 0x64 => .ok .crtc
  | 0x70 => do
    let k ← modulusOf f.m
    let d ← transformOf f.rd
    let b ← bankWhere Bank.isInput f.ra
    return .ldm d b k (lgOf f.lg)
  | 0x71 => .ok .mul
  | 0x72 => .ok .sqr
  | _ => .error .opcode

/-- R75 steps 1 to 6, in that order, on the word written to `CMD`. -/
def decode (c : Word) : Except Illegal Instr :=
  if 2 ^ 32 ≤ c.toNat then .error .upperHalf
  else
    let f := Fields.ofWord c.toNat
    match formatOf f.op with
    | none => .error .opcode
    | some fm => if fm.unusedAreZero f then build f else .error .unusedField

/-- The instruction the decoder reads from an instruction whose bits are w, numbered as the opcode table numbers them: the
command word is the low `nbits` bits, the bits above are 0. -/
def decodeTableWord (nbits w : Nat) : Option Instr :=
  (decode (Word.ofNat (w % 2 ^ nbits))).toOption

/-! ### Encoding -/

/-- The id of a bank (R30). -/
def Bank.id : Bank → Nat
  | .ch0 => 0
  | .ch1 => 1
  | .ch2 => 2
  | .scr => 3
  | .twf => 4
  | .twi => 5
  | .ina => 6
  | .inb => 7
  | .out => 8

/-- The fields of format `Z`: the opcode alone. -/
def Fields.z (op : Nat) : Fields := ⟨op, 0, 0, 0, 0, 0, 0, 0⟩

/-- The fields of formats `S2` (with `rb` 0) and `S3`. -/
def Fields.s (op : Nat) (k : Modulus) (rd ra rb : Nat) : Fields := ⟨op, k.idx, 0, 0, 0, rd, ra, rb⟩

/-- The fields of the bulk formats `B1` (with `rb` and `nf` 0), `B1N`, `B1S`, `B2`, `B2N`, `T` and `LD`. -/
def Fields.b (op : Nat) (k : Modulus) (nf : Bool) (lg : Lg) (rd ra rb : Nat) : Fields :=
  ⟨op, k.idx, nf.toNat, 0, lg, rd, ra, rb⟩

/-- The fields of a command (R71, R77, R80: in `sd, sa, sb` the letters are the fields `RD`, `RA`, `RB`). -/
def Instr.fields : Instr → Fields
  | .nop => .z 0x00
  | .mto rd ra k => .s 0x10 k rd ra 0
  | .mfrom rd ra k => .s 0x11 k rd ra 0
  | .mmul rd ra rb k => .s 0x12 k rd ra rb
  | .madd rd ra rb k => .s 0x13 k rd ra rb
  | .msub rd ra rb k => .s 0x14 k rd ra rb
  | .mnorm rd ra k => .s 0x15 k rd ra 0
  | .mpow rd ra rb k => .s 0x16 k rd ra rb
  | .minv rd ra k => .s 0x17 k rd ra 0
  | .lde rd bank rb => ⟨0x18, 0, 0, 0, 0, rd, bank.id, rb⟩
  | .ste bank ra rb => ⟨0x19, 0, 0, 0, 0, bank.id, ra, rb⟩
  | .twb k lg => .b 0x20 k false lg 0 0 0
  | .kdif bank ra k lg => .b 0x30 k false lg bank.id ra 0
  | .kdit bank ra k lg => .b 0x31 k false lg bank.id ra 0
  | .r4dif bank ra k lg => .b 0x32 k false lg bank.id ra 0
  | .r4dit bank ra k lg => .b 0x33 k false lg bank.id ra 0
  | .nttf bank ra k lg => .b 0x34 k false lg bank.id ra 0
  | .ntti bank ra k lg => .b 0x35 k false lg bank.id ra 0
  | .pwmul bankd banks rb k lg => .b 0x40 k false lg bankd.id banks.id rb
  | .pwsqr bank ra k lg => .b 0x41 k false lg bank.id ra 0
  | .scl bank ra rb k lg => .b 0x42 k false lg bank.id ra rb
  | .fwd bank ra k lg => .b 0x50 k false lg bank.id ra 0
  | .cnv2 bankd banks rb k lg nf => .b 0x51 k nf lg bankd.id banks.id rb
  | .cnv1 bankd banks rb k lg nf => .b 0x52 k nf lg bankd.id banks.id rb
  | .cnvsq bank ra k lg nf => .b 0x53 k nf lg bank.id ra 0
  | .crt3 ra => ⟨0x60, 0, 0, 0, 0, 0, ra, 0⟩
  | .cacc => .z 0x61
  | .cemit rd => ⟨0x62, 0, 0, 0, 0, rd, 0, 0⟩
  | .cclr => .z 0x63
  | .crtc => .z 0x64
  | .ldm bank src k lg => .b 0x70 k false lg bank.id src.id 0
  | .mul => .z 0x71
  | .sqr => .z 0x72

/-- The word of a well-formed command (R70, R77, R82). -/
def encode (i : Instr) : Word := Word.ofNat i.fields.pack

end Sys2Proof
end

