-- ==== Sys2Proof/Machine/State.lean ====
section
/-! DEFINITION. The state of the machine as plain data: all that R20 names (the scalar registers, `V` and `ACC`, the control
and status registers, the nine banks), the configuration the run is under (R6, R33), and the model's own three fields: the
moves the host makes, the word its last read returned, and the number of resets so far. -/

namespace Sys2Proof.Machine

/-- Why a step stops with no next state: nothing does. Every fault of the spec is a STATE (`STATUS.FAULT` with its code, R276)
from which the machine goes on ignoring commands until reset, so no step answers a fault. Safe: nothing is cut off. -/
inductive Fault
deriving DecidableEq, Repr

/-- Why the model gives a step no meaning. -/
inductive Refusal where
  /-- Raised by an arm of `exec` whose instruction has no meaning yet; no arm has it. Safe. -/
  | notModelled (mnemonic : String)
  /-- Raised by `hostMove` for a host access, other than a read of `STATUS` or a reset, in a state with `STATUS.BUSY` = 1:
  the spec gives it no meaning (R59, I5: the host has no such move). No step leads to such a state. Safe. -/
  | hostAccessWhileBusy
deriving DecidableEq, Repr

/-- A 192-bit register of three words, least significant first (R12, R23). -/
structure Wide where
  w0 : Word
  w1 : Word
  w2 : Word
deriving DecidableEq, Repr

/-- The fields of `STATUS` (R25); its other bits read as zero, and no one writes them. -/
structure Status where
  busy  : Bool
  done  : Bool
  fault : Bool
  fcode : BitVec 8
deriving DecidableEq, Repr

/-- The fields of `TWCFG` (R29); its other bits read as zero, and no one writes them. -/
structure TableCfg where
  tmod   : Modulus
  tlg    : Lg
  tvalid : Bool
deriving DecidableEq, Repr

/-- The words of one bank that something has written since reset: pairs of an index and a word, indices strictly rising.
An index that is not listed has not been written since reset (R57). -/
abbrev Memory := List (Nat × Word)

/-- The contents of the nine banks (R30). -/
structure Banks where
  ch0 : Memory
  ch1 : Memory
  ch2 : Memory
  scr : Memory
  twf : Memory
  twi : Memory
  ina : Memory
  inb : Memory
  out : Memory
deriving DecidableEq, Repr

/-- A move of the host (R58): a register-port access (7-bit index, R24), a memory-port access (4-bit bank id and word index,
R50), or the assertion of reset (R300). A write of `CMD` (index 0) is the issue of a command. -/
inductive HostMove where
  | writeReg (idx : BitVec 7) (v : Word)
  | readReg (idx : BitVec 7)
  | writeBank (bank : BitVec 4) (i : Nat) (v : Word)
  | readBank (bank : BitVec 4) (i : Nat)
  | reset
deriving DecidableEq, Repr

/-- The state. -/
structure State where
  /-- The configuration of the block (R6): no step changes it. -/
  cfg    : Config
  /-- `S0` to `S15` (R21). -/
  sreg   : Vector Word 16
  /-- `V` (R23). -/
  v      : Wide
  /-- `ACC` (R23). -/
  acc    : Wide
  /-- `CMD`: the last word accepted (R31). -/
  cmd    : Word
  /-- `STATUS` (R25). -/
  status : Status
  /-- `FINFO` (R25). -/
  finfo  : Word
  /-- `LEN1` (R28). -/
  len1   : Word
  /-- `LEN2` (R28). -/
  len2   : Word
  /-- `CLEN` (R28). -/
  clen   : Word
  /-- `OLEN` (R28). -/
  olen   : Word
  /-- `LGN` (R28). -/
  lgn    : Word
  /-- `TWCFG` (R29). -/
  twcfg  : TableCfg
  /-- The banks (R30). -/
  banks  : Banks
  /-- The model's own: how many resets came before; it picks the free words of R57 anew after each. -/
  epoch  : Nat
  /-- The model's own: the moves the host makes from here on, in their order (R60). -/
  host   : List HostMove
  /-- The model's own: the word the host's last read returned, none before its first read. -/
  answer : Option Word
deriving DecidableEq, Repr

/-- A wide register holding 0. -/
def Wide.zero : Wide := ⟨0, 0, 0⟩

/-- Banks in which nothing has been written. -/
def Banks.empty : Banks := ⟨[], [], [], [], [], [], [], [], []⟩

/-- The state after reset under a configuration (R34, R300): every register zero, no bank word written. -/
def State.resetWith (cfg : Config) (epoch : Nat) (host : List HostMove) (answer : Option Word) : State where
  cfg := cfg
  sreg := Vector.replicate 16 0
  v := Wide.zero
  acc := Wide.zero
  cmd := 0
  status := ⟨false, false, false, 0⟩
  finfo := 0
  len1 := 0
  len2 := 0
  clen := 0
  olen := 0
  lgn := 0
  twcfg := ⟨.m0, 0, false⟩
  banks := Banks.empty
  epoch := epoch
  host := host
  answer := answer

/-- The machine right after its first reset, under REFCFG (notes/assumptions/1.md), the host silent. -/
def State.reset : State := State.resetWith Config.ref 0 [] none

end Sys2Proof.Machine
end

