-- ==== Sys2Proof/Machine/Flags.lean ====
section
/-! DEFINITION. The fault codes (R271), the packing of `STATUS`, `TWCFG` and `FINFO` into the words the register port reads
(R25, R29), and what acceptance, completion and a fault do to `STATUS` (R31, R76, R276). -/

namespace Sys2Proof.Machine

/-- The faults of R271. -/
inductive FaultCode where
  /-- `F_ILLEGAL`: the word is not a command. -/
  | illegal
  /-- `F_LENGTH`: a length is zero, unsupported, or inconsistent with the table. -/
  | length
  /-- `F_ALIAS`: the two bank operands of a binary command are the same bank. -/
  | aliasing
  /-- `F_CAPACITY`: the working set does not fit the banks. -/
  | capacity
  /-- `F_TABLE`: no valid table, or a table of another modulus. -/
  | table
  /-- `F_RANGE`: a Montgomery operand is at least 2p, or a `CRT3` residue at least its prime. -/
  | range
  /-- `F_BOUNDS`: a bank index is at or beyond the bank's capacity. -/
  | bounds
deriving DecidableEq, Repr

/-- The value of `FCODE` (R271). -/
def FaultCode.bits : FaultCode → BitVec 8
  | .illegal => 0x01
  | .length => 0x02
  | .aliasing => 0x03
  | .capacity => 0x04
  | .table => 0x05
  | .range => 0x06
  | .bounds => 0x07

/-- `STATUS` as the register port reads it (R25): `BUSY` bit 0, `DONE` bit 1, `FAULT` bit 2, `FCODE` bits 15:8. -/
def Status.word (t : Status) : Word :=
  Word.ofNat (t.busy.toNat + t.done.toNat * 2 + t.fault.toNat * 4 + t.fcode.toNat * 2 ^ 8)

/-- `TWCFG` as the register port reads it (R29): `TMOD` bits 1:0, `TLG` bits 13:8, `TVALID` bit 16. -/
def TableCfg.word (t : TableCfg) : Word :=
  Word.ofNat (t.tmod.idx + t.tlg.val * 2 ^ 8 + t.tvalid.toNat * 2 ^ 16)

/-- Acceptance of a command (R31, R25): `DONE` cleared, `BUSY` set until completion or fault. -/
def Status.accepted (t : Status) : Status := { t with busy := true, done := false }

/-- Completion without a fault (R76). -/
def Status.completed (t : Status) : Status := { t with busy := false, done := true }

/-- Fault entry (R276): `FAULT` set, `FCODE` the code, `BUSY` and `DONE` cleared. -/
def Status.faulted (f : FaultCode) : Status := ⟨false, false, true, f.bits⟩

/-- `FINFO` on a fault (R276, R25): the low 32 bits of the command word, zero-extended. -/
def finfoOf (c : Word) : Word := Word.ofNat (c.toNat % 2 ^ 32)

end Sys2Proof.Machine
end

