-- ==== Sys2Proof/Machine/Rom.lean ====
section
/-! DEFINITION. The constant ROM: what R10 derives from a configuration, entry by entry (R26, R27). Every constant is a
natural; the register port reads it as a word. -/

namespace Sys2Proof

/-- `b^e mod m` by binary exponentiation, one multiplication for each bit of e, on `fuel` bits, with the product so far r. -/
def powModFrom : (fuel : Nat) → (b e m r : Nat) → Nat
  | 0, _, _, m, r => r % m
  | fuel + 1, b, e, m, r => powModFrom fuel (b * b % m) (e / 2) m (if e % 2 = 1 then r * b % m else r)

/-- `b^e mod m` (equal to it by `powMod_eq`), in a form that evaluates. -/
def powMod (b e m : Nat) : Nat := powModFrom (e.log2 + 1) b e m 1

namespace Config

/-- `mont_k(a) = a·2^64 mod p`, the canonical Montgomery word of a (R14). -/
def mont (c : Config) (k : Modulus) (a : Nat) : Nat := radix * a % c.p k

/-- The inverse modulo `P[k]`, by Fermat: the exponent is p - 2. -/
def inverse (c : Config) (k : Modulus) (a : Nat) : Nat := powMod a (c.p k - 2) (c.p k)

/-- `R2[k] = 2^128 mod p` (R10). -/
def r2 (c : Config) (k : Modulus) : Nat := 2 ^ 128 % c.p k

/-- `NPRIME[k] = (-p^(-1)) mod 2^64` (R10): the odd residues modulo 2^64 have an order that divides 2^63, so that
`p^(2^63 - 1)` is the inverse of p. -/
def nprime (c : Config) (k : Modulus) : Nat := (radix - powMod (c.p k) (2 ^ 63 - 1) radix) % radix

/-- `ONE[k] = 2^64 mod p`, the Montgomery form of 1 (R10). -/
def one (c : Config) (k : Modulus) : Nat := radix % c.p k

/-- `ROOTM[k]` (R10). -/
def rootm (c : Config) (k : Modulus) : Nat := c.mont k (c.root k)

/-- `ROOTIM[k]` (R10). -/
def rootim (c : Config) (k : Modulus) : Nat := c.mont k (c.inverse k (c.root k))

/-- `ω_L = ROOT[k]^(NMAX/L) mod p` with `L = 2^l`, a plain integer (R10, R121), for l up to `LOG_NMAX`. -/
def omegaPlain (c : Config) (k : Modulus) (l : Nat) : Nat := powMod (c.root k) (2 ^ (c.logNmax - l)) (c.p k)

/-- `W4[k]`, the Montgomery form of ω₄ (R10). -/
def w4 (c : Config) (k : Modulus) : Nat := c.mont k (c.omegaPlain k 2)

/-- `W4I[k]`, of ω₄⁻¹ (R10). -/
def w4i (c : Config) (k : Modulus) : Nat := c.mont k (c.inverse k (c.omegaPlain k 2))

/-- `W8[k]`, of ω₈ (R10). -/
def w8 (c : Config) (k : Modulus) : Nat := c.mont k (c.omegaPlain k 3)

/-- `W8C[k]`, of ω₈³ (R10). -/
def w8c (c : Config) (k : Modulus) : Nat := c.mont k (powMod (c.omegaPlain k 3) 3 (c.p k))

/-- `W8I[k]`, of ω₈⁻¹ (R10). -/
def w8i (c : Config) (k : Modulus) : Nat := c.mont k (c.inverse k (c.omegaPlain k 3))

/-- `W8IC[k]`, of ω₈⁻³ (R10). -/
def w8ic (c : Config) (k : Modulus) : Nat := c.mont k (powMod (c.inverse k (c.omegaPlain k 3)) 3 (c.p k))

/-- `MI[k]`, the product of the two other primes (R10, R216). -/
def mi (c : Config) : Modulus → Nat
  | .m0 => c.p .m1 * c.p .m2
  | .m1 => c.p .m0 * c.p .m2
  | .m2 => c.p .m0 * c.p .m1

/-- `INV[k] = (MI[k] mod p)^(-1) mod p` (R10). -/
def inv (c : Config) (k : Modulus) : Nat := c.inverse k (c.mi k % c.p k)

/-- Entry j of modulus descriptor k (R26). -/
def descriptor (c : Config) (k : Modulus) : Nat → Nat
  | 0 => c.p k
  | 1 => c.r2 k
  | 2 => c.nprime k
  | 3 => c.one k
  | 4 => c.rootm k
  | 5 => c.rootim k
  | 6 => c.w4 k
  | 7 => c.w4i k
  | 8 => c.w8 k
  | 9 => c.w8c k
  | 10 => c.w8i k
  | 11 => c.w8ic k
  | 12 => c.inv k
  | 13 => c.mi k % radix
  | 14 => c.mi k / radix
  | _ => 0

/-- `CFG` (R27): `LOG_NMAX` in bits 5:0, `LOG_THRESH` in bits 13:8, `LOG_NCAP` in bits 21:16. -/
def cfgWord (c : Config) : Nat := c.logNmax + c.logThresh * 2 ^ 8 + c.logNcap * 2 ^ 16

end Config

end Sys2Proof
end

