-- ==== Sys2Proof/Machine/Ops.lean ====
section
/-! DEFINITION. The shared operations: the scalar registers and the wide registers, the bank memory (R30, R52), acceptance
(R31), completion (R76), TAKING A FAULT as one operation (R275, R276; there is no return from one, R277), reset (R300), and
the form of every command, its checks before its operation (R274). -/

namespace Sys2Proof.Machine

/-! ### Bank memory -/

/-- The word written at an index since reset, none where nothing has written (R57). -/
def Memory.lookup : Memory → Nat → Option Word
  | [], _ => none
  | (j, w) :: m, i => if j = i then some w else Memory.lookup m i

/-- Word i becomes v; the indices stay strictly rising. -/
def Memory.write : Memory → Nat → Word → Memory
  | [], i, v => [(i, v)]
  | (j, w) :: m, i, v =>
    if i < j then (i, v) :: (j, w) :: m else if i = j then (i, v) :: m else (j, w) :: Memory.write m i v

/-- Every index of a memory is above the bound and the indices rise strictly from it. -/
def Memory.risesFrom : Nat → Memory → Bool
  | _, [] => true
  | lo, (j, _) :: m => decide (lo ≤ j) && Memory.risesFrom (j + 1) m

/-- The canonical form: strictly rising indices. (An unlisted index reads as no listed word, R57, so no entry is redundant.) -/
def Memory.wf (m : Memory) : Bool := Memory.risesFrom 0 m

/-- Every written index is below the capacity. -/
def Memory.within (cap : Nat) (m : Memory) : Bool := m.all fun e => decide (e.1 < cap)

/-- The contents of one bank. -/
def Banks.get (bs : Banks) : Bank → Memory
  | .ch0 => bs.ch0
  | .ch1 => bs.ch1
  | .ch2 => bs.ch2
  | .scr => bs.scr
  | .twf => bs.twf
  | .twi => bs.twi
  | .ina => bs.ina
  | .inb => bs.inb
  | .out => bs.out

/-- The contents of one bank replaced. -/
def Banks.set (bs : Banks) : Bank → Memory → Banks
  | .ch0, m => { bs with ch0 := m }
  | .ch1, m => { bs with ch1 := m }
  | .ch2, m => { bs with ch2 := m }
  | .scr, m => { bs with scr := m }
  | .twf, m => { bs with twf := m }
  | .twi, m => { bs with twi := m }
  | .ina, m => { bs with ina := m }
  | .inb, m => { bs with inb := m }
  | .out, m => { bs with out := m }

/-- The capacity of a bank in words (R30). -/
def capacity (c : Config) : Bank → Nat
  | .ch0 | .ch1 | .ch2 | .scr | .ina | .inb => c.ncap
  | .twf | .twi => c.twcap
  | .out => c.ncap + 1

namespace State

/-! ### Reading and writing the state -/

/-- `S[r]` (R13, R21). -/
def getS (s : State) (r : Reg) : Word := s.sreg[r]

/-- `S[r] <- v` (R13, R21). -/
def setS (s : State) (r : Reg) (v : Word) : State := { s with sreg := s.sreg.set r v }

/-- Word i of a bank (R52): what was last written there since reset, else the free word of R57. -/
def bankRead (s : State) (b : Bank) (i : Nat) : Word :=
  ((s.banks.get b).lookup i).getD (Config.unwrittenWord s.epoch b.id i)

/-- Word i of a bank becomes v, with no side effect. -/
def bankStore (s : State) (b : Bank) (i : Nat) (v : Word) : State :=
  { s with banks := s.banks.set b ((s.banks.get b).write i v) }

/-- `TWCFG.TVALID <- 0` (R56). -/
def clearTable (s : State) : State := { s with twcfg := { s.twcfg with tvalid := false } }

/-- `MemWrite` of R52 by a writer other than `TWB`, `MUL` and `SQR`: a write of a twiddle bank clears `TVALID` (R56). Its
caller has checked the index. -/
def memWrite (s : State) (b : Bank) (i : Nat) (v : Word) : State :=
  if b.isTwiddle then (s.bankStore b i v).clearTable else s.bankStore b i v

/-- Consecutive words of a bank from index i, as naturals: the n words at i, i+1, ... -/
def load (s : State) (b : Bank) : (i n : Nat) → List Nat
  | _, 0 => []
  | i, n + 1 => (s.bankRead b i).toNat :: s.load b (i + 1) n

/-- Consecutive words of a bank from index i become the words of a list, in increasing index. -/
def store (s : State) (b : Bank) : (i : Nat) → List Nat → State
  | _, [] => s
  | i, x :: xs => (s.bankStore b i (Word.ofNat x)).store b (i + 1) xs

/-! ### Acceptance, completion, fault, reset -/

/-- Acceptance of the word c (R31). -/
def accept (s : State) (c : Word) : State := { s with cmd := c, status := s.status.accepted }

/-- Completion (R76); `CMD` holds the word since its acceptance. -/
def complete (s : State) : State := { s with status := s.status.completed }

/-- `raise Fault(code)` (R275, R276), of the command whose word `CMD` holds. -/
def raise (s : State) (f : FaultCode) : State :=
  { s with status := Status.faulted f, finfo := finfoOf s.cmd }

/-- The reset input (R300): every register zero, every bank word unspecified anew; the host goes on with its moves. -/
def hostReset (s : State) : State := State.resetWith s.cfg (s.epoch + 1) s.host s.answer

end State

/-! ### The form of a command -/

/-- A check of a command: the condition under which it fails, and the fault it then raises. -/
abbrev Check := Bool × FaultCode

/-- The first failing check of a list (R273: later checks are not evaluated). -/
def firstFault : List Check → Option FaultCode
  | [] => none
  | (bad, f) :: rest => if bad then some f else firstFault rest

/-- The outcomes of a command. -/
abbrev Result := Host.Outcome State Fault Refusal

/-- A command (R16, R274): its checks, in order, on the state at acceptance; if one fails, the fault it raises; else the
operation, then completion. -/
def State.command (s : State) (checks : List Check) (op : State → State) : Result :=
  match firstFault checks with
  | some f => .next (s.raise f)
  | none => .next (op s).complete

end Sys2Proof.Machine
end

