-- ==== Sys2Proof/Machine/Montgomery.lean ====
section
/-! DEFINITION. The pure functions of the Montgomery engine (R92 to R99), on naturals, for a modulus k of a configuration. -/

namespace Sys2Proof.Machine

variable (c : Config) (k : Modulus)

/-- `REDC_k(T)` (R92). -/
def redc (T : Nat) : Nat :=
  let m := T % radix * c.nprime k % radix
  let t := (T + m * c.p k) / radix
  if c.p k ≤ t then t - c.p k else t

/-- `norm2_k(a)` (R93). -/
def norm2 (a : Nat) : Nat := if c.p k ≤ a then a - c.p k else a

/-- `mulmod_k(a, b)` (R94). -/
def mulmod (a b : Nat) : Nat := redc c k (norm2 c k a * norm2 c k b)

/-- `addmod_k(a, b)` (R95): the correction is by 2p (C1). -/
def addmod (a b : Nat) : Nat := if 2 * c.p k ≤ a + b then a + b - 2 * c.p k else a + b

/-- `submod_k(a, b)` (R96): the correction is by 2p (C1). -/
def submod (a b : Nat) : Nat := if b ≤ a then a - b else a + 2 * c.p k - b

/-- `toMont_k(x)` (R97). -/
def toMont (x : Nat) : Nat := redc c k (x * c.r2 k)

/-- `toInt_k(v)` (R98). -/
def toInt (v : Nat) : Nat := redc c k v

/-- The loop of `modpow_k` (R99), on at most `fuel` bits of the exponent: the running square x, the exponent left n, the
product so far r. -/
def modpowLoop : (fuel : Nat) → (x n r : Nat) → Nat
  | 0, _, _, r => r
  | fuel + 1, x, n, r =>
    if n = 0 then r else modpowLoop fuel (mulmod c k x x) (n / 2) (if n % 2 = 1 then mulmod c k r x else r)

/-- `modpow_k(b, e)` (R99). -/
def modpow (b e : Nat) : Nat := modpowLoop c k (e.log2 + 1) (norm2 c k b) e (c.one k)

/-- `ninv_k(l)`, the Montgomery word of the inverse of `2^l` (R174). -/
def ninv (l : Nat) : Nat := modpow c k (toMont c k (2 ^ l % c.p k)) (c.p k - 2)

/-- A word that is no lazy word of modulus k: at least 2p (R14, R91). -/
def notLazy (a : Nat) : Bool := decide (2 * c.p k ≤ a)

/-- The canonical write-back of a block (R135). -/
def canonical (xs : List Nat) : List Nat := xs.map (norm2 c k)

end Sys2Proof.Machine
end

