-- ==== Sys2Proof/Machine/Operands.lean ====
section
/-! DEFINITION. Every operand form (R72): scalar operands, element offsets, blocks of a bank; and the checks that the block
commands share: extent, table and range (R127, R144, R195, R273). -/

namespace Sys2Proof.Machine

namespace State

/-- The value of a scalar operand as a natural: a Montgomery word, an exponent, an index or an element offset (R72). -/
def val (s : State) (r : Reg) : Nat := (s.getS r).toNat

/-- The block of `2^l` words of bank b at an element offset (R72, R135). -/
def block (s : State) (b : Bank) (off l : Nat) : List Nat := s.load b off (2 ^ l)

/-- The word at an index of the forward table (R122). -/
def twfAt (s : State) (i : Nat) : Nat := (s.bankRead .twf i).toNat

/-- The word at an index of the inverse table (R122). -/
def twiAt (s : State) (i : Nat) : Nat := (s.bankRead .twi i).toNat

/-- The block does not lie inside its bank (R72, R144 (1)). -/
def extentCheck (s : State) (b : Bank) (off l : Nat) : Check := (decide (capacity s.cfg b < off + 2 ^ l), .bounds)

/-- `TableOK(k, l)` (R127), the two lines in order. -/
def tableChecks (s : State) (k : Modulus) (l : Nat) : List Check :=
  [(!s.twcfg.tvalid || decide (s.twcfg.tmod ≠ k), .table), (decide (s.twcfg.tlg.val < l), .length)]

/-- `TableOK(k, l)` where a table-driven stage is run, which is from `l` = 4 up (R154, R195). -/
def tableChecksFrom4 (s : State) (k : Modulus) (l : Nat) : List Check := if 4 ≤ l then s.tableChecks k l else []

/-- A word of the block is at least 2p (R144 (3)). -/
def rangeCheck (s : State) (b : Bank) (off l : Nat) (k : Modulus) : Check :=
  ((s.block b off l).any (notLazy s.cfg k), .range)

/-- `BlockChecks(b, off, l)` with the table step of the command between extent and range (R144). -/
def blockChecks (s : State) (b : Bank) (off l : Nat) (k : Modulus) (table : List Check) : List Check :=
  s.extentCheck b off l :: table ++ [s.rangeCheck b off l k]

/-- The block's words become f of them (R135): what every command of the kernels, the pointwise unit and the four-step
controller does to its destination block. -/
def mapBlock (s : State) (b : Bank) (off l : Nat) (f : List Nat → List Nat) : State :=
  s.store b off (f (s.block b off l))

end State

end Sys2Proof.Machine
end

