-- ==== Sys2Proof/Machine/DataMove.lean ====
section
/-! DEFINITION. Data movement and no-operation (R110 to R112): `LDE`, `STE`, `NOP`. -/

namespace Sys2Proof.Machine

/-- The index is at or beyond the capacity of the bank (R52, R110, R111). -/
def State.indexCheck (s : State) (b : Bank) (i : Nat) : Check := (decide (capacity s.cfg b ≤ i), .bounds)

/-- `LDE` (R110). -/
def execLde (rd : Reg) (bank : Bank) (rb : Reg) (s : State) : Result :=
  s.command [s.indexCheck bank (s.val rb)] fun s => s.setS rd (s.bankRead bank (s.val rb))

/-- `STE` (R111): a store into a twiddle bank clears `TVALID` (R56). -/
def execSte (bank : Bank) (ra rb : Reg) (s : State) : Result :=
  s.command [s.indexCheck bank (s.val ra)] fun s => s.memWrite bank (s.val ra) (s.getS rb)

/-- `NOP` (R112): nothing but completion. -/
def execNop (s : State) : Result := s.command [] fun s => s

end Sys2Proof.Machine
end

