-- ==== Sys2Proof/Machine/Engine.lean ====
section
/-! DEFINITION. The Montgomery-engine commands (R100 to R107): `MTO`, `MFROM`, `MMUL`, `MADD`, `MSUB`, `MNORM`, `MPOW`,
`MINV`. Every source is read before the destination is written (R100). -/

namespace Sys2Proof.Machine

/-- The operand check of R91: `F_RANGE` when the word is no lazy word. -/
def State.operandCheck (s : State) (k : Modulus) (r : Reg) : Check := (notLazy s.cfg k (s.val r), .range)

/-- An engine command: its checks, then the result into `S[rd]`. -/
def State.engine (s : State) (checks : List Check) (rd : Reg) (result : Nat) : Result :=
  s.command checks fun s => s.setS rd (Word.ofNat result)

/-- `MTO` (R100). -/
def execMto (rd ra : Reg) (k : Modulus) (s : State) : Result :=
  s.engine [] rd (toMont s.cfg k (s.val ra))

/-- `MFROM` (R101). -/
def execMfrom (rd ra : Reg) (k : Modulus) (s : State) : Result :=
  s.engine [] rd (toInt s.cfg k (s.val ra))

/-- `MMUL` (R102). -/
def execMmul (rd ra rb : Reg) (k : Modulus) (s : State) : Result :=
  s.engine [s.operandCheck k ra, s.operandCheck k rb] rd (mulmod s.cfg k (s.val ra) (s.val rb))

/-- `MADD` (R103). -/
def execMadd (rd ra rb : Reg) (k : Modulus) (s : State) : Result :=
  s.engine [s.operandCheck k ra, s.operandCheck k rb] rd (addmod s.cfg k (s.val ra) (s.val rb))

/-- `MSUB` (R104). -/
def execMsub (rd ra rb : Reg) (k : Modulus) (s : State) : Result :=
  s.engine [s.operandCheck k ra, s.operandCheck k rb] rd (submod s.cfg k (s.val ra) (s.val rb))

/-- `MNORM` (R105). -/
def execMnorm (rd ra : Reg) (k : Modulus) (s : State) : Result :=
  s.engine [s.operandCheck k ra] rd (norm2 s.cfg k (s.val ra))

/-- `MPOW` (R106): the base is a Montgomery word, the exponent a plain word. -/
def execMpow (rd ra rb : Reg) (k : Modulus) (s : State) : Result :=
  s.engine [s.operandCheck k ra] rd (modpow s.cfg k (s.val ra) (s.val rb))

/-- `MINV` (R107): the exponent is p - 2. -/
def execMinv (rd ra : Reg) (k : Modulus) (s : State) : Result :=
  s.engine [s.operandCheck k ra] rd (modpow s.cfg k (s.val ra) (s.cfg.p k - 2))

end Sys2Proof.Machine
end

