-- ==== Sys2Proof/Machine/Crt.lean ====
section
/-! DEFINITION. The CRT combiner and the carry propagator (R215 to R227): `CRT3`, `CACC`, `CEMIT`, `CCLR`, `CRTC`. -/

namespace Sys2Proof.Machine

/-- The value of a 192-bit register (R12, R23). -/
def Wide.val (x : Wide) : Nat := x.w0.toNat + 2 ^ 64 * x.w1.toNat + 2 ^ 128 * x.w2.toNat

/-- The three words of a natural modulo 2^192, least significant first (R218, R220). -/
def Wide.ofNat (n : Nat) : Wide := ⟨Word.ofNat n, Word.ofNat (n / 2 ^ 64), Word.ofNat (n / 2 ^ 128)⟩

/-- The sum modulo 2^192 (R220): a carry out of bit 191 is dropped. -/
def Wide.add (x y : Wide) : Wide := Wide.ofNat ((x.val + y.val) % 2 ^ 192)

/-- One shift right by a word: word 0 ← word 1, word 1 ← word 2, word 2 ← 0 (R221), from the old values. -/
def Wide.shift (x : Wide) : Wide := ⟨x.w1, x.w2, 0⟩

/-- The term of one residue, `MI[i]·k_i` with `k_i = (r_i·INV[i]) mod P[i]` (R217). -/
def crtTerm (c : Config) (k : Modulus) (r : Nat) : Nat := c.mi k * (r * c.inv k % c.p k)

/-- One conditional subtraction of `PPP` (R217). -/
def foldPpp (c : Config) (t : Nat) : Nat := if c.ppp ≤ t then t - c.ppp else t

/-- `crt3(r0, r1, r2)` (R217). -/
def crt3 (c : Config) (r0 r1 r2 : Nat) : Nat :=
  foldPpp c (foldPpp c (crtTerm c .m0 r0 + crtTerm c .m1 r1 + crtTerm c .m2 r2))

/-- The scalar register d places after r, of the three that `CRT3` reads (R218: r is at most 13). -/
def regAfter (r : Reg) (d : Nat) : Reg := Fin.ofNat 16 (r.val + d)

namespace State

/-- `ACC <- a`. -/
def setAcc (s : State) (a : Wide) : State := { s with acc := a }

/-- `V <- a`. -/
def setV (s : State) (a : Wide) : State := { s with v := a }

/-- The operation of `CACC` (R220): `ACC <- (ACC + V) mod 2^192`. -/
def accumulate (s : State) : State := s.setAcc (s.acc.add s.v)

/-- The shift of `ACC` that every emission makes (R221). -/
def shiftAcc (s : State) : State := s.setAcc s.acc.shift

/-- The operation of `CCLR` (R222). -/
def clearAcc (s : State) : State := s.setAcc Wide.zero

/-- The plain residue of modulus k in word i of its channel bank (R223): `toInt` accepts every word. -/
def residue (s : State) (b : Bank) (k : Modulus) (i : Nat) : Nat := toInt s.cfg k (s.bankRead b i).toNat

/-- One emission into `OUT[i]` (R223): `ACC0` is stored, then `ACC` shifted. -/
def emitOut (s : State) (i : Nat) : State := (s.bankStore .out i s.acc.w0).shiftAcc

/-- One turn of the loop of `CRTC` (R223). -/
def crtcStep (s : State) (i : Nat) : State :=
  let v := crt3 s.cfg (s.residue .ch0 .m0 i) (s.residue .ch1 .m1 i) (s.residue .ch2 .m2 i)
  (s.setV (Wide.ofNat v)).accumulate.emitOut i

/-- n turns of the loop of `CRTC`, from position i. -/
def crtcLoop : (n i : Nat) → State → State
  | 0, _, s => s
  | n + 1, i, s => crtcLoop n (i + 1) (s.crtcStep i)

/-- The operation of `CRTC` on n coefficients (R223). -/
def reconstruct (s : State) (n : Nat) : State :=
  let s := (crtcLoop n 0 s.clearAcc).emitOut n
  { s with olen := Word.ofNat (n + 1) }

end State

/-- `CRT3` (R218). -/
def execCrt3 (ra : Reg) (s : State) : Result :=
  let r0 := s.val ra
  let r1 := s.val (regAfter ra 1)
  let r2 := s.val (regAfter ra 2)
  s.command [(decide (s.cfg.p .m0 ≤ r0), .range), (decide (s.cfg.p .m1 ≤ r1), .range), (decide (s.cfg.p .m2 ≤ r2), .range)]
    fun s => s.setV (Wide.ofNat (crt3 s.cfg r0 r1 r2))

/-- `CACC` (R220). -/
def execCacc (s : State) : Result := s.command [] State.accumulate

/-- `CEMIT` (R221): the low word goes to `S[rd]`, then `ACC` is shifted. -/
def execCemit (rd : Reg) (s : State) : Result := s.command [] fun s => (s.setS rd s.acc.w0).shiftAcc

/-- `CCLR` (R222). -/
def execCclr (s : State) : Result := s.command [] State.clearAcc

/-- `CRTC` (R223). -/
def execCrtc (s : State) : Result :=
  s.command [(decide (s.clen.toNat = 0), .length), (decide (s.cfg.ncap < s.clen.toNat), .capacity)]
    fun s => s.reconstruct s.clen.toNat

end Sys2Proof.Machine
end

