-- ==== Sys2Proof/Machine/Kernels.lean ====
section
/-! DEFINITION. The butterflies (R136 to R140), the hard-coded kernels (R142, R143), the radix-4 stages (R148, R149), the
cache-resident transforms (R152, R153), and their commands `KDIF`, `KDIT`, `R4DIF`, `R4DIT`, `NTTF`, `NTTI`. A block is the
list of its words; the table is read through a function from index to word. -/

namespace Sys2Proof.Machine

section Functions

variable (c : Config) (k : Modulus)

/-! ### Butterflies -/

/-- `bf2f(a, b, w)` (R136). -/
def bf2f (a b w : Nat) : Nat × Nat := (addmod c k a b, mulmod c k (submod c k a b) w)

/-- `bf2n(a, b)` (R137). -/
def bf2n (a b : Nat) : Nat × Nat := (addmod c k a b, submod c k a b)

/-- `bf2i(a, b, w)` (R138). -/
def bf2i (a b w : Nat) : Nat × Nat :=
  let t := mulmod c k b w
  (addmod c k a t, submod c k a t)

/-- Four words of a block: a quartet at distance a quarter of the block, or the four words of a 4-point kernel. -/
structure Quad where
  a : Nat
  b : Nat
  c : Nat
  d : Nat
deriving DecidableEq, Repr

/-- `bf4f(a, b, c, d)` (R139). -/
def bf4f (x : Quad) : Quad :=
  let a1 := addmod c k x.a x.c
  let c1 := submod c k x.a x.c
  let b1 := addmod c k x.b x.d
  let d1 := mulmod c k (submod c k x.b x.d) (c.w4 k)
  ⟨addmod c k a1 b1, submod c k a1 b1, addmod c k c1 d1, submod c k c1 d1⟩

/-- `bf4i(o0, o1, o2, o3)` (R140). -/
def bf4i (o : Quad) : Quad :=
  let a1 := addmod c k o.a o.b
  let b1 := submod c k o.a o.b
  let c1 := addmod c k o.c o.d
  let d1 := mulmod c k (submod c k o.c o.d) (c.w4i k)
  ⟨addmod c k a1 c1, addmod c k b1 d1, submod c k a1 c1, submod c k b1 d1⟩

/-- The four words in order. -/
def Quad.toList (q : Quad) : List Nat := [q.a, q.b, q.c, q.d]

/-! ### Hard-coded kernels -/

/-- `kdif(x, l)` for l up to 3, on a block of `2^l` words (R142). -/
def kdif : (l : Nat) → List Nat → List Nat
  | 1, [x0, x1] =>
    let r := bf2n c k x0 x1
    [r.1, r.2]
  | 2, [x0, x1, x2, x3] => (bf4f c k ⟨x0, x1, x2, x3⟩).toList
  | 3, [x0, x1, x2, x3, x4, x5, x6, x7] =>
    let r0 := bf2n c k x0 x4
    let r1 := bf2f c k x1 x5 (c.w8 k)
    let r2 := bf2f c k x2 x6 (c.w4 k)
    let r3 := bf2f c k x3 x7 (c.w8c k)
    (bf4f c k ⟨r0.1, r1.1, r2.1, r3.1⟩).toList ++ (bf4f c k ⟨r0.2, r1.2, r2.2, r3.2⟩).toList
  | _, x => x

/-- `kdit(x, l)` for l up to 3, on a block of `2^l` words (R143). -/
def kdit : (l : Nat) → List Nat → List Nat
  | 1, [x0, x1] =>
    let r := bf2n c k x0 x1
    [r.1, r.2]
  | 2, [x0, x1, x2, x3] => (bf4i c k ⟨x0, x1, x2, x3⟩).toList
  | 3, [x0, x1, x2, x3, x4, x5, x6, x7] =>
    let u := bf4i c k ⟨x0, x1, x2, x3⟩
    let v := bf4i c k ⟨x4, x5, x6, x7⟩
    let r0 := bf2n c k u.a v.a
    let r1 := bf2i c k u.b v.b (c.w8i k)
    let r2 := bf2i c k u.c v.c (c.w4i k)
    let r3 := bf2i c k u.d v.d (c.w8ic k)
    [r0.1, r1.1, r2.1, r3.1, r0.2, r1.2, r2.2, r3.2]
  | _, x => x

/-! ### Quartets of a block -/

/-- Four lists of one length read side by side. -/
def zipQuads : List Nat → List Nat → List Nat → List Nat → List Quad
  | a :: as, b :: bs, c :: cs, d :: ds => ⟨a, b, c, d⟩ :: zipQuads as bs cs ds
  | _, _, _, _ => []

/-- The quartets `(x[j], x[j+q], x[j+2q], x[j+3q])`, j = 0 .. q-1, of a block of 4q words (R148, R186). -/
def toQuads (q : Nat) (x : List Nat) : List Quad :=
  zipQuads (x.take q) ((x.drop q).take q) ((x.drop (2 * q)).take q) (x.drop (3 * q))

/-- The block of 4q words whose quartets these are. -/
def ofQuads (qs : List Quad) : List Nat := qs.map Quad.a ++ qs.map Quad.b ++ qs.map Quad.c ++ qs.map Quad.d

/-! ### Radix-4 stages -/

/-- The body of the loop of `r4dif` (R148) for quartet j of a block of length `4q`: the table words are read at
`L/2 + j = 2q + j`, `L/2 + j + q` and `L/4 + j = q + j`. -/
def r4difQuad (tw : Nat → Nat) (q j : Nat) (x : Quad) : Quad :=
  let ac := bf2f c k x.a x.c (tw (2 * q + j))
  let bd := bf2f c k x.b x.d (tw (2 * q + j + q))
  let ab := bf2f c k ac.1 bd.1 (tw (q + j))
  let cd := bf2f c k ac.2 bd.2 (tw (q + j))
  ⟨ab.1, ab.2, cd.1, cd.2⟩

/-- The body of the loop of `r4dit` (R149). -/
def r4ditQuad (tw : Nat → Nat) (q j : Nat) (x : Quad) : Quad :=
  let ab := bf2i c k x.a x.b (tw (q + j))
  let cd := bf2i c k x.c x.d (tw (q + j))
  let ac := bf2i c k ab.1 cd.1 (tw (2 * q + j))
  let bd := bf2i c k ab.2 cd.2 (tw (2 * q + j + q))
  ⟨ac.1, bd.1, ac.2, bd.2⟩

/-- The quartets from j on, each mapped with its index. -/
def mapQuads (f : Nat → Quad → Quad) : (j : Nat) → List Quad → List Quad
  | _, [] => []
  | j, x :: xs => f j x :: mapQuads f (j + 1) xs

/-- `r4dif(x, l)` for l at least 2 (R148), reading the forward table `tw`. -/
def r4dif (tw : Nat → Nat) (l : Nat) (x : List Nat) : List Nat :=
  let q := 2 ^ (l - 2)
  ofQuads (mapQuads (r4difQuad c k tw q) 0 (toQuads q x))

/-- `r4dit(x, l)` for l at least 2 (R149), reading the inverse table `tw`. -/
def r4dit (tw : Nat → Nat) (l : Nat) (x : List Nat) : List Nat :=
  let q := 2 ^ (l - 2)
  ofQuads (mapQuads (r4ditQuad c k tw q) 0 (toQuads q x))

/-! ### Cache-resident transforms -/

/-- The n consecutive blocks of length `len` of x, each replaced by f of it, in increasing offset (R152). -/
def mapBlocks (f : List Nat → List Nat) (len : Nat) : (n : Nat) → List Nat → List Nat
  | 0, _ => []
  | n + 1, x => f (x.take len) ++ mapBlocks f len n (x.drop len)

/-- The stages of `nttf` from block length `2^s` down, on a whole of `2^l` words (R152). -/
def nttfFrom (tw : Nat → Nat) (l : Nat) : (s : Nat) → List Nat → List Nat
  | s + 4, x => nttfFrom tw l (s + 2) (mapBlocks (r4dif c k tw (s + 4)) (2 ^ (s + 4)) (2 ^ (l - (s + 4))) x)
  | s, x => mapBlocks (kdif c k s) (2 ^ s) (2 ^ (l - s)) x

/-- `nttf(x, l)` (R152), reading the forward table `tw`: table-driven stages, large to small, while s > 3, then the
hard-coded kernels of length 4 or 8. With a true
table it is `difLayers`, and leaves `dft` at bit-reversed places (R156 (1), (4)). -/
def nttf (tw : Nat → Nat) (l : Nat) (x : List Nat) : List Nat := if l ≤ 3 then kdif c k l x else nttfFrom c k tw l l x

/-- The stages of `ntti` up to block length `2^s`, on a whole of `2^l` words (R153). -/
def nttiUpTo (tw : Nat → Nat) (l : Nat) : (s : Nat) → List Nat → List Nat
  | s + 4, x => mapBlocks (r4dit c k tw (s + 4)) (2 ^ (s + 4)) (2 ^ (l - (s + 4))) (nttiUpTo tw l (s + 2) x)
  | s, x => mapBlocks (kdit c k s) (2 ^ s) (2 ^ (l - s)) x

/-- `ntti(x, l)` (R153), reading the inverse table `tw`: the kernels first, then the merge stages, small to large; not
normalised. With a true table it undoes `nttf` up to the factor N (R156 (2)), and takes the pointwise product of two images to
N times the `cyclic` convolution (R156 (3)). -/
def ntti (tw : Nat → Nat) (l : Nat) (x : List Nat) : List Nat := if l ≤ 3 then kdit c k l x else nttiUpTo c k tw l l x

end Functions

/-! ### Commands -/

/-- A kernel command (R135): the command's own length check, `BlockChecks`, then the block becomes the canonical write-back
of the transform. -/
def State.transform (s : State) (badLength : Bool) (bank : Bank) (ra : Reg) (k : Modulus) (l : Nat) (table : List Check)
    (f : List Nat → List Nat) : Result :=
  s.command ((badLength, .length) :: s.blockChecks bank (s.val ra) l k table)
    fun s => s.mapBlock bank (s.val ra) l fun x => canonical s.cfg k (f x)

/-- `KDIF` (R146). -/
def execKdif (bank : Bank) (ra : Reg) (k : Modulus) (lg : Lg) (s : State) : Result :=
  s.transform (decide (3 < lg.val)) bank ra k lg.val [] (kdif s.cfg k lg.val)

/-- `KDIT` (R147). -/
def execKdit (bank : Bank) (ra : Reg) (k : Modulus) (lg : Lg) (s : State) : Result :=
  s.transform (decide (3 < lg.val)) bank ra k lg.val [] (kdit s.cfg k lg.val)

/-- `R4DIF` (R150). -/
def execR4dif (bank : Bank) (ra : Reg) (k : Modulus) (lg : Lg) (s : State) : Result :=
  s.transform (decide (lg.val < 2) || decide (s.cfg.logNmax < lg.val)) bank ra k lg.val (s.tableChecks k lg.val)
    (r4dif s.cfg k s.twfAt lg.val)

/-- `R4DIT` (R151). -/
def execR4dit (bank : Bank) (ra : Reg) (k : Modulus) (lg : Lg) (s : State) : Result :=
  s.transform (decide (lg.val < 2) || decide (s.cfg.logNmax < lg.val)) bank ra k lg.val (s.tableChecks k lg.val)
    (r4dit s.cfg k s.twiAt lg.val)

/-- `NTTF` (R154): the table is checked from length 16 up. -/
def execNttf (bank : Bank) (ra : Reg) (k : Modulus) (lg : Lg) (s : State) : Result :=
  s.transform (decide (s.cfg.logThresh < lg.val) || decide (s.cfg.logNmax < lg.val)) bank ra k lg.val
    (s.tableChecksFrom4 k lg.val) (nttf s.cfg k s.twfAt lg.val)

/-- `NTTI` (R155): the table is checked from length 16 up. -/
def execNtti (bank : Bank) (ra : Reg) (k : Modulus) (lg : Lg) (s : State) : Result :=
  s.transform (decide (s.cfg.logThresh < lg.val) || decide (s.cfg.logNmax < lg.val)) bank ra k lg.val
    (s.tableChecksFrom4 k lg.val) (ntti s.cfg k s.twiAt lg.val)

end Sys2Proof.Machine
end

