-- ==== Sys2Proof/Machine/Pointwise.lean ====
section
/-! DEFINITION. The pointwise unit (R170 to R173): `PWMUL`, `PWSQR`, `SCL`. `mulmod` is canonical, so there is no separate
write-back. -/

namespace Sys2Proof.Machine

/-- The length check the three commands share: `l > LOG_NMAX` (R171). -/
def State.nmaxCheck (s : State) (l : Nat) : Check := (decide (s.cfg.logNmax < l), .length)

/-- The alias check of the two-bank commands (R63). -/
def aliasCheck (d b : Bank) : Check := (decide (d = b), .aliasing)

/-- Element by element `mulmod` of two blocks (R170). -/
def pointwise (c : Config) (k : Modulus) (x y : List Nat) : List Nat := List.zipWith (mulmod c k) x y

/-- Each element of a block times one word (R173, R192). -/
def scaleBy (c : Config) (k : Modulus) (f : Nat) (x : List Nat) : List Nat := x.map fun a => mulmod c k a f

/-- `PWMUL` (R171). -/
def execPwmul (bankd banks : Bank) (rb : Reg) (k : Modulus) (lg : Lg) (s : State) : Result :=
  s.command
    [s.nmaxCheck lg.val, aliasCheck bankd banks, s.extentCheck bankd (s.val rb) lg.val,
      s.rangeCheck bankd (s.val rb) lg.val k, s.rangeCheck banks (s.val rb) lg.val k]
    fun s => s.mapBlock bankd (s.val rb) lg.val fun x => pointwise s.cfg k x (s.block banks (s.val rb) lg.val)

/-- `PWSQR` (R172). -/
def execPwsqr (bank : Bank) (ra : Reg) (k : Modulus) (lg : Lg) (s : State) : Result :=
  s.command (s.nmaxCheck lg.val :: s.blockChecks bank (s.val ra) lg.val k [])
    fun s => s.mapBlock bank (s.val ra) lg.val fun x => pointwise s.cfg k x x

/-- `SCL` (R173): the scale factor is checked like a word of the block. -/
def execScl (bank : Bank) (ra rb : Reg) (k : Modulus) (lg : Lg) (s : State) : Result :=
  s.command
    [s.nmaxCheck lg.val, s.extentCheck bank (s.val ra) lg.val, (notLazy s.cfg k (s.val rb), .range),
      s.rangeCheck bank (s.val ra) lg.val k]
    fun s => s.mapBlock bank (s.val ra) lg.val fun x => scaleBy s.cfg k (s.val rb) x

end Sys2Proof.Machine
end

