-- ==== Sys2Proof/Machine/Twiddle.lean ====
section
/-! DEFINITION. Roots of unity (R121), the twiddle table (R122, R123) and `TWB` (R126). -/

namespace Sys2Proof.Machine

variable (c : Config) (k : Modulus)

/-- `omega_k(l)` (R121). -/
def omega (l : Nat) : Nat := modpow c k (c.rootm k) (2 ^ (c.logNmax - l))

/-- `omegai_k(l)` (R121). -/
def omegai (l : Nat) : Nat := modpow c k (c.rootim k) (2 ^ (c.logNmax - l))

/-- Running powers (R125, R191): n words from x, each the product of the one before and w. -/
def powers (w : Nat) : (n x : Nat) → List Nat
  | 0, _ => []
  | n + 1, x => x :: powers w n (mulmod c k x w)

/-- The sub-tables of lengths `2^1` to `2^t`, in increasing offset (R122): `2^t - 1` words from index 1. -/
def subTables (root : Nat → Nat) : (t : Nat) → List Nat
  | 0 => []
  | t + 1 => subTables root t ++ powers c k (root (t + 1)) (2 ^ t) (c.one k)

/-- The table for length `2^t` from index 0, which holds `ONE` (R123). -/
def tableWords (root : Nat → Nat) (t : Nat) : List Nat := c.one k :: subTables c k root t

/-- The operation of `TWB` (R126), also run by `MUL` and `SQR` before each modulus pass (R252). -/
def State.buildTable (s : State) (k : Modulus) (t : Lg) : State :=
  let s := s.store .twf 0 (tableWords s.cfg k (omega s.cfg k) t.val)
  let s := s.store .twi 0 (tableWords s.cfg k (omegai s.cfg k) t.val)
  { s with twcfg := ⟨k, t, true⟩ }

/-- `TWB` (R126). -/
def execTwb (k : Modulus) (lg : Lg) (s : State) : Result :=
  s.command [(decide (s.cfg.logNmax < lg.val), .length), (decide (s.cfg.twcap < 2 ^ lg.val), .capacity)]
    fun s => s.buildTable k lg

end Sys2Proof.Machine
end

