-- ==== Sys2Proof/Machine/FourStep.lean ====
section
/-! DEFINITION. The four-step recursive convolution controller (R185 to R202): `split4`, `merge4`, the forward image, the
recursion, and the commands `FWD`, `CNV2`, `CNV1`, `CNVSQ`. The twiddles of a split come from the ROM root by running powers
(R186, R191), not from the table. -/

namespace Sys2Proof.Machine

section Functions

variable (c : Config) (k : Modulus)

/-- The cube of a root, `mulmod(mulmod(w, w), w)` (R186). -/
def cube (w : Nat) : Nat := mulmod c k (mulmod c k w w) w

/-- The body of the loop of `split4` (R186), with the running powers `c1`, `c3`. -/
def splitQuad (x : Quad) (c1 c3 : Nat) : Quad :=
  let s0 := addmod c k x.a x.c
  let s1 := addmod c k x.b x.d
  let t0 := submod c k x.a x.c
  let t1 := mulmod c k (submod c k x.b x.d) (c.w4 k)
  ⟨norm2 c k s0, norm2 c k s1, mulmod c k (addmod c k t0 t1) c1, mulmod c k (submod c k t0 t1) c3⟩

/-- The body of the loop of `merge4` (R187). -/
def mergeQuad (x : Quad) (c1 c3 : Nat) : Quad :=
  let v := mulmod c k x.c c1
  let z := mulmod c k x.d c3
  let t0 := addmod c k v z
  let t1 := mulmod c k (submod c k v z) (c.w4i k)
  ⟨norm2 c k (addmod c k x.a t0), norm2 c k (addmod c k x.b t1), norm2 c k (submod c k x.a t0),
    norm2 c k (submod c k x.b t1)⟩

/-- The quartets in order, with the running powers of w and w3 (R191). -/
def runQuads (f : Quad → Nat → Nat → Quad) (w w3 : Nat) : List Quad → (c1 c3 : Nat) → List Quad
  | [], _, _ => []
  | x :: xs, c1, c3 => f x c1 c3 :: runQuads f w w3 xs (mulmod c k c1 w) (mulmod c k c3 w3)

/-- `split4(x, l)` for l at least 2 (R186). -/
def split4 (l : Nat) (x : List Nat) : List Nat :=
  let w := omega c k l
  ofQuads (runQuads c k (splitQuad c k) w (cube c k w) (toQuads (2 ^ (l - 2)) x) (c.one k) (c.one k))

/-- `merge4(x, l)` for l at least 2 (R187). -/
def merge4 (l : Nat) (x : List Nat) : List Nat :=
  let w := omegai c k l
  ofQuads (runQuads c k (mergeQuad c k) w (cube c k w) (toQuads (2 ^ (l - 2)) x) (c.one k) (c.one k))

/-- The first half of a block of `2^(l+2)` words (R188). -/
def firstHalf (l : Nat) (x : List Nat) : List Nat := x.take (2 ^ (l + 1))

/-- The third quarter of a block of `2^(l+2)` words (R188). -/
def thirdQuarter (l : Nat) (x : List Nat) : List Nat := (x.drop (2 ^ (l + 1))).take (2 ^ l)

/-- The fourth quarter of a block of `2^(l+2)` words (R188). -/
def fourthQuarter (l : Nat) (x : List Nat) : List Nat := x.drop (3 * 2 ^ l)

/-- `fwdr(x, l)` (R188), reading the forward table `tw`. `LOG_THRESH` is at least 1, so that the recursive path has l at
least 2 (R189). -/
def fwdr (tw : Nat → Nat) : (l : Nat) → List Nat → List Nat
  | l + 2, x =>
    if l + 2 ≤ c.logThresh then nttf c k tw (l + 2) x
    else
      let y := split4 c k (l + 2) x
      fwdr tw (l + 1) (firstHalf l y) ++ fwdr tw l (thirdQuarter l y) ++ fwdr tw l (fourthQuarter l y)
  | 1, x => nttf c k tw 1 x
  | 0, x => nttf c k tw 0 x

/-- The variants of the convolution (R189, R194). -/
inductive Variant where
  | two | one | sq
deriving DecidableEq, Repr

/-- The direct path of `convr` (R189): the pair of the x block and the y block after it. -/
def convLeaf (v : Variant) (twf twi : Nat → Nat) (l : Nat) (x y : List Nat) : List Nat × List Nat :=
  let x' := nttf c k twf l x
  let y' := match v with
    | .two => nttf c k twf l y
    | .one | .sq => y
  let z := match v with
    | .sq => pointwise c k x' x'
    | .two | .one => pointwise c k x' y'
  (ntti c k twi l z, y')

/-- `convr(v, x, y, l)` (R189): the pair of the x block and the y block after it. For `sq` there is no y block: the empty
list stands in its place. It never normalises (R192): by R193 it leaves N times the `cyclic` convolution. -/
def convr (v : Variant) (twf twi : Nat → Nat) : (l : Nat) → (x y : List Nat) → List Nat × List Nat
  | l + 2, x, y =>
    if l + 2 ≤ c.logThresh then convLeaf c k v twf twi (l + 2) x y
    else
      let x' := split4 c k (l + 2) x
      let y' := match v with
        | .two => split4 c k (l + 2) y
        | .one | .sq => y
      let r1 := convr v twf twi (l + 1) (firstHalf l x') (firstHalf l y')
      let r2 := convr v twf twi l (thirdQuarter l x') (thirdQuarter l y')
      let r3 := convr v twf twi l (fourthQuarter l x') (fourthQuarter l y')
      (merge4 c k (l + 2) (r1.1 ++ r2.1 ++ r3.1), r1.2 ++ r2.2 ++ r3.2)
  | 1, x, y => convLeaf c k v twf twi 1 x y
  | 0, x, y => convLeaf c k v twf twi 0 x y

/-- The `NF` step (R192): normalise once, or the canonical write-back, which gives the factor `scaling` of R193. -/
def finishConv (nf : Bool) (l : Nat) (x : List Nat) : List Nat :=
  if nf then scaleBy c k (ninv c k l) x else canonical c k x

end Functions

/-! ### Commands -/

namespace State

/-- Step 4 of `ConvChecks` (R195): the table of the longest leaf, `t = min(l, LOG_THRESH)`, where a leaf uses one. -/
def leafTableChecks (s : State) (k : Modulus) (l : Nat) : List Check := s.tableChecksFrom4 k (min l s.cfg.logThresh)

/-- `ConvChecks` of the one-bank commands: steps 1, 3, 4 and 5 of R195. -/
def convChecks1 (s : State) (b : Bank) (off l : Nat) (k : Modulus) : List Check :=
  s.nmaxCheck l :: s.blockChecks b off l k (s.leafTableChecks k l)

/-- `ConvChecks` of the two-bank commands: the five steps of R195. -/
def convChecks2 (s : State) (d b : Bank) (off l : Nat) (k : Modulus) : List Check :=
  [s.nmaxCheck l, aliasCheck d b, s.extentCheck d off l] ++ s.leafTableChecks k l
    ++ [s.rangeCheck d off l k, s.rangeCheck b off l k]

/-- The operation of `CNV2` (R197; its result law is R193): the y block ends as its canonical forward image. -/
def convolve2 (s : State) (d b : Bank) (off : Nat) (k : Modulus) (l : Nat) (nf : Bool) : State :=
  let r := convr s.cfg k .two s.twfAt s.twiAt l (s.block d off l) (s.block b off l)
  (s.store d off (finishConv s.cfg k nf l r.1)).store b off (canonical s.cfg k r.2)

/-- The operation of `CNV1` (R198; its result law is R193): bank `b` is not written. -/
def convolve1 (s : State) (d b : Bank) (off : Nat) (k : Modulus) (l : Nat) (nf : Bool) : State :=
  let r := convr s.cfg k .one s.twfAt s.twiAt l (s.block d off l) (s.block b off l)
  s.store d off (finishConv s.cfg k nf l r.1)

/-- The operation of `CNVSQ` (R199; its result law is R193). -/
def convolveSq (s : State) (d : Bank) (off : Nat) (k : Modulus) (l : Nat) (nf : Bool) : State :=
  let r := convr s.cfg k .sq s.twfAt s.twiAt l (s.block d off l) []
  s.store d off (finishConv s.cfg k nf l r.1)

end State

/-- `FWD` (R196). -/
def execFwd (bank : Bank) (ra : Reg) (k : Modulus) (lg : Lg) (s : State) : Result :=
  s.command (s.convChecks1 bank (s.val ra) lg.val k)
    fun s => s.mapBlock bank (s.val ra) lg.val fun x => canonical s.cfg k (fwdr s.cfg k s.twfAt lg.val x)

/-- `CNV2` (R197). -/
def execCnv2 (bankd banks : Bank) (rb : Reg) (k : Modulus) (lg : Lg) (nf : Bool) (s : State) : Result :=
  s.command (s.convChecks2 bankd banks (s.val rb) lg.val k)
    fun s => s.convolve2 bankd banks (s.val rb) k lg.val nf

/-- `CNV1` (R198). -/
def execCnv1 (bankd banks : Bank) (rb : Reg) (k : Modulus) (lg : Lg) (nf : Bool) (s : State) : Result :=
  s.command (s.convChecks2 bankd banks (s.val rb) lg.val k)
    fun s => s.convolve1 bankd banks (s.val rb) k lg.val nf

/-- `CNVSQ` (R199). -/
def execCnvsq (bank : Bank) (ra : Reg) (k : Modulus) (lg : Lg) (nf : Bool) (s : State) : Result :=
  s.command (s.convChecks1 bank (s.val ra) lg.val k)
    fun s => s.convolveSq bank (s.val ra) k lg.val nf

end Sys2Proof.Machine
end

