-- ==== Sys2Proof/Machine/Orchestration.lean ====
section
/-! DEFINITION. The orchestration sequencer (R245 to R257): `LDM`, `MUL`, `SQR`. -/

namespace Sys2Proof.Machine

/-- `ceil(log2(n))` for n at least 1: the least l with `2^l >= n` (R247). -/
def clog2 (n : Nat) : Nat := if n ≤ 1 then 0 else (n - 1).log2 + 1

/-- The channel bank of a modulus (R30: `MUL` and `SQR` use `CHk` with modulus k). -/
def channel : Modulus → Bank
  | .m0 => .ch0
  | .m1 => .ch1
  | .m2 => .ch2

namespace State

/-- The length register of an input bank (R246): `LEN1` for `INA`, `LEN2` for `INB`. -/
def lengthOf (s : State) (src : Bank) : Nat := if src = .inb then s.len2.toNat else s.len1.toNat

/-- The operation of `LDM` (R246): n limbs converted, then zeros up to `2^l`. -/
def loadOperand (s : State) (d src : Bank) (k : Modulus) (l : Nat) : State :=
  let n := s.lengthOf src
  s.store d 0 ((s.load src 0 n).map (toMont s.cfg k) ++ List.replicate (2 ^ l - n) 0)

/-- The table exponent `t = min(lgn, LOG_THRESH)` (R247). -/
def tableExp (s : State) (lgn : Nat) : Lg := Fin.ofNat 64 (min lgn s.cfg.logThresh)

/-- One modulus pass of `MUL` (R249): `TWB`, `LDM`, `LDM`, `CNV2` normalised, at element offset 0. -/
def mulPass (s : State) (k : Modulus) (lgn : Nat) : State :=
  let s := s.buildTable k (s.tableExp lgn)
  let s := s.loadOperand (channel k) .ina k lgn
  let s := s.loadOperand .scr .inb k lgn
  s.convolve2 (channel k) .scr 0 k lgn true

/-- One modulus pass of `SQR` (R249): `TWB`, `LDM`, `CNVSQ` normalised. -/
def sqrPass (s : State) (k : Modulus) (lgn : Nat) : State :=
  let s := s.buildTable k (s.tableExp lgn)
  let s := s.loadOperand (channel k) .ina k lgn
  s.convolveSq (channel k) 0 k lgn true

/-- `CLEN` and `LGN` as `MUL` and `SQR` set them (R250). -/
def setLengths (s : State) (clen : Nat) : State :=
  { s with clen := Word.ofNat clen, lgn := Word.ofNat (clog2 clen) }

/-- `OrchChecks` (R248): the sum of the lengths is a natural, so it does not wrap (R247). -/
def orchChecks (s : State) (len1 len2 : Nat) : List Check :=
  [(decide (len1 = 0) || decide (len2 = 0), .length), (decide (s.cfg.ncap < len1 + len2 - 1), .capacity)]

end State

/-- `LDM` (R246). -/
def execLdm (bank src : Bank) (k : Modulus) (lg : Lg) (s : State) : Result :=
  let n := s.lengthOf src
  s.command
    [s.nmaxCheck lg.val, (decide (n = 0) || decide (2 ^ lg.val < n), .length),
      (decide (s.cfg.ncap < 2 ^ lg.val), .bounds)]
    fun s => s.loadOperand bank src k lg.val

/-- `MUL` (R250): the passes in the order 0, 1, 2, then `CRTC`. -/
def execMul (s : State) : Result :=
  let clen := s.len1.toNat + s.len2.toNat - 1
  let lgn := clog2 clen
  s.command (s.orchChecks s.len1.toNat s.len2.toNat) fun s =>
    ((((s.setLengths clen).mulPass .m0 lgn).mulPass .m1 lgn).mulPass .m2 lgn).reconstruct clen

/-- `SQR` (R251): `LEN2`, `INB` and `SCR` are neither read nor written. -/
def execSqr (s : State) : Result :=
  let clen := 2 * s.len1.toNat - 1
  let lgn := clog2 clen
  s.command (s.orchChecks s.len1.toNat s.len1.toNat) fun s =>
    ((((s.setLengths clen).sqrPass .m0 lgn).sqrPass .m1 lgn).sqrPass .m2 lgn).reconstruct clen

end Sys2Proof.Machine
end

