-- ==== Sys2Proof/Machine/Dispatch.lean ====
section
/-! DEFINITION. The dispatcher: one arm per command, in the order of the opcode map (R77). -/

namespace Sys2Proof.Machine

def exec (i : Instr) (s : State) : Host.Outcome State Fault Refusal :=
  match i with
  | .nop => Sys2Proof.Machine.execNop s
  | .mto rd ra k => Sys2Proof.Machine.execMto rd ra k s
  | .mfrom rd ra k => Sys2Proof.Machine.execMfrom rd ra k s
  | .mmul rd ra rb k => Sys2Proof.Machine.execMmul rd ra rb k s
  | .madd rd ra rb k => Sys2Proof.Machine.execMadd rd ra rb k s
  | .msub rd ra rb k => Sys2Proof.Machine.execMsub rd ra rb k s
  | .mnorm rd ra k => Sys2Proof.Machine.execMnorm rd ra k s
  | .mpow rd ra rb k => Sys2Proof.Machine.execMpow rd ra rb k s
  | .minv rd ra k => Sys2Proof.Machine.execMinv rd ra k s
  | .lde rd bank rb => Sys2Proof.Machine.execLde rd bank rb s
  | .ste bank ra rb => Sys2Proof.Machine.execSte bank ra rb s
  | .twb k lg => Sys2Proof.Machine.execTwb k lg s
  | .kdif bank ra k lg => Sys2Proof.Machine.execKdif bank ra k lg s
  | .kdit bank ra k lg => Sys2Proof.Machine.execKdit bank ra k lg s
  | .r4dif bank ra k lg => Sys2Proof.Machine.execR4dif bank ra k lg s
  | .r4dit bank ra k lg => Sys2Proof.Machine.execR4dit bank ra k lg s
  | .nttf bank ra k lg => Sys2Proof.Machine.execNttf bank ra k lg s
  | .ntti bank ra k lg => Sys2Proof.Machine.execNtti bank ra k lg s
  | .pwmul bankd banks rb k lg => Sys2Proof.Machine.execPwmul bankd banks rb k lg s
  | .pwsqr bank ra k lg => Sys2Proof.Machine.execPwsqr bank ra k lg s
  | .scl bank ra rb k lg => Sys2Proof.Machine.execScl bank ra rb k lg s
  | .fwd bank ra k lg => Sys2Proof.Machine.execFwd bank ra k lg s
  | .cnv2 bankd banks rb k lg nf => Sys2Proof.Machine.execCnv2 bankd banks rb k lg nf s
  | .cnv1 bankd banks rb k lg nf => Sys2Proof.Machine.execCnv1 bankd banks rb k lg nf s
  | .cnvsq bank ra k lg nf => Sys2Proof.Machine.execCnvsq bank ra k lg nf s
  | .crt3 ra => Sys2Proof.Machine.execCrt3 ra s
  | .cacc => Sys2Proof.Machine.execCacc s
  | .cemit rd => Sys2Proof.Machine.execCemit rd s
  | .cclr => Sys2Proof.Machine.execCclr s
  | .crtc => Sys2Proof.Machine.execCrtc s
  | .ldm bank src k lg => Sys2Proof.Machine.execLdm bank src k lg s
  | .mul => Sys2Proof.Machine.execMul s
  | .sqr => Sys2Proof.Machine.execSqr s

end Sys2Proof.Machine
end

