-- ==== Sys2Proof/Machine/HostPort.lean ====
section
/-! DEFINITION. The two ports and the moves of the host (R24, R50, R58): the register map, the memory port, the issue of a
command by a write of `CMD` (R31, R75), and the assertion of reset (R300). -/

namespace Sys2Proof.Machine

namespace State

/-- A read of the register port (R24, R26, R27): the word of an index; an index that is not listed reads as zero. -/
def regRead (s : State) (idx : BitVec 7) : Word :=
  match idx.toNat with
  | 0x00 => s.cmd
  | 0x01 => s.status.word
  | 0x02 => s.len1
  | 0x03 => s.len2
  | 0x04 => s.clen
  | 0x05 => s.olen
  | 0x06 => s.lgn
  | 0x07 => s.twcfg.word
  | 0x08 => s.finfo
  | 0x0C => s.v.w0
  | 0x0D => s.v.w1
  | 0x0E => s.v.w2
  | 0x10 => s.acc.w0
  | 0x11 => s.acc.w1
  | 0x12 => s.acc.w2
  | 0x70 => Word.ofNat s.cfg.ppp
  | 0x71 => Word.ofNat (s.cfg.ppp / 2 ^ 64)
  | 0x72 => Word.ofNat (s.cfg.ppp / 2 ^ 128)
  | 0x73 => Word.ofNat s.cfg.cfgWord
  | n =>
    if n / 16 = 2 then s.getS (Fin.ofNat 16 n)
    else if n / 16 = 4 then Word.ofNat (s.cfg.descriptor .m0 (n % 16))
    else if n / 16 = 5 then Word.ofNat (s.cfg.descriptor .m1 (n % 16))
    else if n / 16 = 6 then Word.ofNat (s.cfg.descriptor .m2 (n % 16))
    else 0

/-- A write of the register port other than of `CMD` (R24): the RW registers; every other index ignores it. -/
def regWrite (s : State) (idx : BitVec 7) (v : Word) : State :=
  match idx.toNat with
  | 0x02 => { s with len1 := v }
  | 0x03 => { s with len2 := v }
  | 0x04 => { s with clen := v }
  | 0x0C => { s with v := { s.v with w0 := v } }
  | 0x0D => { s with v := { s.v with w1 := v } }
  | 0x0E => { s with v := { s.v with w2 := v } }
  | 0x10 => { s with acc := { s.acc with w0 := v } }
  | 0x11 => { s with acc := { s.acc with w1 := v } }
  | 0x12 => { s with acc := { s.acc with w2 := v } }
  | n => if n / 16 = 2 then s.setS (Fin.ofNat 16 n) v else s

/-- The bank and index that a memory-port access reaches, none for a bad bank id or an index beyond the capacity (R52). -/
def portTarget (s : State) (bank : BitVec 4) (i : Nat) : Option Bank :=
  match bankOf bank.toNat with
  | some b => if i < capacity s.cfg b then some b else none
  | none => none

/-- A read of the memory port (R52): a bad access reads as zero. -/
def portRead (s : State) (bank : BitVec 4) (i : Nat) : Word :=
  match s.portTarget bank i with
  | some b => s.bankRead b i
  | none => 0

/-- A write of the memory port (R52, R56): a bad access writes nothing; a write of a twiddle bank clears `TVALID`. -/
def portWrite (s : State) (bank : BitVec 4) (i : Nat) (v : Word) : State :=
  match s.portTarget bank i with
  | some b => s.memWrite b i v
  | none => s

/-- A host write of c to `CMD` (R31): ignored while `FAULT` = 1 (R276); else accepted, decoded (R75 steps 1 to 6: every
rejection is `F_ILLEGAL`), and executed. -/
def issue (s : State) (c : Word) : Result :=
  if s.status.fault then .next s
  else
    match decode c with
    | .error _ => .next ((s.accept c).raise .illegal)
    | .ok i => exec i (s.accept c)

end State

/-- The move is one the host may make while a command runs (R59, R300): a read of `STATUS`, or reset. -/
def HostMove.allowedWhileBusy : HostMove → Bool
  | .readReg idx => idx == 1
  | .reset => true
  | .writeReg _ _ | .writeBank _ _ _ | .readBank _ _ => false

/-- One move of the host (R58). -/
def State.hostMove (s : State) (m : HostMove) : Result :=
  if s.status.busy && !m.allowedWhileBusy then .refused .hostAccessWhileBusy
  else
    match m with
    | .writeReg idx v => if idx = 0 then s.issue v else .next (s.regWrite idx v)
    | .readReg idx => .next { s with answer := some (s.regRead idx) }
    | .writeBank bank i v => .next (s.portWrite bank i v)
    | .readBank bank i => .next { s with answer := some (s.portRead bank i) }
    | .reset => .next s.hostReset

end Sys2Proof.Machine
end

