-- ==== Sys2Proof/Machine/Step.lean ====
section
/-! DEFINITION. One step: the next move of the host (R20, R58, R60). The block has no program counter and no fetch (R22): the
command that runs is the word of the host's next write of `CMD`. With no move to make the block is idle (R300). -/

namespace Sys2Proof.Machine

/-- The machine takes the host's next move. -/
def step (s : State) : Host.Outcome State Fault Refusal :=
  match s.host with
  | [] => .next s
  | m :: rest => { s with host := rest }.hostMove m

/-- The state in which the very next step runs the instruction whose bits are w: the host writes that word to `CMD` before its
other moves (notes/assumptions/3.md). -/
def State.withFetchWord (s : State) (nbits w : Nat) : State :=
  { s with host := .writeReg 0 (Word.ofNat (w % 2 ^ nbits)) :: s.host }

end Sys2Proof.Machine
end

