-- ==== Sys2Proof/Safety.lean ====
section
/-! DEFINITION. The terms in which claims are stated: residues (R14), roots and bit reversal (R121, R141), blocks and limb
sequences (R53, R72), the table a bank pair holds (R122), what each command may write (R78), and the invariant of the
machine. Each is written from the spec's mathematics, not from the functions that a step calls. -/

namespace Sys2Proof.Machine

/-! ### Residues and roots -/

/-- The word v represents the residue x modulo `P[k]`: `v ≡ x·2^64` (R14). -/
def Represents (c : Config) (k : Modulus) (v x : Nat) : Prop := v % c.p k = x * 2 ^ 64 % c.p k

/-- `ω_L = ROOT[k]^(NMAX/L)` with `L = 2^l` (R10, R121), not reduced. -/
def unityRoot (c : Config) (k : Modulus) (l : Nat) : Nat := c.root k ^ 2 ^ (c.logNmax - l)

/-- `brev_l(i)`, the l bits of i read backwards (R141). -/
def brev : (l i : Nat) → Nat
  | 0, _ => 0
  | l + 1, i => i % 2 * 2 ^ l + brev l (i / 2)

/-- The forward transform `X_m = Σ_j x_j·ω_N^(j·m) mod p` of N = `2^l` words (R141, R145, R156 (1)). -/
def dft (c : Config) (k : Modulus) (l : Nat) (x : Nat → Nat) (m : Nat) : Nat :=
  (∑ j ∈ Finset.range (2 ^ l), x j * unityRoot c k l ^ (j * m)) % c.p k

/-- The inverse transform without its factor 1/N, of an image in bit-reversed order: `Σ_m y_(brev m)·ω_N^(-j·m) mod p`, where
`ω_N^(-m)` is `ω_N^(N-m)` (R141, R153, R156 (2)). -/
def idft (c : Config) (k : Modulus) (l : Nat) (y : Nat → Nat) (j : Nat) : Nat :=
  (∑ m ∈ Finset.range (2 ^ l), y (brev l m) * unityRoot c k l ^ (j * (2 ^ l - m))) % c.p k

/-- l radix-2 DIF layers, large to small, on integers, with `w l` for `ω` of length `2^l` (R136, R156 (4)): the first half of a
block takes the sums, the second the differences times `ω^j`. -/
def difLayers (w : Nat → Int) : (l : Nat) → (Nat → Int) → Nat → Int
  | 0, x, i => x i
  | l + 1, x, i =>
    if i < 2 ^ l then difLayers w l (fun j => x j + x (j + 2 ^ l)) i
    else difLayers w l (fun j => (x j - x (j + 2 ^ l)) * w (l + 1) ^ j) (i - 2 ^ l)

/-- The cyclic convolution of N = `2^l` words at position i, `Σ_j x_j·y_((i-j) mod N)` (R156 (3), R193), not reduced. -/
def cyclic (l : Nat) (x y : Nat → Nat) (i : Nat) : Nat :=
  ∑ j ∈ Finset.range (2 ^ l), x j * y ((i + 2 ^ l - j) % 2 ^ l)

/-- The factor of R193: 1 where the command normalises, N = `2^l` where it does not. -/
def scaling (nf : Bool) (l : Nat) : Nat := if nf then 1 else 2 ^ l

/-- Coefficient i of the linear convolution of two sequences of lengths n1 and n2: the cyclic one of R193 where
both are padded with zeros and no index wraps (R193, R224, R253). -/
def linear (n1 n2 : Nat) (a b : Nat → Nat) (i : Nat) : Nat :=
  ∑ j ∈ Finset.range n1, if j ≤ i ∧ i - j < n2 then a j * b (i - j) else 0

/-- The least l with `2^l >= n` (R247). -/
def IsLeastLog (n l : Nat) : Prop := n ≤ 2 ^ l ∧ ∀ l', n ≤ 2 ^ l' → l ≤ l'

namespace State

/-! ### Words of banks -/

/-- Word i of a bank as a natural. -/
def wordAt (s : State) (b : Bank) (i : Nat) : Nat := (s.bankRead b i).toNat

/-- The value of the first n words of a bank, least significant first (R53). -/
def limbValue (s : State) (b : Bank) (n : Nat) : Nat := ∑ i ∈ Finset.range n, s.wordAt b i * 2 ^ (64 * i)

/-- The block of `2^l` words lies inside its bank (R54, R72). -/
def Fits (s : State) (b : Bank) (off l : Nat) : Prop := off + 2 ^ l ≤ capacity s.cfg b

/-- Every word of the block is lazy: below 2p (R14, R91, R144). -/
def LazyBlock (s : State) (b : Bank) (off l : Nat) (k : Modulus) : Prop :=
  ∀ i < 2 ^ l, s.wordAt b (off + i) < 2 * s.cfg.p k

/-- The conditions of `TableOK(k, l)` (R127). -/
def TableReady (s : State) (k : Modulus) (l : Nat) : Prop :=
  s.twcfg.tvalid = true ∧ s.twcfg.tmod = k ∧ l ≤ s.twcfg.tlg.val

/-- `TWF` and `TWI` hold the table of modulus k for length `2^t` (R122, R123): sub-table l + 1, of length `L = 2^(l+1)`, at the
indices from `L/2 = 2^l`, and `ONE` at index 0. -/
def TableUpTo (s : State) (k : Modulus) (t : Nat) : Prop :=
  (s.wordAt .twf 0 = 2 ^ 64 % s.cfg.p k ∧ s.wordAt .twi 0 = 2 ^ 64 % s.cfg.p k) ∧
  ∀ l < t, ∀ j < 2 ^ l,
    s.wordAt .twf (2 ^ l + j) = unityRoot s.cfg k (l + 1) ^ j * 2 ^ 64 % s.cfg.p k ∧
    s.wordAt .twi (2 ^ l + j) = unityRoot s.cfg k (l + 1) ^ (2 ^ (l + 1) - j) * 2 ^ 64 % s.cfg.p k

/-- What `TVALID` = 1 says (R29): the banks hold the table that `TWCFG` describes. -/
def TableTrue (s : State) : Prop := s.twcfg.tvalid = true → s.TableUpTo s.twcfg.tmod s.twcfg.tlg.val

/-! ### What a command leaves unchanged -/

/-- t is s after a command that completed (R76) and changed nothing else but words of banks, and those only where `touched`. -/
def OnlyWords (s t : State) (touched : Bank → Nat → Prop) : Prop :=
  t = { s with banks := t.banks, status := s.status.completed } ∧
  ∀ b i, ¬ touched b i → t.bankRead b i = s.bankRead b i

/-- The index is one of the block of `2^l` words of bank `bank` at `off`. -/
def InBlock (bank : Bank) (off l : Nat) (b : Bank) (i : Nat) : Prop := b = bank ∧ off ≤ i ∧ i < off + 2 ^ l

/-- Every word of the block is canonical: below p (R14, R135). -/
def CanonicalBlock (s : State) (b : Bank) (off l : Nat) (k : Modulus) : Prop :=
  ∀ i < 2 ^ l, s.wordAt b (off + i) < s.cfg.p k

end State

/-! ### The command word and its faults -/

/-- The command word with these fields (R70). -/
def commandWord (op m nf lg rd ra rb : Nat) : Word :=
  Word.ofNat (op * 2 ^ 24 + m * 2 ^ 22 + nf * 2 ^ 21 + lg * 2 ^ 12 + rd * 2 ^ 8 + ra * 2 ^ 4 + rb)

/-- The bank-id conditions of R75 step 5 and the bound of step 6, by format, on the fields `RD` and `RA`. -/
def BadOperand (fm : Format) (rd ra : Nat) : Prop :=
  match fm with
  | .b1 | .b1n | .b1s => 3 < rd
  | .b2 | .b2n => 3 < rd ∨ 3 < ra
  | .ld => 3 < rd ∨ (ra ≠ 6 ∧ ra ≠ 7)
  | .el => 8 < ra
  | .es => rd = 6 ∨ rd = 7 ∨ 8 < rd
  | .sa => 13 < ra
  | .z | .s3 | .s2 | .sd | .t => False

/-- The illegal encodings of R79: (g); (a); and, for an opcode of format `fm`, (b) to (f). -/
def IllegalWord (c : Nat) : Prop :=
  2 ^ 32 ≤ c ∨ formatOf (c / 2 ^ 24 % 2 ^ 8) = none ∨
  ∃ fm, formatOf (c / 2 ^ 24 % 2 ^ 8) = some fm ∧
    (c / 2 ^ 18 % 2 ^ 3 ≠ 0 ∨
      (fm.usesM = false ∧ c / 2 ^ 22 % 2 ^ 2 ≠ 0) ∨ (fm.usesNf = false ∧ c / 2 ^ 21 % 2 ≠ 0) ∨
      (fm.usesLg = false ∧ c / 2 ^ 12 % 2 ^ 6 ≠ 0) ∨ (fm.usesRd = false ∧ c / 2 ^ 8 % 2 ^ 4 ≠ 0) ∨
      (fm.usesRa = false ∧ c / 2 ^ 4 % 2 ^ 4 ≠ 0) ∨ (fm.usesRb = false ∧ c % 2 ^ 4 ≠ 0) ∨
      (fm.usesM = true ∧ c / 2 ^ 22 % 2 ^ 2 = 3) ∨ BadOperand fm (c / 2 ^ 8 % 2 ^ 4) (c / 2 ^ 4 % 2 ^ 4))

/-- The valid table is of modulus k: the first line of `TableOK` passes (R127). -/
def State.TableOf (s : State) (k : Modulus) : Prop := s.twcfg.tvalid = true ∧ s.twcfg.tmod = k

/-- The faults of a one-bank block command, in the order of R273: length, extent, table (for a transform that looks up
exponent l', where it needs one), range. -/
def BlockFaults (i : Instr) (s : State) (badLength : Prop) (b : Bank) (off l : Nat) (k : Modulus) (table : Prop) (l' : Nat) :
    Prop :=
  (badLength → exec i s = .next (s.raise .length)) ∧
  (¬ badLength → ¬ s.Fits b off l → exec i s = .next (s.raise .bounds)) ∧
  (¬ badLength → s.Fits b off l → table → ¬ s.TableOf k → exec i s = .next (s.raise .table)) ∧
  (¬ badLength → s.Fits b off l → table → s.TableOf k → s.twcfg.tlg.val < l' → exec i s = .next (s.raise .length)) ∧
  (¬ badLength → s.Fits b off l → (table → s.TableReady k l') → ¬ s.LazyBlock b off l k →
    exec i s = .next (s.raise .range))

/-- The faults of a two-bank block command, in the order of R273: as `BlockFaults`, with the alias check after the length
check (R63, R195) and the scan of both blocks. -/
def PairFaults (i : Instr) (s : State) (badLength : Prop) (d b : Bank) (off l : Nat) (k : Modulus) (table : Prop)
    (l' : Nat) : Prop :=
  (badLength → exec i s = .next (s.raise .length)) ∧
  (¬ badLength → d = b → exec i s = .next (s.raise .aliasing)) ∧
  (¬ badLength → d ≠ b → ¬ s.Fits d off l → exec i s = .next (s.raise .bounds)) ∧
  (¬ badLength → d ≠ b → s.Fits d off l → table → ¬ s.TableOf k → exec i s = .next (s.raise .table)) ∧
  (¬ badLength → d ≠ b → s.Fits d off l → table → s.TableOf k → s.twcfg.tlg.val < l' →
    exec i s = .next (s.raise .length)) ∧
  (¬ badLength → d ≠ b → s.Fits d off l → (table → s.TableReady k l') →
    ¬ (s.LazyBlock d off l k ∧ s.LazyBlock b off l k) → exec i s = .next (s.raise .range))

/-! ### The invariant -/

/-- A bank's memory is in canonical form and lists no index beyond the bank (R30, R52). -/
def State.BankSound (s : State) (b : Bank) : Prop :=
  (s.banks.get b).wf = true ∧ (s.banks.get b).within (capacity s.cfg b) = true

/-- What holds in every state that the machine exposes. -/
structure Inv (s : State) : Prop where
  /-- Each bank is sound. -/
  banks     : ∀ b, s.BankSound b
  /-- R25: every exposed state has `BUSY` = 0. -/
  idle      : s.status.busy = false
  /-- R278: `DONE` and `FAULT` are never both 1. -/
  exclusive : ¬ (s.status.done = true ∧ s.status.fault = true)
  /-- R25: `FCODE` and `FINFO` are zero where `FAULT` = 0. -/
  clean     : s.status.fault = false → s.status.fcode = 0 ∧ s.finfo = 0
  /-- R271, R276: `FCODE` is a code of the table and `FINFO` the low half of `CMD` where `FAULT` = 1. -/
  recorded  : s.status.fault = true → (∃ f : FaultCode, s.status.fcode = f.bits) ∧ s.finfo.toNat = s.cmd.toNat % 2 ^ 32
  /-- R28: `LGN` never exceeds 63. -/
  lgn       : s.lgn.toNat ≤ 63
  /-- R126: a valid table is of an admitted length. -/
  length    : s.twcfg.tvalid = true → s.twcfg.tlg.val ≤ s.cfg.logNmax ∧ 2 ^ s.twcfg.tlg.val ≤ s.cfg.twcap
  /-- R29: a valid table is the table. -/
  table     : s.TableTrue

end Sys2Proof.Machine

/-! ### What each command may write (R78) -/

namespace Sys2Proof

/-- The scalar register a command writes (R78). -/
def Instr.writesS : Instr → Option Reg
  | .mto rd _ _ | .mfrom rd _ _ | .mnorm rd _ _ | .minv rd _ _ => some rd
  | .mmul rd _ _ _ | .madd rd _ _ _ | .msub rd _ _ _ | .mpow rd _ _ _ => some rd
  | .lde rd _ _ | .cemit rd => some rd
  | .nop | .ste _ _ _ | .twb _ _ => none
  | .kdif _ _ _ _ | .kdit _ _ _ _ | .r4dif _ _ _ _ | .r4dit _ _ _ _ | .nttf _ _ _ _ | .ntti _ _ _ _ => none
  | .pwmul _ _ _ _ _ | .pwsqr _ _ _ _ | .scl _ _ _ _ _ | .fwd _ _ _ _ => none
  | .cnv2 _ _ _ _ _ _ | .cnv1 _ _ _ _ _ _ | .cnvsq _ _ _ _ _ => none
  | .crt3 _ | .cacc | .cclr | .crtc | .ldm _ _ _ _ | .mul | .sqr => none

/-- The banks a command writes (R78). -/
def Instr.writesBanks : Instr → List Bank
  | .ste bank _ _ => [bank]
  | .twb _ _ => [.twf, .twi]
  | .kdif bank _ _ _ | .kdit bank _ _ _ | .r4dif bank _ _ _ | .r4dit bank _ _ _ => [bank]
  | .nttf bank _ _ _ | .ntti bank _ _ _ => [bank]
  | .pwmul bankd _ _ _ _ => [bankd]
  | .pwsqr bank _ _ _ | .scl bank _ _ _ _ | .fwd bank _ _ _ => [bank]
  | .cnv2 bankd banks _ _ _ _ => [bankd, banks]
  | .cnv1 bankd _ _ _ _ _ => [bankd]
  | .cnvsq bank _ _ _ _ => [bank]
  | .crtc => [.out]
  | .ldm bank _ _ _ => [bank]
  | .mul => [.ch0, .ch1, .ch2, .scr, .twf, .twi, .out]
  | .sqr => [.ch0, .ch1, .ch2, .twf, .twi, .out]
  | .nop | .mto _ _ _ | .mfrom _ _ _ | .mnorm _ _ _ | .minv _ _ _ => []
  | .mmul _ _ _ _ | .madd _ _ _ _ | .msub _ _ _ _ | .mpow _ _ _ _ | .lde _ _ _ => []
  | .crt3 _ | .cacc | .cemit _ | .cclr => []

/-- The command may write `TWCFG` (R78): the table builders, and `STE` into a twiddle bank. -/
def Instr.writesTwcfg : Instr → Bool
  | .ste bank _ _ => bank == .twf || bank == .twi
  | .twb _ _ | .mul | .sqr => true
  | .nop | .mto _ _ _ | .mfrom _ _ _ | .mnorm _ _ _ | .minv _ _ _ => false
  | .mmul _ _ _ _ | .madd _ _ _ _ | .msub _ _ _ _ | .mpow _ _ _ _ | .lde _ _ _ => false
  | .kdif _ _ _ _ | .kdit _ _ _ _ | .r4dif _ _ _ _ | .r4dit _ _ _ _ | .nttf _ _ _ _ | .ntti _ _ _ _ => false
  | .pwmul _ _ _ _ _ | .pwsqr _ _ _ _ | .scl _ _ _ _ _ | .fwd _ _ _ _ => false
  | .cnv2 _ _ _ _ _ _ | .cnv1 _ _ _ _ _ _ | .cnvsq _ _ _ _ _ => false
  | .crt3 _ | .cacc | .cemit _ | .cclr | .crtc | .ldm _ _ _ _ => false

/-- The command writes `V` (R23, R78). -/
def Instr.writesV (i : Instr) : Prop := (∃ ra, i = .crt3 ra) ∨ i = .crtc ∨ i = .mul ∨ i = .sqr

/-- The command writes `ACC` (R23, R78). -/
def Instr.writesAcc (i : Instr) : Prop :=
  i = .cacc ∨ (∃ rd, i = .cemit rd) ∨ i = .cclr ∨ i = .crtc ∨ i = .mul ∨ i = .sqr

/-- The command writes `CLEN` and `LGN` (R78). -/
def Instr.writesLengths (i : Instr) : Prop := i = .mul ∨ i = .sqr

/-- The command writes `OLEN` (R78). -/
def Instr.writesOlen (i : Instr) : Prop := i = .crtc ∨ i = .mul ∨ i = .sqr

end Sys2Proof
end

