-- ==== Sys2Proof/Certificates/Slice0/Obligations.lean ====
section
/-! DEFINITION. The statements for the provers. They hold for every configuration that R7 admits; the words of R57 that nothing
has written stay free in all of them. In a statement about one command, `{ s with … }` is the whole next state: what it does not
name is unchanged. -/

section

open Sys2Proof Sys2Proof.Machine

/-! ### The command word -/

/-- Every well-formed command decodes from its own word, every operand at every value (R70, R75). -/
def Obligations.DecodeInvertsEncode : Prop :=
  ∀ i : Instr, i.wellFormed = true → decode (encode i) = .ok i

/-- Every accepted word is the word of the well-formed command it selects, so that no two words select one command (R75). -/
def Obligations.EncodeInvertsDecode : Prop :=
  ∀ (c : Word) (i : Instr), decode c = .ok i → i.wellFormed = true ∧ encode i = c

/-- The two words that R82 works out, and the words of `NOP`, `MUL` and `SQR` that R112 and R245 name, decode to them. -/
def Obligations.WorkedWordsDecode : Prop :=
  decode 0x12400312 = .ok (.mmul 3 1 2 .m1) ∧ decode 0x51A12030 = .ok (.cnv2 .ch0 .scr 0 .m2 18 true) ∧
  decode 0 = .ok .nop ∧ decode 0x71000000 = .ok .mul ∧ decode 0x72000000 = .ok .sqr

/-- R79: every word of (a) to (g) raises `F_ILLEGAL` at decode and changes no state but `STATUS`, `FINFO` and (R276) `CMD`;
every other word selects a command. -/
def Obligations.IllegalEncodingsFault : Prop :=
  (∀ (s : State) (c : Word), s.status.fault = false → IllegalWord c.toNat →
    s.issue c = .next { s with
      cmd := c
      status := ⟨false, false, true, 0x01⟩
      finfo := Word.ofNat (c.toNat % 2 ^ 32) }) ∧
  (∀ c : Word, ¬ IllegalWord c.toNat → ∃ i, decode c = .ok i)

/-! ### Steps, faults, reset -/

/-- R31: a write of a command's word to `CMD`, the block idle and not stopped, is its acceptance: the step is `exec` of the
decoded command with `CMD` holding the word, `BUSY` set and `DONE` cleared. -/
def Obligations.StepRunsTheDecodedCommand : Prop :=
  ∀ (s : State) (c : Word) (i : Instr) (rest : List HostMove), s.host = .writeReg 0 c :: rest → s.status.busy = false →
    s.status.fault = false → decode c = .ok i →
    step s = exec i { s with host := rest, cmd := c, status := { s.status with busy := true, done := false } }

/-- R274, R276: a word written to `CMD` of a block that is not stopped leaves `DONE` = 1 or else faults, and a fault changes
nothing but `STATUS`, `FINFO` and `CMD`. -/
def Obligations.CommandsCompleteOrFaultPrecisely : Prop :=
  ∀ (s : State) (c : Word), s.status.fault = false →
    ∃ t, s.issue c = .next t ∧
      ((t.status = ⟨false, true, false, s.status.fcode⟩ ∧ t.finfo = s.finfo ∧ t.cmd = c) ∨
        ∃ f : FaultCode, t = { s with
          cmd := c
          status := ⟨false, false, true, f.bits⟩
          finfo := Word.ofNat (c.toNat % 2 ^ 32) })

/-- R270: from every idle state the next host move has an outcome; nothing is undefined. -/
def Obligations.EveryIdleStepHasANextState : Prop :=
  ∀ s : State, s.status.busy = false → ∃ t, step s = .next t

/-- R276: a stopped block ignores every write of `CMD`, and whatever the host does short of reset leaves `STATUS`, `FINFO` and
`CMD` as they are. -/
def Obligations.FaultsAreStickyUntilReset : Prop :=
  ∀ s : State, s.status.fault = true →
    (∀ c rest, s.status.busy = false → s.host = .writeReg 0 c :: rest → step s = .next { s with host := rest }) ∧
    (∀ t, (∀ rest, s.host ≠ .reset :: rest) → step s = .next t →
      t.status = s.status ∧ t.finfo = s.finfo ∧ t.cmd = s.cmd)

/-- R34, R300: reset may come in any state, and leaves every register zero, no table, and every bank word unspecified: the free
word of the new epoch. The epoch, the host's remaining moves and its last answer are the model's own (log entries 2 and 6). -/
def Obligations.ResetLeavesTheResetState : Prop :=
  ∀ (s : State) (rest : List HostMove), s.host = .reset :: rest →
    ∃ t, step s = .next t ∧
      (∀ r : Reg, t.getS r = 0) ∧ t.v = ⟨0, 0, 0⟩ ∧ t.acc = ⟨0, 0, 0⟩ ∧ t.cmd = 0 ∧ t.status = ⟨false, false, false, 0⟩ ∧
      t.finfo = 0 ∧ t.len1 = 0 ∧ t.len2 = 0 ∧ t.clen = 0 ∧ t.olen = 0 ∧ t.lgn = 0 ∧ t.twcfg = ⟨.m0, 0, false⟩ ∧
      t.cfg = s.cfg ∧ (∀ b i, t.bankRead b i = Config.unwrittenWord (s.epoch + 1) b.id i) ∧
      t.epoch = s.epoch + 1 ∧ t.host = rest ∧ t.answer = s.answer

/-! ### The ports -/

/-- R24: the register port reads the register of each listed index (R25 and R29 give the fields of `STATUS` and `TWCFG`), and
zero at an index that is not listed. -/
def Obligations.RegisterPortReads : Prop :=
  ∀ s : State,
    s.regRead 0x00 = s.cmd ∧
    (s.regRead 0x01).toNat = s.status.busy.toNat + 2 * s.status.done.toNat + 4 * s.status.fault.toNat
      + 2 ^ 8 * s.status.fcode.toNat ∧
    s.regRead 0x02 = s.len1 ∧ s.regRead 0x03 = s.len2 ∧ s.regRead 0x04 = s.clen ∧ s.regRead 0x05 = s.olen ∧
    s.regRead 0x06 = s.lgn ∧
    (s.regRead 0x07).toNat = s.twcfg.tmod.idx + 2 ^ 8 * s.twcfg.tlg.val + 2 ^ 16 * s.twcfg.tvalid.toNat ∧
    s.regRead 0x08 = s.finfo ∧
    s.regRead 0x0C = s.v.w0 ∧ s.regRead 0x0D = s.v.w1 ∧ s.regRead 0x0E = s.v.w2 ∧
    s.regRead 0x10 = s.acc.w0 ∧ s.regRead 0x11 = s.acc.w1 ∧ s.regRead 0x12 = s.acc.w2 ∧
    (∀ r : Reg, s.regRead (BitVec.ofNat 7 (0x20 + r.val)) = s.getS r) ∧
    (∀ idx : BitVec 7, (0x08 < idx.toNat ∧ idx.toNat < 0x0C) ∨ idx.toNat = 0x0F ∨ (0x12 < idx.toNat ∧ idx.toNat < 0x20) ∨
      (0x2F < idx.toNat ∧ idx.toNat < 0x40) ∨ 0x73 < idx.toNat → s.regRead idx = 0)

/-- R24, R23, R28, R21: a write of an RW register other than `CMD` is read back, and no other register and no bank changes. -/
def Obligations.WritableRegistersHoldWhatIsWritten : Prop :=
  ∀ (s : State) (idx : BitVec 7) (v : Word) (rest : List HostMove), s.status.busy = false →
    s.host = .writeReg idx v :: rest →
    (idx.toNat ∈ [0x02, 0x03, 0x04, 0x0C, 0x0D, 0x0E, 0x10, 0x11, 0x12] ∨ (0x20 ≤ idx.toNat ∧ idx.toNat ≤ 0x2F)) →
    ∃ t, step s = .next t ∧ t.regRead idx = v ∧ (∀ j, j ≠ idx → t.regRead j = s.regRead j) ∧ t.banks = s.banks ∧
      t.cfg = s.cfg ∧ t.epoch = s.epoch ∧ t.host = rest ∧ t.answer = s.answer

/-- R24: a host write of a read-only or unlisted register changes nothing. -/
def Obligations.ReadOnlyRegistersIgnoreWrites : Prop :=
  ∀ (s : State) (idx : BitVec 7) (v : Word) (rest : List HostMove), s.status.busy = false →
    s.host = .writeReg idx v :: rest →
    idx.toNat ∉ [0x00, 0x02, 0x03, 0x04, 0x0C, 0x0D, 0x0E, 0x10, 0x11, 0x12] →
    ¬ (0x20 ≤ idx.toNat ∧ idx.toNat ≤ 0x2F) →
    step s = .next { s with host := rest }

/-- R55: a read of either port has no side effect; only the host learns something. -/
def Obligations.ReadsHaveNoSideEffect : Prop :=
  ∀ (s : State) (rest : List HostMove), s.status.busy = false →
    (∀ idx, s.host = .readReg idx :: rest → step s = .next { s with host := rest, answer := some (s.regRead idx) }) ∧
    (∀ id i, s.host = .readBank id i :: rest → step s = .next { s with host := rest, answer := some (s.portRead id i) })

/-- R52, R56: a memory-port access of a word of a bank reads it or writes it and no other, a write of a twiddle bank clearing
`TVALID`; with a bad bank id or an index beyond the bank it reads as zero and writes nothing. -/
def Obligations.MemoryPortReadsAndWritesWords : Prop :=
  ∀ (s : State) (id : BitVec 4) (i : Nat) (v : Word) (rest : List HostMove), s.status.busy = false →
    s.host = .writeBank id i v :: rest →
    (∀ b : Bank, id.toNat = b.id → i < capacity s.cfg b → s.portRead id i = s.bankRead b i ∧
      ∃ t, step s = .next t ∧ t.bankRead b i = v ∧ (∀ b' j, (b' ≠ b ∨ j ≠ i) → t.bankRead b' j = s.bankRead b' j) ∧
        t = { s with
          host := rest
          banks := t.banks
          twcfg := { s.twcfg with tvalid := s.twcfg.tvalid && !(b == .twf || b == .twi) } }) ∧
    ((∀ b : Bank, id.toNat = b.id → capacity s.cfg b ≤ i) → s.portRead id i = 0 ∧ step s = .next { s with host := rest })

/-- R26, R27: every entry of the constant ROM, as the register port reads it, by the equation that defines it. -/
def Obligations.RomHoldsItsConstants : Prop :=
  ∀ s : State,
    (∀ k : Modulus,
      let p := s.cfg.p k
      let d := fun j : Nat => (s.regRead (BitVec.ofNat 7 (0x40 + 16 * k.idx + j))).toNat
      let w4 := unityRoot s.cfg k 2
      let w8 := unityRoot s.cfg k 3
      d 0 = p ∧ d 1 = 2 ^ 128 % p ∧ (d 2 * p + 1) % 2 ^ 64 = 0 ∧ d 3 = 2 ^ 64 % p ∧ d 4 = s.cfg.root k * 2 ^ 64 % p ∧
      (d 5 < p ∧ d 5 * s.cfg.root k % p = 2 ^ 64 % p) ∧ d 6 = w4 * 2 ^ 64 % p ∧ (d 7 < p ∧ d 7 * w4 % p = 2 ^ 64 % p) ∧
      d 8 = w8 * 2 ^ 64 % p ∧ d 9 = w8 ^ 3 * 2 ^ 64 % p ∧ (d 10 < p ∧ d 10 * w8 % p = 2 ^ 64 % p) ∧
      (d 11 < p ∧ d 11 * w8 ^ 3 % p = 2 ^ 64 % p) ∧
      (1 ≤ d 12 ∧ d 12 < p ∧ d 12 * (d 13 + d 14 * 2 ^ 64) % p = 1) ∧
      (d 13 + d 14 * 2 ^ 64) * p = s.cfg.p .m0 * s.cfg.p .m1 * s.cfg.p .m2 ∧ d 15 = 0) ∧
    (s.regRead 0x70).toNat + 2 ^ 64 * (s.regRead 0x71).toNat + 2 ^ 128 * (s.regRead 0x72).toNat
      = s.cfg.p .m0 * s.cfg.p .m1 * s.cfg.p .m2 ∧
    (s.regRead 0x73).toNat = s.cfg.logNmax + s.cfg.logThresh * 2 ^ 8 + s.cfg.logNcap * 2 ^ 16

/-! ### Whole-machine rules -/

/-- The invariant holds after reset under every configuration, whatever the reset count, the host's moves and its last answer
are (R34, R300; the three are the model's own fields, log entries 2, 3 and 6), and so at `State.reset`, whose configuration, REFCFG
with `LOG_NCAP` = 5 and `LOG_THRESH` = 17, is the model's choice (log entries 1 and 21). -/
def Obligations.InvariantHoldsAtReset : Prop :=
  (∀ (cfg : Config) (epoch : Nat) (host : List HostMove) (answer : Option Word), Inv (State.resetWith cfg epoch host answer)) ∧
    Inv State.reset

/-- Every step keeps the invariant: canonical memories within their banks, never busy, `DONE` and `FAULT` exclusive, the fault
record exact, and `TVALID` true to the words of the two tables (R25, R28, R29, R271, R276, R278). -/
def Obligations.EveryStepKeepsTheInvariant : Prop :=
  ∀ s t : State, Inv s → step s = .next t → Inv t

/-- R78: a command writes nothing outside its row of the summary; in particular no command writes `LEN1`, `LEN2`, `INA`, `INB`
or the ROM. -/
def Obligations.CommandsWriteOnlyTheirRow : Prop :=
  ∀ (i : Instr) (s t : State), i.wellFormed = true → exec i s = .next t →
    t.cfg = s.cfg ∧ t.len1 = s.len1 ∧ t.len2 = s.len2 ∧ t.cmd = s.cmd ∧ t.epoch = s.epoch ∧ t.host = s.host ∧
    t.answer = s.answer ∧
    (∀ r, i.writesS ≠ some r → t.getS r = s.getS r) ∧
    (∀ b ∉ i.writesBanks, ∀ j, t.bankRead b j = s.bankRead b j) ∧ (∀ j, t.bankRead .ina j = s.bankRead .ina j) ∧
    (∀ j, t.bankRead .inb j = s.bankRead .inb j) ∧
    (i.writesTwcfg = false → t.twcfg = s.twcfg) ∧ (¬ i.writesV → t.v = s.v) ∧ (¬ i.writesAcc → t.acc = s.acc) ∧
    (¬ i.writesLengths → t.clen = s.clen ∧ t.lgn = s.lgn) ∧ (¬ i.writesOlen → t.olen = s.olen)

/-! ### The Montgomery engine -/

/-- R109 (1) to (6): the laws of the engine's functions, for lazy a, b and words x, y. `Represents` is `plain` (R14). -/
def Obligations.MontgomeryLaws : Prop :=
  ∀ (c : Config) (k : Modulus) (a b x y : Nat), a < 2 * c.p k → b < 2 * c.p k → x < 2 ^ 64 → y < 2 ^ 64 →
    (∀ u v, u < c.p k → v < c.p k → Represents c k a u → Represents c k b v →
      Represents c k (addmod c k a b) (u + v) ∧ Represents c k (submod c k a b) (u + c.p k - v) ∧
      Represents c k (mulmod c k a b) (u * v)) ∧
    (mulmod c k (toMont c k x) (toMont c k y) = toMont c k (x * y % c.p k) ∧ toInt c k (toMont c k x) = x % c.p k ∧
      toMont c k (toInt c k a) = norm2 c k a) ∧
    (mulmod c k a (c.one k) = norm2 c k a ∧ mulmod c k a 0 = 0) ∧
    (addmod c k a b = addmod c k b a ∧ mulmod c k a b = mulmod c k b a ∧ submod c k a a = 0) ∧
    (∀ a' b', a' < 2 * c.p k → b' < 2 * c.p k → a % c.p k = a' % c.p k → b % c.p k = b' % c.p k →
      norm2 c k (addmod c k a b) = norm2 c k (addmod c k a' b') ∧
      norm2 c k (submod c k a b) = norm2 c k (submod c k a' b') ∧ mulmod c k a b = mulmod c k a' b') ∧
    (toInt c k (c.r2 k) = c.one k ∧ toInt c k (c.one k) = 1) ∧
    (addmod c k a b < 2 * c.p k ∧ submod c k a b < 2 * c.p k ∧ mulmod c k a b < c.p k ∧ norm2 c k a < c.p k)

/-- `MTO` (R100): `S[rd]` becomes the canonical Montgomery word of `S[ra]`; nothing else but completion. -/
def Obligations.MtoConvertsToMontgomeryForm : Prop :=
  ∀ (s : State) (rd ra : Reg) (k : Modulus),
    encode (.mto rd ra k) = commandWord 0x10 k.idx 0 0 rd ra 0 ∧
    exec (.mto rd ra k) s = .next { s with
      sreg := s.sreg.set rd (Word.ofNat ((s.getS ra).toNat * 2 ^ 64 % s.cfg.p k))
      status := s.status.completed }

/-- `MFROM` (R101): `S[rd]` becomes the integer w in [0, p) with `w·2^64 ≡ S[ra]`. -/
def Obligations.MfromConvertsToAnInteger : Prop :=
  ∀ (s : State) (rd ra : Reg) (k : Modulus),
    encode (.mfrom rd ra k) = commandWord 0x11 k.idx 0 0 rd ra 0 ∧
    ∃ w, w < s.cfg.p k ∧ w * 2 ^ 64 % s.cfg.p k = (s.getS ra).toNat % s.cfg.p k ∧
      exec (.mfrom rd ra k) s = .next { s with
        sreg := s.sreg.set rd (Word.ofNat w)
        status := s.status.completed }

/-- `MMUL` (R102): on lazy operands the canonical word w with `w·2^64 ≡ S[ra]·S[rb]`; else `F_RANGE`. -/
def Obligations.MmulMultipliesResidues : Prop :=
  ∀ (s : State) (rd ra rb : Reg) (k : Modulus),
    let a := (s.getS ra).toNat
    let b := (s.getS rb).toNat
    encode (.mmul rd ra rb k) = commandWord 0x12 k.idx 0 0 rd ra rb ∧
    (a < 2 * s.cfg.p k → b < 2 * s.cfg.p k →
      ∃ w, w < s.cfg.p k ∧ w * 2 ^ 64 % s.cfg.p k = a * b % s.cfg.p k ∧
        exec (.mmul rd ra rb k) s = .next { s with
          sreg := s.sreg.set rd (Word.ofNat w)
          status := s.status.completed }) ∧
    (2 * s.cfg.p k ≤ a ∨ 2 * s.cfg.p k ≤ b → exec (.mmul rd ra rb k) s = .next (s.raise .range))

/-- `MADD` (R103): on lazy operands the sum modulo 2p; else `F_RANGE`. -/
def Obligations.MaddAddsModuloTheDoubledModulus : Prop :=
  ∀ (s : State) (rd ra rb : Reg) (k : Modulus),
    let a := (s.getS ra).toNat
    let b := (s.getS rb).toNat
    encode (.madd rd ra rb k) = commandWord 0x13 k.idx 0 0 rd ra rb ∧
    (a < 2 * s.cfg.p k → b < 2 * s.cfg.p k →
      exec (.madd rd ra rb k) s = .next { s with
        sreg := s.sreg.set rd (Word.ofNat ((a + b) % (2 * s.cfg.p k)))
        status := s.status.completed }) ∧
    (2 * s.cfg.p k ≤ a ∨ 2 * s.cfg.p k ≤ b → exec (.madd rd ra rb k) s = .next (s.raise .range))

/-- `MSUB` (R104): on lazy operands the difference modulo 2p; else `F_RANGE`. -/
def Obligations.MsubSubtractsModuloTheDoubledModulus : Prop :=
  ∀ (s : State) (rd ra rb : Reg) (k : Modulus),
    let a := (s.getS ra).toNat
    let b := (s.getS rb).toNat
    encode (.msub rd ra rb k) = commandWord 0x14 k.idx 0 0 rd ra rb ∧
    (a < 2 * s.cfg.p k → b < 2 * s.cfg.p k →
      exec (.msub rd ra rb k) s = .next { s with
        sreg := s.sreg.set rd (Word.ofNat ((a + 2 * s.cfg.p k - b) % (2 * s.cfg.p k)))
        status := s.status.completed }) ∧
    (2 * s.cfg.p k ≤ a ∨ 2 * s.cfg.p k ≤ b → exec (.msub rd ra rb k) s = .next (s.raise .range))

/-- `MNORM` (R105): on a lazy operand its residue in [0, p); else `F_RANGE`. -/
def Obligations.MnormReducesToCanonical : Prop :=
  ∀ (s : State) (rd ra : Reg) (k : Modulus),
    let a := (s.getS ra).toNat
    encode (.mnorm rd ra k) = commandWord 0x15 k.idx 0 0 rd ra 0 ∧
    (a < 2 * s.cfg.p k →
      exec (.mnorm rd ra k) s = .next { s with
        sreg := s.sreg.set rd (Word.ofNat (a % s.cfg.p k))
        status := s.status.completed }) ∧
    (2 * s.cfg.p k ≤ a → exec (.mnorm rd ra k) s = .next (s.raise .range))

/-- `MPOW` (R106): on a lazy base, which represents some x, the canonical word of `x^e`, `x^0 = 1` for every x; else `F_RANGE`.
The exponent may be any word. -/
def Obligations.MpowRaisesToAPower : Prop :=
  ∀ (s : State) (rd ra rb : Reg) (k : Modulus),
    let a := (s.getS ra).toNat
    let e := (s.getS rb).toNat
    encode (.mpow rd ra rb k) = commandWord 0x16 k.idx 0 0 rd ra rb ∧
    (a < 2 * s.cfg.p k →
      ∃ x, x < s.cfg.p k ∧ Represents s.cfg k a x ∧
        exec (.mpow rd ra rb k) s = .next { s with
          sreg := s.sreg.set rd (Word.ofNat (x ^ e * 2 ^ 64 % s.cfg.p k))
          status := s.status.completed }) ∧
    (2 * s.cfg.p k ≤ a → exec (.mpow rd ra rb k) s = .next (s.raise .range))

/-- `MINV` (R107): on a lazy operand, which represents some x, the canonical word of the inverse of x, 0 where x is 0; else
`F_RANGE`. -/
def Obligations.MinvInvertsResidues : Prop :=
  ∀ (s : State) (rd ra : Reg) (k : Modulus),
    let a := (s.getS ra).toNat
    encode (.minv rd ra k) = commandWord 0x17 k.idx 0 0 rd ra 0 ∧
    (a < 2 * s.cfg.p k →
      ∃ x y, x < s.cfg.p k ∧ Represents s.cfg k a x ∧ y < s.cfg.p k ∧ (x ≠ 0 → x * y % s.cfg.p k = 1) ∧ (x = 0 → y = 0) ∧
        exec (.minv rd ra k) s = .next { s with
          sreg := s.sreg.set rd (Word.ofNat (y * 2 ^ 64 % s.cfg.p k))
          status := s.status.completed }) ∧
    (2 * s.cfg.p k ≤ a → exec (.minv rd ra k) s = .next (s.raise .range))

/-! ### Data movement -/

/-- `LDE` (R110): the word at index `S[rb]` of the bank, unchanged; `F_BOUNDS` at or beyond the capacity. -/
def Obligations.LdeLoadsOneWord : Prop :=
  ∀ (s : State) (rd : Reg) (bank : Bank) (rb : Reg),
    let i := (s.getS rb).toNat
    encode (.lde rd bank rb) = commandWord 0x18 0 0 0 rd bank.id rb ∧
    (i < capacity s.cfg bank →
      exec (.lde rd bank rb) s = .next { s with
        sreg := s.sreg.set rd (s.bankRead bank i)
        status := s.status.completed }) ∧
    (capacity s.cfg bank ≤ i → exec (.lde rd bank rb) s = .next (s.raise .bounds))

/-- `STE` (R111, R56) into a bank that R111 admits, which `INA` and `INB` are not: the word at index `S[ra]` of the bank becomes `S[rb]`, a store into a twiddle bank clears `TVALID`, and no
other word or register changes; `F_BOUNDS` at or beyond the capacity. -/
def Obligations.SteStoresOneWord : Prop :=
  ∀ (s : State) (bank : Bank) (ra rb : Reg), bank.isInput = false →
    let i := (s.getS ra).toNat
    encode (.ste bank ra rb) = commandWord 0x19 0 0 0 bank.id ra rb ∧
    (i < capacity s.cfg bank →
      ∃ t, exec (.ste bank ra rb) s = .next t ∧ t.bankRead bank i = s.getS rb ∧
        (∀ b j, (b ≠ bank ∨ j ≠ i) → t.bankRead b j = s.bankRead b j) ∧
        t = { s with
          banks := t.banks
          twcfg := { s.twcfg with tvalid := s.twcfg.tvalid && !(bank == .twf || bank == .twi) }
          status := s.status.completed }) ∧
    (capacity s.cfg bank ≤ i → exec (.ste bank ra rb) s = .next (s.raise .bounds))

/-- `NOP` (R112): nothing but completion. -/
def Obligations.NopOnlyCompletes : Prop :=
  ∀ s : State, encode .nop = commandWord 0 0 0 0 0 0 0 ∧ exec .nop s = .next { s with status := s.status.completed }

/-! ### The twiddle table -/

/-- `TWB` (R126, R122, R123): the whole table for length `2^lg` of modulus k in both banks, `TWCFG` = (k, lg, 1), every word
beyond unchanged; `F_LENGTH` above `LOG_NMAX`, then `F_CAPACITY` above `TWCAP`. -/
def Obligations.TwbBuildsTheTable : Prop :=
  ∀ (s : State) (k : Modulus) (lg : Lg),
    encode (.twb k lg) = commandWord 0x20 k.idx 0 lg 0 0 0 ∧
    (s.cfg.logNmax < lg.val → exec (.twb k lg) s = .next (s.raise .length)) ∧
    (lg.val ≤ s.cfg.logNmax → s.cfg.twcap < 2 ^ lg.val → exec (.twb k lg) s = .next (s.raise .capacity)) ∧
    (lg.val ≤ s.cfg.logNmax → 2 ^ lg.val ≤ s.cfg.twcap →
      ∃ t, exec (.twb k lg) s = .next t ∧
        t = { s with banks := t.banks, twcfg := ⟨k, lg, true⟩, status := s.status.completed } ∧
        t.TableUpTo k lg.val ∧
        ∀ b i, ¬ ((b = .twf ∨ b = .twi) ∧ i < 2 ^ lg.val) → t.bankRead b i = s.bankRead b i)

/-! ### The NTT kernels -/

/-- `KDIF` (R146, R141): the block becomes its forward transform in bit-reversed order, canonical; nothing else changes. -/
def Obligations.KdifTransformsABlock : Prop :=
  ∀ (s : State) (bank : Bank) (ra : Reg) (k : Modulus) (lg : Lg), bank.isTransform = true →
    let off := (s.getS ra).toNat
    let i := Instr.kdif bank ra k lg
    encode i = commandWord 0x30 k.idx 0 lg bank.id ra 0 ∧ BlockFaults i s (3 < lg.val) bank off lg k False 0 ∧
    (lg.val ≤ 3 → s.Fits bank off lg → s.LazyBlock bank off lg k →
      ∃ t, exec i s = .next t ∧ s.OnlyWords t (State.InBlock bank off lg) ∧
        ∀ m < 2 ^ lg.val, t.wordAt bank (off + brev lg m) = dft s.cfg k lg (fun j => s.wordAt bank (off + j)) m)

/-- `KDIT` (R147): the block becomes `2^lg` times the inverse transform of the image it held, canonical. -/
def Obligations.KditInvertsABlock : Prop :=
  ∀ (s : State) (bank : Bank) (ra : Reg) (k : Modulus) (lg : Lg), bank.isTransform = true →
    let off := (s.getS ra).toNat
    let i := Instr.kdit bank ra k lg
    encode i = commandWord 0x31 k.idx 0 lg bank.id ra 0 ∧ BlockFaults i s (3 < lg.val) bank off lg k False 0 ∧
    (lg.val ≤ 3 → s.Fits bank off lg → s.LazyBlock bank off lg k →
      ∃ t, exec i s = .next t ∧ s.OnlyWords t (State.InBlock bank off lg) ∧
        ∀ j < 2 ^ lg.val, t.wordAt bank (off + j) = idft s.cfg k lg (fun m => s.wordAt bank (off + m)) j)

/-- `R4DIF` (R150, R148): one forward radix-4 stage on quartets at distance `q = L/4`, with the roots of the table. The words are
congruent to those of the two fused layers, where `ω^q` is a square root of -1. -/
def Obligations.R4difRunsOneStage : Prop :=
  ∀ (s : State) (bank : Bank) (ra : Reg) (k : Modulus) (lg : Lg), bank.isTransform = true →
    let off := (s.getS ra).toNat
    let i := Instr.r4dif bank ra k lg
    let p := s.cfg.p k
    let q := 2 ^ (lg.val - 2)
    let w := unityRoot s.cfg k lg
    let x := fun j => s.wordAt bank (off + j)
    encode i = commandWord 0x32 k.idx 0 lg bank.id ra 0 ∧
    BlockFaults i s (lg.val < 2 ∨ s.cfg.logNmax < lg.val) bank off lg k True lg ∧
    (2 ≤ lg.val → lg.val ≤ s.cfg.logNmax → s.Fits bank off lg → s.TableReady k lg → s.LazyBlock bank off lg k → s.TableTrue →
      ∃ t, exec i s = .next t ∧ s.OnlyWords t (State.InBlock bank off lg) ∧ t.CanonicalBlock bank off lg k ∧
        ∀ j < q,
          let a := (x j : Int)
          let b := (x (j + q) : Int)
          let c := (x (j + 2 * q) : Int)
          let d := (x (j + 3 * q) : Int)
          let y := fun n => (t.wordAt bank (off + j + n) : Int)
          y 0 ≡ a + c + (b + d) [ZMOD p] ∧ y q ≡ (a + c - (b + d)) * w ^ (2 * j) [ZMOD p] ∧
          y (2 * q) ≡ ((a - c) + (b - d) * w ^ q) * w ^ j [ZMOD p] ∧
          y (3 * q) ≡ ((a - c) - (b - d) * w ^ q) * w ^ (3 * j) [ZMOD p])

/-- `R4DIT` (R151, R149): one inverse radix-4 stage. With `L = 4q`, `ω^(-n)` is written `ω^(L-n)`. -/
def Obligations.R4ditRunsOneStage : Prop :=
  ∀ (s : State) (bank : Bank) (ra : Reg) (k : Modulus) (lg : Lg), bank.isTransform = true →
    let off := (s.getS ra).toNat
    let i := Instr.r4dit bank ra k lg
    let p := s.cfg.p k
    let q := 2 ^ (lg.val - 2)
    let w := unityRoot s.cfg k lg
    let x := fun j => s.wordAt bank (off + j)
    encode i = commandWord 0x33 k.idx 0 lg bank.id ra 0 ∧
    BlockFaults i s (lg.val < 2 ∨ s.cfg.logNmax < lg.val) bank off lg k True lg ∧
    (2 ≤ lg.val → lg.val ≤ s.cfg.logNmax → s.Fits bank off lg → s.TableReady k lg → s.LazyBlock bank off lg k → s.TableTrue →
      ∃ t, exec i s = .next t ∧ s.OnlyWords t (State.InBlock bank off lg) ∧ t.CanonicalBlock bank off lg k ∧
        ∀ j < q,
          let a := (x j : Int)
          let b := (x (j + q) : Int) * w ^ (4 * q - 2 * j)
          let c := (x (j + 2 * q) : Int)
          let d := (x (j + 3 * q) : Int) * w ^ (4 * q - 2 * j)
          let u := (c + d) * w ^ (4 * q - j)
          let v := (c - d) * w ^ (4 * q - j - q)
          let y := fun n => (t.wordAt bank (off + j + n) : Int)
          y 0 ≡ a + b + u [ZMOD p] ∧ y q ≡ a - b + v [ZMOD p] ∧ y (2 * q) ≡ a + b - u [ZMOD p] ∧
          y (3 * q) ≡ a - b - v [ZMOD p])

/-- `NTTF` (R154, R156 (1)): word `brev(m)` of the block becomes `X_m` of the forward transform, canonical, for every length up to
the threshold; a table is needed from length 16 up. -/
def Obligations.NttfIsTheForwardTransform : Prop :=
  ∀ (s : State) (bank : Bank) (ra : Reg) (k : Modulus) (lg : Lg), bank.isTransform = true →
    let off := (s.getS ra).toNat
    let i := Instr.nttf bank ra k lg
    encode i = commandWord 0x34 k.idx 0 lg bank.id ra 0 ∧
    BlockFaults i s (s.cfg.logThresh < lg.val ∨ s.cfg.logNmax < lg.val) bank off lg k (4 ≤ lg.val) lg ∧
    (lg.val ≤ s.cfg.logThresh → lg.val ≤ s.cfg.logNmax → s.Fits bank off lg → (4 ≤ lg.val → s.TableReady k lg) →
      s.LazyBlock bank off lg k → s.TableTrue →
      ∃ t, exec i s = .next t ∧ s.OnlyWords t (State.InBlock bank off lg) ∧
        ∀ m < 2 ^ lg.val, t.wordAt bank (off + brev lg m) = dft s.cfg k lg (fun j => s.wordAt bank (off + j)) m)

/-- `NTTI` (R155): the block becomes N times the inverse transform of the image it held, canonical. -/
def Obligations.NttiIsTheInverseTransform : Prop :=
  ∀ (s : State) (bank : Bank) (ra : Reg) (k : Modulus) (lg : Lg), bank.isTransform = true →
    let off := (s.getS ra).toNat
    let i := Instr.ntti bank ra k lg
    encode i = commandWord 0x35 k.idx 0 lg bank.id ra 0 ∧
    BlockFaults i s (s.cfg.logThresh < lg.val ∨ s.cfg.logNmax < lg.val) bank off lg k (4 ≤ lg.val) lg ∧
    (lg.val ≤ s.cfg.logThresh → lg.val ≤ s.cfg.logNmax → s.Fits bank off lg → (4 ≤ lg.val → s.TableReady k lg) →
      s.LazyBlock bank off lg k → s.TableTrue →
      ∃ t, exec i s = .next t ∧ s.OnlyWords t (State.InBlock bank off lg) ∧
        ∀ j < 2 ^ lg.val, t.wordAt bank (off + j) = idft s.cfg k lg (fun m => s.wordAt bank (off + m)) j)

/-- R156 (2): `NTTF`, then `NTTI`, then `SCL` by the Montgomery word of 1/N returns every word of the block to its residue in
[0, p). -/
def Obligations.TransformRoundTrip : Prop :=
  ∀ (s : State) (bank : Bank) (ra rb : Reg) (k : Modulus) (lg : Lg), bank.isTransform = true →
    let off := (s.getS ra).toNat
    lg.val ≤ s.cfg.logThresh → lg.val ≤ s.cfg.logNmax → s.Fits bank off lg → (4 ≤ lg.val → s.TableReady k lg) →
    s.LazyBlock bank off lg k → s.TableTrue → (s.getS rb).toNat < 2 * s.cfg.p k →
    (s.getS rb).toNat * 2 ^ lg.val % s.cfg.p k = 2 ^ 64 % s.cfg.p k →
    ∃ t u v, exec (.nttf bank ra k lg) s = .next t ∧ exec (.ntti bank ra k lg) t = .next u ∧
      (∀ j < 2 ^ lg.val, u.wordAt bank (off + j) = 2 ^ lg.val * s.wordAt bank (off + j) % s.cfg.p k) ∧
      exec (.scl bank ra rb k lg) u = .next v ∧
      ∀ j < 2 ^ lg.val, v.wordAt bank (off + j) = s.wordAt bank (off + j) % s.cfg.p k

/-! ### The pointwise unit -/

/-- `PWMUL` (R171): each word of the destination block becomes the canonical product with the word of the other bank. -/
def Obligations.PwmulMultipliesPointwise : Prop :=
  ∀ (s : State) (bankd banks : Bank) (rb : Reg) (k : Modulus) (lg : Lg), bankd.isTransform = true →
    banks.isTransform = true →
    let off := (s.getS rb).toNat
    let i := Instr.pwmul bankd banks rb k lg
    encode i = commandWord 0x40 k.idx 0 lg bankd.id banks.id rb ∧
    PairFaults i s (s.cfg.logNmax < lg.val) bankd banks off lg k False 0 ∧
    (lg.val ≤ s.cfg.logNmax → bankd ≠ banks → s.Fits bankd off lg → s.LazyBlock bankd off lg k →
      s.LazyBlock banks off lg k →
      ∃ t, exec i s = .next t ∧ s.OnlyWords t (State.InBlock bankd off lg) ∧ t.CanonicalBlock bankd off lg k ∧
        ∀ j < 2 ^ lg.val, t.wordAt bankd (off + j) * 2 ^ 64 % s.cfg.p k
          = s.wordAt bankd (off + j) * s.wordAt banks (off + j) % s.cfg.p k)

/-- `PWSQR` (R172): each word of the block becomes its canonical square. -/
def Obligations.PwsqrSquaresPointwise : Prop :=
  ∀ (s : State) (bank : Bank) (ra : Reg) (k : Modulus) (lg : Lg), bank.isTransform = true →
    let off := (s.getS ra).toNat
    let i := Instr.pwsqr bank ra k lg
    encode i = commandWord 0x41 k.idx 0 lg bank.id ra 0 ∧ BlockFaults i s (s.cfg.logNmax < lg.val) bank off lg k False 0 ∧
    (lg.val ≤ s.cfg.logNmax → s.Fits bank off lg → s.LazyBlock bank off lg k →
      ∃ t, exec i s = .next t ∧ s.OnlyWords t (State.InBlock bank off lg) ∧ t.CanonicalBlock bank off lg k ∧
        ∀ j < 2 ^ lg.val, t.wordAt bank (off + j) * 2 ^ 64 % s.cfg.p k = s.wordAt bank (off + j) ^ 2 % s.cfg.p k)

/-- `SCL` (R173): each word of the block becomes its canonical product with the scale factor `S[rb]`, which must be lazy as the
block must. -/
def Obligations.SclScalesABlock : Prop :=
  ∀ (s : State) (bank : Bank) (ra rb : Reg) (k : Modulus) (lg : Lg), bank.isTransform = true →
    let off := (s.getS ra).toNat
    let f := (s.getS rb).toNat
    let i := Instr.scl bank ra rb k lg
    encode i = commandWord 0x42 k.idx 0 lg bank.id ra rb ∧ BlockFaults i s (s.cfg.logNmax < lg.val) bank off lg k False 0 ∧
    (lg.val ≤ s.cfg.logNmax → s.Fits bank off lg → 2 * s.cfg.p k ≤ f → exec i s = .next (s.raise .range)) ∧
    (lg.val ≤ s.cfg.logNmax → s.Fits bank off lg → f < 2 * s.cfg.p k → s.LazyBlock bank off lg k →
      ∃ t, exec i s = .next t ∧ s.OnlyWords t (State.InBlock bank off lg) ∧ t.CanonicalBlock bank off lg k ∧
        ∀ j < 2 ^ lg.val, t.wordAt bank (off + j) * 2 ^ 64 % s.cfg.p k = s.wordAt bank (off + j) * f % s.cfg.p k)

/-! ### The four-step controller -/

/-- `FWD` (R196, R188): the forward image of the block, below and above the threshold alike: word `brev(m)` becomes `X_m`. -/
def Obligations.FwdIsTheForwardTransform : Prop :=
  ∀ (s : State) (bank : Bank) (ra : Reg) (k : Modulus) (lg : Lg), bank.isTransform = true →
    let off := (s.getS ra).toNat
    let i := Instr.fwd bank ra k lg
    let leaf := min lg.val s.cfg.logThresh
    encode i = commandWord 0x50 k.idx 0 lg bank.id ra 0 ∧
    BlockFaults i s (s.cfg.logNmax < lg.val) bank off lg k (4 ≤ leaf) leaf ∧
    (lg.val ≤ s.cfg.logNmax → s.Fits bank off lg → (4 ≤ leaf → s.TableReady k leaf) → s.LazyBlock bank off lg k →
      s.TableTrue →
      ∃ t, exec i s = .next t ∧ s.OnlyWords t (State.InBlock bank off lg) ∧
        ∀ m < 2 ^ lg.val, t.wordAt bank (off + brev lg m) = dft s.cfg k lg (fun j => s.wordAt bank (off + j)) m)

/-- `CNV2` (R197, R193): the first block becomes the cyclic convolution of the two, canonical, N times it where `NF` = 0; the
second becomes its own forward image. -/
def Obligations.Cnv2ConvolvesTwoBlocks : Prop :=
  ∀ (s : State) (bankd banks : Bank) (rb : Reg) (k : Modulus) (lg : Lg) (nf : Bool), bankd.isTransform = true →
    banks.isTransform = true →
    let off := (s.getS rb).toNat
    let i := Instr.cnv2 bankd banks rb k lg nf
    let leaf := min lg.val s.cfg.logThresh
    let x := fun j => s.wordAt bankd (off + j)
    let y := fun j => s.wordAt banks (off + j)
    encode i = commandWord 0x51 k.idx nf.toNat lg bankd.id banks.id rb ∧
    PairFaults i s (s.cfg.logNmax < lg.val) bankd banks off lg k (4 ≤ leaf) leaf ∧
    (lg.val ≤ s.cfg.logNmax → bankd ≠ banks → s.Fits bankd off lg → (4 ≤ leaf → s.TableReady k leaf) →
      s.LazyBlock bankd off lg k → s.LazyBlock banks off lg k → s.TableTrue →
      ∃ t, exec i s = .next t ∧
        s.OnlyWords t (fun b j => State.InBlock bankd off lg b j ∨ State.InBlock banks off lg b j) ∧
        t.CanonicalBlock bankd off lg k ∧
        (∀ j < 2 ^ lg.val, t.wordAt bankd (off + j) * 2 ^ 64 % s.cfg.p k = scaling nf lg * cyclic lg x y j % s.cfg.p k) ∧
        (∀ m < 2 ^ lg.val, t.wordAt banks (off + brev lg m) = dft s.cfg k lg y m))

/-- `CNV1` (R198, R193): with ANY lazy second block the first becomes the inverse transform of its own image times the words of
the second, which is not written; where the second block is the image of a sequence b, that is the cyclic convolution with b. -/
def Obligations.Cnv1ConvolvesWithAnImage : Prop :=
  ∀ (s : State) (bankd banks : Bank) (rb : Reg) (k : Modulus) (lg : Lg) (nf : Bool), bankd.isTransform = true →
    banks.isTransform = true →
    let off := (s.getS rb).toNat
    let i := Instr.cnv1 bankd banks rb k lg nf
    let leaf := min lg.val s.cfg.logThresh
    let x := fun j => s.wordAt bankd (off + j)
    let y := fun j => s.wordAt banks (off + j)
    encode i = commandWord 0x52 k.idx nf.toNat lg bankd.id banks.id rb ∧
    PairFaults i s (s.cfg.logNmax < lg.val) bankd banks off lg k (4 ≤ leaf) leaf ∧
    (lg.val ≤ s.cfg.logNmax → bankd ≠ banks → s.Fits bankd off lg → (4 ≤ leaf → s.TableReady k leaf) →
      s.LazyBlock bankd off lg k → s.LazyBlock banks off lg k → s.TableTrue →
      ∃ t, exec i s = .next t ∧ s.OnlyWords t (State.InBlock bankd off lg) ∧ t.CanonicalBlock bankd off lg k ∧
        (∀ j < 2 ^ lg.val, t.wordAt bankd (off + j) * 2 ^ 64 * (if nf then 2 ^ lg.val else 1) % s.cfg.p k
          = idft s.cfg k lg (fun m => dft s.cfg k lg x (brev lg m) * y m) j) ∧
        (∀ b : Nat → Nat, (∀ m < 2 ^ lg.val, y (brev lg m) % s.cfg.p k = dft s.cfg k lg b m) →
          ∀ j < 2 ^ lg.val, t.wordAt bankd (off + j) * 2 ^ 64 % s.cfg.p k = scaling nf lg * cyclic lg x b j % s.cfg.p k))

/-- `CNVSQ` (R199, R193): the block becomes its cyclic convolution with itself, canonical, N times it where `NF` = 0. -/
def Obligations.CnvsqConvolvesABlockWithItself : Prop :=
  ∀ (s : State) (bank : Bank) (ra : Reg) (k : Modulus) (lg : Lg) (nf : Bool), bank.isTransform = true →
    let off := (s.getS ra).toNat
    let i := Instr.cnvsq bank ra k lg nf
    let leaf := min lg.val s.cfg.logThresh
    let x := fun j => s.wordAt bank (off + j)
    encode i = commandWord 0x53 k.idx nf.toNat lg bank.id ra 0 ∧
    BlockFaults i s (s.cfg.logNmax < lg.val) bank off lg k (4 ≤ leaf) leaf ∧
    (lg.val ≤ s.cfg.logNmax → s.Fits bank off lg → (4 ≤ leaf → s.TableReady k leaf) → s.LazyBlock bank off lg k →
      s.TableTrue →
      ∃ t, exec i s = .next t ∧ s.OnlyWords t (State.InBlock bank off lg) ∧ t.CanonicalBlock bank off lg k ∧
        ∀ j < 2 ^ lg.val, t.wordAt bank (off + j) * 2 ^ 64 % s.cfg.p k = scaling nf lg * cyclic lg x x j % s.cfg.p k)

/-- R199: `CNVSQ` gives the words that `CNV2` gives on two equal blocks in different banks, whatever the table holds. -/
def Obligations.CnvsqAgreesWithCnv2 : Prop :=
  ∀ (s : State) (bank other : Bank) (ra rb : Reg) (k : Modulus) (lg : Lg) (nf : Bool), bank.isTransform = true →
    other.isTransform = true → bank ≠ other → s.getS ra = s.getS rb →
    let off := (s.getS ra).toNat
    let leaf := min lg.val s.cfg.logThresh
    (∀ j < 2 ^ lg.val, s.wordAt other (off + j) = s.wordAt bank (off + j)) → lg.val ≤ s.cfg.logNmax → s.Fits bank off lg →
    (4 ≤ leaf → s.TableReady k leaf) → s.LazyBlock bank off lg k →
    ∃ t t', exec (.cnvsq bank ra k lg nf) s = .next t ∧ exec (.cnv2 bank other rb k lg nf) s = .next t' ∧
      ∀ j < 2 ^ lg.val, t.wordAt bank (off + j) = t'.wordAt bank (off + j)

/-! ### The CRT combiner and the carry propagator -/

/-- `CRT3` (R218, R219): `V` becomes the one integer below `PPP` with the three residues in `S[ra]`, `S[ra+1]`, `S[ra+2]`;
`F_RANGE` where one is not below its prime. -/
def Obligations.Crt3ReconstructsTheInteger : Prop :=
  ∀ (s : State) (ra : Reg) (h : ra.val + 2 < 16),
    let r0 := (s.sreg[ra.val]).toNat
    let r1 := (s.sreg[ra.val + 1]).toNat
    let r2 := (s.sreg[ra.val + 2]).toNat
    encode (.crt3 ra) = commandWord 0x60 0 0 0 0 ra 0 ∧
    (r0 < s.cfg.p .m0 → r1 < s.cfg.p .m1 → r2 < s.cfg.p .m2 →
      ∃ v, v < s.cfg.p .m0 * s.cfg.p .m1 * s.cfg.p .m2 ∧ v % s.cfg.p .m0 = r0 ∧ v % s.cfg.p .m1 = r1 ∧
        v % s.cfg.p .m2 = r2 ∧
        exec (.crt3 ra) s = .next { s with
          v := ⟨Word.ofNat v, Word.ofNat (v / 2 ^ 64), Word.ofNat (v / 2 ^ 128)⟩
          status := s.status.completed }) ∧
    (s.cfg.p .m0 ≤ r0 ∨ s.cfg.p .m1 ≤ r1 ∨ s.cfg.p .m2 ≤ r2 → exec (.crt3 ra) s = .next (s.raise .range))

/-- `CACC` (R220): `ACC` becomes the sum of `ACC` and `V` modulo 2^192. -/
def Obligations.CaccAddsIntoTheAccumulator : Prop :=
  ∀ s : State,
    encode .cacc = commandWord 0x61 0 0 0 0 0 0 ∧
    ∃ a : Wide, a.w0.toNat + 2 ^ 64 * a.w1.toNat + 2 ^ 128 * a.w2.toNat
        = (s.acc.w0.toNat + 2 ^ 64 * s.acc.w1.toNat + 2 ^ 128 * s.acc.w2.toNat
          + (s.v.w0.toNat + 2 ^ 64 * s.v.w1.toNat + 2 ^ 128 * s.v.w2.toNat)) % 2 ^ 192 ∧
      exec .cacc s = .next { s with acc := a, status := s.status.completed }

/-- `CEMIT` (R221): `S[rd]` becomes `ACC0`, and `ACC` shifts right by one word. -/
def Obligations.CemitEmitsTheLowWord : Prop :=
  ∀ (s : State) (rd : Reg),
    encode (.cemit rd) = commandWord 0x62 0 0 0 rd 0 0 ∧
    exec (.cemit rd) s = .next { s with
      sreg := s.sreg.set rd s.acc.w0
      acc := ⟨s.acc.w1, s.acc.w2, 0⟩
      status := s.status.completed }

/-- `CCLR` (R222): `ACC` becomes 0. -/
def Obligations.CclrClearsTheAccumulator : Prop :=
  ∀ s : State,
    encode .cclr = commandWord 0x63 0 0 0 0 0 0 ∧
    exec .cclr s = .next { s with acc := ⟨0, 0, 0⟩, status := s.status.completed }

/-- `CRTC` (R223, R225): with `v_i` the integer below `PPP` whose residues the channel words at i represent, `OUT[0..n]` and what
stays in `ACC` have the value `Σ v_i·2^(64i)`; `V` ends as the last `v_i`, `OLEN` as n + 1. -/
def Obligations.CrtcReconstructsAndCarries : Prop :=
  ∀ s : State,
    let n := s.clen.toNat
    encode .crtc = commandWord 0x64 0 0 0 0 0 0 ∧
    (n = 0 → exec .crtc s = .next (s.raise .length)) ∧ (s.cfg.ncap < n → exec .crtc s = .next (s.raise .capacity)) ∧
    (n ≠ 0 → n ≤ s.cfg.ncap →
      ∃ (t : State) (v : Nat → Nat), exec .crtc s = .next t ∧
        (∀ i < n, v i < s.cfg.p .m0 * s.cfg.p .m1 * s.cfg.p .m2 ∧
          ∀ k, v i * 2 ^ 64 % s.cfg.p k = s.wordAt (channel k) i % s.cfg.p k) ∧
        t.limbValue .out (n + 1)
            + (t.acc.w0.toNat + 2 ^ 64 * t.acc.w1.toNat + 2 ^ 128 * t.acc.w2.toNat) * 2 ^ (64 * (n + 1))
          = ∑ i ∈ Finset.range n, v i * 2 ^ (64 * i) ∧
        t = { s with
          banks := t.banks
          v := ⟨Word.ofNat (v (n - 1)), Word.ofNat (v (n - 1) / 2 ^ 64), Word.ofNat (v (n - 1) / 2 ^ 128)⟩
          acc := t.acc
          olen := Word.ofNat (n + 1)
          status := s.status.completed } ∧
        ∀ b i, ¬ (b = .out ∧ i ≤ n) → t.bankRead b i = s.bankRead b i)

/-! ### The laws of the transforms -/

/-- R156 (3) and (4), on a block d (and, for (3), a block b) at one offset. (3) `NTTF` of both, `PWMUL` and `NTTI` leave the
canonical Montgomery words of N times the cyclic convolution. (4) `NTTF` is l radix-2 DIF layers; and `R4DIF` at l, then `NTTF` at
l - 2 on each quarter, leave the words of `NTTF` at l. -/
def Obligations.TransformLaws : Prop :=
  ∀ (s : State) (d b : Bank) (r : Reg) (k : Modulus) (lg : Lg), d.isTransform = true → b.isTransform = true →
    let off := (s.getS r).toNat
    let x := fun j => s.wordAt d (off + j)
    let y := fun j => s.wordAt b (off + j)
    lg.val ≤ s.cfg.logThresh → lg.val ≤ s.cfg.logNmax → s.Fits d off lg → (4 ≤ lg.val → s.TableReady k lg) →
    s.LazyBlock d off lg k → s.TableTrue →
    (d ≠ b → s.LazyBlock b off lg k →
      ∃ t u v w, exec (.nttf d r k lg) s = .next t ∧ exec (.nttf b r k lg) t = .next u ∧ exec (.pwmul d b r k lg) u = .next v ∧
        exec (.ntti d r k lg) v = .next w ∧ w.CanonicalBlock d off lg k ∧
        ∀ j < 2 ^ lg.val, w.wordAt d (off + j) * 2 ^ 64 % s.cfg.p k = 2 ^ lg.val * cyclic lg x y j % s.cfg.p k) ∧
    (∃ t, exec (.nttf d r k lg) s = .next t ∧ t.CanonicalBlock d off lg k ∧
      (∀ i < 2 ^ lg.val, (t.wordAt d (off + i) : Int)
        ≡ difLayers (fun l => unityRoot s.cfg k l) lg (fun j => x j) i [ZMOD s.cfg.p k]) ∧
      ∀ (lq : Lg) (r1 r2 r3 : Reg), lq.val + 2 = lg.val → s.TableReady k lg → (s.getS r1).toNat = off + 2 ^ lq.val →
        (s.getS r2).toNat = off + 2 * 2 ^ lq.val → (s.getS r3).toNat = off + 3 * 2 ^ lq.val →
        ∃ e t0 t1 t2 t3, exec (.r4dif d r k lg) s = .next e ∧ exec (.nttf d r k lq) e = .next t0 ∧
          exec (.nttf d r1 k lq) t0 = .next t1 ∧ exec (.nttf d r2 k lq) t1 = .next t2 ∧ exec (.nttf d r3 k lq) t2 = .next t3 ∧
          ∀ i < 2 ^ lg.val, t3.wordAt d (off + i) = t.wordAt d (off + i))

/-! ### Orchestration -/

/-- `LDM` (R246): the limbs of the input bank as canonical Montgomery words, then zeros up to `2^lg`; a length of 0 or above `2^lg`
is `F_LENGTH`, a block above the bank `F_BOUNDS`. -/
def Obligations.LdmLoadsAndPads : Prop :=
  ∀ (s : State) (bank src : Bank) (k : Modulus) (lg : Lg), bank.isTransform = true → (src = .ina ∨ src = .inb) →
    let i := Instr.ldm bank src k lg
    let n := if src = .ina then s.len1.toNat else s.len2.toNat
    encode i = commandWord 0x70 k.idx 0 lg bank.id src.id 0 ∧
    (s.cfg.logNmax < lg.val ∨ n = 0 ∨ 2 ^ lg.val < n → exec i s = .next (s.raise .length)) ∧
    (lg.val ≤ s.cfg.logNmax → n ≠ 0 → n ≤ 2 ^ lg.val → s.cfg.ncap < 2 ^ lg.val → exec i s = .next (s.raise .bounds)) ∧
    (lg.val ≤ s.cfg.logNmax → n ≠ 0 → n ≤ 2 ^ lg.val → 2 ^ lg.val ≤ s.cfg.ncap →
      ∃ t, exec i s = .next t ∧ s.OnlyWords t (State.InBlock bank 0 lg) ∧
        ∀ j < 2 ^ lg.val, t.wordAt bank j = if j < n then s.wordAt src j * 2 ^ 64 % s.cfg.p k else 0)

/-- `MUL` (R248, R250, R253): its faults; and, where it does not fault, its end state without what needs R7 (e): the channels
hold the linear convolution of the limbs, `SCR` the image of the second operand and the tables those of modulus 2. -/
def Obligations.MulEndState : Prop :=
  ∀ s : State,
    let n1 := s.len1.toNat
    let n2 := s.len2.toNat
    encode .mul = commandWord 0x71 0 0 0 0 0 0 ∧
    (n1 = 0 ∨ n2 = 0 → exec .mul s = .next (s.raise .length)) ∧
    (n1 ≠ 0 → n2 ≠ 0 → s.cfg.ncap < n1 + n2 - 1 → exec .mul s = .next (s.raise .capacity)) ∧
    (n1 ≠ 0 → n2 ≠ 0 → n1 + n2 - 1 ≤ s.cfg.ncap → ∀ l, IsLeastLog (n1 + n2 - 1) l →
      ∃ t, exec .mul s = .next t ∧
        t = { s with
          banks := t.banks
          v := t.v
          acc := t.acc
          twcfg := t.twcfg
          clen := Word.ofNat (n1 + n2 - 1)
          lgn := Word.ofNat l
          olen := Word.ofNat (n1 + n2)
          status := s.status.completed } ∧
        (∀ k, ∀ i < 2 ^ l, t.wordAt (channel k) i = linear n1 n2 (s.wordAt .ina) (s.wordAt .inb) i * 2 ^ 64 % s.cfg.p k) ∧
        (∀ m < 2 ^ l, t.wordAt .scr (brev l m)
          = dft s.cfg .m2 l (fun j => if j < n2 then s.wordAt .inb j * 2 ^ 64 % s.cfg.p .m2 else 0) m) ∧
        t.TableReady .m2 (min l s.cfg.logThresh) ∧ t.twcfg.tlg.val = min l s.cfg.logThresh ∧ t.TableTrue ∧
        (∀ b i, ¬ ((b = .ch0 ∨ b = .ch1 ∨ b = .ch2 ∨ b = .scr) ∧ i < 2 ^ l) →
          ¬ ((b = .twf ∨ b = .twi) ∧ i < 2 ^ min l s.cfg.logThresh) → ¬ (b = .out ∧ i < n1 + n2) →
          t.bankRead b i = s.bankRead b i))

/-- `SQR` (R248, R251, R253): as `MUL` with `INA` and `LEN1` for both operands, and again without what needs R7 (e); `SCR` is not
written. -/
def Obligations.SqrEndState : Prop :=
  ∀ s : State,
    let n := s.len1.toNat
    encode .sqr = commandWord 0x72 0 0 0 0 0 0 ∧
    (n = 0 → exec .sqr s = .next (s.raise .length)) ∧
    (n ≠ 0 → s.cfg.ncap < 2 * n - 1 → exec .sqr s = .next (s.raise .capacity)) ∧
    (n ≠ 0 → 2 * n - 1 ≤ s.cfg.ncap → ∀ l, IsLeastLog (2 * n - 1) l →
      ∃ t, exec .sqr s = .next t ∧
        t = { s with
          banks := t.banks
          v := t.v
          acc := t.acc
          twcfg := t.twcfg
          clen := Word.ofNat (2 * n - 1)
          lgn := Word.ofNat l
          olen := Word.ofNat (2 * n)
          status := s.status.completed } ∧
        (∀ k, ∀ i < 2 ^ l, t.wordAt (channel k) i = linear n n (s.wordAt .ina) (s.wordAt .ina) i * 2 ^ 64 % s.cfg.p k) ∧
        t.TableReady .m2 (min l s.cfg.logThresh) ∧ t.twcfg.tlg.val = min l s.cfg.logThresh ∧ t.TableTrue ∧
        (∀ b i, ¬ ((b = .ch0 ∨ b = .ch1 ∨ b = .ch2) ∧ i < 2 ^ l) →
          ¬ ((b = .twf ∨ b = .twi) ∧ i < 2 ^ min l s.cfg.logThresh) → ¬ (b = .out ∧ i < 2 * n) →
          t.bankRead b i = s.bankRead b i))

/-- R254, with R253's last rows: under R7 (e), `MUL` leaves the exact product of the two limb sequences in `OUT`, the last
coefficient in `V` and 0 in `ACC`. -/
def Obligations.MulComputesTheProduct : Prop :=
  ∀ s : State, s.cfg.ProductBound → s.len1.toNat ≠ 0 → s.len2.toNat ≠ 0 →
    s.len1.toNat + s.len2.toNat - 1 ≤ s.cfg.ncap →
    ∃ t, exec .mul s = .next t ∧ t.status.done = true ∧ t.olen.toNat = s.len1.toNat + s.len2.toNat ∧
      t.limbValue .out (s.len1.toNat + s.len2.toNat)
        = s.limbValue .ina s.len1.toNat * s.limbValue .inb s.len2.toNat ∧
      t.v.val = s.wordAt .ina (s.len1.toNat - 1) * s.wordAt .inb (s.len2.toNat - 1) ∧ t.acc = ⟨0, 0, 0⟩

/-- R254 for `SQR`: the exact square. -/
def Obligations.SqrComputesTheSquare : Prop :=
  ∀ s : State, s.cfg.ProductBound → s.len1.toNat ≠ 0 → 2 * s.len1.toNat - 1 ≤ s.cfg.ncap →
    ∃ t, exec .sqr s = .next t ∧ t.status.done = true ∧ t.olen.toNat = 2 * s.len1.toNat ∧
      t.limbValue .out (2 * s.len1.toNat) = s.limbValue .ina s.len1.toNat ^ 2 ∧
      t.v.val = s.wordAt .ina (s.len1.toNat - 1) ^ 2 ∧ t.acc = ⟨0, 0, 0⟩

/-- R255: `MUL` does what the host can do itself with `S0` = 0: write `CLEN`, then for each modulus `TWB`, `LDM`, `LDM`, `CNV2`,
then `CRTC`. The states differ in `LGN` and `CMD` alone. -/
def Obligations.MulIsItsCommandSequence : Prop :=
  ∀ (s : State) (lg t : Lg), s.status.busy = false → s.status.fault = false → s.len1.toNat ≠ 0 → s.len2.toNat ≠ 0 →
    s.len1.toNat + s.len2.toNat - 1 ≤ s.cfg.ncap → s.getS 0 = 0 → IsLeastLog (s.len1.toNat + s.len2.toNat - 1) lg →
    t.val = min lg.val s.cfg.logThresh →
    let pass := fun k : Modulus => [Instr.twb k t, .ldm (channel k) .ina k lg, .ldm .scr .inb k lg,
      .cnv2 (channel k) .scr 0 k lg true]
    let commands := pass .m0 ++ pass .m1 ++ pass .m2 ++ [Instr.crtc]
    let moves := HostMove.writeReg 4 (Word.ofNat (s.len1.toNat + s.len2.toNat - 1))
      :: commands.map fun i => HostMove.writeReg 0 (encode i)
    ∃ u : State, Host.Core.run Sys2Proof.core 1 ({ s with host := [.writeReg 0 (encode .mul)] } : State) = .next u ∧
      Host.Core.run Sys2Proof.core 14 ({ s with host := moves } : State)
        = .next ({ u with lgn := s.lgn, cmd := encode .crtc } : State)

/-- R257: what `MUL` leaves depends on `LEN1`, `LEN2`, the input limbs and the ROM alone: two runs that agree on these, whatever
else they held before, agree on every register and every word that `MUL` writes. -/
def Obligations.MulDependsOnItsInputsAlone : Prop :=
  ∀ (s s' : State) (l : Nat), s'.cfg = s.cfg → s'.len1 = s.len1 → s'.len2 = s.len2 →
    (∀ i < s.len1.toNat, s'.bankRead .ina i = s.bankRead .ina i) →
    (∀ i < s.len2.toNat, s'.bankRead .inb i = s.bankRead .inb i) →
    s.len1.toNat ≠ 0 → s.len2.toNat ≠ 0 → s.len1.toNat + s.len2.toNat - 1 ≤ s.cfg.ncap →
    IsLeastLog (s.len1.toNat + s.len2.toNat - 1) l →
    ∃ t t', exec .mul s = .next t ∧ exec .mul s' = .next t' ∧ t'.v = t.v ∧ t'.acc = t.acc ∧ t'.clen = t.clen ∧
      t'.lgn = t.lgn ∧ t'.olen = t.olen ∧ t'.twcfg = t.twcfg ∧
      (∀ i < s.len1.toNat + s.len2.toNat, t'.bankRead .out i = t.bankRead .out i) ∧
      (∀ b, b.isTransform = true → ∀ i < 2 ^ l, t'.bankRead b i = t.bankRead b i) ∧
      (∀ b, b.isTwiddle = true → ∀ i < 2 ^ min l s.cfg.logThresh, t'.bankRead b i = t.bankRead b i)

/-- R251: `SQR` ends as `MUL` with `INB` = `INA` and `LEN2` = `LEN1`, in `OUT`, `CLEN`, `OLEN`, `LGN` and the three channels, under
every configuration. -/
def Obligations.SqrAgreesWithMul : Prop :=
  ∀ (s : State) (l : Nat), s.len2 = s.len1 → (∀ i < s.len1.toNat, s.bankRead .inb i = s.bankRead .ina i) →
    s.len1.toNat ≠ 0 → 2 * s.len1.toNat - 1 ≤ s.cfg.ncap → IsLeastLog (2 * s.len1.toNat - 1) l →
    ∃ t t', exec .sqr s = .next t ∧ exec .mul s = .next t' ∧ t'.clen = t.clen ∧ t'.olen = t.olen ∧ t'.lgn = t.lgn ∧
      (∀ i < 2 * s.len1.toNat, t'.bankRead .out i = t.bankRead .out i) ∧
      (∀ k, ∀ i < 2 ^ l, t'.bankRead (channel k) i = t.bankRead (channel k) i)

end
end

