-- ==== Sys2Proof/Laws/Transform.lean ====
section
/-! SUPPORT. The transforms as functions on a commutative ring: the radix-2 network in bit-reversed order, forward (`difF`) and
inverse (`ditF`), its value as a sum over powers of the root, and the convolution theorem. No word of the block occurs here. -/

namespace Sys2Proof.Machine

open Finset

section Ring

variable {F : Type*} [CommRing F]

/-- w is a root of unity of order `2^l` in the sense the network needs: its half power is -1. -/
def HalfRoot (w : F) (l : Nat) : Prop := l ≠ 0 → w ^ 2 ^ (l - 1) = -1

theorem HalfRoot.square {w : F} {l : Nat} (h : HalfRoot w (l + 1)) : HalfRoot (w ^ 2) l := by
  intro hl
  have := h (by omega)
  obtain ⟨n, rfl⟩ := Nat.exists_eq_succ_of_ne_zero hl
  rw [← pow_mul, ← pow_succ']
  simpa using this

theorem HalfRoot.half {w : F} {l : Nat} (h : HalfRoot w (l + 1)) : w ^ 2 ^ l = -1 := by simpa using h (by omega)

theorem HalfRoot.full {w : F} {l : Nat} (h : HalfRoot w l) (h0 : l = 0 → w = 1) : w ^ 2 ^ l = 1 := by
  obtain _ | l := l
  · simp [h0]
  · rw [pow_succ, pow_mul, h.half]
    norm_num

/-- The forward network: l layers of `(a, b) ↦ (a + b, (a - b)·w^j)`, large to small. -/
def difF (w : F) : (l : Nat) → (Nat → F) → Nat → F
  | 0, x, i => x i
  | l + 1, x, i =>
    if i < 2 ^ l then difF (w ^ 2) l (fun j => x j + x (j + 2 ^ l)) i
    else difF (w ^ 2) l (fun j => (x j - x (j + 2 ^ l)) * w ^ j) (i - 2 ^ l)

/-- The inverse network: l layers of `(a, b) ↦ (a + b·w^j, a - b·w^j)`, small to large. -/
def ditF (w : F) : (l : Nat) → (Nat → F) → Nat → F
  | 0, y, i => y i
  | l + 1, y, i =>
    if i < 2 ^ l then ditF (w ^ 2) l y i + ditF (w ^ 2) l (fun t => y (t + 2 ^ l)) i * w ^ i
    else ditF (w ^ 2) l y (i - 2 ^ l) - ditF (w ^ 2) l (fun t => y (t + 2 ^ l)) (i - 2 ^ l) * w ^ (i - 2 ^ l)

theorem difF_congr (w : F) (l : Nat) {x y : Nat → F} (h : ∀ j < 2 ^ l, x j = y j) {i : Nat} (hi : i < 2 ^ l) :
    difF w l x i = difF w l y i := by
  induction l generalizing w x y i with
  | zero => exact h i hi
  | succ l ih =>
    rw [pow_succ] at hi h
    simp only [difF]
    split
    · exact ih _ (fun j hj => by rw [h j (by omega), h _ (by omega)]) ‹_›
    · exact ih _ (fun j hj => by rw [h j (by omega), h _ (by omega)]) (by omega)

theorem ditF_congr (w : F) (l : Nat) {x y : Nat → F} (h : ∀ j < 2 ^ l, x j = y j) {i : Nat} (hi : i < 2 ^ l) :
    ditF w l x i = ditF w l y i := by
  induction l generalizing w x y i with
  | zero => exact h i hi
  | succ l ih =>
    rw [pow_succ] at hi h
    simp only [ditF]
    split
    · rw [ih _ (fun j hj => h j (by omega)) ‹_›, ih _ (fun j hj => h _ (by omega)) ‹_›]
    · rw [ih (i := i - 2 ^ l) _ (fun j hj => h j (by omega)) (by omega),
        ih (i := i - 2 ^ l) _ (fun j hj => h _ (by omega)) (by omega)]

theorem ditF_smul (w a : F) (l : Nat) (y : Nat → F) (i : Nat) :
    ditF w l (fun t => a * y t) i = a * ditF w l y i := by
  induction l generalizing w y i with
  | zero => rfl
  | succ l ih => simp only [ditF, ih]; split <;> ring

theorem brev_lt (l i : Nat) : brev l i < 2 ^ l := by
  induction l generalizing i with
  | zero => simp [brev]
  | succ l ih =>
    have := ih (i / 2)
    have : i % 2 * 2 ^ l ≤ 1 * 2 ^ l := Nat.mul_le_mul_right _ (by omega)
    rw [brev, pow_succ]
    omega

/-- A sum over `2^(l+1)` indices by its two halves. -/
theorem sum_halves (l : Nat) (f : Nat → F) :
    ∑ j ∈ range (2 ^ (l + 1)), f j = ∑ j ∈ range (2 ^ l), (f j + f (j + 2 ^ l)) := by
  rw [pow_succ, mul_two, sum_range_add, ← sum_add_distrib]
  exact sum_congr rfl fun j _ => by rw [add_comm j]

/-- A sum over `2^(l+1)` indices by the even and the odd ones. -/
theorem sum_parity (l : Nat) (f : Nat → F) :
    ∑ m ∈ range (2 ^ (l + 1)), f m = ∑ m ∈ range (2 ^ l), (f (2 * m) + f (2 * m + 1)) := by
  rw [pow_succ']
  generalize 2 ^ l = n
  induction n with
  | zero => simp
  | succ n ih => rw [show 2 * (n + 1) = 2 * n + 1 + 1 by ring, sum_range_succ, sum_range_succ, ih, sum_range_succ]; ring

theorem brev_even (l m : Nat) : brev (l + 1) (2 * m) = brev l m := by simp [brev]

theorem brev_odd (l m : Nat) : brev (l + 1) (2 * m + 1) = brev l m + 2 ^ l := by
  simp only [brev, Nat.mul_add_mod, Nat.one_mod, one_mul]
  rw [show (2 * m + 1) / 2 = m by omega, add_comm]

/-- The forward network leaves `X_m` at `brev(m)` (R156 (1)). -/
theorem difF_brev {w : F} {l : Nat} (h : HalfRoot w l) (x : Nat → F) {m : Nat} (hm : m < 2 ^ l) :
    difF w l x (brev l m) = ∑ j ∈ range (2 ^ l), x j * w ^ (j * m) := by
  induction l generalizing w x m with
  | zero =>
    obtain rfl : m = 0 := by simpa using hm
    simp [difF, brev]
  | succ l ih =>
    have hb := brev_lt l
    rw [sum_halves]
    rw [pow_succ] at hm
    obtain ⟨n, rfl | rfl⟩ := m.even_or_odd'
    · rw [brev_even, difF, if_pos (hb n), ih h.square _ (by omega)]
      refine sum_congr rfl fun j _ => ?_
      have : w ^ (2 ^ l * (2 * n)) = 1 := by rw [pow_mul, h.half, pow_mul]; norm_num
      rw [← pow_mul, show (j + 2 ^ l) * (2 * n) = j * (2 * n) + 2 ^ l * (2 * n) by ring, pow_add, this]
      ring
    · rw [brev_odd, difF, if_neg (by omega), Nat.add_sub_cancel, ih h.square _ (by omega)]
      refine sum_congr rfl fun j _ => ?_
      have : w ^ (2 ^ l * (2 * n + 1)) = -1 := by rw [pow_mul, h.half, pow_succ, pow_mul]; norm_num
      rw [← pow_mul, show (j + 2 ^ l) * (2 * n + 1) = j * (2 * n + 1) + 2 ^ l * (2 * n + 1) by ring, pow_add, this]
      ring

/-- The inverse network computes the sum over the powers of its root, from bit-reversed order. -/
theorem ditF_eq {w : F} {l : Nat} (h : HalfRoot w l) (y : Nat → F) {i : Nat} (hi : i < 2 ^ l) :
    ditF w l y i = ∑ m ∈ range (2 ^ l), y (brev l m) * w ^ (i * m) := by
  induction l generalizing w y i with
  | zero =>
    obtain rfl : i = 0 := by simpa using hi
    simp [ditF, brev]
  | succ l ih =>
    rw [sum_parity]
    simp only [brev_even, brev_odd, ditF]
    rw [pow_succ] at hi
    split
    · rw [ih h.square _ ‹_›, ih h.square _ ‹_›, sum_mul, ← sum_add_distrib]
      exact sum_congr rfl fun m _ => by rw [← pow_mul]; ring
    · rw [ih h.square _ (by omega), ih h.square _ (by omega), sum_mul, ← sum_sub_distrib]
      refine sum_congr rfl fun m _ => ?_
      obtain ⟨d, hd⟩ : ∃ d, i = d + 2 ^ l := ⟨i - 2 ^ l, by omega⟩
      subst hd
      have h1 : w ^ (2 ^ l * (2 * m)) = 1 := by rw [pow_mul, h.half, pow_mul]; norm_num
      have h2 : w ^ (2 ^ l * (2 * m + 1)) = -1 := by rw [pow_mul, h.half, pow_succ, pow_mul]; norm_num
      rw [Nat.add_sub_cancel, ← pow_mul, add_mul, add_mul, pow_add, pow_add, h1, h2]
      ring

theorem difF_low (w : F) (l : Nat) (x : Nat → F) {i : Nat} (hi : i < 2 ^ l) :
    difF w (l + 1) x i = difF (w ^ 2) l (fun j => x j + x (j + 2 ^ l)) i := if_pos hi

theorem difF_high (w : F) (l : Nat) (x : Nat → F) (i : Nat) :
    difF w (l + 1) x (2 ^ l + i) = difF (w ^ 2) l (fun j => (x j - x (j + 2 ^ l)) * w ^ j) i := by
  rw [difF, if_neg (by omega), Nat.add_sub_cancel_left]

theorem ditF_low (w : F) (l : Nat) (y : Nat → F) {i : Nat} (hi : i < 2 ^ l) :
    ditF w (l + 1) y i = ditF (w ^ 2) l y i + ditF (w ^ 2) l (fun t => y (t + 2 ^ l)) i * w ^ i := if_pos hi

theorem ditF_high (w : F) (l : Nat) (y : Nat → F) (i : Nat) :
    ditF w (l + 1) y (2 ^ l + i) = ditF (w ^ 2) l y i - ditF (w ^ 2) l (fun t => y (t + 2 ^ l)) i * w ^ i := by
  rw [ditF, if_neg (by omega), Nat.add_sub_cancel_left]

end Ring

section Field

variable {F : Type*} [Field F]

theorem HalfRoot.orderOf {w : F} {l : Nat} (h2 : (2 : F) ≠ 0) (h : HalfRoot w l) (h0 : l = 0 → w = 1) :
    orderOf w = 2 ^ l := by
  obtain _ | l := l
  · simp [h0]
  · have : Fact (Nat.Prime 2) := ⟨Nat.prime_two⟩
    refine orderOf_eq_prime_pow ?_ (h.full h0)
    rw [h.half]
    intro h1
    exact h2 (by linear_combination -h1)

/-- The sum of the powers of `w^t` over a period: N where N divides t, else 0. -/
theorem sum_powers {w : F} {l : Nat} (h2 : (2 : F) ≠ 0) (h : HalfRoot w l) (h0 : l = 0 → w = 1) (t : Nat) :
    ∑ m ∈ range (2 ^ l), w ^ (t * m) = if 2 ^ l ∣ t then (2 : F) ^ l else 0 := by
  simp only [pow_mul]
  split
  · rename_i hd
    rw [← h.orderOf h2 h0, orderOf_dvd_iff_pow_eq_one] at hd
    simp [hd]
  · rename_i hd
    rw [← h.orderOf h2 h0, orderOf_dvd_iff_pow_eq_one] at hd
    have := geom_sum_mul (w ^ t) (2 ^ l)
    rw [← pow_mul, mul_comm t, pow_mul, h.full h0, one_pow, sub_self] at this
    exact (mul_eq_zero.1 this).resolve_right (sub_ne_zero.2 hd)

/-- The inverse network undoes the forward one up to the factor N (R156 (2)). -/
theorem ditF_difF {w v : F} {l : Nat} (h2 : (2 : F) ≠ 0) (h : HalfRoot w l) (h0 : l = 0 → w = 1) (hv : v * w = 1)
    (hv' : HalfRoot v l) (x : Nat → F) {i : Nat} (hi : i < 2 ^ l) :
    ditF v l (difF w l x) i = 2 ^ l * x i := by
  rw [ditF_eq hv' _ hi]
  have hvw : ∀ m, v ^ (i * m) = w ^ ((2 ^ l - i) * m) := fun m => by
    have : w ^ (i * m) * w ^ ((2 ^ l - i) * m) = 1 := by
      rw [← pow_add, ← add_mul, Nat.add_sub_cancel' hi.le, pow_mul, h.full h0, one_pow]
    have h1 : v ^ (i * m) * w ^ (i * m) = 1 := by rw [← mul_pow, hv, one_pow]
    calc v ^ (i * m) = v ^ (i * m) * (w ^ (i * m) * w ^ ((2 ^ l - i) * m)) := by rw [this, mul_one]
      _ = _ := by rw [← mul_assoc, h1, one_mul]
  calc _ = ∑ m ∈ range (2 ^ l), ∑ j ∈ range (2 ^ l), x j * w ^ ((j + (2 ^ l - i)) * m) := by
        refine sum_congr rfl fun m hm => ?_
        rw [difF_brev h _ (mem_range.1 hm), sum_mul, hvw]
        exact sum_congr rfl fun j _ => by rw [mul_assoc, ← pow_add, add_mul]
    _ = ∑ j ∈ range (2 ^ l), x j * if 2 ^ l ∣ j + (2 ^ l - i) then 2 ^ l else 0 := by
        rw [sum_comm]
        exact sum_congr rfl fun j _ => by rw [← mul_sum, sum_powers h2 h h0]
    _ = ∑ j ∈ range (2 ^ l), if j = i then 2 ^ l * x i else 0 := by
        refine sum_congr rfl fun j hj => ?_
        rw [mem_range] at hj
        have : 2 ^ l ∣ j + (2 ^ l - i) ↔ j = i := by
          constructor
          · rintro ⟨c, hc⟩
            have hc1 : c = 1 := by
              obtain _ | _ | c := c
              · omega
              · rfl
              · exfalso
                rw [mul_add, mul_add] at hc
                omega
            subst hc1
            omega
          · rintro rfl
            exact ⟨1, by omega⟩
        simp only [this]
        split
        · rename_i hji
          rw [hji, mul_comm]
        · rw [mul_zero]
    _ = _ := by simp [hi]

/-- The convolution theorem in the block's own order (R156 (3)), not normalised. -/
theorem ditF_mul_difF {w v : F} {l : Nat} (h2 : (2 : F) ≠ 0) (h : HalfRoot w l) (h0 : l = 0 → w = 1) (hv : v * w = 1)
    (hv' : HalfRoot v l) (x y : Nat → F) {i : Nat} (hi : i < 2 ^ l) :
    ditF v l (fun n => difF w l x n * difF w l y n) i
      = 2 ^ l * ∑ j ∈ range (2 ^ l), x j * y ((i + 2 ^ l - j) % 2 ^ l) := by
  have hN : 0 < 2 ^ l := Nat.two_pow_pos l
  rw [← ditF_difF h2 h h0 hv hv' (fun i => ∑ j ∈ range (2 ^ l), x j * y ((i + 2 ^ l - j) % 2 ^ l)) hi, ditF_eq hv' _ hi,
    ditF_eq hv' _ hi]
  refine sum_congr rfl fun m hm => ?_
  rw [mem_range] at hm
  congr 1
  rw [difF_brev h _ hm, difF_brev h _ hm, difF_brev h _ hm, sum_mul]
  simp only [sum_mul, mul_sum]
  conv_rhs => rw [sum_comm]
  refine sum_congr rfl fun j hj => ?_
  rw [mem_range] at hj
  refine sum_nbij' (fun t => (j + t) % 2 ^ l) (fun t => (t + 2 ^ l - j) % 2 ^ l) ?_ ?_ ?_ ?_ ?_
  · intro t _
    exact mem_range.2 (Nat.mod_lt _ hN)
  · intro t _
    exact mem_range.2 (Nat.mod_lt _ hN)
  · intro t ht
    rw [mem_range] at ht
    rcases Nat.lt_or_ge (j + t) (2 ^ l) with hlt | hge
    · rw [Nat.mod_eq_of_lt hlt, show j + t + 2 ^ l - j = t + 2 ^ l by omega, Nat.add_mod_right, Nat.mod_eq_of_lt ht]
    · rw [Nat.mod_eq_sub_mod hge, Nat.mod_eq_of_lt (show j + t - 2 ^ l < 2 ^ l by omega), show j + t - 2 ^ l + 2 ^ l - j = t by omega,
        Nat.mod_eq_of_lt ht]
  · intro t ht
    rw [mem_range] at ht
    rw [Nat.add_mod_mod, show j + (t + 2 ^ l - j) = t + 2 ^ l by omega, Nat.add_mod_right, Nat.mod_eq_of_lt ht]
  · intro t ht
    rw [mem_range] at ht
    have hidx : ((j + t) % 2 ^ l + 2 ^ l - j) % 2 ^ l = t := by
      rcases Nat.lt_or_ge (j + t) (2 ^ l) with hlt | hge
      · rw [Nat.mod_eq_of_lt hlt, show j + t + 2 ^ l - j = t + 2 ^ l by omega, Nat.add_mod_right, Nat.mod_eq_of_lt ht]
      · rw [Nat.mod_eq_sub_mod hge, Nat.mod_eq_of_lt (show j + t - 2 ^ l < 2 ^ l by omega), show j + t - 2 ^ l + 2 ^ l - j = t by omega,
          Nat.mod_eq_of_lt ht]
    rw [hidx]
    have hpow : w ^ ((j + t) % 2 ^ l * m) = w ^ ((j + t) * m) := by
      rw [pow_mul, pow_mul, ← pow_mod_orderOf w (j + t), h.orderOf h2 h0]
    rw [hpow, add_mul, pow_add]
    ring

end Field

end Sys2Proof.Machine
end

