-- ==== Sys2Proof/Laws/Config.lean ====
section
/-! SUPPORT. What R7 says of a configuration, and the roots and ROM constants of R10, R26 and R121 as elements of the field of
residues of each modulus. -/

namespace Sys2Proof

open Machine (unityRoot HalfRoot)

/-! ### Powers modulo a number -/

theorem powModFrom_eq (m : Nat) : ∀ fuel b e r, e < 2 ^ fuel → powModFrom fuel b e m r = r * b ^ e % m
  | 0, b, e, r, h => by
    obtain rfl : e = 0 := by simpa using h
    simp [powModFrom]
  | fuel + 1, b, e, r, h => by
    rw [pow_succ] at h
    rw [powModFrom, powModFrom_eq m fuel _ _ _ (by omega)]
    have key : ∀ n, (b * b % m) ^ n ≡ b ^ (2 * n) [MOD m] := fun n => by
      rw [pow_mul, pow_two]
      exact (Nat.mod_modEq _ _).pow n
    split
    · rename_i he
      change _ ≡ _ [MOD m]
      refine ((Nat.mod_modEq _ _).mul (key _)).trans ?_
      rw [mul_assoc, ← pow_succ', show 2 * (e / 2) + 1 = e by omega]
    · refine Nat.ModEq.trans ((Nat.ModEq.refl r).mul (key _)) ?_
      rw [show 2 * (e / 2) = e by omega]

/-- `powMod` is the power modulo m. -/
theorem powMod_eq (b e m : Nat) : powMod b e m = b ^ e % m := by
  rw [powMod, powModFrom_eq _ _ _ _ _ (Nat.lt_log2_self), one_mul]

namespace Config

variable (c : Config) (k : Modulus)

/-! ### The constraints of R6 and R7 -/

theorem prime : (c.p k).Prime := (c.legal.modulus k).prime

theorem odd : c.p k % 2 = 1 := (c.legal.modulus k).odd

theorem p_lt : c.p k < 2 ^ 63 := (c.legal.modulus k).lt

theorem p_pos : 0 < c.p k := (c.prime k).pos

theorem two_lt_p : 2 < c.p k := by
  have := (c.prime k).two_le
  have := c.odd k
  omega

theorem nmax_ge : 3 ≤ c.logNmax := c.legal.nmax_ge

theorem nmax_le : c.logNmax ≤ 63 := c.legal.nmax_le

theorem ncap_le_nmax : c.logNcap ≤ c.logNmax := c.legal.ncap_le

theorem thresh_pos : 1 ≤ c.logThresh := c.legal.thresh_ge

theorem thresh_lt : c.logThresh < 64 := c.legal.logThresh_lt

theorem ncap_le : c.ncap ≤ 2 ^ 63 := Nat.pow_le_pow_right (by norm_num) (c.ncap_le_nmax.trans c.nmax_le)

theorem ncap_pos : 0 < c.ncap := Nat.two_pow_pos _

theorem twcap_le : c.twcap ≤ c.ncap := Nat.pow_le_pow_right (by norm_num) (min_le_right _ _)

theorem p_ne {j : Modulus} (h : j ≠ k) : c.p j ≠ c.p k := by
  have h1 := c.legal.distinct01
  have h2 := c.legal.distinct02
  have h3 := c.legal.distinct12
  cases j <;> cases k <;> first | exact absurd rfl h | assumption | exact Ne.symm ‹_›

theorem coprime {j : Modulus} (h : j ≠ k) : (c.p j).Coprime (c.p k) :=
  (Nat.coprime_primes (c.prime j) (c.prime k)).2 (c.p_ne k h)

/-- R7 (f): three times the product of the primes fits 192 bits. -/
theorem three_ppp_lt : 3 * c.ppp < 2 ^ 192 := by
  have h : c.p .m0 * c.p .m1 * c.p .m2 ≤ 2 ^ 63 * 2 ^ 63 * 2 ^ 63 :=
    Nat.mul_le_mul (Nat.mul_le_mul (c.p_lt _).le (c.p_lt _).le) (c.p_lt _).le
  rw [ppp]
  omega

/-! ### The field of residues -/

/-- The residues modulo `P[k]`. -/
abbrev F : Type := ZMod (c.p k)

theorem fact : Fact (c.p k).Prime := ⟨c.prime k⟩

theorem nat_eq_of_cast {a b : Nat} (ha : a < c.p k) (hb : b < c.p k) (h : (a : c.F k) = b) : a = b := by
  have := (ZMod.natCast_eq_natCast_iff a b (c.p k)).1 h
  rwa [Nat.ModEq, Nat.mod_eq_of_lt ha, Nat.mod_eq_of_lt hb] at this

theorem mod_eq_iff (a b : Nat) : a % c.p k = b % c.p k ↔ (a : c.F k) = b :=
  (ZMod.natCast_eq_natCast_iff a b (c.p k)).symm

theorem cast_p : (c.p k : c.F k) = 0 := ZMod.natCast_self _

theorem cast_mod (a : Nat) : ((a % c.p k : Nat) : c.F k) = a := ZMod.natCast_mod _ _

theorem two_ne : (2 : c.F k) ≠ 0 := by
  intro h
  have h' : ((2 : Nat) : c.F k) = 0 := by exact_mod_cast h
  rw [ZMod.natCast_eq_zero_iff] at h'
  exact absurd (Nat.le_of_dvd (by norm_num) h') (by have := c.two_lt_p k; omega)

/-- `2^(-64)` modulo `P[k]` (R14). -/
def ri : c.F k := (2 ^ 64)⁻¹

theorem radix_ne : (2 ^ 64 : c.F k) ≠ 0 := by
  have := c.fact k
  exact pow_ne_zero _ (c.two_ne k)

theorem radix_mul_ri : (2 ^ 64 : c.F k) * c.ri k = 1 := by
  have := c.fact k
  exact mul_inv_cancel₀ (c.radix_ne k)

theorem ri_mul_radix : c.ri k * (2 ^ 64 : c.F k) = 1 := by rw [mul_comm, radix_mul_ri]

/-- An equation may be scaled by the radix. -/
theorem mul_radix_inj {a b : c.F k} : a * 2 ^ 64 = b * 2 ^ 64 ↔ a = b := by
  have := c.fact k
  exact mul_left_inj' (c.radix_ne k)

/-- The canonical Montgomery word of a natural. -/
theorem mont_eq (a : Nat) : c.mont k a = a * 2 ^ 64 % c.p k := by rw [mont, radix, Nat.mul_comm]

theorem one_eq : c.one k = 2 ^ 64 % c.p k := by rw [one, radix]

theorem mont_lt (a : Nat) : c.mont k a < c.p k := Nat.mod_lt _ (c.p_pos k)

theorem cast_mont (a : Nat) : (c.mont k a : c.F k) = a * 2 ^ 64 := by
  rw [mont, cast_mod, mul_comm _ ((2 : c.F k) ^ 64)]
  push_cast
  rfl

theorem inverse_lt (a : Nat) : c.inverse k a < c.p k := by
  rw [inverse, powMod_eq]
  exact Nat.mod_lt _ (c.p_pos k)

theorem cast_inverse (a : Nat) : (c.inverse k a : c.F k) = (a : c.F k)⁻¹ := by
  have := c.fact k
  have h2 := c.two_lt_p k
  rw [inverse, powMod_eq, cast_mod, Nat.cast_pow]
  by_cases h : (a : c.F k) = 0
  · rw [h, inv_zero, zero_pow (by omega)]
  · refine eq_inv_of_mul_eq_one_left ?_
    rw [← pow_succ, show c.p k - 2 + 1 = c.p k - 1 by omega]
    exact ZMod.pow_card_sub_one_eq_one h

/-! ### Roots of unity (R121) -/

/-- `ω_L`, `L = 2^l`, as a residue. -/
def rootF (l : Nat) : c.F k := ((unityRoot c k l : Nat) : c.F k)

theorem cast_root_half : ((c.root k : Nat) : c.F k) ^ 2 ^ (c.logNmax - 1) = -1 := by
  have h := (c.legal.modulus k).root_half
  have h1 : (((c.root k ^ 2 ^ (c.logNmax - 1) % c.p k : Nat)) : c.F k) = ((c.p k - 1 : Nat) : c.F k) := congrArg _ h
  rw [cast_mod, Nat.cast_pow, Nat.cast_sub (c.p_pos k), cast_p] at h1
  rw [h1]
  norm_num

theorem rootF_zero : c.rootF k 0 = 1 := by
  rw [rootF, unityRoot, Nat.sub_zero, Nat.cast_pow]
  obtain ⟨n, hn⟩ : ∃ n, c.logNmax = n + 1 := ⟨c.logNmax - 1, by have := c.nmax_ge; omega⟩
  have h := c.cast_root_half k
  rw [hn, Nat.add_sub_cancel] at h
  rw [hn, pow_succ, pow_mul, h]
  norm_num

theorem rootF_sq {l : Nat} (h : l + 1 ≤ c.logNmax) : c.rootF k (l + 1) ^ 2 = c.rootF k l := by
  rw [rootF, rootF, unityRoot, unityRoot, Nat.cast_pow, Nat.cast_pow, ← pow_mul, ← pow_succ,
    show c.logNmax - (l + 1) + 1 = c.logNmax - l by omega]

theorem rootF_half {l : Nat} (h : l ≤ c.logNmax) : HalfRoot (c.rootF k l) l := by
  intro hl
  rw [rootF, unityRoot, Nat.cast_pow, ← pow_mul, ← pow_add, show c.logNmax - l + (l - 1) = c.logNmax - 1 by omega,
    cast_root_half]

theorem rootF_ne {l : Nat} (h : l ≤ c.logNmax) : c.rootF k l ≠ 0 := by
  have := c.fact k
  intro h0
  have h1 := (c.rootF_half k h).full fun hl => by rw [hl, rootF_zero]
  rw [h0, zero_pow (by positivity)] at h1
  exact zero_ne_one h1

/-- `ω_L^(-1)`. -/
def rootIF (l : Nat) : c.F k := (c.rootF k l)⁻¹

theorem rootIF_mul {l : Nat} (h : l ≤ c.logNmax) : c.rootIF k l * c.rootF k l = 1 := by
  have := c.fact k
  exact inv_mul_cancel₀ (c.rootF_ne k h)

theorem rootIF_zero : c.rootIF k 0 = 1 := by
  have := c.fact k
  rw [rootIF, rootF_zero, inv_one]

theorem rootIF_sq {l : Nat} (h : l + 1 ≤ c.logNmax) : c.rootIF k (l + 1) ^ 2 = c.rootIF k l := by
  have := c.fact k
  rw [rootIF, rootIF, inv_pow, rootF_sq c k h]

theorem rootIF_half {l : Nat} (h : l ≤ c.logNmax) : HalfRoot (c.rootIF k l) l := by
  have := c.fact k
  intro hl
  rw [rootIF, inv_pow, c.rootF_half k h hl, inv_neg, inv_one]

theorem rootF_full {l : Nat} (h : l ≤ c.logNmax) : c.rootF k l ^ 2 ^ l = 1 :=
  (c.rootF_half k h).full fun hl => by rw [hl, rootF_zero]

/-- `ω_L^(-j) = ω_L^(L-j)`. -/
theorem rootIF_pow {l j : Nat} (h : l ≤ c.logNmax) (hj : j ≤ 2 ^ l) : c.rootIF k l ^ j = c.rootF k l ^ (2 ^ l - j) := by
  have := c.fact k
  rw [rootIF, inv_pow, eq_comm]
  refine eq_inv_of_mul_eq_one_left ?_
  rw [← pow_add, Nat.sub_add_cancel hj, rootF_full c k h]

theorem cast_omegaPlain (l : Nat) : (c.omegaPlain k l : c.F k) = c.rootF k l := by
  rw [omegaPlain, powMod_eq, cast_mod, rootF, unityRoot, root, Params.root]

/-! ### The ROM (R10, R26) -/

theorem cast_one : (c.one k : c.F k) = 2 ^ 64 := by
  rw [one, cast_mod]
  push_cast
  rfl

theorem one_lt : c.one k < c.p k := Nat.mod_lt _ (c.p_pos k)

theorem cast_r2 : (c.r2 k : c.F k) = 2 ^ 64 * 2 ^ 64 := by
  rw [r2, cast_mod]
  push_cast
  norm_num

theorem r2_lt : c.r2 k < c.p k := Nat.mod_lt _ (c.p_pos k)

theorem cast_rootm : (c.rootm k : c.F k) = (c.root k : Nat) * 2 ^ 64 := cast_mont ..

theorem cast_rootim : (c.rootim k : c.F k) = ((c.root k : Nat) : c.F k)⁻¹ * 2 ^ 64 := by
  rw [rootim, cast_mont, cast_inverse]

theorem cast_w4 : (c.w4 k : c.F k) = c.rootF k 2 * 2 ^ 64 := by rw [w4, cast_mont, cast_omegaPlain]

theorem cast_w4i : (c.w4i k : c.F k) = c.rootIF k 2 * 2 ^ 64 := by
  rw [w4i, cast_mont, cast_inverse, cast_omegaPlain, rootIF]

theorem cast_w8 : (c.w8 k : c.F k) = c.rootF k 3 * 2 ^ 64 := by rw [w8, cast_mont, cast_omegaPlain]

theorem cast_w8c : (c.w8c k : c.F k) = c.rootF k 3 ^ 3 * 2 ^ 64 := by
  rw [w8c, cast_mont, powMod_eq, cast_mod, Nat.cast_pow, cast_omegaPlain]

theorem cast_w8i : (c.w8i k : c.F k) = c.rootIF k 3 * 2 ^ 64 := by
  rw [w8i, cast_mont, cast_inverse, cast_omegaPlain, rootIF]

theorem cast_w8ic : (c.w8ic k : c.F k) = c.rootIF k 3 ^ 3 * 2 ^ 64 := by
  rw [w8ic, cast_mont, powMod_eq, cast_mod, Nat.cast_pow, cast_inverse, cast_omegaPlain, rootIF]

/-- `NPRIME·p ≡ -1 (mod 2^64)`. -/
theorem nprime_mul : (c.nprime k * c.p k + 1) % 2 ^ 64 = 0 := by
  have hcop : (c.p k).Coprime (2 ^ 64) := by
    exact Nat.Coprime.pow_right _ (Nat.Coprime.symm ((Nat.coprime_primes Nat.prime_two (c.prime k)).2
      (by have := c.two_lt_p k; omega)))
  have htot : c.p k ^ 2 ^ 63 ≡ 1 [MOD 2 ^ 64] := by
    have := Nat.ModEq.pow_totient hcop
    rwa [Nat.totient_prime_pow_succ Nat.prime_two, Nat.add_one_sub_one, mul_one] at this
  have hq : powMod (c.p k) (2 ^ 63 - 1) (2 ^ 64) * c.p k ≡ 1 [MOD 2 ^ 64] := by
    rw [powMod_eq]
    refine ((Nat.mod_modEq _ _).mul_right _).trans ?_
    rwa [← pow_succ, Nat.sub_add_cancel (Nat.one_le_two_pow)]
  have hlt : powMod (c.p k) (2 ^ 63 - 1) (2 ^ 64) < 2 ^ 64 := by
    rw [powMod_eq]
    exact Nat.mod_lt _ (by norm_num)
  rw [nprime, radix]
  generalize powMod (c.p k) (2 ^ 63 - 1) (2 ^ 64) = q at hq hlt
  refine Nat.mod_eq_zero_of_dvd ?_
  have h1 : ((2 ^ 64 - q) % 2 ^ 64 * c.p k + 1) + q * c.p k ≡ 1 + 0 [MOD 2 ^ 64] := by
    have : (2 ^ 64 - q) % 2 ^ 64 * c.p k + 1 + q * c.p k ≡ (2 ^ 64 - q) * c.p k + 1 + q * c.p k [MOD 2 ^ 64] :=
      ((((Nat.mod_modEq _ _).mul_right _).add_right _).add_right _)
    refine this.trans ?_
    rw [show (2 ^ 64 - q) * c.p k + 1 + q * c.p k = 1 + 2 ^ 64 * c.p k by
      rw [add_right_comm, ← add_mul, Nat.sub_add_cancel hlt.le, add_comm]]
    exact (Nat.ModEq.refl 1).add ((Nat.modEq_zero_iff_dvd).2 ⟨_, rfl⟩)
  have h2 : (2 ^ 64 - q) % 2 ^ 64 * c.p k + 1 ≡ 0 [MOD 2 ^ 64] :=
    Nat.ModEq.add_right_cancel (hq.trans (by rfl : (1 : Nat) ≡ 1 [MOD 2 ^ 64])) (by rw [zero_add]; exact h1)
  exact (Nat.modEq_zero_iff_dvd).1 h2

theorem mi_lt : c.mi k < 2 ^ 126 := by
  have h0 := c.p_lt .m0
  have h1 := c.p_lt .m1
  have h2 := c.p_lt .m2
  have e : (2 : Nat) ^ 126 = 2 ^ 63 * 2 ^ 63 := by norm_num
  rw [e]
  cases k
  · exact Nat.mul_lt_mul'' h1 h2
  · exact Nat.mul_lt_mul'' h0 h2
  · exact Nat.mul_lt_mul'' h0 h1

/-! ### The entries of a modulus descriptor (R26) -/

theorem descriptor_zero : c.descriptor k 0 = c.p k := rfl
theorem descriptor_one : c.descriptor k 1 = c.r2 k := rfl
theorem descriptor_two : c.descriptor k 2 = c.nprime k := rfl
theorem descriptor_three : c.descriptor k 3 = c.one k := rfl
theorem descriptor_four : c.descriptor k 4 = c.rootm k := rfl
theorem descriptor_five : c.descriptor k 5 = c.rootim k := rfl
theorem descriptor_six : c.descriptor k 6 = c.w4 k := rfl
theorem descriptor_seven : c.descriptor k 7 = c.w4i k := rfl
theorem descriptor_eight : c.descriptor k 8 = c.w8 k := rfl
theorem descriptor_nine : c.descriptor k 9 = c.w8c k := rfl
theorem descriptor_ten : c.descriptor k 10 = c.w8i k := rfl
theorem descriptor_eleven : c.descriptor k 11 = c.w8ic k := rfl
theorem descriptor_twelve : c.descriptor k 12 = c.inv k := rfl
theorem descriptor_thirteen : c.descriptor k 13 = c.mi k % radix := rfl
theorem descriptor_fourteen : c.descriptor k 14 = c.mi k / radix := rfl
theorem descriptor_fifteen : c.descriptor k 15 = 0 := rfl

/-- Every entry of a modulus descriptor fits a word (R26). -/
theorem descriptor_lt (j : Nat) : c.descriptor k j < 2 ^ 64 := by
  have hp : c.p k < 2 ^ 64 := (c.p_lt k).trans (by norm_num)
  have hm : ∀ a, c.mont k a < 2 ^ 64 := fun a => (c.mont_lt k a).trans hp
  have hi := c.mi_lt k
  unfold descriptor
  split
  · exact hp
  · exact (c.r2_lt k).trans hp
  · exact Nat.mod_lt _ (by norm_num)
  · exact (c.one_lt k).trans hp
  · exact hm _
  · exact hm _
  · exact hm _
  · exact hm _
  · exact hm _
  · exact hm _
  · exact hm _
  · exact hm _
  · exact (c.inverse_lt k _).trans hp
  · exact Nat.mod_lt _ (by norm_num)
  · rw [radix, Nat.div_lt_iff_lt_mul (by norm_num)]
    exact hi.trans (by norm_num)
  · norm_num

end Config

end Sys2Proof
end

