-- ==== Sys2Proof/Laws/Montgomery.lean ====
section
/-! SUPPORT. The laws of the pure functions of the Montgomery engine (R92 to R99, R109, R121, R174): for each function its
equation in the field of residues and its range. Callers cite these and never unfold a function. -/

namespace Sys2Proof.Machine

variable (c : Config) (k : Modulus)

theorem redc_cast (T : Nat) : (redc c k T : c.F k) = T * c.ri k := by
  have hn := c.nprime_mul k
  have hdvd : 2 ^ 64 ∣ T + T % radix * c.nprime k % radix * c.p k := by
    refine (Nat.modEq_zero_iff_dvd).1 ?_
    have h1 : T % radix * c.nprime k % radix * c.p k ≡ T * (c.nprime k * c.p k) [MOD 2 ^ 64] := by
      rw [← mul_assoc]
      exact ((Nat.mod_modEq _ _).trans ((Nat.mod_modEq _ _).mul_right _)).mul_right _
    have h2 : T + T * (c.nprime k * c.p k) ≡ 0 [MOD 2 ^ 64] := by
      rw [show T + T * (c.nprime k * c.p k) = T * (c.nprime k * c.p k + 1) by ring]
      exact (Nat.modEq_zero_iff_dvd).2 (Dvd.dvd.mul_left (Nat.dvd_of_mod_eq_zero hn) _)
    exact (Nat.ModEq.add_left T h1).trans h2
  have key : (((T + T % radix * c.nprime k % radix * c.p k) / radix : Nat) : c.F k) = T * c.ri k := by
    obtain ⟨q, hq⟩ := hdvd
    rw [hq, show radix = 2 ^ 64 from rfl, Nat.mul_div_cancel_left _ (by norm_num)]
    have h3 : ((T + T % radix * c.nprime k % radix * c.p k : Nat) : c.F k) = ((2 ^ 64 * q : Nat) : c.F k) := congrArg _ hq
    rw [Nat.cast_add, Nat.cast_mul _ (c.p k), c.cast_p, mul_zero, add_zero, Nat.cast_mul] at h3
    rw [h3, mul_right_comm, show ((2 ^ 64 : Nat) : c.F k) = 2 ^ 64 by norm_num, c.radix_mul_ri, one_mul]
  simp only [redc]
  split
  · rename_i hle
    rw [Nat.cast_sub hle, c.cast_p, sub_zero, key]
  · exact key

theorem redc_lt {T : Nat} (h : T < c.p k * 2 ^ 64) : redc c k T < c.p k := by
  have hp := c.p_pos k
  have hm : T % radix * c.nprime k % radix < radix := Nat.mod_lt _ (by norm_num)
  have hlt : (T + T % radix * c.nprime k % radix * c.p k) / radix < 2 * c.p k := by
    rw [Nat.div_lt_iff_lt_mul (by norm_num)]
    have := Nat.mul_lt_mul_of_pos_right hm hp
    rw [show radix = 2 ^ 64 from rfl] at this ⊢
    nlinarith
  simp only [redc]
  split <;> omega

theorem norm2_cast (a : Nat) : (norm2 c k a : c.F k) = a := by
  rw [norm2]
  split
  · rename_i h
    rw [Nat.cast_sub h, c.cast_p, sub_zero]
  · rfl

theorem norm2_lt {a : Nat} (h : a < 2 * c.p k) : norm2 c k a < c.p k := by
  rw [norm2]
  split <;> omega

theorem norm2_eq {a : Nat} (h : a < 2 * c.p k) : norm2 c k a = a % c.p k := by
  rw [norm2]
  split
  · rw [Nat.mod_eq_sub_mod ‹_›, Nat.mod_eq_of_lt (by omega)]
  · rw [Nat.mod_eq_of_lt (by omega)]

theorem mulmod_cast (a b : Nat) : (mulmod c k a b : c.F k) = a * b * c.ri k := by
  rw [mulmod, redc_cast, Nat.cast_mul, norm2_cast, norm2_cast]

theorem mulmod_lt {a b : Nat} (ha : a < 2 * c.p k) (hb : b < 2 * c.p k) : mulmod c k a b < c.p k := by
  refine redc_lt c k ?_
  have h1 := norm2_lt c k ha
  have h2 := norm2_lt c k hb
  have := c.p_lt k
  exact Nat.mul_lt_mul'' h1 (by omega)

theorem addmod_cast (a b : Nat) : (addmod c k a b : c.F k) = a + b := by
  rw [addmod]
  split
  · rename_i h
    rw [Nat.cast_sub h, Nat.cast_mul, c.cast_p, mul_zero, sub_zero, Nat.cast_add]
  · rw [Nat.cast_add]

theorem addmod_lt {a b : Nat} (ha : a < 2 * c.p k) (hb : b < 2 * c.p k) : addmod c k a b < 2 * c.p k := by
  rw [addmod]
  split <;> omega

theorem addmod_eq {a b : Nat} (ha : a < 2 * c.p k) (hb : b < 2 * c.p k) : addmod c k a b = (a + b) % (2 * c.p k) := by
  rw [addmod]
  split
  · rw [Nat.mod_eq_sub_mod ‹_›, Nat.mod_eq_of_lt (by omega)]
  · rw [Nat.mod_eq_of_lt (by omega)]

theorem submod_cast (a : Nat) {b : Nat} (hb : b < 2 * c.p k) : (submod c k a b : c.F k) = a - b := by
  rw [submod]
  split
  · rename_i h
    rw [Nat.cast_sub h]
  · rw [Nat.cast_sub (by omega), Nat.cast_add, Nat.cast_mul, c.cast_p, mul_zero, add_zero]

theorem submod_lt {a b : Nat} (ha : a < 2 * c.p k) : submod c k a b < 2 * c.p k := by
  rw [submod]
  split <;> omega

theorem submod_eq {a b : Nat} (ha : a < 2 * c.p k) (hb : b < 2 * c.p k) :
    submod c k a b = (a + 2 * c.p k - b) % (2 * c.p k) := by
  rw [submod]
  split
  · rw [Nat.mod_eq_sub_mod (by omega), show a + 2 * c.p k - b - 2 * c.p k = a - b by omega, Nat.mod_eq_of_lt (by omega)]
  · rw [Nat.mod_eq_of_lt (by omega)]

theorem toMont_eq {x : Nat} (h : x < 2 ^ 64) : toMont c k x = c.mont k x := by
  refine c.nat_eq_of_cast k (redc_lt c k ?_) (c.mont_lt k x) ?_
  · have := Nat.mul_lt_mul'' h (c.r2_lt k)
    rwa [mul_comm (2 ^ 64)] at this
  · rw [toMont, redc_cast, Nat.cast_mul, c.cast_r2, c.cast_mont, mul_assoc, mul_assoc, c.radix_mul_ri, mul_one]

theorem toMont_lt {x : Nat} (h : x < 2 ^ 64) : toMont c k x < c.p k := by
  rw [toMont_eq c k h]
  exact c.mont_lt k x

theorem toInt_cast (v : Nat) : (toInt c k v : c.F k) = v * c.ri k := redc_cast c k v

theorem toInt_lt {v : Nat} (h : v < 2 ^ 64) : toInt c k v < c.p k :=
  redc_lt c k (h.trans_le (Nat.le_mul_of_pos_left _ (c.p_pos k)))

/-- The Montgomery word of a product of words: a twiddle in Montgomery form multiplies the word (R145). -/
theorem mulmod_twiddle {a t : Nat} {w : c.F k} (ht : (t : c.F k) = w * 2 ^ 64) : (mulmod c k a t : c.F k) = a * w := by
  rw [mulmod_cast, ht, mul_assoc, mul_assoc, c.radix_mul_ri, mul_one]

theorem modpowLoop_cast : ∀ (fuel x n r : Nat) (X Y : c.F k), (x : c.F k) = X * 2 ^ 64 → (r : c.F k) = Y * 2 ^ 64 → n < 2 ^ fuel →
    (modpowLoop c k fuel x n r : c.F k) = Y * X ^ n * 2 ^ 64
  | 0, x, n, r, X, Y, hx, hr, hn => by
    obtain rfl : n = 0 := by simpa using hn
    simp [modpowLoop, hr]
  | fuel + 1, x, n, r, X, Y, hx, hr, hn => by
    rw [pow_succ] at hn
    rw [modpowLoop]
    split
    · rename_i h
      rw [h, hr, pow_zero, mul_one]
    · have hX : (mulmod c k x x : c.F k) = X ^ 2 * 2 ^ 64 := by
        rw [mulmod_twiddle c k hx, hx]
        ring
      split
      · rw [modpowLoop_cast fuel _ _ _ (X ^ 2) (Y * X) hX ?_ (by omega), ← pow_mul, mul_assoc Y, ← pow_succ',
          show 2 * (n / 2) + 1 = n by omega]
        rw [mulmod_twiddle c k hx, hr]
        ring
      · rw [modpowLoop_cast fuel _ _ _ (X ^ 2) Y hX hr (by omega), ← pow_mul, show 2 * (n / 2) = n by omega]

theorem modpowLoop_lt : ∀ fuel x n r, x < 2 * c.p k → r < c.p k → modpowLoop c k fuel x n r < c.p k
  | 0, _, _, _, _, hr => hr
  | fuel + 1, x, n, r, hx, hr => by
    rw [modpowLoop]
    have hr' : r < 2 * c.p k := by omega
    have h1 := mulmod_lt c k hx hx
    split
    · exact hr
    · split
      · exact modpowLoop_lt fuel _ _ _ (by omega) (mulmod_lt c k hr' hx)
      · exact modpowLoop_lt fuel _ _ _ (by omega) hr

/-- `modpow` is the power of residues (R99). -/
theorem modpow_cast {b : Nat} (e : Nat) {X : c.F k} (hb : (b : c.F k) = X * 2 ^ 64) :
    (modpow c k b e : c.F k) = X ^ e * 2 ^ 64 := by
  rw [modpow, modpowLoop_cast c k _ _ _ _ X 1 (by rw [norm2_cast, hb]) (by rw [c.cast_one, one_mul]) Nat.lt_log2_self,
    one_mul]

theorem modpow_lt {b : Nat} (e : Nat) (hb : b < 2 * c.p k) : modpow c k b e < c.p k :=
  modpowLoop_lt c k _ _ _ _ (by have := norm2_lt c k hb; omega) (c.one_lt k)

theorem omega_cast (l : Nat) : (omega c k l : c.F k) = c.rootF k l * 2 ^ 64 := by
  rw [omega, modpow_cast c k _ (c.cast_rootm k), Config.rootF, unityRoot, Nat.cast_pow]

theorem omega_lt (l : Nat) : omega c k l < c.p k := by
  have := c.mont_lt k (c.root k)
  exact modpow_lt c k _ (by rw [Config.rootm]; omega)

theorem omegai_cast (l : Nat) : (omegai c k l : c.F k) = c.rootIF k l * 2 ^ 64 := by
  have := c.fact k
  rw [omegai, modpow_cast c k _ (c.cast_rootim k), Config.rootIF, Config.rootF, unityRoot, Nat.cast_pow, inv_pow]

theorem omegai_lt (l : Nat) : omegai c k l < c.p k := by
  have := c.mont_lt k (c.inverse k (c.root k))
  exact modpow_lt c k _ (by rw [Config.rootim]; omega)

/-- The normalisation word represents 1/N (R174). -/
theorem ninv_cast (l : Nat) : (ninv c k l : c.F k) * 2 ^ l = 2 ^ 64 := by
  have := c.fact k
  have h2 : ((2 : c.F k) ^ l) ≠ 0 := pow_ne_zero _ (c.two_ne k)
  have hp := c.two_lt_p k
  have hlt : 2 ^ l % c.p k < 2 ^ 64 := (Nat.mod_lt _ (c.p_pos k)).trans (by have := c.p_lt k; omega)
  have hx : (toMont c k (2 ^ l % c.p k) : c.F k) = 2 ^ l * 2 ^ 64 := by
    rw [toMont_eq c k hlt, c.cast_mont, c.cast_mod]
    push_cast
    rfl
  rw [ninv, modpow_cast c k _ hx, mul_right_comm, ← pow_succ, show c.p k - 2 + 1 = c.p k - 1 by omega,
    ZMod.pow_card_sub_one_eq_one h2, one_mul]

theorem ninv_lt (l : Nat) : ninv c k l < c.p k := by
  have hlt : 2 ^ l % c.p k < 2 ^ 64 := (Nat.mod_lt _ (c.p_pos k)).trans (by have := c.p_lt k; omega)
  have := toMont_lt c k hlt
  exact modpow_lt c k _ (by omega)

theorem notLazy_eq (a : Nat) : notLazy c k a = false ↔ a < 2 * c.p k := by
  rw [notLazy, decide_eq_false_iff_not, not_le]

/-- A canonical word fits a word. -/
theorem toNat_ofNat_of_lt {x : Nat} (h : x < c.p k) : (Word.ofNat x).toNat = x := by
  rw [BitVec.toNat_ofNat, Nat.mod_eq_of_lt]
  have := c.p_lt k
  omega

theorem toNat_ofNat_of_lazy {x : Nat} (h : x < 2 * c.p k) : (Word.ofNat x).toNat = x := by
  rw [BitVec.toNat_ofNat, Nat.mod_eq_of_lt]
  have := c.p_lt k
  omega

end Sys2Proof.Machine
end

