-- ==== Sys2Proof/Laws/Blocks.lean ====
section
/-! SUPPORT. Blocks as lists of words: what the words of a quartet map, of a map over sub-blocks and of the running powers are, one
index at a time. -/

namespace Sys2Proof.Machine

/-- Word i of a block. -/
abbrev nth (x : List Nat) (i : Nat) : Nat := x.getD i 0

theorem nth_append_left {x y : List Nat} {i : Nat} (h : i < x.length) : nth (x ++ y) i = nth x i := by
  simp [nth, List.getD_eq_getElem?_getD, List.getElem?_append_left h]

theorem nth_append_right {x y : List Nat} (i : Nat) : nth (x ++ y) (x.length + i) = nth y i := by
  simp [nth, List.getD_eq_getElem?_getD, List.getElem?_append_right]

theorem nth_map_range (f : Nat → Nat) {n i : Nat} (h : i < n) : nth ((List.range n).map f) i = f i := by
  simp [nth, List.getD_eq_getElem?_getD, h]

theorem nth_take {x : List Nat} {n i : Nat} (h : i < n) : nth (x.take n) i = nth x i := by
  simp [nth, List.getD_eq_getElem?_getD, h]

theorem nth_drop (x : List Nat) (n i : Nat) : nth (x.drop n) i = nth x (n + i) := by
  simp [nth, List.getD_eq_getElem?_getD, List.getElem?_drop]

theorem nth_map {f : Nat → Nat} {x : List Nat} {i : Nat} (h : i < x.length) : nth (x.map f) i = f (nth x i) := by
  simp [nth, List.getD_eq_getElem?_getD, List.getElem?_eq_getElem h]

theorem nth_zipWith {f : Nat → Nat → Nat} {x y : List Nat} {i : Nat} (hx : i < x.length) (hy : i < y.length) :
    nth (List.zipWith f x y) i = f (nth x i) (nth y i) := by
  simp [nth, List.getD_eq_getElem?_getD, List.getElem?_zipWith, List.getElem?_eq_getElem hx, List.getElem?_eq_getElem hy]

theorem eq_map_range {x : List Nat} : x = (List.range x.length).map (nth x) := by
  refine List.ext_getElem (by simp) fun i h _ => ?_
  simp [nth, List.getD_eq_getElem?_getD, List.getElem?_eq_getElem h]

theorem nth_mem {x : List Nat} {i : Nat} (h : i < x.length) : nth x i ∈ x := by
  simp [nth, List.getD_eq_getElem?_getD, List.getElem?_eq_getElem h]

theorem eq_of_nth {x y : List Nat} (hl : x.length = y.length) (h : ∀ i < x.length, nth x i = nth y i) : x = y := by
  rw [eq_map_range (x := x), eq_map_range (x := y), ← hl]
  exact List.map_congr_left fun i hi => h i (List.mem_range.1 hi)

/-! ### Lazy blocks -/

/-- Every word of the block is lazy (R14). -/
def LazyList (c : Config) (k : Modulus) (x : List Nat) : Prop := ∀ a ∈ x, a < 2 * c.p k

section Lazy

variable {c : Config} {k : Modulus}

theorem LazyList.nth {x : List Nat} (h : LazyList c k x) {i : Nat} (hi : i < x.length) : nth x i < 2 * c.p k :=
  h _ (nth_mem hi)

theorem LazyList.append {x y : List Nat} (hx : LazyList c k x) (hy : LazyList c k y) : LazyList c k (x ++ y) :=
  fun a ha => (List.mem_append.1 ha).elim (hx a) (hy a)

theorem LazyList.take {x : List Nat} (h : LazyList c k x) (n : Nat) : LazyList c k (x.take n) :=
  fun a ha => h a (List.mem_of_mem_take ha)

theorem LazyList.drop {x : List Nat} (h : LazyList c k x) (n : Nat) : LazyList c k (x.drop n) :=
  fun a ha => h a (List.mem_of_mem_drop ha)

theorem LazyList.of_lt {x : List Nat} (h : ∀ a ∈ x, a < c.p k) : LazyList c k x := fun a ha => by
  have := h a ha
  omega

end Lazy

/-! ### Quartets -/

/-- The quartet j of a block at distance q. -/
def quad (x : List Nat) (q j : Nat) : Quad := ⟨nth x j, nth x (j + q), nth x (j + 2 * q), nth x (j + 3 * q)⟩

theorem zipQuads_eq : ∀ (n : Nat) (a b c d : List Nat), a.length = n → b.length = n → c.length = n → d.length = n →
    zipQuads a b c d = (List.range n).map fun j => ⟨nth a j, nth b j, nth c j, nth d j⟩
  | 0, [], _, _, _, _, _, _, _ => by simp [zipQuads]
  | n + 1, a :: as, b :: bs, c :: cs, d :: ds, ha, hb, hc, hd => by
    simp only [List.length_cons, Nat.add_right_cancel_iff] at ha hb hc hd
    rw [zipQuads, zipQuads_eq n as bs cs ds ha hb hc hd, List.range_succ_eq_map]
    simp [nth]

theorem toQuads_eq {q : Nat} {x : List Nat} (h : x.length = 4 * q) : toQuads q x = (List.range q).map (quad x q) := by
  rw [toQuads, zipQuads_eq q _ _ _ _ (by simp; omega) (by simp; omega) (by simp; omega) (by simp; omega)]
  refine List.map_congr_left fun j hj => ?_
  rw [List.mem_range] at hj
  simp only [quad, nth_take hj, nth_drop, Nat.add_comm]

theorem mapQuads_eq (f : Nat → Quad → Quad) (g : Nat → Quad) (n : Nat) : ∀ j,
    mapQuads f j ((List.range n).map g) = (List.range n).map fun i => f (j + i) (g i) := by
  induction n generalizing g with
  | zero => intro j; rfl
  | succ n ih =>
    intro j
    rw [List.range_succ_eq_map, List.map_cons, List.map_map, mapQuads, ih]
    simp [Nat.add_right_comm, Nat.add_assoc]

/-- Running powers: the word after i products with w. -/
def runPow (c : Config) (k : Modulus) (w : Nat) : Nat → Nat → Nat
  | 0, x => x
  | i + 1, x => runPow c k w i (mulmod c k x w)

theorem runQuads_eq (c : Config) (k : Modulus) (f : Quad → Nat → Nat → Quad) (w w3 n : Nat) : ∀ (g : Nat → Quad) c1 c3,
    runQuads c k f w w3 ((List.range n).map g) c1 c3
      = (List.range n).map fun i => f (g i) (runPow c k w i c1) (runPow c k w3 i c3) := by
  induction n with
  | zero => intro g c1 c3; rfl
  | succ n ih =>
    intro g c1 c3
    rw [List.range_succ_eq_map, List.map_cons, List.map_map, runQuads, ih]
    simp [runPow]

theorem powers_eq (c : Config) (k : Modulus) (w n : Nat) : ∀ x,
    powers c k w n x = (List.range n).map fun i => runPow c k w i x := by
  induction n with
  | zero => intro x; rfl
  | succ n ih =>
    intro x
    rw [List.range_succ_eq_map, List.map_cons, List.map_map, powers, ih]
    simp [runPow]

theorem runPow_cast {c : Config} {k : Modulus} {w : Nat} {W : c.F k} (hw : (w : c.F k) = W * 2 ^ 64) (i : Nat) : ∀ x,
    (runPow c k w i x : c.F k) = x * W ^ i := by
  induction i with
  | zero => intro x; simp [runPow]
  | succ i ih => intro x; rw [runPow, ih, mulmod_twiddle c k hw, pow_succ', mul_assoc]

theorem runPow_lt {c : Config} {k : Modulus} {w : Nat} (hw : w < 2 * c.p k) (i : Nat) : ∀ x, x < c.p k →
    runPow c k w i x < c.p k := by
  induction i with
  | zero => intro x hx; exact hx
  | succ i ih => intro x hx; exact ih _ (mulmod_lt c k (by omega) hw)

/-- The words of a block given by its quartets. -/
theorem nth_ofQuads (g : Nat → Quad) {q i : Nat} (h : i < q) :
    nth (ofQuads ((List.range q).map g)) i = (g i).a ∧ nth (ofQuads ((List.range q).map g)) (q + i) = (g i).b ∧
    nth (ofQuads ((List.range q).map g)) (2 * q + i) = (g i).c ∧ nth (ofQuads ((List.range q).map g)) (3 * q + i) = (g i).d := by
  have hl : ∀ f : Nat → Nat, ((List.range q).map f).length = q := by simp
  have e1 := fun f : Nat → Nat => nth_map_range f h
  simp only [ofQuads, List.map_map]
  refine ⟨?_, ?_, ?_, ?_⟩
  · rw [nth_append_left (by simp; omega), nth_append_left (by simp; omega), nth_append_left (by simp; omega), e1]
    rfl
  · rw [nth_append_left (by simp; omega), nth_append_left (by simp; omega)]
    conv_lhs => rw [show q + i = ((List.range q).map (Quad.a ∘ g)).length + i by simp]
    rw [nth_append_right, e1]
    rfl
  · rw [nth_append_left (by simp; omega)]
    conv_lhs => rw [show 2 * q + i = ((List.range q).map (Quad.a ∘ g) ++ (List.range q).map (Quad.b ∘ g)).length + i by
      simp; omega]
    rw [nth_append_right, e1]
    rfl
  · conv_lhs => rw [show 3 * q + i = ((List.range q).map (Quad.a ∘ g) ++ (List.range q).map (Quad.b ∘ g)
      ++ (List.range q).map (Quad.c ∘ g)).length + i by simp; omega]
    rw [nth_append_right, e1]
    rfl

theorem length_ofQuads (g : Nat → Quad) (q : Nat) : (ofQuads ((List.range q).map g)).length = 4 * q := by
  simp [ofQuads]
  omega

theorem lazy_ofQuads {c : Config} {k : Modulus} {g : Nat → Quad} {q : Nat}
    (h : ∀ i < q, (g i).a < 2 * c.p k ∧ (g i).b < 2 * c.p k ∧ (g i).c < 2 * c.p k ∧ (g i).d < 2 * c.p k) :
    LazyList c k (ofQuads ((List.range q).map g)) := by
  intro a ha
  simp only [ofQuads, List.map_map, List.mem_append, List.mem_map, List.mem_range, Function.comp_apply] at ha
  rcases ha with ((⟨i, hi, rfl⟩ | ⟨i, hi, rfl⟩) | ⟨i, hi, rfl⟩) | ⟨i, hi, rfl⟩
  · exact (h i hi).1
  · exact (h i hi).2.1
  · exact (h i hi).2.2.1
  · exact (h i hi).2.2.2

/-! ### Sub-blocks -/

/-- Sub-block b of length `len`. -/
def sub (x : List Nat) (b len : Nat) : List Nat := (x.drop (b * len)).take len

theorem nth_sub {x : List Nat} {b len i : Nat} (h : i < len) : nth (sub x b len) i = nth x (b * len + i) := by
  rw [sub, nth_take h, nth_drop]

theorem length_sub {x : List Nat} {b len n : Nat} (hx : x.length = n * len) (hb : b < n) : (sub x b len).length = len := by
  have : b * len + len ≤ n * len := by rw [← Nat.succ_mul]; exact Nat.mul_le_mul_right _ hb
  simp [sub]
  omega

theorem LazyList.sub {c : Config} {k : Modulus} {x : List Nat} (h : LazyList c k x) (b len : Nat) :
    LazyList c k (sub x b len) := (h.drop _).take _

/-- A map over sub-blocks, word by word. -/
theorem mapBlocks_spec {c : Config} {k : Modulus} {f : List Nat → List Nat} {len : Nat}
    (hf : ∀ y, y.length = len → LazyList c k y → (f y).length = len ∧ LazyList c k (f y)) :
    ∀ (n : Nat) (x : List Nat), x.length = n * len → LazyList c k x →
      (mapBlocks f len n x).length = n * len ∧ LazyList c k (mapBlocks f len n x) ∧
      ∀ b < n, ∀ i < len, nth (mapBlocks f len n x) (b * len + i) = nth (f (sub x b len)) i
  | 0, x, hx, _ => by simp [mapBlocks, LazyList]
  | n + 1, x, hx, hl => by
    rw [Nat.succ_mul] at hx
    have h1 : (x.take len).length = len := by simp; omega
    have h2 : (x.drop len).length = n * len := by simp; omega
    obtain ⟨f1, f2⟩ := hf _ h1 (hl.take _)
    obtain ⟨g1, g2, g3⟩ := mapBlocks_spec hf n _ h2 (hl.drop _)
    refine ⟨by rw [mapBlocks, List.length_append, f1, g1, Nat.succ_mul]; omega, f2.append g2, ?_⟩
    rintro (_ | b) hb i hi
    · rw [mapBlocks, Nat.zero_mul, Nat.zero_add, nth_append_left (by omega), sub, Nat.zero_mul, List.drop_zero]
    · rw [mapBlocks, show (b + 1) * len + i = (f (x.take len)).length + (b * len + i) by rw [f1, Nat.succ_mul]; omega,
        nth_append_right, g3 b (by omega) i hi]
      congr 2
      rw [sub, sub, List.drop_drop, Nat.succ_mul, Nat.add_comm]

end Sys2Proof.Machine
end

