-- ==== Sys2Proof/Laws/Kernels.lean ====
section
/-! SUPPORT. The kernels, the radix-4 stages and the cache-resident transforms compute the radix-2 networks on residues (R142,
R143, R148, R149, R152, R153, R156). -/

namespace Sys2Proof.Machine

variable {c : Config} {k : Modulus}

/-- The word at i of a block as a residue. -/
abbrev resF (c : Config) (k : Modulus) (x : List Nat) (i : Nat) : c.F k := (nth x i : c.F k)

/-- f maps a lazy block of `2^l` words to a lazy block of as many, whose residues are g of the block's. -/
def Computes (c : Config) (k : Modulus) (l : Nat) (f : List Nat → List Nat) (g : (Nat → c.F k) → Nat → c.F k) : Prop :=
  ∀ x, x.length = 2 ^ l → LazyList c k x →
    (f x).length = 2 ^ l ∧ LazyList c k (f x) ∧ ∀ i < 2 ^ l, resF c k (f x) i = g (resF c k x) i

/-- A table for exponents up to t of the roots r (R122): word `2^l + j` is the canonical Montgomery word of `r(l+1)^j`. -/
def Twiddles (c : Config) (k : Modulus) (r : Nat → c.F k) (tw : Nat → Nat) (t : Nat) : Prop :=
  ∀ l < t, ∀ j < 2 ^ l, tw (2 ^ l + j) < 2 * c.p k ∧ (tw (2 ^ l + j) : c.F k) = r (l + 1) ^ j * 2 ^ 64

theorem Twiddles.mono {r : Nat → c.F k} {tw : Nat → Nat} {t t' : Nat} (h : Twiddles c k r tw t) (ht : t' ≤ t) :
    Twiddles c k r tw t' := fun l hl => h l (by omega)

/-! ### Butterflies -/

theorem mulmod_lazy {a b : Nat} (ha : a < 2 * c.p k) (hb : b < 2 * c.p k) : mulmod c k a b < 2 * c.p k := by
  have := mulmod_lt c k ha hb
  omega

theorem lazy_of_lt {a : Nat} (h : a < c.p k) : a < 2 * c.p k := by omega

theorem w4_lazy : c.w4 k < 2 * c.p k := lazy_of_lt (c.mont_lt k _)
theorem w4i_lazy : c.w4i k < 2 * c.p k := lazy_of_lt (c.mont_lt k _)
theorem w8_lazy : c.w8 k < 2 * c.p k := lazy_of_lt (c.mont_lt k _)
theorem w8c_lazy : c.w8c k < 2 * c.p k := lazy_of_lt (c.mont_lt k _)
theorem w8i_lazy : c.w8i k < 2 * c.p k := lazy_of_lt (c.mont_lt k _)
theorem w8ic_lazy : c.w8ic k < 2 * c.p k := lazy_of_lt (c.mont_lt k _)

theorem bf2f_spec {a b t : Nat} {w : c.F k} (ha : a < 2 * c.p k) (hb : b < 2 * c.p k) (ht : t < 2 * c.p k)
    (hw : (t : c.F k) = w * 2 ^ 64) :
    (bf2f c k a b t).1 < 2 * c.p k ∧ (bf2f c k a b t).2 < 2 * c.p k ∧ ((bf2f c k a b t).1 : c.F k) = a + b ∧
    ((bf2f c k a b t).2 : c.F k) = (a - b) * w :=
  ⟨addmod_lt c k ha hb, mulmod_lazy (submod_lt c k ha) ht, addmod_cast c k a b,
    by rw [bf2f, mulmod_twiddle c k hw, submod_cast c k a hb]⟩

theorem bf2n_spec {a b : Nat} (ha : a < 2 * c.p k) (hb : b < 2 * c.p k) :
    (bf2n c k a b).1 < 2 * c.p k ∧ (bf2n c k a b).2 < 2 * c.p k ∧ ((bf2n c k a b).1 : c.F k) = a + b ∧
    ((bf2n c k a b).2 : c.F k) = a - b :=
  ⟨addmod_lt c k ha hb, submod_lt c k ha, addmod_cast c k a b, submod_cast c k a hb⟩

theorem bf2i_spec {a b t : Nat} {w : c.F k} (ha : a < 2 * c.p k) (hb : b < 2 * c.p k) (ht : t < 2 * c.p k)
    (hw : (t : c.F k) = w * 2 ^ 64) :
    (bf2i c k a b t).1 < 2 * c.p k ∧ (bf2i c k a b t).2 < 2 * c.p k ∧ ((bf2i c k a b t).1 : c.F k) = a + b * w ∧
    ((bf2i c k a b t).2 : c.F k) = a - b * w := by
  have h := mulmod_lazy hb ht
  exact ⟨addmod_lt c k ha h, submod_lt c k ha, by rw [bf2i, addmod_cast, mulmod_twiddle c k hw],
    by rw [bf2i, submod_cast c k a h, mulmod_twiddle c k hw]⟩

/-- The four words of a quartet are lazy. -/
def LazyQuad (c : Config) (k : Modulus) (x : Quad) : Prop :=
  x.a < 2 * c.p k ∧ x.b < 2 * c.p k ∧ x.c < 2 * c.p k ∧ x.d < 2 * c.p k

theorem bf4f_spec {x : Quad} (h : LazyQuad c k x) :
    LazyQuad c k (bf4f c k x) ∧ ((bf4f c k x).a : c.F k) = x.a + x.c + (x.b + x.d) ∧
    ((bf4f c k x).b : c.F k) = x.a + x.c - (x.b + x.d) ∧
    ((bf4f c k x).c : c.F k) = x.a - x.c + (x.b - x.d) * c.rootF k 2 ∧
    ((bf4f c k x).d : c.F k) = x.a - x.c - (x.b - x.d) * c.rootF k 2 := by
  obtain ⟨ha, hb, hc, hd⟩ := h
  have h1 := addmod_lt c k ha hc
  have h2 := addmod_lt c k hb hd
  have h3 := submod_lt c k (b := x.c) ha
  have h4 := mulmod_lazy (submod_lt c k (b := x.d) hb) (w4_lazy (c := c) (k := k))
  refine ⟨⟨addmod_lt c k h1 h2, submod_lt c k h1, addmod_lt c k h3 h4, submod_lt c k h3⟩, ?_, ?_, ?_, ?_⟩ <;>
  simp only [bf4f, addmod_cast, submod_cast c k _ h2, submod_cast c k _ h4, submod_cast c k _ hc, submod_cast c k _ hd,
    mulmod_twiddle c k (c.cast_w4 k)]

theorem bf4i_spec {x : Quad} (h : LazyQuad c k x) :
    LazyQuad c k (bf4i c k x) ∧ ((bf4i c k x).a : c.F k) = x.a + x.b + (x.c + x.d) ∧
    ((bf4i c k x).b : c.F k) = x.a - x.b + (x.c - x.d) * c.rootIF k 2 ∧
    ((bf4i c k x).c : c.F k) = x.a + x.b - (x.c + x.d) ∧
    ((bf4i c k x).d : c.F k) = x.a - x.b - (x.c - x.d) * c.rootIF k 2 := by
  obtain ⟨ha, hb, hc, hd⟩ := h
  have h1 := addmod_lt c k ha hb
  have h2 := addmod_lt c k hc hd
  have h3 := submod_lt c k (b := x.b) ha
  have h4 := mulmod_lazy (submod_lt c k (b := x.d) hc) (w4i_lazy (c := c) (k := k))
  refine ⟨⟨addmod_lt c k h1 h2, addmod_lt c k h3 h4, submod_lt c k h1, submod_lt c k h3⟩, ?_, ?_, ?_, ?_⟩ <;>
  simp only [bf4i, addmod_cast, submod_cast c k _ h2, submod_cast c k _ h4, submod_cast c k _ hb, submod_cast c k _ hd,
    mulmod_twiddle c k (c.cast_w4i k)]

/-! ### The hard-coded kernels -/

theorem sum4 (n : Nat) (h : n < 4) : n = 0 ∨ n = 1 ∨ n = 2 ∨ n = 3 := by omega

theorem kdif_computes {l : Nat} (hl : l ≤ 3) : Computes c k l (kdif c k l) (difF (c.rootF k l) l) := by
  intro x hx hlz
  have s3 := c.rootF_sq k (l := 2) c.nmax_ge
  rcases sum4 l (by omega) with rfl | rfl | rfl | rfl
  · exact ⟨hx, hlz, fun i hi => rfl⟩
  · obtain ⟨x0, x1, rfl⟩ := List.length_eq_two.1 hx
    simp only [LazyList, List.mem_cons, forall_eq_or_imp, List.not_mem_nil, false_imp_iff, implies_true, and_true] at hlz
    obtain ⟨h0, h1⟩ := hlz
    obtain ⟨p1, p2, p3, p4⟩ := bf2n_spec h0 h1
    refine ⟨rfl, by simp [LazyList, kdif, p1, p2], fun i hi => ?_⟩
    interval_cases i <;> simp [kdif, resF, nth, difF, p3, p4] <;> rfl
  · obtain ⟨x0, x1, x2, x3, rfl⟩ : ∃ a b c d, x = [a, b, c, d] := by
      match x, hx with
      | [a, b, c, d], _ => exact ⟨a, b, c, d, rfl⟩
    simp only [LazyList, List.mem_cons, forall_eq_or_imp, List.not_mem_nil, false_imp_iff, implies_true, and_true] at hlz
    obtain ⟨h0, h1, h2, h3⟩ := hlz
    obtain ⟨⟨q1, q2, q3, q4⟩, p1, p2, p3, p4⟩ := bf4f_spec (x := ⟨x0, x1, x2, x3⟩) ⟨h0, h1, h2, h3⟩
    refine ⟨rfl, by simp [LazyList, kdif, Quad.toList, q1, q2, q3, q4], fun i hi => ?_⟩
    interval_cases i <;> simp [kdif, Quad.toList, resF, nth, difF, p1, p2, p3, p4] <;> rfl
  · obtain ⟨x0, x1, x2, x3, x4, x5, x6, x7, rfl⟩ : ∃ a b c d e f g h, x = [a, b, c, d, e, f, g, h] := by
      match x, hx with
      | [a, b, c, d, e, f, g, h], _ => exact ⟨a, b, c, d, e, f, g, h, rfl⟩
    simp only [LazyList, List.mem_cons, forall_eq_or_imp, List.not_mem_nil, false_imp_iff, implies_true, and_true] at hlz
    obtain ⟨h0, h1, h2, h3, h4, h5, h6, h7⟩ := hlz
    obtain ⟨a1, a2, a3, a4⟩ := bf2n_spec h0 h4
    obtain ⟨b1, b2, b3, b4⟩ := bf2f_spec h1 h5 w8_lazy (c.cast_w8 k)
    obtain ⟨c1, c2, c3, c4⟩ := bf2f_spec h2 h6 w4_lazy (c.cast_w4 k)
    obtain ⟨d1, d2, d3, d4⟩ := bf2f_spec h3 h7 w8c_lazy (c.cast_w8c k)
    obtain ⟨⟨q1, q2, q3, q4⟩, p1, p2, p3, p4⟩ := bf4f_spec (x := ⟨_, _, _, _⟩) ⟨a1, b1, c1, d1⟩
    obtain ⟨⟨r1, r2, r3, r4⟩, o1, o2, o3, o4⟩ := bf4f_spec (x := ⟨_, _, _, _⟩) ⟨a2, b2, c2, d2⟩
    refine ⟨rfl, by simp [LazyList, kdif, Quad.toList, q1, q2, q3, q4, r1, r2, r3, r4], fun i hi => ?_⟩
    interval_cases i <;>
    simp [kdif, Quad.toList, resF, nth, difF, p1, p2, p3, p4, o1, o2, o3, o4, a3, a4, b3, b4, c3, c4, d3, d4, s3] <;> rfl

theorem kdit_computes {l : Nat} (hl : l ≤ 3) : Computes c k l (kdit c k l) (ditF (c.rootIF k l) l) := by
  intro x hx hlz
  have s3 := c.rootIF_sq k (l := 2) c.nmax_ge
  rcases sum4 l (by omega) with rfl | rfl | rfl | rfl
  · exact ⟨hx, hlz, fun i hi => rfl⟩
  · obtain ⟨x0, x1, rfl⟩ := List.length_eq_two.1 hx
    simp only [LazyList, List.mem_cons, forall_eq_or_imp, List.not_mem_nil, false_imp_iff, implies_true, and_true] at hlz
    obtain ⟨h0, h1⟩ := hlz
    obtain ⟨p1, p2, p3, p4⟩ := bf2n_spec h0 h1
    refine ⟨rfl, by simp [LazyList, kdit, p1, p2], fun i hi => ?_⟩
    interval_cases i <;> simp [kdit, resF, nth, ditF, p3, p4] <;> rfl
  · obtain ⟨x0, x1, x2, x3, rfl⟩ : ∃ a b c d, x = [a, b, c, d] := by
      match x, hx with
      | [a, b, c, d], _ => exact ⟨a, b, c, d, rfl⟩
    simp only [LazyList, List.mem_cons, forall_eq_or_imp, List.not_mem_nil, false_imp_iff, implies_true, and_true] at hlz
    obtain ⟨h0, h1, h2, h3⟩ := hlz
    obtain ⟨⟨q1, q2, q3, q4⟩, p1, p2, p3, p4⟩ := bf4i_spec (x := ⟨x0, x1, x2, x3⟩) ⟨h0, h1, h2, h3⟩
    refine ⟨rfl, by simp [LazyList, kdit, Quad.toList, q1, q2, q3, q4], fun i hi => ?_⟩
    interval_cases i <;> simp [kdit, Quad.toList, resF, nth, ditF, p1, p2, p3, p4] <;> rfl
  · obtain ⟨x0, x1, x2, x3, x4, x5, x6, x7, rfl⟩ : ∃ a b c d e f g h, x = [a, b, c, d, e, f, g, h] := by
      match x, hx with
      | [a, b, c, d, e, f, g, h], _ => exact ⟨a, b, c, d, e, f, g, h, rfl⟩
    simp only [LazyList, List.mem_cons, forall_eq_or_imp, List.not_mem_nil, false_imp_iff, implies_true, and_true] at hlz
    obtain ⟨h0, h1, h2, h3, h4, h5, h6, h7⟩ := hlz
    obtain ⟨⟨q1, q2, q3, q4⟩, p1, p2, p3, p4⟩ := bf4i_spec (x := ⟨_, _, _, _⟩) ⟨h0, h1, h2, h3⟩
    obtain ⟨⟨r1, r2, r3, r4⟩, o1, o2, o3, o4⟩ := bf4i_spec (x := ⟨_, _, _, _⟩) ⟨h4, h5, h6, h7⟩
    obtain ⟨a1, a2, a3, a4⟩ := bf2n_spec q1 r1
    obtain ⟨b1, b2, b3, b4⟩ := bf2i_spec q2 r2 w8i_lazy (c.cast_w8i k)
    obtain ⟨c1, c2, c3, c4⟩ := bf2i_spec q3 r3 w4i_lazy (c.cast_w4i k)
    obtain ⟨d1, d2, d3, d4⟩ := bf2i_spec q4 r4 w8ic_lazy (c.cast_w8ic k)
    refine ⟨rfl, by simp [LazyList, kdit, a1, a2, b1, b2, c1, c2, d1, d2], fun i hi => ?_⟩
    interval_cases i <;>
    simp [kdit, resF, nth, ditF, p1, p2, p3, p4, o1, o2, o3, o4, a3, a4, b3, b4, c3, c4, d3, d4, s3] <;> rfl

/-! ### Radix-4 stages -/

/-- Two layers of the forward network at once: the four quarters. -/
theorem difF_four {F : Type*} [CommRing F] (w : F) (n : Nat) (x : Nat → F) {i : Nat} (hi : i < 2 ^ n) :
    difF w (n + 2) x i
      = difF (w ^ 4) n (fun j => x j + x (j + 2 * 2 ^ n) + (x (j + 2 ^ n) + x (j + 3 * 2 ^ n))) i ∧
    difF w (n + 2) x (2 ^ n + i)
      = difF (w ^ 4) n (fun j => (x j + x (j + 2 * 2 ^ n) - (x (j + 2 ^ n) + x (j + 3 * 2 ^ n))) * (w ^ 2) ^ j) i ∧
    difF w (n + 2) x (2 * 2 ^ n + i)
      = difF (w ^ 4) n (fun j => (x j - x (j + 2 * 2 ^ n)) * w ^ j
        + (x (j + 2 ^ n) - x (j + 3 * 2 ^ n)) * w ^ (j + 2 ^ n)) i ∧
    difF w (n + 2) x (3 * 2 ^ n + i)
      = difF (w ^ 4) n (fun j => ((x j - x (j + 2 * 2 ^ n)) * w ^ j
        - (x (j + 2 ^ n) - x (j + 3 * 2 ^ n)) * w ^ (j + 2 ^ n)) * (w ^ 2) ^ j) i := by
  have h4 : w ^ 4 = (w ^ 2) ^ 2 := by ring
  have hp : 2 ^ (n + 1) = 2 * 2 ^ n := pow_succ' 2 n
  have e : ∀ j, j + 2 ^ n + 2 * 2 ^ n = j + 3 * 2 ^ n := fun j => by ring
  refine ⟨?_, ?_, ?_, ?_⟩
  · rw [difF_low _ _ _ (by omega), difF_low _ _ _ hi, h4, hp]
    simp only [e]
  · rw [difF_low _ _ _ (by omega), difF_high, h4, hp]
    simp only [e]
  · rw [← hp, difF_high, difF_low _ _ _ hi, h4, hp]
    simp only [e]
  · rw [show 3 * 2 ^ n + i = 2 ^ (n + 1) + (2 ^ n + i) by omega, difF_high, difF_high, h4, hp]
    simp only [e]

/-- Two layers of the inverse network at once. -/
theorem ditF_four {F : Type*} [CommRing F] (w : F) (n : Nat) (y : Nat → F) {i : Nat} (hi : i < 2 ^ n) :
    let a := ditF (w ^ 4) n y i
    let b := ditF (w ^ 4) n (fun t => y (2 ^ n + t)) i * (w ^ 2) ^ i
    let c := ditF (w ^ 4) n (fun t => y (2 * 2 ^ n + t)) i
    let d := ditF (w ^ 4) n (fun t => y (3 * 2 ^ n + t)) i * (w ^ 2) ^ i
    ditF w (n + 2) y i = a + b + (c + d) * w ^ i ∧
    ditF w (n + 2) y (2 ^ n + i) = a - b + (c - d) * w ^ (i + 2 ^ n) ∧
    ditF w (n + 2) y (2 * 2 ^ n + i) = a + b - (c + d) * w ^ i ∧
    ditF w (n + 2) y (3 * 2 ^ n + i) = a - b - (c - d) * w ^ (i + 2 ^ n) := by
  have h4 : (w ^ 2) ^ 2 = w ^ 4 := by ring
  have hp : 2 ^ (n + 1) = 2 * 2 ^ n := pow_succ' 2 n
  have e1 : (fun t => y (t + 2 ^ n)) = fun t => y (2 ^ n + t) := funext fun t => by rw [add_comm]
  have e2 : (fun t => y (t + 2 * 2 ^ n)) = fun t => y (2 * 2 ^ n + t) := funext fun t => by rw [add_comm]
  have e3 : (fun t => y (t + 2 ^ n + 2 * 2 ^ n)) = fun t => y (3 * 2 ^ n + t) := funext fun t => by congr 1; ring
  refine ⟨?_, ?_, ?_, ?_⟩
  · rw [ditF_low _ _ _ (by omega), ditF_low _ _ _ hi, ditF_low _ _ _ hi, hp, h4, e1, e2, e3]
  · rw [ditF_low _ _ _ (by omega), ditF_high, ditF_high, hp, h4, e1, e2, e3, add_comm (2 ^ n) i]
  · rw [← hp, ditF_high, ditF_low _ _ _ hi, ditF_low _ _ _ hi, hp, h4, e1, e2, e3]
  · rw [show 3 * 2 ^ n + i = 2 ^ (n + 1) + (2 ^ n + i) by omega, ditF_high, ditF_high, ditF_high, hp, h4, e1, e2, e3,
      add_comm (2 ^ n) i]

theorem LazyList.quad {x : List Nat} {q j : Nat} (h : LazyList c k x) (hx : x.length = 4 * q) (hj : j < q) :
    LazyQuad c k (quad x q j) :=
  ⟨h.nth (by omega), h.nth (by omega), h.nth (by omega), h.nth (by omega)⟩

/-- What `r4dif` does to a block of `2^(n+2)` words (R148). -/
theorem r4dif_spec {tw : Nat → Nat} {n : Nat} {r : Nat → c.F k} (ht : Twiddles c k r tw (n + 2)) {x : List Nat}
    (hx : x.length = 2 ^ (n + 2)) (hl : LazyList c k x) :
    (r4dif c k tw (n + 2) x).length = 2 ^ (n + 2) ∧ LazyList c k (r4dif c k tw (n + 2) x) ∧
    ∀ j < 2 ^ n,
      let y := resF c k (r4dif c k tw (n + 2) x)
      let x := resF c k x
      y j = x j + x (j + 2 * 2 ^ n) + (x (j + 2 ^ n) + x (j + 3 * 2 ^ n)) ∧
      y (2 ^ n + j) = (x j + x (j + 2 * 2 ^ n) - (x (j + 2 ^ n) + x (j + 3 * 2 ^ n))) * r (n + 1) ^ j ∧
      y (2 * 2 ^ n + j) = (x j - x (j + 2 * 2 ^ n)) * r (n + 2) ^ j
        + (x (j + 2 ^ n) - x (j + 3 * 2 ^ n)) * r (n + 2) ^ (j + 2 ^ n) ∧
      y (3 * 2 ^ n + j) = ((x j - x (j + 2 * 2 ^ n)) * r (n + 2) ^ j
        - (x (j + 2 ^ n) - x (j + 3 * 2 ^ n)) * r (n + 2) ^ (j + 2 ^ n)) * r (n + 1) ^ j := by
  have h4 : x.length = 4 * 2 ^ n := by rw [hx]; ring
  have hp : 2 ^ (n + 1) = 2 * 2 ^ n := pow_succ' 2 n
  have hq : ∀ j < 2 ^ n, LazyQuad c k (r4difQuad c k tw (2 ^ n) (0 + j) (quad x (2 ^ n) j)) ∧
      let y := r4difQuad c k tw (2 ^ n) (0 + j) (quad x (2 ^ n) j)
      let x := resF c k x
      (y.a : c.F k) = x j + x (j + 2 * 2 ^ n) + (x (j + 2 ^ n) + x (j + 3 * 2 ^ n)) ∧
      (y.b : c.F k) = (x j + x (j + 2 * 2 ^ n) - (x (j + 2 ^ n) + x (j + 3 * 2 ^ n))) * r (n + 1) ^ j ∧
      (y.c : c.F k) = (x j - x (j + 2 * 2 ^ n)) * r (n + 2) ^ j
        + (x (j + 2 ^ n) - x (j + 3 * 2 ^ n)) * r (n + 2) ^ (j + 2 ^ n) ∧
      (y.d : c.F k) = ((x j - x (j + 2 * 2 ^ n)) * r (n + 2) ^ j
        - (x (j + 2 ^ n) - x (j + 3 * 2 ^ n)) * r (n + 2) ^ (j + 2 ^ n)) * r (n + 1) ^ j := by
    intro j hj
    obtain ⟨ha, hb, hc, hd⟩ := hl.quad h4 hj
    obtain ⟨t1, u1⟩ := ht (n + 1) (by omega) j (by omega)
    obtain ⟨t2, u2⟩ := ht (n + 1) (by omega) (j + 2 ^ n) (by omega)
    obtain ⟨t3, u3⟩ := ht n (by omega) j hj
    rw [hp] at t1 u1 t2 u2
    rw [← add_assoc] at t2 u2
    obtain ⟨a1, a2, a3, a4⟩ := bf2f_spec ha hc t1 u1
    obtain ⟨b1, b2, b3, b4⟩ := bf2f_spec hb hd t2 u2
    obtain ⟨c1, c2, c3, c4⟩ := bf2f_spec a1 b1 t3 u3
    obtain ⟨d1, d2, d3, d4⟩ := bf2f_spec a2 b2 t3 u3
    rw [zero_add]
    refine ⟨⟨c1, c2, d1, d2⟩, ?_, ?_, ?_, ?_⟩ <;>
    simp only [r4difQuad, c3, c4, d3, d4, a3, a4, b3, b4] <;> rfl
  have hr : r4dif c k tw (n + 2) x
      = ofQuads ((List.range (2 ^ n)).map fun j => r4difQuad c k tw (2 ^ n) (0 + j) (quad x (2 ^ n) j)) := by
    rw [r4dif, Nat.add_sub_cancel, toQuads_eq h4, mapQuads_eq]
  rw [hr]
  refine ⟨by rw [length_ofQuads]; ring, lazy_ofQuads fun i hi => (hq i hi).1, fun j hj => ?_⟩
  obtain ⟨n1, n2, n3, n4⟩ := nth_ofQuads (fun j => r4difQuad c k tw (2 ^ n) (0 + j) (quad x (2 ^ n) j)) hj
  simp only [resF, n1, n2, n3, n4]
  exact (hq j hj).2

/-- What `r4dit` does to a block of `2^(n+2)` words (R149). -/
theorem r4dit_spec {tw : Nat → Nat} {n : Nat} {r : Nat → c.F k} (ht : Twiddles c k r tw (n + 2)) {x : List Nat}
    (hx : x.length = 2 ^ (n + 2)) (hl : LazyList c k x) :
    (r4dit c k tw (n + 2) x).length = 2 ^ (n + 2) ∧ LazyList c k (r4dit c k tw (n + 2) x) ∧
    ∀ j < 2 ^ n,
      let y := resF c k (r4dit c k tw (n + 2) x)
      let a := resF c k x j
      let b := resF c k x (j + 2 ^ n) * r (n + 1) ^ j
      let u := resF c k x (j + 2 * 2 ^ n)
      let v := resF c k x (j + 3 * 2 ^ n) * r (n + 1) ^ j
      y j = a + b + (u + v) * r (n + 2) ^ j ∧
      y (2 ^ n + j) = a - b + (u - v) * r (n + 2) ^ (j + 2 ^ n) ∧
      y (2 * 2 ^ n + j) = a + b - (u + v) * r (n + 2) ^ j ∧
      y (3 * 2 ^ n + j) = a - b - (u - v) * r (n + 2) ^ (j + 2 ^ n) := by
  have h4 : x.length = 4 * 2 ^ n := by rw [hx]; ring
  have hp : 2 ^ (n + 1) = 2 * 2 ^ n := pow_succ' 2 n
  have hq : ∀ j < 2 ^ n, LazyQuad c k (r4ditQuad c k tw (2 ^ n) (0 + j) (quad x (2 ^ n) j)) ∧
      let y := r4ditQuad c k tw (2 ^ n) (0 + j) (quad x (2 ^ n) j)
      let a := resF c k x j
      let b := resF c k x (j + 2 ^ n) * r (n + 1) ^ j
      let u := resF c k x (j + 2 * 2 ^ n)
      let v := resF c k x (j + 3 * 2 ^ n) * r (n + 1) ^ j
      (y.a : c.F k) = a + b + (u + v) * r (n + 2) ^ j ∧
      (y.b : c.F k) = a - b + (u - v) * r (n + 2) ^ (j + 2 ^ n) ∧
      (y.c : c.F k) = a + b - (u + v) * r (n + 2) ^ j ∧
      (y.d : c.F k) = a - b - (u - v) * r (n + 2) ^ (j + 2 ^ n) := by
    intro j hj
    obtain ⟨ha, hb, hc, hd⟩ := hl.quad h4 hj
    obtain ⟨t1, u1⟩ := ht (n + 1) (by omega) j (by omega)
    obtain ⟨t2, u2⟩ := ht (n + 1) (by omega) (j + 2 ^ n) (by omega)
    obtain ⟨t3, u3⟩ := ht n (by omega) j hj
    rw [hp] at t1 u1 t2 u2
    rw [← add_assoc] at t2 u2
    obtain ⟨a1, a2, a3, a4⟩ := bf2i_spec ha hb t3 u3
    obtain ⟨b1, b2, b3, b4⟩ := bf2i_spec hc hd t3 u3
    obtain ⟨c1, c2, c3, c4⟩ := bf2i_spec a1 b1 t1 u1
    obtain ⟨d1, d2, d3, d4⟩ := bf2i_spec a2 b2 t2 u2
    rw [zero_add]
    refine ⟨⟨c1, d1, c2, d2⟩, ?_, ?_, ?_, ?_⟩ <;>
    simp only [r4ditQuad, c3, c4, d3, d4, a3, a4, b3, b4] <;> rfl
  have hr : r4dit c k tw (n + 2) x
      = ofQuads ((List.range (2 ^ n)).map fun j => r4ditQuad c k tw (2 ^ n) (0 + j) (quad x (2 ^ n) j)) := by
    rw [r4dit, Nat.add_sub_cancel, toQuads_eq h4, mapQuads_eq]
  rw [hr]
  refine ⟨by rw [length_ofQuads]; ring, lazy_ofQuads fun i hi => (hq i hi).1, fun j hj => ?_⟩
  obtain ⟨n1, n2, n3, n4⟩ := nth_ofQuads (fun j => r4ditQuad c k tw (2 ^ n) (0 + j) (quad x (2 ^ n) j)) hj
  simp only [resF, n1, n2, n3, n4]
  exact (hq j hj).2

/-! ### The cache-resident transforms -/

/-- The stages of `nttf` on each sub-block. -/
theorem nttfFrom_spec {tw : Nat → Nat} {l : Nat} (hl : l ≤ c.logNmax) (ht : Twiddles c k (c.rootF k) tw l) :
    ∀ s, s ≤ l → ∀ x, x.length = 2 ^ l → LazyList c k x →
      (nttfFrom c k tw l s x).length = 2 ^ l ∧ LazyList c k (nttfFrom c k tw l s x) ∧
      ∀ b < 2 ^ (l - s), ∀ i < 2 ^ s, resF c k (nttfFrom c k tw l s x) (b * 2 ^ s + i)
        = difF (c.rootF k s) s (fun j => resF c k x (b * 2 ^ s + j)) i := by
  have base : ∀ s, s ≤ 3 → s ≤ l → ∀ x, x.length = 2 ^ l → LazyList c k x →
      let y := mapBlocks (kdif c k s) (2 ^ s) (2 ^ (l - s)) x
      y.length = 2 ^ l ∧ LazyList c k y ∧ ∀ b < 2 ^ (l - s), ∀ i < 2 ^ s, resF c k y (b * 2 ^ s + i)
        = difF (c.rootF k s) s (fun j => resF c k x (b * 2 ^ s + j)) i := by
    intro s h3 hs x hx hlz
    have hn : 2 ^ (l - s) * 2 ^ s = 2 ^ l := by rw [← pow_add, Nat.sub_add_cancel hs]
    have hk := kdif_computes (c := c) (k := k) h3
    obtain ⟨y1, y2, y3⟩ := mapBlocks_spec (fun y h1 h2 => ⟨(hk y h1 h2).1, (hk y h1 h2).2.1⟩) _ x (hx.trans hn.symm) hlz
    refine ⟨y1.trans hn, y2, fun b hb i hi => ?_⟩
    rw [resF, y3 b hb i hi]
    refine ((hk _ (length_sub (hx.trans hn.symm) hb) (hlz.sub _ _)).2.2 i hi).trans (difF_congr _ _ (fun j hj => ?_) hi)
    rw [resF, nth_sub hj]
  intro s
  induction s using Nat.strong_induction_on with
  | _ s ih =>
    match s with
    | 0 => exact base 0 (by omega)
    | 1 => exact base 1 (by omega)
    | 2 => exact base 2 (by omega)
    | 3 => exact base 3 (by omega)
    | s + 4 =>
      intro hs x hx hlz
      have hn : 2 ^ (l - (s + 4)) * 2 ^ (s + 4) = 2 ^ l := by rw [← pow_add, Nat.sub_add_cancel hs]
      have htw := ht.mono (t' := s + 2 + 2) hs
      obtain ⟨y1, y2, y3⟩ := mapBlocks_spec (fun y h1 h2 =>
        ⟨(r4dif_spec htw h1 h2).1, (r4dif_spec htw h1 h2).2.1⟩) _ x (hx.trans hn.symm) hlz
      obtain ⟨z1, z2, z3⟩ := ih (s + 2) (by omega) (by omega) _ (y1.trans hn) y2
      rw [nttfFrom]
      refine ⟨z1, z2, fun b hb i hi => ?_⟩
      have e4 : 2 ^ (s + 4) = 4 * 2 ^ (s + 2) := by ring
      have e2 : 2 ^ (l - (s + 2)) = 4 * 2 ^ (l - (s + 4)) := by
        rw [show l - (s + 2) = l - (s + 4) + 2 by omega, pow_add]
        ring
      have hR1 : c.rootF k (s + 4) ^ 2 = c.rootF k (s + 3) := c.rootF_sq k (by omega)
      have hR2 : c.rootF k (s + 4) ^ 4 = c.rootF k (s + 2) := by
        rw [show 4 = 2 * 2 from rfl, pow_mul, hR1, c.rootF_sq k (by omega)]
      have key : ∀ m j, m < 4 → j < 2 ^ (s + 2) →
          resF c k (mapBlocks (r4dif c k tw (s + 4)) (2 ^ (s + 4)) (2 ^ (l - (s + 4))) x) ((4 * b + m) * 2 ^ (s + 2) + j)
            = resF c k (r4dif c k tw (s + 4) (sub x b (2 ^ (s + 4)))) (m * 2 ^ (s + 2) + j) := by
        intro m j hm hj
        have hm' : m * 2 ^ (s + 2) ≤ 3 * 2 ^ (s + 2) := Nat.mul_le_mul_right _ (by omega)
        rw [resF, resF, ← y3 b hb _ (by change _ < 2 ^ (s + 4); omega)]
        congr 2
        rw [e4]
        ring
      have hsub := length_sub (hx.trans hn.symm) hb
      obtain ⟨-, -, w⟩ := r4dif_spec htw hsub (hlz.sub b (2 ^ (s + 4)))
      have hx' : ∀ j < 2 ^ (s + 4), resF c k (sub x b (2 ^ (s + 4))) j = resF c k x (b * 2 ^ (s + 4) + j) :=
        fun j hj => by rw [resF, nth_sub hj]
      obtain ⟨m, j, hm, hj, rfl⟩ : ∃ m j, m < 4 ∧ j < 2 ^ (s + 2) ∧ i = m * 2 ^ (s + 2) + j :=
        ⟨i / 2 ^ (s + 2), i % 2 ^ (s + 2), (Nat.div_lt_iff_lt_mul (by positivity)).2 (by omega),
          Nat.mod_lt _ (by positivity), by rw [mul_comm]; exact (Nat.div_add_mod _ _).symm⟩
      have hlhs := z3 (4 * b + m) (by rw [e2]; omega) j hj
      rw [show b * 2 ^ (s + 4) + (m * 2 ^ (s + 2) + j) = (4 * b + m) * 2 ^ (s + 2) + j by rw [e4]; ring, hlhs,
        difF_congr _ _ (fun j hj => key m j hm hj) hj]
      obtain ⟨d0, d1, d2, d3⟩ := difF_four (c.rootF k (s + 4)) (s + 2) (fun j => resF c k x (b * 2 ^ (s + 4) + j)) hj
      rw [hR2, hR1] at *
      have hh : ∀ j < 2 ^ (s + 2), ∀ n < 4, resF c k (sub x b (2 ^ (s + 4))) (j + n * 2 ^ (s + 2))
          = resF c k x (b * 2 ^ (s + 4) + (j + n * 2 ^ (s + 2))) := fun j hj n hn4 =>
        hx' _ (by
          have hm' : n * 2 ^ (s + 2) ≤ 3 * 2 ^ (s + 2) := Nat.mul_le_mul_right _ (by omega)
          omega)
      have hh0 := fun j (hj : j < 2 ^ (s + 2)) => hx' j (by omega)
      have hh1 := fun j (hj : j < 2 ^ (s + 2)) => by simpa only [one_mul] using hh j hj 1 (by omega)
      rcases sum4 m hm with rfl | rfl | rfl | rfl
      · rw [Nat.zero_mul, Nat.zero_add, d0]
        refine difF_congr _ _ (fun j hj => ?_) hj
        rw [Nat.zero_add, (w j hj).1, hh0 j hj, hh j hj 2 (by omega), hh1 j hj, hh j hj 3 (by omega)]
      · rw [Nat.one_mul, d1]
        refine difF_congr _ _ (fun j hj => ?_) hj
        rw [(w j hj).2.1, hh0 j hj, hh j hj 2 (by omega), hh1 j hj, hh j hj 3 (by omega)]
      · rw [d2]
        refine difF_congr _ _ (fun j hj => ?_) hj
        rw [(w j hj).2.2.1, hh0 j hj, hh j hj 2 (by omega), hh1 j hj, hh j hj 3 (by omega)]
      · rw [d3]
        refine difF_congr _ _ (fun j hj => ?_) hj
        rw [(w j hj).2.2.2, hh0 j hj, hh j hj 2 (by omega), hh1 j hj, hh j hj 3 (by omega)]

/-- `nttf` is the forward network (R152, R156 (4)); below exponent 4 it reads no table. -/
theorem nttf_computes {tw : Nat → Nat} {l : Nat} (hl : l ≤ c.logNmax) (ht : 4 ≤ l → Twiddles c k (c.rootF k) tw l) :
    Computes c k l (nttf c k tw l) (difF (c.rootF k l) l) := by
  intro x hx hlz
  rw [nttf]
  split
  · exact kdif_computes ‹_› x hx hlz
  · obtain ⟨h1, h2, h3⟩ := nttfFrom_spec hl (ht (by omega)) l le_rfl x hx hlz
    refine ⟨h1, h2, fun i hi => ?_⟩
    simpa using h3 0 (by positivity) i hi

/-- The stages of `ntti` on each sub-block. -/
theorem nttiUpTo_spec {tw : Nat → Nat} {l : Nat} (hl : l ≤ c.logNmax) (ht : Twiddles c k (c.rootIF k) tw l) :
    ∀ s, s ≤ l → ∀ x, x.length = 2 ^ l → LazyList c k x →
      (nttiUpTo c k tw l s x).length = 2 ^ l ∧ LazyList c k (nttiUpTo c k tw l s x) ∧
      ∀ b < 2 ^ (l - s), ∀ i < 2 ^ s, resF c k (nttiUpTo c k tw l s x) (b * 2 ^ s + i)
        = ditF (c.rootIF k s) s (fun j => resF c k x (b * 2 ^ s + j)) i := by
  have base : ∀ s, s ≤ 3 → s ≤ l → ∀ x, x.length = 2 ^ l → LazyList c k x →
      let y := mapBlocks (kdit c k s) (2 ^ s) (2 ^ (l - s)) x
      y.length = 2 ^ l ∧ LazyList c k y ∧ ∀ b < 2 ^ (l - s), ∀ i < 2 ^ s, resF c k y (b * 2 ^ s + i)
        = ditF (c.rootIF k s) s (fun j => resF c k x (b * 2 ^ s + j)) i := by
    intro s h3 hs x hx hlz
    have hn : 2 ^ (l - s) * 2 ^ s = 2 ^ l := by rw [← pow_add, Nat.sub_add_cancel hs]
    have hk := kdit_computes (c := c) (k := k) h3
    obtain ⟨y1, y2, y3⟩ := mapBlocks_spec (fun y h1 h2 => ⟨(hk y h1 h2).1, (hk y h1 h2).2.1⟩) _ x (hx.trans hn.symm) hlz
    refine ⟨y1.trans hn, y2, fun b hb i hi => ?_⟩
    rw [resF, y3 b hb i hi]
    refine ((hk _ (length_sub (hx.trans hn.symm) hb) (hlz.sub _ _)).2.2 i hi).trans (ditF_congr _ _ (fun j hj => ?_) hi)
    rw [resF, nth_sub hj]
  intro s
  induction s using Nat.strong_induction_on with
  | _ s ih =>
    match s with
    | 0 => exact base 0 (by omega)
    | 1 => exact base 1 (by omega)
    | 2 => exact base 2 (by omega)
    | 3 => exact base 3 (by omega)
    | s + 4 =>
      intro hs x hx hlz
      have hn : 2 ^ (l - (s + 4)) * 2 ^ (s + 4) = 2 ^ l := by rw [← pow_add, Nat.sub_add_cancel hs]
      have htw := ht.mono (t' := s + 2 + 2) hs
      obtain ⟨z1, z2, z3⟩ := ih (s + 2) (by omega) (by omega) _ hx hlz
      obtain ⟨y1, y2, y3⟩ := mapBlocks_spec (fun y h1 h2 =>
        ⟨(r4dit_spec htw h1 h2).1, (r4dit_spec htw h1 h2).2.1⟩) _ _ (z1.trans hn.symm) z2
      rw [nttiUpTo]
      refine ⟨y1.trans hn, y2, fun b hb i hi => ?_⟩
      have e4 : 2 ^ (s + 4) = 4 * 2 ^ (s + 2) := by ring
      have e2 : 2 ^ (l - (s + 2)) = 4 * 2 ^ (l - (s + 4)) := by
        rw [show l - (s + 2) = l - (s + 4) + 2 by omega, pow_add]
        ring
      have hR1 : c.rootIF k (s + 4) ^ 2 = c.rootIF k (s + 3) := c.rootIF_sq k (by omega)
      have hR2 : c.rootIF k (s + 4) ^ 4 = c.rootIF k (s + 2) := by
        rw [show 4 = 2 * 2 from rfl, pow_mul, hR1, c.rootIF_sq k (by omega)]
      have hsub := length_sub (z1.trans hn.symm) hb
      obtain ⟨-, -, w⟩ := r4dit_spec htw hsub (z2.sub b (2 ^ (s + 4)))
      have key : ∀ m j, m < 4 → j < 2 ^ (s + 2) →
          resF c k (sub (nttiUpTo c k tw l (s + 2) x) b (2 ^ (s + 4))) (j + m * 2 ^ (s + 2))
            = ditF (c.rootIF k (s + 2)) (s + 2) (fun t => resF c k x (b * 2 ^ (s + 4) + (m * 2 ^ (s + 2) + t))) j := by
        intro m j hm hj
        have hm' : m * 2 ^ (s + 2) ≤ 3 * 2 ^ (s + 2) := Nat.mul_le_mul_right _ (by omega)
        rw [resF, nth_sub (by omega), show b * 2 ^ (s + 4) + (j + m * 2 ^ (s + 2)) = (4 * b + m) * 2 ^ (s + 2) + j by
          rw [e4]; ring, ← resF, z3 (4 * b + m) (by rw [e2]; omega) j hj]
        refine ditF_congr _ _ (fun t _ => ?_) hj
        congr 1
        rw [e4]
        ring
      obtain ⟨m, j, hm, hj, rfl⟩ : ∃ m j, m < 4 ∧ j < 2 ^ (s + 2) ∧ i = m * 2 ^ (s + 2) + j :=
        ⟨i / 2 ^ (s + 2), i % 2 ^ (s + 2), (Nat.div_lt_iff_lt_mul (by positivity)).2 (by omega),
          Nat.mod_lt _ (by positivity), by rw [mul_comm]; exact (Nat.div_add_mod _ _).symm⟩
      have hlhs : resF c k (mapBlocks (r4dit c k tw (s + 4)) (2 ^ (s + 4)) (2 ^ (l - (s + 4))) (nttiUpTo c k tw l (s + 2) x))
          (b * 2 ^ (s + 4) + (m * 2 ^ (s + 2) + j))
          = resF c k (r4dit c k tw (s + 4) (sub (nttiUpTo c k tw l (s + 2) x) b (2 ^ (s + 4)))) (m * 2 ^ (s + 2) + j) := by
        rw [resF, y3 b hb _ hi]
      rw [hlhs]
      obtain ⟨d0, d1, d2, d3⟩ := ditF_four (c.rootIF k (s + 4)) (s + 2) (fun j => resF c k x (b * 2 ^ (s + 4) + j)) hj
      rw [hR2, hR1] at *
      have k0 : resF c k (sub (nttiUpTo c k tw l (s + 2) x) b (2 ^ (s + 4))) j
          = ditF (c.rootIF k (s + 2)) (s + 2) (fun t => resF c k x (b * 2 ^ (s + 4) + t)) j := by
        simpa using key 0 j (by omega) hj
      have k1 : resF c k (sub (nttiUpTo c k tw l (s + 2) x) b (2 ^ (s + 4))) (j + 2 ^ (s + 2))
          = ditF (c.rootIF k (s + 2)) (s + 2) (fun t => resF c k x (b * 2 ^ (s + 4) + (2 ^ (s + 2) + t))) j := by
        simpa using key 1 j (by omega) hj
      have k2 := key 2 j (by omega) hj
      have k3 := key 3 j (by omega) hj
      rcases sum4 m hm with rfl | rfl | rfl | rfl
      · rw [Nat.zero_mul, Nat.zero_add, d0]
        refine (w j hj).1.trans ?_
        rw [k0, k1, k2, k3]
      · rw [Nat.one_mul, d1]
        refine (w j hj).2.1.trans ?_
        rw [k0, k1, k2, k3]
      · rw [d2]
        refine (w j hj).2.2.1.trans ?_
        rw [k0, k1, k2, k3]
      · rw [d3]
        refine (w j hj).2.2.2.trans ?_
        rw [k0, k1, k2, k3]

/-- `ntti` is the inverse network (R153); below exponent 4 it reads no table. -/
theorem ntti_computes {tw : Nat → Nat} {l : Nat} (hl : l ≤ c.logNmax) (ht : 4 ≤ l → Twiddles c k (c.rootIF k) tw l) :
    Computes c k l (ntti c k tw l) (ditF (c.rootIF k l) l) := by
  intro x hx hlz
  rw [ntti]
  split
  · exact kdit_computes ‹_› x hx hlz
  · obtain ⟨h1, h2, h3⟩ := nttiUpTo_spec hl (ht (by omega)) l le_rfl x hx hlz
    refine ⟨h1, h2, fun i hi => ?_⟩
    simpa using h3 0 (by positivity) i hi

end Sys2Proof.Machine
end

