-- ==== Sys2Proof/Laws/FourStep.lean ====
section
/-! SUPPORT. The four-step controller computes the same networks (R188, R189, R192): `fwdr` the forward network, `convr` the inverse
network of the product of the two images, whatever the threshold; and what the last step of a command leaves (R135, R192). -/

namespace Sys2Proof

namespace Config

variable (c : Config) (k : Modulus)

theorem rootF_quarter {n : Nat} (h : n + 2 ≤ c.logNmax) : c.rootF k (n + 2) ^ 2 ^ n = c.rootF k 2 := by
  rw [rootF, rootF, Machine.unityRoot, Machine.unityRoot, Nat.cast_pow, Nat.cast_pow, ← pow_mul, ← pow_add,
    show c.logNmax - (n + 2) + n = c.logNmax - 2 by omega]

theorem rootIF_quarter {n : Nat} (h : n + 2 ≤ c.logNmax) : c.rootIF k (n + 2) ^ 2 ^ n = c.rootIF k 2 := by
  have := c.fact k
  rw [rootIF, rootIF, inv_pow, c.rootF_quarter k h]

end Config

namespace Machine

variable {c : Config} {k : Modulus}

theorem norm2_lazy {a : Nat} (h : a < 2 * c.p k) : norm2 c k a < 2 * c.p k := lazy_of_lt (norm2_lt c k h)

theorem cube_cast {w : Nat} {W : c.F k} (hw : (w : c.F k) = W * 2 ^ 64) : (cube c k w : c.F k) = W ^ 3 * 2 ^ 64 := by
  rw [cube, mulmod_twiddle c k hw, mulmod_twiddle c k hw, hw]
  ring

theorem cube_lt {w : Nat} (hw : w < 2 * c.p k) : cube c k w < 2 * c.p k := mulmod_lazy (mulmod_lazy hw hw) hw

theorem runPow_one_cast {w : Nat} {W : c.F k} (hw : (w : c.F k) = W * 2 ^ 64) (j : Nat) :
    (runPow c k w j (c.one k) : c.F k) = W ^ j * 2 ^ 64 := by
  rw [runPow_cast hw, c.cast_one, mul_comm]

theorem runPow_one_lazy {w : Nat} (hw : w < 2 * c.p k) (j : Nat) : runPow c k w j (c.one k) < 2 * c.p k :=
  lazy_of_lt (runPow_lt hw j _ (c.one_lt k))

/-- What `split4` does to a block of `2^(n+2)` words (R186). -/
theorem split4_spec {n : Nat} {x : List Nat} (hx : x.length = 2 ^ (n + 2)) (hl : LazyList c k x) :
    (split4 c k (n + 2) x).length = 2 ^ (n + 2) ∧ LazyList c k (split4 c k (n + 2) x) ∧
    ∀ j < 2 ^ n,
      let y := resF c k (split4 c k (n + 2) x)
      let x := resF c k x
      let w := c.rootF k (n + 2)
      y j = x j + x (j + 2 * 2 ^ n) ∧ y (2 ^ n + j) = x (j + 2 ^ n) + x (j + 3 * 2 ^ n) ∧
      y (2 * 2 ^ n + j) = (x j - x (j + 2 * 2 ^ n) + (x (j + 2 ^ n) - x (j + 3 * 2 ^ n)) * c.rootF k 2) * w ^ j ∧
      y (3 * 2 ^ n + j) = (x j - x (j + 2 * 2 ^ n) - (x (j + 2 ^ n) - x (j + 3 * 2 ^ n)) * c.rootF k 2) * (w ^ 3) ^ j := by
  have h4 : x.length = 4 * 2 ^ n := by rw [hx]; ring
  have hw := omega_cast c k (n + 2)
  have hwl : omega c k (n + 2) < 2 * c.p k := lazy_of_lt (omega_lt c k _)
  have hr : split4 c k (n + 2) x = ofQuads ((List.range (2 ^ n)).map fun j => splitQuad c k (quad x (2 ^ n) j)
      (runPow c k (omega c k (n + 2)) j (c.one k)) (runPow c k (cube c k (omega c k (n + 2))) j (c.one k))) := by
    rw [split4, Nat.add_sub_cancel, toQuads_eq h4, runQuads_eq]
  have hq : ∀ j < 2 ^ n,
      let y := splitQuad c k (quad x (2 ^ n) j) (runPow c k (omega c k (n + 2)) j (c.one k))
        (runPow c k (cube c k (omega c k (n + 2))) j (c.one k))
      let x := resF c k x
      let w := c.rootF k (n + 2)
      LazyQuad c k y ∧ (y.a : c.F k) = x j + x (j + 2 * 2 ^ n) ∧ (y.b : c.F k) = x (j + 2 ^ n) + x (j + 3 * 2 ^ n) ∧
      (y.c : c.F k) = (x j - x (j + 2 * 2 ^ n) + (x (j + 2 ^ n) - x (j + 3 * 2 ^ n)) * c.rootF k 2) * w ^ j ∧
      (y.d : c.F k) = (x j - x (j + 2 * 2 ^ n) - (x (j + 2 ^ n) - x (j + 3 * 2 ^ n)) * c.rootF k 2) * (w ^ 3) ^ j := by
    intro j hj
    obtain ⟨ha, hb, hc, hd⟩ := hl.quad h4 hj
    have t0 := submod_lt c k (b := (quad x (2 ^ n) j).c) ha
    have t1 := mulmod_lazy (submod_lt c k (b := (quad x (2 ^ n) j).d) hb) (w4_lazy (c := c) (k := k))
    refine ⟨⟨norm2_lazy (addmod_lt c k ha hc), norm2_lazy (addmod_lt c k hb hd),
      mulmod_lazy (addmod_lt c k t0 t1) (runPow_one_lazy hwl j), mulmod_lazy (submod_lt c k t0) (runPow_one_lazy (cube_lt hwl) j)⟩,
      ?_, ?_, ?_, ?_⟩
    · simp only [splitQuad, norm2_cast, addmod_cast]
      rfl
    · simp only [splitQuad, norm2_cast, addmod_cast]
      rfl
    · simp only [splitQuad, mulmod_twiddle c k (runPow_one_cast hw j), addmod_cast, submod_cast c k _ hc,
        mulmod_twiddle c k (c.cast_w4 k), submod_cast c k _ hd]
      rfl
    · simp only [splitQuad, mulmod_twiddle c k (runPow_one_cast (cube_cast hw) j), submod_cast c k _ t1,
        submod_cast c k _ hc, mulmod_twiddle c k (c.cast_w4 k), submod_cast c k _ hd]
      rfl
  rw [hr]
  refine ⟨by rw [length_ofQuads]; ring, lazy_ofQuads fun i hi => (hq i hi).1, fun j hj => ?_⟩
  obtain ⟨n1, n2, n3, n4⟩ := nth_ofQuads (fun j => splitQuad c k (quad x (2 ^ n) j)
    (runPow c k (omega c k (n + 2)) j (c.one k)) (runPow c k (cube c k (omega c k (n + 2))) j (c.one k))) hj
  simp only [resF, n1, n2, n3, n4]
  exact (hq j hj).2

/-- What `merge4` does to a block of `2^(n+2)` words (R187). -/
theorem merge4_spec {n : Nat} {x : List Nat} (hx : x.length = 2 ^ (n + 2)) (hl : LazyList c k x) :
    (merge4 c k (n + 2) x).length = 2 ^ (n + 2) ∧ LazyList c k (merge4 c k (n + 2) x) ∧
    ∀ j < 2 ^ n,
      let y := resF c k (merge4 c k (n + 2) x)
      let w := c.rootIF k (n + 2)
      let a := resF c k x j
      let b := resF c k x (j + 2 ^ n)
      let u := resF c k x (j + 2 * 2 ^ n) * w ^ j
      let v := resF c k x (j + 3 * 2 ^ n) * (w ^ 3) ^ j
      y j = a + (u + v) ∧ y (2 ^ n + j) = b + (u - v) * c.rootIF k 2 ∧ y (2 * 2 ^ n + j) = a - (u + v) ∧
      y (3 * 2 ^ n + j) = b - (u - v) * c.rootIF k 2 := by
  have h4 : x.length = 4 * 2 ^ n := by rw [hx]; ring
  have hw := omegai_cast c k (n + 2)
  have hwl : omegai c k (n + 2) < 2 * c.p k := lazy_of_lt (omegai_lt c k _)
  have hr : merge4 c k (n + 2) x = ofQuads ((List.range (2 ^ n)).map fun j => mergeQuad c k (quad x (2 ^ n) j)
      (runPow c k (omegai c k (n + 2)) j (c.one k)) (runPow c k (cube c k (omegai c k (n + 2))) j (c.one k))) := by
    rw [merge4, Nat.add_sub_cancel, toQuads_eq h4, runQuads_eq]
  have hq : ∀ j < 2 ^ n,
      let y := mergeQuad c k (quad x (2 ^ n) j) (runPow c k (omegai c k (n + 2)) j (c.one k))
        (runPow c k (cube c k (omegai c k (n + 2))) j (c.one k))
      let w := c.rootIF k (n + 2)
      let a := resF c k x j
      let b := resF c k x (j + 2 ^ n)
      let u := resF c k x (j + 2 * 2 ^ n) * w ^ j
      let v := resF c k x (j + 3 * 2 ^ n) * (w ^ 3) ^ j
      LazyQuad c k y ∧ (y.a : c.F k) = a + (u + v) ∧ (y.b : c.F k) = b + (u - v) * c.rootIF k 2 ∧
      (y.c : c.F k) = a - (u + v) ∧ (y.d : c.F k) = b - (u - v) * c.rootIF k 2 := by
    intro j hj
    obtain ⟨ha, hb, hc, hd⟩ := hl.quad h4 hj
    have hv := mulmod_lazy hc (runPow_one_lazy hwl j)
    have hz := mulmod_lazy hd (runPow_one_lazy (cube_lt hwl) j)
    have t0 := addmod_lt c k hv hz
    have t1 := mulmod_lazy (submod_lt c k (b := mulmod c k (quad x (2 ^ n) j).d
      (runPow c k (cube c k (omegai c k (n + 2))) j (c.one k))) hv) (w4i_lazy (c := c) (k := k))
    refine ⟨⟨norm2_lazy (addmod_lt c k ha t0), norm2_lazy (addmod_lt c k hb t1), norm2_lazy (submod_lt c k ha),
      norm2_lazy (submod_lt c k hb)⟩, ?_, ?_, ?_, ?_⟩ <;>
    simp only [mergeQuad, norm2_cast, addmod_cast, submod_cast c k _ t0, submod_cast c k _ t1, submod_cast c k _ hz,
      mulmod_twiddle c k (runPow_one_cast hw j), mulmod_twiddle c k (runPow_one_cast (cube_cast hw) j),
      mulmod_twiddle c k (c.cast_w4i k)] <;> rfl
  rw [hr]
  refine ⟨by rw [length_ofQuads]; ring, lazy_ofQuads fun i hi => (hq i hi).1, fun j hj => ?_⟩
  obtain ⟨n1, n2, n3, n4⟩ := nth_ofQuads (fun j => mergeQuad c k (quad x (2 ^ n) j)
    (runPow c k (omegai c k (n + 2)) j (c.one k)) (runPow c k (cube c k (omegai c k (n + 2))) j (c.one k))) hj
  simp only [resF, n1, n2, n3, n4]
  exact (hq j hj).2

/-! ### The three parts of a block (R188) -/

theorem length_parts {l : Nat} {x : List Nat} (h : x.length = 2 ^ (l + 2)) :
    (firstHalf l x).length = 2 ^ (l + 1) ∧ (thirdQuarter l x).length = 2 ^ l ∧ (fourthQuarter l x).length = 2 ^ l := by
  have e2 : 2 ^ (l + 2) = 4 * 2 ^ l := by ring
  have e1 : 2 ^ (l + 1) = 2 * 2 ^ l := by ring
  simp only [firstHalf, thirdQuarter, fourthQuarter, List.length_take, List.length_drop]
  omega

theorem lazy_parts {l : Nat} {x : List Nat} (h : LazyList c k x) :
    LazyList c k (firstHalf l x) ∧ LazyList c k (thirdQuarter l x) ∧ LazyList c k (fourthQuarter l x) :=
  ⟨h.take _, (h.drop _).take _, h.drop _⟩

theorem nth_firstHalf {l j : Nat} {x : List Nat} (h : j < 2 ^ (l + 1)) : nth (firstHalf l x) j = nth x j := nth_take h

theorem nth_thirdQuarter {l j : Nat} {x : List Nat} (h : j < 2 ^ l) : nth (thirdQuarter l x) j = nth x (2 * 2 ^ l + j) := by
  rw [thirdQuarter, nth_take h, nth_drop, pow_succ']

theorem nth_fourthQuarter {l j : Nat} {x : List Nat} : nth (fourthQuarter l x) j = nth x (3 * 2 ^ l + j) := nth_drop _ _ _

/-- The parts of a block put together from three lists. -/
theorem parts_append {l : Nat} {a b d : List Nat} (ha : a.length = 2 ^ (l + 1)) (hb : b.length = 2 ^ l)
    (hd : d.length = 2 ^ l) :
    (a ++ b ++ d).length = 2 ^ (l + 2) ∧ firstHalf l (a ++ b ++ d) = a ∧ thirdQuarter l (a ++ b ++ d) = b ∧
    fourthQuarter l (a ++ b ++ d) = d := by
  have e2 : 2 ^ (l + 2) = 4 * 2 ^ l := by ring
  have e1 : 2 ^ (l + 1) = 2 * 2 ^ l := by ring
  refine ⟨by simp only [List.length_append]; omega, ?_, ?_, ?_⟩
  · rw [firstHalf, List.append_assoc, List.take_append_of_le_length (by omega), List.take_of_length_le (by omega)]
  · rw [thirdQuarter, List.append_assoc, ← ha, List.drop_left, List.take_append_of_le_length (by omega),
      List.take_of_length_le (by omega)]
  · rw [fourthQuarter, show 3 * 2 ^ l = (a ++ b).length by simp only [List.length_append]; omega, List.drop_left]

/-! ### The forward image -/

/-- The table a transform of exponent l needs at its leaves (R127, R195). -/
def LeafTable (c : Config) (k : Modulus) (r : Nat → c.F k) (tw : Nat → Nat) (l : Nat) : Prop :=
  4 ≤ min l c.logThresh → Twiddles c k r tw (min l c.logThresh)

theorem LeafTable.mono {r : Nat → c.F k} {tw : Nat → Nat} {l l' : Nat} (h : LeafTable c k r tw l) (hl : l' ≤ l) :
    LeafTable c k r tw l' := fun h4 => (h (by omega)).mono (by omega)

theorem LeafTable.leaf {r : Nat → c.F k} {tw : Nat → Nat} {l : Nat} (h : LeafTable c k r tw l) (hl : l ≤ c.logThresh) :
    4 ≤ l → Twiddles c k r tw l := fun h4 => by
  have h' := h (by omega)
  rwa [Nat.min_eq_left hl] at h'

/-- `fwdr` is the forward network, below and above the threshold (R188). -/
theorem fwdr_computes {tw : Nat → Nat} : ∀ {l : Nat}, l ≤ c.logNmax → LeafTable c k (c.rootF k) tw l →
    Computes c k l (fwdr c k tw l) (difF (c.rootF k l) l) := by
  intro l
  induction l using Nat.strong_induction_on with
  | _ l ih =>
    match l with
    | 0 => exact fun hl ht => nttf_computes hl (ht.leaf (Nat.zero_le _))
    | 1 => exact fun hl ht => nttf_computes hl (ht.leaf c.thresh_pos)
    | l + 2 =>
      intro hl ht x hx hlz
      rw [fwdr]
      split
      · exact nttf_computes hl (ht.leaf ‹_›) x hx hlz
      · obtain ⟨y1, y2, y3⟩ := split4_spec hx hlz
        generalize split4 c k (l + 2) x = y at y1 y2 y3
        obtain ⟨p1, p2, p3⟩ := length_parts y1
        obtain ⟨q1, q2, q3⟩ := lazy_parts (l := l) y2
        obtain ⟨a1, a2, a3⟩ := ih (l + 1) (by omega) (by omega) (ht.mono (by omega)) _ p1 q1
        obtain ⟨b1, b2, b3⟩ := ih l (by omega) (by omega) (ht.mono (by omega)) _ p2 q2
        obtain ⟨d1, d2, d3⟩ := ih l (by omega) (by omega) (ht.mono (by omega)) _ p3 q3
        obtain ⟨f1, f2, f3, f4⟩ := parts_append a1 b1 d1
        refine ⟨f1, (a2.append b2).append d2, fun i hi => ?_⟩
        have e1 : 2 ^ (l + 1) = 2 * 2 ^ l := by ring
        have e2 : 2 ^ (l + 2) = 4 * 2 ^ l := by ring
        have hR1 : c.rootF k (l + 2) ^ 2 = c.rootF k (l + 1) := c.rootF_sq k (by omega)
        have hR2 : c.rootF k (l + 2) ^ 4 = c.rootF k l := by
          rw [show 4 = 2 * 2 from rfl, pow_mul, hR1, c.rootF_sq k (by omega)]
        have hR4 := c.rootF_quarter k (n := l) hl
        rcases Nat.lt_or_ge i (2 ^ (l + 1)) with h1 | h1
        · rw [resF, ← nth_firstHalf h1, f2, ← resF, a3 i h1, difF_low _ _ _ h1, hR1]
          refine difF_congr _ _ (fun j hj => ?_) h1
          rw [resF, nth_firstHalf hj, ← resF]
          rcases Nat.lt_or_ge j (2 ^ l) with h2 | h2
          · rw [(y3 j h2).1, e1]
          · obtain ⟨t, rfl⟩ := Nat.exists_eq_add_of_le h2
            rw [(y3 t (by omega)).2.1, e1, add_comm t, add_comm t, show 2 ^ l + t + 2 * 2 ^ l = 3 * 2 ^ l + t by ring]
        · rcases Nat.lt_or_ge i (3 * 2 ^ l) with h2 | h2
          · obtain ⟨t, rfl⟩ := Nat.exists_eq_add_of_le (show 2 * 2 ^ l ≤ i by omega)
            have ht' : t < 2 ^ l := by omega
            rw [resF, ← nth_thirdQuarter ht', f3, ← resF, b3 t ht', (difF_four _ _ _ ht').2.2.1, hR2]
            refine difF_congr _ _ (fun j hj => ?_) ht'
            rw [resF, nth_thirdQuarter hj, ← resF, (y3 j hj).2.2.1, pow_add, hR4]
            ring
          · obtain ⟨t, rfl⟩ := Nat.exists_eq_add_of_le h2
            have ht' : t < 2 ^ l := by omega
            rw [resF, ← nth_fourthQuarter, f4, ← resF, d3 t ht', (difF_four _ _ _ ht').2.2.2, hR2]
            refine difF_congr _ _ (fun j hj => ?_) ht'
            rw [resF, nth_fourthQuarter, ← resF, (y3 j hj).2.2.2, pow_add, hR4, ← pow_mul, ← pow_mul]
            ring

/-! ### The recursion -/

/-- What `CNV2` leaves in its second block is the forward image (R194). -/
theorem convr_two_snd (twf twi : Nat → Nat) : ∀ (l : Nat) (x y : List Nat),
    (convr c k .two twf twi l x y).2 = fwdr c k twf l y := by
  intro l
  induction l using Nat.strong_induction_on with
  | _ l ih =>
    match l with
    | 0 => exact fun x y => rfl
    | 1 => exact fun x y => rfl
    | l + 2 =>
      intro x y
      rw [convr, fwdr]
      split
      · rfl
      · simp only [ih (l + 1) (by omega), ih l (by omega)]

/-- The self-convolution is the convolution of two equal blocks (R199). -/
theorem convr_sq_fst (twf twi : Nat → Nat) : ∀ (l : Nat) (x y : List Nat),
    (convr c k .sq twf twi l x y).1 = (convr c k .two twf twi l x x).1 := by
  intro l
  induction l using Nat.strong_induction_on with
  | _ l ih =>
    match l with
    | 0 => exact fun x y => rfl
    | 1 => exact fun x y => rfl
    | l + 2 =>
      intro x y
      rw [convr, convr]
      split
      · rfl
      · simp only [ih (l + 1) (by omega), ih l (by omega)]

/-- The convolution of two blocks is the convolution of the first with the image of the second (R194). -/
theorem convr_two_fst {twf : Nat → Nat} (twi : Nat → Nat) : ∀ {l : Nat}, l ≤ c.logNmax →
    LeafTable c k (c.rootF k) twf l → ∀ (x y : List Nat), y.length = 2 ^ l → LazyList c k y →
    (convr c k .two twf twi l x y).1 = (convr c k .one twf twi l x (fwdr c k twf l y)).1 := by
  intro l
  induction l using Nat.strong_induction_on with
  | _ l ih =>
    match l with
    | 0 => exact fun _ _ x y _ _ => rfl
    | 1 => exact fun _ _ x y _ _ => rfl
    | l + 2 =>
      intro hl ht x y hy hlz
      rw [convr, convr, fwdr]
      split
      · rfl
      · obtain ⟨y1, y2, -⟩ := split4_spec hy hlz
        obtain ⟨p1, p2, p3⟩ := length_parts y1
        obtain ⟨q1, q2, q3⟩ := lazy_parts (l := l) y2
        have a1 := (fwdr_computes (show l + 1 ≤ c.logNmax by omega) (ht.mono (by omega)) _ p1 q1).1
        have b1 := (fwdr_computes (show l ≤ c.logNmax by omega) (ht.mono (by omega)) _ p2 q2).1
        have d1 := (fwdr_computes (show l ≤ c.logNmax by omega) (ht.mono (by omega)) _ p3 q3).1
        obtain ⟨f1, f2, f3, f4⟩ := parts_append a1 b1 d1
        simp only [f2, f3, f4]
        rw [ih (l + 1) (by omega) (by omega) (ht.mono (by omega)) _ _ p1 q1,
          ih l (by omega) (by omega) (ht.mono (by omega)) _ _ p2 q2,
          ih l (by omega) (by omega) (ht.mono (by omega)) _ _ p3 q3]

theorem pointwise_spec {x y : List Nat} {n : Nat} (hx : x.length = n) (hy : y.length = n) (lx : LazyList c k x)
    (ly : LazyList c k y) :
    (pointwise c k x y).length = n ∧ (∀ a ∈ pointwise c k x y, a < c.p k) ∧
    ∀ i < n, resF c k (pointwise c k x y) i = resF c k x i * resF c k y i * c.ri k := by
  have hl : (pointwise c k x y).length = n := by simp [pointwise, hx, hy]
  refine ⟨hl, fun a ha => ?_, fun i hi => ?_⟩
  · obtain ⟨i, hi, rfl⟩ := List.getElem_of_mem ha
    rw [hl] at hi
    simp only [pointwise, List.getElem_zipWith]
    exact mulmod_lt c k (lx _ (List.getElem_mem _)) (ly _ (List.getElem_mem _))
  · rw [resF, pointwise, nth_zipWith (by omega) (by omega), mulmod_cast]

/-- The recursion with a second block that is an image (R189): the inverse network of the product. -/
theorem convr_one_spec {twf twi : Nat → Nat} : ∀ {l : Nat}, l ≤ c.logNmax → LeafTable c k (c.rootF k) twf l →
    LeafTable c k (c.rootIF k) twi l → ∀ x y : List Nat, x.length = 2 ^ l → y.length = 2 ^ l → LazyList c k x →
    LazyList c k y →
    (convr c k .one twf twi l x y).1.length = 2 ^ l ∧ LazyList c k (convr c k .one twf twi l x y).1 ∧
    ∀ i < 2 ^ l, resF c k (convr c k .one twf twi l x y).1 i
      = ditF (c.rootIF k l) l (fun n => difF (c.rootF k l) l (resF c k x) n * resF c k y n * c.ri k) i := by
  have leaf : ∀ {l : Nat}, l ≤ c.logNmax → (4 ≤ l → Twiddles c k (c.rootF k) twf l) →
      (4 ≤ l → Twiddles c k (c.rootIF k) twi l) → ∀ x y : List Nat, x.length = 2 ^ l → y.length = 2 ^ l → LazyList c k x →
      LazyList c k y →
      (convLeaf c k .one twf twi l x y).1.length = 2 ^ l ∧ LazyList c k (convLeaf c k .one twf twi l x y).1 ∧
      ∀ i < 2 ^ l, resF c k (convLeaf c k .one twf twi l x y).1 i
        = ditF (c.rootIF k l) l (fun n => difF (c.rootF k l) l (resF c k x) n * resF c k y n * c.ri k) i := by
    intro l hl ht hti x y hx hy lx ly
    obtain ⟨a1, a2, a3⟩ := nttf_computes hl ht x hx lx
    obtain ⟨b1, b2, b3⟩ := pointwise_spec a1 hy a2 ly
    obtain ⟨d1, d2, d3⟩ := ntti_computes hl hti _ b1 (LazyList.of_lt b2)
    refine ⟨d1, d2, fun i hi => ?_⟩
    refine (d3 i hi).trans (ditF_congr _ _ (fun j hj => ?_) hi)
    rw [b3 j hj, a3 j hj]
  intro l
  induction l using Nat.strong_induction_on with
  | _ l ih =>
    match l with
    | 0 => exact fun hl ht hti => leaf hl (ht.leaf (Nat.zero_le _)) (hti.leaf (Nat.zero_le _))
    | 1 => exact fun hl ht hti => leaf hl (ht.leaf c.thresh_pos) (hti.leaf c.thresh_pos)
    | l + 2 =>
      intro hl ht hti x y hx hy lx ly
      rw [convr]
      split
      · exact leaf hl (ht.leaf ‹_›) (hti.leaf ‹_›) x y hx hy lx ly
      · obtain ⟨z1, z2, z3⟩ := split4_spec hx lx
        generalize split4 c k (l + 2) x = z at z1 z2 z3
        obtain ⟨p1, p2, p3⟩ := length_parts z1
        obtain ⟨q1, q2, q3⟩ := lazy_parts (l := l) z2
        obtain ⟨r1, r2, r3⟩ := length_parts hy
        obtain ⟨s1, s2, s3⟩ := lazy_parts (l := l) ly
        obtain ⟨a1, a2, a3⟩ := ih (l + 1) (by omega) (by omega) (ht.mono (by omega)) (hti.mono (by omega)) _ _ p1 r1 q1 s1
        obtain ⟨b1, b2, b3⟩ := ih l (by omega) (by omega) (ht.mono (by omega)) (hti.mono (by omega)) _ _ p2 r2 q2 s2
        obtain ⟨d1, d2, d3⟩ := ih l (by omega) (by omega) (ht.mono (by omega)) (hti.mono (by omega)) _ _ p3 r3 q3 s3
        simp only
        generalize (convr c k .one twf twi (l + 1) (firstHalf l z) (firstHalf l y)).1 = A at a1 a2 a3
        generalize (convr c k .one twf twi l (thirdQuarter l z) (thirdQuarter l y)).1 = B at b1 b2 b3
        generalize (convr c k .one twf twi l (fourthQuarter l z) (fourthQuarter l y)).1 = D at d1 d2 d3
        obtain ⟨f1, f2, f3, f4⟩ := parts_append a1 b1 d1
        obtain ⟨m1, m2, m3⟩ := merge4_spec f1 ((a2.append b2).append d2)
        refine ⟨m1, m2, fun i hi => ?_⟩
        have e1 : 2 ^ (l + 1) = 2 * 2 ^ l := by ring
        have e2 : 2 ^ (l + 2) = 4 * 2 ^ l := by ring
        have hR1 : c.rootF k (l + 2) ^ 2 = c.rootF k (l + 1) := c.rootF_sq k (by omega)
        have hR2 : c.rootF k (l + 2) ^ 4 = c.rootF k l := by
          rw [show 4 = 2 * 2 from rfl, pow_mul, hR1, c.rootF_sq k (by omega)]
        have hR4 := c.rootF_quarter k (n := l) hl
        have hI1 : c.rootIF k (l + 2) ^ 2 = c.rootIF k (l + 1) := c.rootIF_sq k (by omega)
        have hI2 : c.rootIF k (l + 1) ^ 2 = c.rootIF k l := c.rootIF_sq k (by omega)
        have hI4 := c.rootIF_quarter k (n := l) hl
        set P : Nat → c.F k := fun n => difF (c.rootF k (l + 2)) (l + 2) (resF c k x) n * resF c k y n * c.ri k with hP
        -- the three sub-results are the inverse networks of the three parts of P
        have hA : ∀ i < 2 ^ (l + 1), resF c k (A ++ B ++ D) i = ditF (c.rootIF k (l + 1)) (l + 1) P i := fun i hi => by
          rw [resF, ← nth_firstHalf hi, f2, ← resF, a3 i hi]
          refine ditF_congr _ _ (fun j hj => ?_) hi
          rw [hP]
          simp only
          rw [difF_low _ _ _ hj, hR1, resF, nth_firstHalf hj]
          congr 2
          refine difF_congr _ _ (fun t ht => ?_) hj
          rw [resF, nth_firstHalf ht, ← resF]
          rcases Nat.lt_or_ge t (2 ^ l) with h2 | h2
          · rw [(z3 t h2).1, e1]
          · obtain ⟨t, rfl⟩ := Nat.exists_eq_add_of_le h2
            rw [(z3 t (by omega)).2.1, e1, add_comm t, add_comm t, show 2 ^ l + t + 2 * 2 ^ l = 3 * 2 ^ l + t by ring]
        have hB : ∀ i < 2 ^ l, resF c k (A ++ B ++ D) (i + 2 * 2 ^ l)
            = ditF (c.rootIF k l) l (fun t => P (t + 2 * 2 ^ l)) i := fun i hi => by
          rw [add_comm, resF, ← nth_thirdQuarter hi, f3, ← resF, b3 i hi]
          refine ditF_congr _ _ (fun j hj => ?_) hi
          rw [hP]
          simp only
          rw [add_comm j, (difF_four _ _ _ hj).2.2.1, hR2, resF, nth_thirdQuarter hj]
          congr 2
          refine difF_congr _ _ (fun t ht => ?_) hj
          rw [resF, nth_thirdQuarter ht, ← resF, (z3 t ht).2.2.1, pow_add, hR4]
          ring
        have hD : ∀ i < 2 ^ l, resF c k (A ++ B ++ D) (i + 3 * 2 ^ l)
            = ditF (c.rootIF k l) l (fun t => P (t + 2 ^ l + 2 * 2 ^ l)) i := fun i hi => by
          rw [add_comm, resF, ← nth_fourthQuarter, f4, ← resF, d3 i hi]
          refine ditF_congr _ _ (fun j hj => ?_) hi
          rw [hP]
          simp only
          rw [show j + 2 ^ l + 2 * 2 ^ l = 3 * 2 ^ l + j by ring, (difF_four _ _ _ hj).2.2.2, hR2, resF, nth_fourthQuarter]
          congr 2
          refine difF_congr _ _ (fun t ht => ?_) hj
          rw [resF, nth_fourthQuarter, ← resF, (z3 t ht).2.2.2, pow_add, hR4, ← pow_mul, ← pow_mul]
          ring
        have up : ∀ t < 2 ^ l, ditF (c.rootIF k (l + 1)) (l + 1) (fun t => P (t + 2 * 2 ^ l)) t
            = resF c k (A ++ B ++ D) (t + 2 * 2 ^ l) + resF c k (A ++ B ++ D) (t + 3 * 2 ^ l) * (c.rootIF k (l + 2) ^ 2) ^ t ∧
            ditF (c.rootIF k (l + 1)) (l + 1) (fun t => P (t + 2 * 2 ^ l)) (2 ^ l + t)
            = resF c k (A ++ B ++ D) (t + 2 * 2 ^ l) - resF c k (A ++ B ++ D) (t + 3 * 2 ^ l) * (c.rootIF k (l + 2) ^ 2) ^ t :=
          fun t ht => ⟨by rw [ditF_low _ _ _ ht, hI2, hI1, hB t ht, hD t ht],
            by rw [ditF_high, hI2, hI1, hB t ht, hD t ht]⟩
        obtain ⟨m, j, hm, hj, rfl⟩ : ∃ m j, m < 4 ∧ j < 2 ^ l ∧ i = m * 2 ^ l + j :=
          ⟨i / 2 ^ l, i % 2 ^ l, (Nat.div_lt_iff_lt_mul (by positivity)).2 (by omega),
            Nat.mod_lt _ (by positivity), by rw [mul_comm]; exact (Nat.div_add_mod _ _).symm⟩
        obtain ⟨u1, u2⟩ := up j hj
        have hA0 := hA j (by omega)
        have hA1 : resF c k (A ++ B ++ D) (j + 2 ^ l) = _ := hA (j + 2 ^ l) (by omega)
        rcases sum4 m hm with rfl | rfl | rfl | rfl
        · rw [Nat.zero_mul, Nat.zero_add, (m3 j hj).1, ditF_low _ _ _ (by omega), hI1, ← hA0, e1, u1]
          ring
        · rw [Nat.one_mul, (m3 j hj).2.1, ditF_low _ _ _ (by omega), hI1, e1, u2, add_comm (2 ^ l) j, ← hA1, pow_add, hI4]
          ring
        · rw [(m3 j hj).2.2.1, ← e1, ditF_high, hI1, ← hA0, e1, u1]
          ring
        · rw [(m3 j hj).2.2.2, show 3 * 2 ^ l + j = 2 ^ (l + 1) + (2 ^ l + j) by omega, ditF_high, hI1, e1, u2,
            add_comm (2 ^ l) j, ← hA1, pow_add, hI4]
          ring

/-! ### The last step of a command -/

theorem canonical_spec {x : List Nat} {n : Nat} (hx : x.length = n) (hl : LazyList c k x) :
    (canonical c k x).length = n ∧ (∀ a ∈ canonical c k x, a < c.p k) ∧
    ∀ i < n, resF c k (canonical c k x) i = resF c k x i := by
  refine ⟨by simp [canonical, hx], fun a ha => ?_, fun i hi => ?_⟩
  · obtain ⟨b, hb, rfl⟩ := List.mem_map.1 ha
    exact norm2_lt c k (hl b hb)
  · rw [resF, canonical, nth_map (by omega), norm2_cast]

theorem scaleBy_spec {x : List Nat} {n f : Nat} (hx : x.length = n) (hl : LazyList c k x) (hf : f < 2 * c.p k) :
    (scaleBy c k f x).length = n ∧ (∀ a ∈ scaleBy c k f x, a < c.p k) ∧
    ∀ i < n, resF c k (scaleBy c k f x) i = resF c k x i * f * c.ri k := by
  refine ⟨by simp [scaleBy, hx], fun a ha => ?_, fun i hi => ?_⟩
  · obtain ⟨b, hb, rfl⟩ := List.mem_map.1 ha
    exact mulmod_lt c k (hl b hb) hf
  · rw [resF, scaleBy, nth_map (by omega), mulmod_cast]

/-- The `NF` step (R192): canonical words, divided by N where the command normalises. -/
theorem finishConv_spec {x : List Nat} {l : Nat} (nf : Bool) (hx : x.length = 2 ^ l) (hl : LazyList c k x) :
    (finishConv c k nf l x).length = 2 ^ l ∧ (∀ a ∈ finishConv c k nf l x, a < c.p k) ∧
    ∀ i < 2 ^ l, resF c k (finishConv c k nf l x) i * 2 ^ l = (scaling nf l : Nat) * resF c k x i := by
  rw [finishConv]
  split
  · obtain ⟨h1, h2, h3⟩ := scaleBy_spec hx hl (lazy_of_lt (ninv_lt c k l))
    refine ⟨h1, h2, fun i hi => ?_⟩
    rw [h3 i hi, scaling, if_pos ‹_›, Nat.cast_one, one_mul]
    have := ninv_cast c k l
    linear_combination (resF c k x i * c.ri k) * this + resF c k x i * c.radix_mul_ri k
  · obtain ⟨h1, h2, h3⟩ := canonical_spec hx hl
    refine ⟨h1, h2, fun i hi => ?_⟩
    rw [h3 i hi, scaling, if_neg ‹_›]
    push_cast
    ring

end Machine

end Sys2Proof
end

