-- ==== Sys2Proof/Laws/Memory.lean ====
section
/-! SUPPORT. The laws of a bank's memory: read after write, the canonical form and the capacity are kept by every write, and
the nine banks are independent. -/

namespace Sys2Proof.Machine

namespace Memory

theorem lookup_write (m : Memory) (i j : Nat) (v : Word) :
    (m.write i v).lookup j = if i = j then some v else m.lookup j := by
  induction m with
  | nil => simp [write, lookup]
  | cons e m ih =>
    obtain ⟨n, w⟩ := e
    simp only [write]
    split
    · simp [lookup]
    · split
      · subst_vars
        simp only [lookup]
        split <;> simp_all
      · simp only [lookup, ih]
        split <;> split <;> simp_all

@[simp] theorem lookup_write_self (m : Memory) (i : Nat) (v : Word) : (m.write i v).lookup i = some v := by
  simp [lookup_write]

theorem lookup_write_ne (m : Memory) {i j : Nat} (h : i ≠ j) (v : Word) : (m.write i v).lookup j = m.lookup j := by
  simp [lookup_write, h]

theorem risesFrom_write (m : Memory) {lo i : Nat} (v : Word) (h : risesFrom lo m) (hi : lo ≤ i) :
    risesFrom lo (m.write i v) := by
  induction m generalizing lo with
  | nil => simpa [write, risesFrom] using hi
  | cons e m ih =>
    obtain ⟨n, w⟩ := e
    simp only [risesFrom, Bool.and_eq_true, decide_eq_true_eq] at h
    simp only [write]
    split
    · simp only [risesFrom, Bool.and_eq_true, decide_eq_true_eq]
      exact ⟨hi, by omega, h.2⟩
    · split
      · subst_vars
        simp only [risesFrom, Bool.and_eq_true, decide_eq_true_eq]
        exact ⟨hi, h.2⟩
      · simp only [risesFrom, Bool.and_eq_true, decide_eq_true_eq]
        exact ⟨h.1, ih h.2 (by omega)⟩

/-- A write keeps the canonical form. -/
theorem wf_write (m : Memory) (i : Nat) (v : Word) (h : m.wf) : (m.write i v).wf :=
  risesFrom_write m v h (Nat.zero_le i)

/-- A write below the capacity keeps every index below it. -/
theorem within_write (m : Memory) {cap i : Nat} (v : Word) (h : m.within cap) (hi : i < cap) :
    (m.write i v).within cap := by
  induction m with
  | nil => simpa [write, within] using hi
  | cons e m ih =>
    obtain ⟨n, w⟩ := e
    simp only [within, List.all_cons, Bool.and_eq_true, decide_eq_true_eq] at h ih ⊢
    simp only [write]
    split
    · simp [hi, h.1, h.2]
    · split
      · simp [hi, h.2]
      · simp [h.1, ih h.2]

@[simp] theorem wf_nil : Memory.wf [] := rfl

@[simp] theorem within_nil (cap : Nat) : Memory.within cap [] := rfl

end Memory

@[simp] theorem Banks.get_set_self (bs : Banks) (b : Bank) (m : Memory) : (bs.set b m).get b = m := by
  cases b <;> rfl

theorem Banks.get_set_ne (bs : Banks) {b b' : Bank} (h : b ≠ b') (m : Memory) : (bs.set b m).get b' = bs.get b' := by
  cases b <;> cases b' <;> first | rfl | exact absurd rfl h

theorem Banks.ext_get {bs bs' : Banks} (h : ∀ b, bs.get b = bs'.get b) : bs = bs' := by
  obtain ⟨⟩ := bs
  obtain ⟨⟩ := bs'
  have := h .ch0; have := h .ch1; have := h .ch2; have := h .scr; have := h .twf
  have := h .twi; have := h .ina; have := h .inb; have := h .out
  simp_all [Banks.get]

end Sys2Proof.Machine
end

