-- ==== Sys2Proof/Laws/State.lean ====
section
/-! SUPPORT. One lemma for each field of State and each update of it: what the field is after the update. -/

namespace Sys2Proof.Machine.State

variable (s : State)

/-! ### setS -/

@[simp] theorem setS_cfg (r : Reg) (w : Word) : (s.setS r w).cfg = s.cfg := rfl
@[simp] theorem setS_sreg (r : Reg) (w : Word) : (s.setS r w).sreg = s.sreg.set r w := rfl
@[simp] theorem setS_v (r : Reg) (w : Word) : (s.setS r w).v = s.v := rfl
@[simp] theorem setS_acc (r : Reg) (w : Word) : (s.setS r w).acc = s.acc := rfl
@[simp] theorem setS_cmd (r : Reg) (w : Word) : (s.setS r w).cmd = s.cmd := rfl
@[simp] theorem setS_status (r : Reg) (w : Word) : (s.setS r w).status = s.status := rfl
@[simp] theorem setS_finfo (r : Reg) (w : Word) : (s.setS r w).finfo = s.finfo := rfl
@[simp] theorem setS_len1 (r : Reg) (w : Word) : (s.setS r w).len1 = s.len1 := rfl
@[simp] theorem setS_len2 (r : Reg) (w : Word) : (s.setS r w).len2 = s.len2 := rfl
@[simp] theorem setS_clen (r : Reg) (w : Word) : (s.setS r w).clen = s.clen := rfl
@[simp] theorem setS_olen (r : Reg) (w : Word) : (s.setS r w).olen = s.olen := rfl
@[simp] theorem setS_lgn (r : Reg) (w : Word) : (s.setS r w).lgn = s.lgn := rfl
@[simp] theorem setS_twcfg (r : Reg) (w : Word) : (s.setS r w).twcfg = s.twcfg := rfl
@[simp] theorem setS_banks (r : Reg) (w : Word) : (s.setS r w).banks = s.banks := rfl
@[simp] theorem setS_epoch (r : Reg) (w : Word) : (s.setS r w).epoch = s.epoch := rfl
@[simp] theorem setS_host (r : Reg) (w : Word) : (s.setS r w).host = s.host := rfl
@[simp] theorem setS_answer (r : Reg) (w : Word) : (s.setS r w).answer = s.answer := rfl

/-! ### bankStore -/

@[simp] theorem bankStore_cfg (b : Bank) (i : Nat) (w : Word) : (s.bankStore b i w).cfg = s.cfg := rfl
@[simp] theorem bankStore_sreg (b : Bank) (i : Nat) (w : Word) : (s.bankStore b i w).sreg = s.sreg := rfl
@[simp] theorem bankStore_v (b : Bank) (i : Nat) (w : Word) : (s.bankStore b i w).v = s.v := rfl
@[simp] theorem bankStore_acc (b : Bank) (i : Nat) (w : Word) : (s.bankStore b i w).acc = s.acc := rfl
@[simp] theorem bankStore_cmd (b : Bank) (i : Nat) (w : Word) : (s.bankStore b i w).cmd = s.cmd := rfl
@[simp] theorem bankStore_status (b : Bank) (i : Nat) (w : Word) : (s.bankStore b i w).status = s.status := rfl
@[simp] theorem bankStore_finfo (b : Bank) (i : Nat) (w : Word) : (s.bankStore b i w).finfo = s.finfo := rfl
@[simp] theorem bankStore_len1 (b : Bank) (i : Nat) (w : Word) : (s.bankStore b i w).len1 = s.len1 := rfl
@[simp] theorem bankStore_len2 (b : Bank) (i : Nat) (w : Word) : (s.bankStore b i w).len2 = s.len2 := rfl
@[simp] theorem bankStore_clen (b : Bank) (i : Nat) (w : Word) : (s.bankStore b i w).clen = s.clen := rfl
@[simp] theorem bankStore_olen (b : Bank) (i : Nat) (w : Word) : (s.bankStore b i w).olen = s.olen := rfl
@[simp] theorem bankStore_lgn (b : Bank) (i : Nat) (w : Word) : (s.bankStore b i w).lgn = s.lgn := rfl
@[simp] theorem bankStore_twcfg (b : Bank) (i : Nat) (w : Word) : (s.bankStore b i w).twcfg = s.twcfg := rfl
@[simp] theorem bankStore_banks (b : Bank) (i : Nat) (w : Word) : (s.bankStore b i w).banks = s.banks.set b ((s.banks.get b).write i w) := rfl
@[simp] theorem bankStore_epoch (b : Bank) (i : Nat) (w : Word) : (s.bankStore b i w).epoch = s.epoch := rfl
@[simp] theorem bankStore_host (b : Bank) (i : Nat) (w : Word) : (s.bankStore b i w).host = s.host := rfl
@[simp] theorem bankStore_answer (b : Bank) (i : Nat) (w : Word) : (s.bankStore b i w).answer = s.answer := rfl

/-! ### clearTable -/

@[simp] theorem clearTable_cfg : (s.clearTable).cfg = s.cfg := rfl
@[simp] theorem clearTable_sreg : (s.clearTable).sreg = s.sreg := rfl
@[simp] theorem clearTable_v : (s.clearTable).v = s.v := rfl
@[simp] theorem clearTable_acc : (s.clearTable).acc = s.acc := rfl
@[simp] theorem clearTable_cmd : (s.clearTable).cmd = s.cmd := rfl
@[simp] theorem clearTable_status : (s.clearTable).status = s.status := rfl
@[simp] theorem clearTable_finfo : (s.clearTable).finfo = s.finfo := rfl
@[simp] theorem clearTable_len1 : (s.clearTable).len1 = s.len1 := rfl
@[simp] theorem clearTable_len2 : (s.clearTable).len2 = s.len2 := rfl
@[simp] theorem clearTable_clen : (s.clearTable).clen = s.clen := rfl
@[simp] theorem clearTable_olen : (s.clearTable).olen = s.olen := rfl
@[simp] theorem clearTable_lgn : (s.clearTable).lgn = s.lgn := rfl
@[simp] theorem clearTable_twcfg : (s.clearTable).twcfg = { s.twcfg with tvalid := false } := rfl
@[simp] theorem clearTable_banks : (s.clearTable).banks = s.banks := rfl
@[simp] theorem clearTable_epoch : (s.clearTable).epoch = s.epoch := rfl
@[simp] theorem clearTable_host : (s.clearTable).host = s.host := rfl
@[simp] theorem clearTable_answer : (s.clearTable).answer = s.answer := rfl

/-! ### accept -/

@[simp] theorem accept_cfg (c : Word) : (s.accept c).cfg = s.cfg := rfl
@[simp] theorem accept_sreg (c : Word) : (s.accept c).sreg = s.sreg := rfl
@[simp] theorem accept_v (c : Word) : (s.accept c).v = s.v := rfl
@[simp] theorem accept_acc (c : Word) : (s.accept c).acc = s.acc := rfl
@[simp] theorem accept_cmd (c : Word) : (s.accept c).cmd = c := rfl
@[simp] theorem accept_status (c : Word) : (s.accept c).status = s.status.accepted := rfl
@[simp] theorem accept_finfo (c : Word) : (s.accept c).finfo = s.finfo := rfl
@[simp] theorem accept_len1 (c : Word) : (s.accept c).len1 = s.len1 := rfl
@[simp] theorem accept_len2 (c : Word) : (s.accept c).len2 = s.len2 := rfl
@[simp] theorem accept_clen (c : Word) : (s.accept c).clen = s.clen := rfl
@[simp] theorem accept_olen (c : Word) : (s.accept c).olen = s.olen := rfl
@[simp] theorem accept_lgn (c : Word) : (s.accept c).lgn = s.lgn := rfl
@[simp] theorem accept_twcfg (c : Word) : (s.accept c).twcfg = s.twcfg := rfl
@[simp] theorem accept_banks (c : Word) : (s.accept c).banks = s.banks := rfl
@[simp] theorem accept_epoch (c : Word) : (s.accept c).epoch = s.epoch := rfl
@[simp] theorem accept_host (c : Word) : (s.accept c).host = s.host := rfl
@[simp] theorem accept_answer (c : Word) : (s.accept c).answer = s.answer := rfl

/-! ### complete -/

@[simp] theorem complete_cfg : (s.complete).cfg = s.cfg := rfl
@[simp] theorem complete_sreg : (s.complete).sreg = s.sreg := rfl
@[simp] theorem complete_v : (s.complete).v = s.v := rfl
@[simp] theorem complete_acc : (s.complete).acc = s.acc := rfl
@[simp] theorem complete_cmd : (s.complete).cmd = s.cmd := rfl
@[simp] theorem complete_status : (s.complete).status = s.status.completed := rfl
@[simp] theorem complete_finfo : (s.complete).finfo = s.finfo := rfl
@[simp] theorem complete_len1 : (s.complete).len1 = s.len1 := rfl
@[simp] theorem complete_len2 : (s.complete).len2 = s.len2 := rfl
@[simp] theorem complete_clen : (s.complete).clen = s.clen := rfl
@[simp] theorem complete_olen : (s.complete).olen = s.olen := rfl
@[simp] theorem complete_lgn : (s.complete).lgn = s.lgn := rfl
@[simp] theorem complete_twcfg : (s.complete).twcfg = s.twcfg := rfl
@[simp] theorem complete_banks : (s.complete).banks = s.banks := rfl
@[simp] theorem complete_epoch : (s.complete).epoch = s.epoch := rfl
@[simp] theorem complete_host : (s.complete).host = s.host := rfl
@[simp] theorem complete_answer : (s.complete).answer = s.answer := rfl

/-! ### raise -/

@[simp] theorem raise_cfg (f : FaultCode) : (s.raise f).cfg = s.cfg := rfl
@[simp] theorem raise_sreg (f : FaultCode) : (s.raise f).sreg = s.sreg := rfl
@[simp] theorem raise_v (f : FaultCode) : (s.raise f).v = s.v := rfl
@[simp] theorem raise_acc (f : FaultCode) : (s.raise f).acc = s.acc := rfl
@[simp] theorem raise_cmd (f : FaultCode) : (s.raise f).cmd = s.cmd := rfl
@[simp] theorem raise_status (f : FaultCode) : (s.raise f).status = Status.faulted f := rfl
@[simp] theorem raise_finfo (f : FaultCode) : (s.raise f).finfo = finfoOf s.cmd := rfl
@[simp] theorem raise_len1 (f : FaultCode) : (s.raise f).len1 = s.len1 := rfl
@[simp] theorem raise_len2 (f : FaultCode) : (s.raise f).len2 = s.len2 := rfl
@[simp] theorem raise_clen (f : FaultCode) : (s.raise f).clen = s.clen := rfl
@[simp] theorem raise_olen (f : FaultCode) : (s.raise f).olen = s.olen := rfl
@[simp] theorem raise_lgn (f : FaultCode) : (s.raise f).lgn = s.lgn := rfl
@[simp] theorem raise_twcfg (f : FaultCode) : (s.raise f).twcfg = s.twcfg := rfl
@[simp] theorem raise_banks (f : FaultCode) : (s.raise f).banks = s.banks := rfl
@[simp] theorem raise_epoch (f : FaultCode) : (s.raise f).epoch = s.epoch := rfl
@[simp] theorem raise_host (f : FaultCode) : (s.raise f).host = s.host := rfl
@[simp] theorem raise_answer (f : FaultCode) : (s.raise f).answer = s.answer := rfl

/-! ### setAcc -/

@[simp] theorem setAcc_cfg (a : Wide) : (s.setAcc a).cfg = s.cfg := rfl
@[simp] theorem setAcc_sreg (a : Wide) : (s.setAcc a).sreg = s.sreg := rfl
@[simp] theorem setAcc_v (a : Wide) : (s.setAcc a).v = s.v := rfl
@[simp] theorem setAcc_acc (a : Wide) : (s.setAcc a).acc = a := rfl
@[simp] theorem setAcc_cmd (a : Wide) : (s.setAcc a).cmd = s.cmd := rfl
@[simp] theorem setAcc_status (a : Wide) : (s.setAcc a).status = s.status := rfl
@[simp] theorem setAcc_finfo (a : Wide) : (s.setAcc a).finfo = s.finfo := rfl
@[simp] theorem setAcc_len1 (a : Wide) : (s.setAcc a).len1 = s.len1 := rfl
@[simp] theorem setAcc_len2 (a : Wide) : (s.setAcc a).len2 = s.len2 := rfl
@[simp] theorem setAcc_clen (a : Wide) : (s.setAcc a).clen = s.clen := rfl
@[simp] theorem setAcc_olen (a : Wide) : (s.setAcc a).olen = s.olen := rfl
@[simp] theorem setAcc_lgn (a : Wide) : (s.setAcc a).lgn = s.lgn := rfl
@[simp] theorem setAcc_twcfg (a : Wide) : (s.setAcc a).twcfg = s.twcfg := rfl
@[simp] theorem setAcc_banks (a : Wide) : (s.setAcc a).banks = s.banks := rfl
@[simp] theorem setAcc_epoch (a : Wide) : (s.setAcc a).epoch = s.epoch := rfl
@[simp] theorem setAcc_host (a : Wide) : (s.setAcc a).host = s.host := rfl
@[simp] theorem setAcc_answer (a : Wide) : (s.setAcc a).answer = s.answer := rfl

/-! ### setV -/

@[simp] theorem setV_cfg (a : Wide) : (s.setV a).cfg = s.cfg := rfl
@[simp] theorem setV_sreg (a : Wide) : (s.setV a).sreg = s.sreg := rfl
@[simp] theorem setV_v (a : Wide) : (s.setV a).v = a := rfl
@[simp] theorem setV_acc (a : Wide) : (s.setV a).acc = s.acc := rfl
@[simp] theorem setV_cmd (a : Wide) : (s.setV a).cmd = s.cmd := rfl
@[simp] theorem setV_status (a : Wide) : (s.setV a).status = s.status := rfl
@[simp] theorem setV_finfo (a : Wide) : (s.setV a).finfo = s.finfo := rfl
@[simp] theorem setV_len1 (a : Wide) : (s.setV a).len1 = s.len1 := rfl
@[simp] theorem setV_len2 (a : Wide) : (s.setV a).len2 = s.len2 := rfl
@[simp] theorem setV_clen (a : Wide) : (s.setV a).clen = s.clen := rfl
@[simp] theorem setV_olen (a : Wide) : (s.setV a).olen = s.olen := rfl
@[simp] theorem setV_lgn (a : Wide) : (s.setV a).lgn = s.lgn := rfl
@[simp] theorem setV_twcfg (a : Wide) : (s.setV a).twcfg = s.twcfg := rfl
@[simp] theorem setV_banks (a : Wide) : (s.setV a).banks = s.banks := rfl
@[simp] theorem setV_epoch (a : Wide) : (s.setV a).epoch = s.epoch := rfl
@[simp] theorem setV_host (a : Wide) : (s.setV a).host = s.host := rfl
@[simp] theorem setV_answer (a : Wide) : (s.setV a).answer = s.answer := rfl

/-! ### accumulate -/

@[simp] theorem accumulate_cfg : (s.accumulate).cfg = s.cfg := setAcc_cfg s _
@[simp] theorem accumulate_sreg : (s.accumulate).sreg = s.sreg := setAcc_sreg s _
@[simp] theorem accumulate_v : (s.accumulate).v = s.v := setAcc_v s _
@[simp] theorem accumulate_acc : (s.accumulate).acc = s.acc.add s.v := setAcc_acc s _
@[simp] theorem accumulate_cmd : (s.accumulate).cmd = s.cmd := setAcc_cmd s _
@[simp] theorem accumulate_status : (s.accumulate).status = s.status := setAcc_status s _
@[simp] theorem accumulate_finfo : (s.accumulate).finfo = s.finfo := setAcc_finfo s _
@[simp] theorem accumulate_len1 : (s.accumulate).len1 = s.len1 := setAcc_len1 s _
@[simp] theorem accumulate_len2 : (s.accumulate).len2 = s.len2 := setAcc_len2 s _
@[simp] theorem accumulate_clen : (s.accumulate).clen = s.clen := setAcc_clen s _
@[simp] theorem accumulate_olen : (s.accumulate).olen = s.olen := setAcc_olen s _
@[simp] theorem accumulate_lgn : (s.accumulate).lgn = s.lgn := setAcc_lgn s _
@[simp] theorem accumulate_twcfg : (s.accumulate).twcfg = s.twcfg := setAcc_twcfg s _
@[simp] theorem accumulate_banks : (s.accumulate).banks = s.banks := setAcc_banks s _
@[simp] theorem accumulate_epoch : (s.accumulate).epoch = s.epoch := setAcc_epoch s _
@[simp] theorem accumulate_host : (s.accumulate).host = s.host := setAcc_host s _
@[simp] theorem accumulate_answer : (s.accumulate).answer = s.answer := setAcc_answer s _

/-! ### shiftAcc -/

@[simp] theorem shiftAcc_cfg : (s.shiftAcc).cfg = s.cfg := setAcc_cfg s _
@[simp] theorem shiftAcc_sreg : (s.shiftAcc).sreg = s.sreg := setAcc_sreg s _
@[simp] theorem shiftAcc_v : (s.shiftAcc).v = s.v := setAcc_v s _
@[simp] theorem shiftAcc_acc : (s.shiftAcc).acc = s.acc.shift := setAcc_acc s _
@[simp] theorem shiftAcc_cmd : (s.shiftAcc).cmd = s.cmd := setAcc_cmd s _
@[simp] theorem shiftAcc_status : (s.shiftAcc).status = s.status := setAcc_status s _
@[simp] theorem shiftAcc_finfo : (s.shiftAcc).finfo = s.finfo := setAcc_finfo s _
@[simp] theorem shiftAcc_len1 : (s.shiftAcc).len1 = s.len1 := setAcc_len1 s _
@[simp] theorem shiftAcc_len2 : (s.shiftAcc).len2 = s.len2 := setAcc_len2 s _
@[simp] theorem shiftAcc_clen : (s.shiftAcc).clen = s.clen := setAcc_clen s _
@[simp] theorem shiftAcc_olen : (s.shiftAcc).olen = s.olen := setAcc_olen s _
@[simp] theorem shiftAcc_lgn : (s.shiftAcc).lgn = s.lgn := setAcc_lgn s _
@[simp] theorem shiftAcc_twcfg : (s.shiftAcc).twcfg = s.twcfg := setAcc_twcfg s _
@[simp] theorem shiftAcc_banks : (s.shiftAcc).banks = s.banks := setAcc_banks s _
@[simp] theorem shiftAcc_epoch : (s.shiftAcc).epoch = s.epoch := setAcc_epoch s _
@[simp] theorem shiftAcc_host : (s.shiftAcc).host = s.host := setAcc_host s _
@[simp] theorem shiftAcc_answer : (s.shiftAcc).answer = s.answer := setAcc_answer s _

/-! ### clearAcc -/

@[simp] theorem clearAcc_cfg : (s.clearAcc).cfg = s.cfg := setAcc_cfg s _
@[simp] theorem clearAcc_sreg : (s.clearAcc).sreg = s.sreg := setAcc_sreg s _
@[simp] theorem clearAcc_v : (s.clearAcc).v = s.v := setAcc_v s _
@[simp] theorem clearAcc_acc : (s.clearAcc).acc = Wide.zero := setAcc_acc s _
@[simp] theorem clearAcc_cmd : (s.clearAcc).cmd = s.cmd := setAcc_cmd s _
@[simp] theorem clearAcc_status : (s.clearAcc).status = s.status := setAcc_status s _
@[simp] theorem clearAcc_finfo : (s.clearAcc).finfo = s.finfo := setAcc_finfo s _
@[simp] theorem clearAcc_len1 : (s.clearAcc).len1 = s.len1 := setAcc_len1 s _
@[simp] theorem clearAcc_len2 : (s.clearAcc).len2 = s.len2 := setAcc_len2 s _
@[simp] theorem clearAcc_clen : (s.clearAcc).clen = s.clen := setAcc_clen s _
@[simp] theorem clearAcc_olen : (s.clearAcc).olen = s.olen := setAcc_olen s _
@[simp] theorem clearAcc_lgn : (s.clearAcc).lgn = s.lgn := setAcc_lgn s _
@[simp] theorem clearAcc_twcfg : (s.clearAcc).twcfg = s.twcfg := setAcc_twcfg s _
@[simp] theorem clearAcc_banks : (s.clearAcc).banks = s.banks := setAcc_banks s _
@[simp] theorem clearAcc_epoch : (s.clearAcc).epoch = s.epoch := setAcc_epoch s _
@[simp] theorem clearAcc_host : (s.clearAcc).host = s.host := setAcc_host s _
@[simp] theorem clearAcc_answer : (s.clearAcc).answer = s.answer := setAcc_answer s _

/-! ### setLengths -/

@[simp] theorem setLengths_cfg (n : Nat) : (s.setLengths n).cfg = s.cfg := rfl
@[simp] theorem setLengths_sreg (n : Nat) : (s.setLengths n).sreg = s.sreg := rfl
@[simp] theorem setLengths_v (n : Nat) : (s.setLengths n).v = s.v := rfl
@[simp] theorem setLengths_acc (n : Nat) : (s.setLengths n).acc = s.acc := rfl
@[simp] theorem setLengths_cmd (n : Nat) : (s.setLengths n).cmd = s.cmd := rfl
@[simp] theorem setLengths_status (n : Nat) : (s.setLengths n).status = s.status := rfl
@[simp] theorem setLengths_finfo (n : Nat) : (s.setLengths n).finfo = s.finfo := rfl
@[simp] theorem setLengths_len1 (n : Nat) : (s.setLengths n).len1 = s.len1 := rfl
@[simp] theorem setLengths_len2 (n : Nat) : (s.setLengths n).len2 = s.len2 := rfl
@[simp] theorem setLengths_clen (n : Nat) : (s.setLengths n).clen = Word.ofNat n := rfl
@[simp] theorem setLengths_olen (n : Nat) : (s.setLengths n).olen = s.olen := rfl
@[simp] theorem setLengths_lgn (n : Nat) : (s.setLengths n).lgn = Word.ofNat (clog2 n) := rfl
@[simp] theorem setLengths_twcfg (n : Nat) : (s.setLengths n).twcfg = s.twcfg := rfl
@[simp] theorem setLengths_banks (n : Nat) : (s.setLengths n).banks = s.banks := rfl
@[simp] theorem setLengths_epoch (n : Nat) : (s.setLengths n).epoch = s.epoch := rfl
@[simp] theorem setLengths_host (n : Nat) : (s.setLengths n).host = s.host := rfl
@[simp] theorem setLengths_answer (n : Nat) : (s.setLengths n).answer = s.answer := rfl

/-! ### memWrite -/

@[simp] theorem memWrite_cfg (b : Bank) (i : Nat) (w : Word) : (s.memWrite b i w).cfg = s.cfg := by
  unfold memWrite; split <;> rfl
@[simp] theorem memWrite_sreg (b : Bank) (i : Nat) (w : Word) : (s.memWrite b i w).sreg = s.sreg := by
  unfold memWrite; split <;> rfl
@[simp] theorem memWrite_v (b : Bank) (i : Nat) (w : Word) : (s.memWrite b i w).v = s.v := by
  unfold memWrite; split <;> rfl
@[simp] theorem memWrite_acc (b : Bank) (i : Nat) (w : Word) : (s.memWrite b i w).acc = s.acc := by
  unfold memWrite; split <;> rfl
@[simp] theorem memWrite_cmd (b : Bank) (i : Nat) (w : Word) : (s.memWrite b i w).cmd = s.cmd := by
  unfold memWrite; split <;> rfl
@[simp] theorem memWrite_status (b : Bank) (i : Nat) (w : Word) : (s.memWrite b i w).status = s.status := by
  unfold memWrite; split <;> rfl
@[simp] theorem memWrite_finfo (b : Bank) (i : Nat) (w : Word) : (s.memWrite b i w).finfo = s.finfo := by
  unfold memWrite; split <;> rfl
@[simp] theorem memWrite_len1 (b : Bank) (i : Nat) (w : Word) : (s.memWrite b i w).len1 = s.len1 := by
  unfold memWrite; split <;> rfl
@[simp] theorem memWrite_len2 (b : Bank) (i : Nat) (w : Word) : (s.memWrite b i w).len2 = s.len2 := by
  unfold memWrite; split <;> rfl
@[simp] theorem memWrite_clen (b : Bank) (i : Nat) (w : Word) : (s.memWrite b i w).clen = s.clen := by
  unfold memWrite; split <;> rfl
@[simp] theorem memWrite_olen (b : Bank) (i : Nat) (w : Word) : (s.memWrite b i w).olen = s.olen := by
  unfold memWrite; split <;> rfl
@[simp] theorem memWrite_lgn (b : Bank) (i : Nat) (w : Word) : (s.memWrite b i w).lgn = s.lgn := by
  unfold memWrite; split <;> rfl
@[simp] theorem memWrite_epoch (b : Bank) (i : Nat) (w : Word) : (s.memWrite b i w).epoch = s.epoch := by
  unfold memWrite; split <;> rfl
@[simp] theorem memWrite_host (b : Bank) (i : Nat) (w : Word) : (s.memWrite b i w).host = s.host := by
  unfold memWrite; split <;> rfl
@[simp] theorem memWrite_answer (b : Bank) (i : Nat) (w : Word) : (s.memWrite b i w).answer = s.answer := by
  unfold memWrite; split <;> rfl
@[simp] theorem memWrite_banks (b : Bank) (i : Nat) (w : Word) : (s.memWrite b i w).banks = (s.bankStore b i w).banks := by
  unfold memWrite; split <;> rfl
theorem memWrite_twcfg (b : Bank) (i : Nat) (w : Word) :
    (s.memWrite b i w).twcfg = if b.isTwiddle then { s.twcfg with tvalid := false } else s.twcfg := by
  unfold memWrite; split <;> rfl

/-! ### store -/

@[simp] theorem store_cfg (b : Bank) (i : Nat) (xs : List Nat) : (s.store b i xs).cfg = s.cfg := by
  induction xs generalizing s i with
  | nil => rfl
  | cons x xs ih => simp [store, ih]
@[simp] theorem store_sreg (b : Bank) (i : Nat) (xs : List Nat) : (s.store b i xs).sreg = s.sreg := by
  induction xs generalizing s i with
  | nil => rfl
  | cons x xs ih => simp [store, ih]
@[simp] theorem store_v (b : Bank) (i : Nat) (xs : List Nat) : (s.store b i xs).v = s.v := by
  induction xs generalizing s i with
  | nil => rfl
  | cons x xs ih => simp [store, ih]
@[simp] theorem store_acc (b : Bank) (i : Nat) (xs : List Nat) : (s.store b i xs).acc = s.acc := by
  induction xs generalizing s i with
  | nil => rfl
  | cons x xs ih => simp [store, ih]
@[simp] theorem store_cmd (b : Bank) (i : Nat) (xs : List Nat) : (s.store b i xs).cmd = s.cmd := by
  induction xs generalizing s i with
  | nil => rfl
  | cons x xs ih => simp [store, ih]
@[simp] theorem store_status (b : Bank) (i : Nat) (xs : List Nat) : (s.store b i xs).status = s.status := by
  induction xs generalizing s i with
  | nil => rfl
  | cons x xs ih => simp [store, ih]
@[simp] theorem store_finfo (b : Bank) (i : Nat) (xs : List Nat) : (s.store b i xs).finfo = s.finfo := by
  induction xs generalizing s i with
  | nil => rfl
  | cons x xs ih => simp [store, ih]
@[simp] theorem store_len1 (b : Bank) (i : Nat) (xs : List Nat) : (s.store b i xs).len1 = s.len1 := by
  induction xs generalizing s i with
  | nil => rfl
  | cons x xs ih => simp [store, ih]
@[simp] theorem store_len2 (b : Bank) (i : Nat) (xs : List Nat) : (s.store b i xs).len2 = s.len2 := by
  induction xs generalizing s i with
  | nil => rfl
  | cons x xs ih => simp [store, ih]
@[simp] theorem store_clen (b : Bank) (i : Nat) (xs : List Nat) : (s.store b i xs).clen = s.clen := by
  induction xs generalizing s i with
  | nil => rfl
  | cons x xs ih => simp [store, ih]
@[simp] theorem store_olen (b : Bank) (i : Nat) (xs : List Nat) : (s.store b i xs).olen = s.olen := by
  induction xs generalizing s i with
  | nil => rfl
  | cons x xs ih => simp [store, ih]
@[simp] theorem store_lgn (b : Bank) (i : Nat) (xs : List Nat) : (s.store b i xs).lgn = s.lgn := by
  induction xs generalizing s i with
  | nil => rfl
  | cons x xs ih => simp [store, ih]
@[simp] theorem store_twcfg (b : Bank) (i : Nat) (xs : List Nat) : (s.store b i xs).twcfg = s.twcfg := by
  induction xs generalizing s i with
  | nil => rfl
  | cons x xs ih => simp [store, ih]
@[simp] theorem store_epoch (b : Bank) (i : Nat) (xs : List Nat) : (s.store b i xs).epoch = s.epoch := by
  induction xs generalizing s i with
  | nil => rfl
  | cons x xs ih => simp [store, ih]
@[simp] theorem store_host (b : Bank) (i : Nat) (xs : List Nat) : (s.store b i xs).host = s.host := by
  induction xs generalizing s i with
  | nil => rfl
  | cons x xs ih => simp [store, ih]
@[simp] theorem store_answer (b : Bank) (i : Nat) (xs : List Nat) : (s.store b i xs).answer = s.answer := by
  induction xs generalizing s i with
  | nil => rfl
  | cons x xs ih => simp [store, ih]

/-! ### buildTable -/

@[simp] theorem buildTable_cfg (k : Modulus) (t : Lg) : (s.buildTable k t).cfg = s.cfg := by
  simp [buildTable]
@[simp] theorem buildTable_sreg (k : Modulus) (t : Lg) : (s.buildTable k t).sreg = s.sreg := by
  simp [buildTable]
@[simp] theorem buildTable_v (k : Modulus) (t : Lg) : (s.buildTable k t).v = s.v := by
  simp [buildTable]
@[simp] theorem buildTable_acc (k : Modulus) (t : Lg) : (s.buildTable k t).acc = s.acc := by
  simp [buildTable]
@[simp] theorem buildTable_cmd (k : Modulus) (t : Lg) : (s.buildTable k t).cmd = s.cmd := by
  simp [buildTable]
@[simp] theorem buildTable_status (k : Modulus) (t : Lg) : (s.buildTable k t).status = s.status := by
  simp [buildTable]
@[simp] theorem buildTable_finfo (k : Modulus) (t : Lg) : (s.buildTable k t).finfo = s.finfo := by
  simp [buildTable]
@[simp] theorem buildTable_len1 (k : Modulus) (t : Lg) : (s.buildTable k t).len1 = s.len1 := by
  simp [buildTable]
@[simp] theorem buildTable_len2 (k : Modulus) (t : Lg) : (s.buildTable k t).len2 = s.len2 := by
  simp [buildTable]
@[simp] theorem buildTable_clen (k : Modulus) (t : Lg) : (s.buildTable k t).clen = s.clen := by
  simp [buildTable]
@[simp] theorem buildTable_olen (k : Modulus) (t : Lg) : (s.buildTable k t).olen = s.olen := by
  simp [buildTable]
@[simp] theorem buildTable_lgn (k : Modulus) (t : Lg) : (s.buildTable k t).lgn = s.lgn := by
  simp [buildTable]
@[simp] theorem buildTable_twcfg (k : Modulus) (t : Lg) : (s.buildTable k t).twcfg = ⟨k, t, true⟩ := by
  simp [buildTable]
@[simp] theorem buildTable_epoch (k : Modulus) (t : Lg) : (s.buildTable k t).epoch = s.epoch := by
  simp [buildTable]
@[simp] theorem buildTable_host (k : Modulus) (t : Lg) : (s.buildTable k t).host = s.host := by
  simp [buildTable]
@[simp] theorem buildTable_answer (k : Modulus) (t : Lg) : (s.buildTable k t).answer = s.answer := by
  simp [buildTable]

end Sys2Proof.Machine.State
end

