-- ==== Sys2Proof/Laws/Ops.lean ====
section
/-! SUPPORT. The laws of the shared operations: what a command can do, the words a load reads, the words a store leaves, and the
checks of the block commands as the conditions of Safety.lean. -/

namespace Sys2Proof.Machine

/-! ### The form of a command -/

@[simp] theorem firstFault_nil : firstFault [] = none := rfl

@[simp] theorem firstFault_cons (bad : Bool) (f : FaultCode) (cs : List Check) :
    firstFault ((bad, f) :: cs) = if bad then some f else firstFault cs := rfl

theorem firstFault_pass {P : Prop} [Decidable P] (h : ¬ P) (f : FaultCode) (cs : List Check) :
    firstFault ((decide P, f) :: cs) = firstFault cs := by rw [firstFault_cons, decide_eq_false h, if_neg (by simp)]

theorem firstFault_fail {P : Prop} [Decidable P] (h : P) (f : FaultCode) (cs : List Check) :
    firstFault ((decide P, f) :: cs) = some f := by rw [firstFault_cons, decide_eq_true h, if_pos rfl]

theorem firstFault_append (cs ds : List Check) : firstFault (cs ++ ds) = (firstFault cs).or (firstFault ds) := by
  induction cs with
  | nil => simp
  | cons c cs ih =>
    obtain ⟨bad, f⟩ := c
    rw [List.cons_append, firstFault_cons, firstFault_cons, ih]
    split <;> simp

theorem State.command_of_pass {s : State} {checks : List Check} {op : State → State} (h : firstFault checks = none) :
    s.command checks op = .next (op s).complete := by rw [command, h]

theorem State.command_of_fault {s : State} {checks : List Check} {op : State → State} {f : FaultCode}
    (h : firstFault checks = some f) : s.command checks op = .next (s.raise f) := by rw [command, h]

/-- Everything a command can do (R274): fault, or complete its operation, all of its checks having passed. -/
theorem State.command_cases (s : State) (checks : List Check) (op : State → State) :
    (∃ f, firstFault checks = some f ∧ s.command checks op = .next (s.raise f)) ∨
    (firstFault checks = none ∧ s.command checks op = .next (op s).complete) := by
  rw [command]
  cases firstFault checks <;> simp

namespace State

variable (s : State)

/-! ### Words of banks -/

theorem bankRead_congr {s t : State} {b : Bank} (hb : t.banks.get b = s.banks.get b) (he : t.epoch = s.epoch) (i : Nat) :
    t.bankRead b i = s.bankRead b i := by rw [bankRead, bankRead, hb, he]

theorem bankRead_of_banks {s t : State} (hb : t.banks = s.banks) (he : t.epoch = s.epoch) (b : Bank) (i : Nat) :
    t.bankRead b i = s.bankRead b i := bankRead_congr (by rw [hb]) he i

theorem bankRead_bankStore (b b' : Bank) (i j : Nat) (v : Word) :
    (s.bankStore b i v).bankRead b' j = if b' = b ∧ j = i then v else s.bankRead b' j := by
  simp only [bankRead, bankStore]
  by_cases hb : b = b'
  · subst hb
    rw [Banks.get_set_self, Memory.lookup_write]
    by_cases hj : i = j <;> simp [hj, eq_comm]
  · rw [Banks.get_set_ne _ hb, if_neg (fun h => hb h.1.symm)]

@[simp] theorem bankRead_complete (b : Bank) (i : Nat) : s.complete.bankRead b i = s.bankRead b i := rfl
@[simp] theorem bankRead_clearTable (b : Bank) (i : Nat) : s.clearTable.bankRead b i = s.bankRead b i := rfl
@[simp] theorem bankRead_accept (c : Word) (b : Bank) (i : Nat) : (s.accept c).bankRead b i = s.bankRead b i := rfl
@[simp] theorem bankRead_setS (r : Reg) (v : Word) (b : Bank) (i : Nat) : (s.setS r v).bankRead b i = s.bankRead b i := rfl
@[simp] theorem bankRead_setAcc (a : Wide) (b : Bank) (i : Nat) : (s.setAcc a).bankRead b i = s.bankRead b i := rfl
@[simp] theorem bankRead_setV (a : Wide) (b : Bank) (i : Nat) : (s.setV a).bankRead b i = s.bankRead b i := rfl
@[simp] theorem bankRead_setLengths (n : Nat) (b : Bank) (i : Nat) : (s.setLengths n).bankRead b i = s.bankRead b i := rfl
@[simp] theorem wordAt_complete (b : Bank) (i : Nat) : s.complete.wordAt b i = s.wordAt b i := rfl
@[simp] theorem wordAt_setLengths (n : Nat) (b : Bank) (i : Nat) : (s.setLengths n).wordAt b i = s.wordAt b i := rfl

theorem bankRead_memWrite (b b' : Bank) (i j : Nat) (v : Word) :
    (s.memWrite b i v).bankRead b' j = if b' = b ∧ j = i then v else s.bankRead b' j := by
  rw [memWrite]
  split
  · rw [bankRead_clearTable, bankRead_bankStore]
  · rw [bankRead_bankStore]

theorem wordAt_lt (b : Bank) (i : Nat) : s.wordAt b i < 2 ^ 64 := BitVec.isLt _

/-! ### Loads -/

@[simp] theorem length_load (b : Bank) (i n : Nat) : (s.load b i n).length = n := by
  induction n generalizing i with
  | zero => rfl
  | succ n ih => simp [load, ih]

theorem nth_load (b : Bank) (i : Nat) {n j : Nat} (h : j < n) : nth (s.load b i n) j = s.wordAt b (i + j) := by
  induction n generalizing i j with
  | zero => omega
  | succ n ih =>
    rw [load]
    cases j with
    | zero => rfl
    | succ j =>
      rw [show i + (j + 1) = i + 1 + j by omega, ← ih (i + 1) (Nat.lt_of_succ_lt_succ h)]
      rfl

theorem load_eq (b : Bank) (i n : Nat) : s.load b i n = (List.range n).map fun j => s.wordAt b (i + j) := by
  refine eq_of_nth (by simp) fun j hj => ?_
  rw [length_load] at hj
  rw [nth_load s b i hj, nth_map_range _ hj]

theorem load_congr {s t : State} {b : Bank} {i n : Nat} (h : ∀ j < n, t.bankRead b (i + j) = s.bankRead b (i + j)) :
    t.load b i n = s.load b i n := by
  rw [load_eq, load_eq]
  refine List.map_congr_left fun j hj => ?_
  rw [wordAt, wordAt, h j (List.mem_range.1 hj)]

theorem lt_of_mem_load {b : Bank} {i n x : Nat} (h : x ∈ s.load b i n) : x < 2 ^ 64 := by
  rw [load_eq, List.mem_map] at h
  obtain ⟨j, -, rfl⟩ := h
  exact s.wordAt_lt _ _

@[simp] theorem length_block (b : Bank) (off l : Nat) : (s.block b off l).length = 2 ^ l := s.length_load ..

theorem nth_block (b : Bank) (off : Nat) {l j : Nat} (h : j < 2 ^ l) : nth (s.block b off l) j = s.wordAt b (off + j) :=
  s.nth_load b off h

/-! ### Stores -/

/-- A store changes words of banks only. -/
theorem store_eq (b : Bank) (i : Nat) (xs : List Nat) : s.store b i xs = { s with banks := (s.store b i xs).banks } := by
  induction xs generalizing s i with
  | nil => rfl
  | cons x xs ih => rw [store, ih]; rfl

/-- Every word after a store: the block's words are the list's, every other word is as before. -/
theorem bankRead_store (b b' : Bank) (i j : Nat) (xs : List Nat) :
    (s.store b i xs).bankRead b' j
      = if b' = b ∧ i ≤ j ∧ j < i + xs.length then Word.ofNat (nth xs (j - i)) else s.bankRead b' j := by
  induction xs generalizing s i with
  | nil => rw [store, if_neg (by simp)]
  | cons x xs ih =>
    rw [store, ih, bankRead_bankStore, List.length_cons]
    by_cases hb : b' = b
    · by_cases hj : j = i
      · subst hj
        rw [if_neg (by omega), if_pos ⟨hb, rfl⟩, if_pos ⟨hb, by omega, by omega⟩, Nat.sub_self]
        rfl
      · by_cases hi : i + 1 ≤ j ∧ j < i + 1 + xs.length
        · rw [if_pos ⟨hb, hi⟩, if_pos ⟨hb, by omega, by omega⟩, show j - i = j - (i + 1) + 1 by omega]
          rfl
        · rw [if_neg (fun h => hi h.2), if_neg (fun h => hj h.2), if_neg (by omega)]
    · rw [if_neg (fun h => hb h.1), if_neg (fun h => hb h.1), if_neg (fun h => hb h.1)]

theorem bankRead_store_other {b b' : Bank} {i j : Nat} {xs : List Nat} (h : ¬ (b' = b ∧ i ≤ j ∧ j < i + xs.length)) :
    (s.store b i xs).bankRead b' j = s.bankRead b' j := by rw [bankRead_store, if_neg h]

theorem bankRead_store_bank {b b' : Bank} (h : b' ≠ b) (i j : Nat) (xs : List Nat) :
    (s.store b i xs).bankRead b' j = s.bankRead b' j := s.bankRead_store_other fun e => h e.1

/-- The words a store of words leaves in its block. -/
theorem wordAt_store {b : Bank} {i j : Nat} {xs : List Nat} (hx : ∀ x ∈ xs, x < 2 ^ 64) (h : j < xs.length) :
    (s.store b i xs).wordAt b (i + j) = nth xs j := by
  rw [wordAt, bankRead_store, if_pos ⟨rfl, by omega, by omega⟩, Nat.add_sub_cancel_left, BitVec.toNat_ofNat,
    Nat.mod_eq_of_lt (hx _ (nth_mem h))]

theorem bankSound_bankStore {b b' : Bank} {i : Nat} {v : Word} (h : s.BankSound b') (hi : i < capacity s.cfg b) :
    (s.bankStore b i v).BankSound b' := by
  rw [BankSound, bankStore_banks, bankStore_cfg]
  by_cases hb : b = b'
  · subst hb
    rw [Banks.get_set_self]
    exact ⟨Memory.wf_write _ _ _ h.1, Memory.within_write _ _ h.2 hi⟩
  · rw [Banks.get_set_ne _ hb]
    exact h

theorem bankSound_memWrite {b b' : Bank} {i : Nat} {v : Word} (h : s.BankSound b') (hi : i < capacity s.cfg b) :
    (s.memWrite b i v).BankSound b' := by
  rw [memWrite]
  split
  · exact s.bankSound_bankStore (b := b) h hi
  · exact s.bankSound_bankStore h hi

/-- A store inside its bank keeps every bank sound. -/
theorem bankSound_store {b b' : Bank} {i : Nat} {xs : List Nat} (h : s.BankSound b')
    (hi : i + xs.length ≤ capacity s.cfg b) : (s.store b i xs).BankSound b' := by
  induction xs generalizing s i with
  | nil => exact h
  | cons x xs ih =>
    rw [List.length_cons] at hi
    exact ih _ (s.bankSound_bankStore h (by omega)) (by rw [bankStore_cfg]; omega)

theorem bankSound_of_eq {s t : State} {b : Bank} (hb : t.banks = s.banks) (hc : t.cfg = s.cfg) (h : s.BankSound b) :
    t.BankSound b := by
  rw [BankSound, hb, hc]
  exact h

/-! ### The checks of the block commands -/

theorem extentCheck_eq (b : Bank) (off l : Nat) : (s.extentCheck b off l).1 = false ↔ s.Fits b off l := by
  rw [extentCheck, Fits, decide_eq_false_iff_not, not_lt]

theorem rangeCheck_eq (b : Bank) (off l : Nat) (k : Modulus) :
    (s.rangeCheck b off l k).1 = false ↔ s.LazyBlock b off l k := by
  simp only [rangeCheck, block, load_eq, List.any_eq_false, List.mem_map, List.mem_range, Bool.not_eq_true, notLazy_eq,
    LazyBlock]
  exact ⟨fun h j hj => h _ ⟨j, hj, rfl⟩, fun h x ⟨j, hj, e⟩ => e ▸ h j hj⟩

theorem lazyList_block {b : Bank} {off l : Nat} {k : Modulus} (h : s.LazyBlock b off l k) :
    LazyList s.cfg k (s.block b off l) := by
  intro x hx
  rw [block, load_eq, List.mem_map] at hx
  obtain ⟨j, hj, rfl⟩ := hx
  exact h j (List.mem_range.1 hj)

theorem firstFault_extentCheck_pass {b : Bank} {off l : Nat} (h : s.Fits b off l) (cs : List Check) :
    firstFault (s.extentCheck b off l :: cs) = firstFault cs := by
  rw [← extentCheck_eq] at h
  rw [firstFault, h, if_neg (by simp)]

theorem firstFault_extentCheck_fail {b : Bank} {off l : Nat} (h : ¬ s.Fits b off l) (cs : List Check) :
    firstFault (s.extentCheck b off l :: cs) = some .bounds := by
  rw [← extentCheck_eq, Bool.not_eq_false] at h
  rw [firstFault, h, if_pos rfl, extentCheck]

theorem firstFault_rangeCheck_pass {b : Bank} {off l : Nat} {k : Modulus} (h : s.LazyBlock b off l k) (cs : List Check) :
    firstFault (s.rangeCheck b off l k :: cs) = firstFault cs := by
  rw [← rangeCheck_eq] at h
  rw [firstFault, h, if_neg (by simp)]

theorem firstFault_rangeCheck_fail {b : Bank} {off l : Nat} {k : Modulus} (h : ¬ s.LazyBlock b off l k) (cs : List Check) :
    firstFault (s.rangeCheck b off l k :: cs) = some .range := by
  rw [← rangeCheck_eq, Bool.not_eq_false] at h
  rw [firstFault, h, if_pos rfl, rangeCheck]

/-- `TableOK` passes where the table is ready (R127). -/
theorem firstFault_tableChecks_pass {k : Modulus} {l : Nat} (h : s.TableReady k l) : firstFault (s.tableChecks k l) = none := by
  simp [tableChecks, h.1, h.2.1, h.2.2]

/-- `TableOK` reports the missing or foreign table first (R127). -/
theorem firstFault_tableChecks_table {k : Modulus} {l : Nat} (h : ¬ s.TableOf k) :
    firstFault (s.tableChecks k l) = some .table := by
  rw [tableChecks, firstFault_cons, if_pos]
  rw [TableOf, not_and] at h
  cases e : s.twcfg.tvalid
  · rfl
  · simpa using h e

/-- `TableOK` then reports a table that is too short (R127). -/
theorem firstFault_tableChecks_length {k : Modulus} {l : Nat} (h : s.TableOf k) (hl : s.twcfg.tlg.val < l) :
    firstFault (s.tableChecks k l) = some .length := by
  simp [tableChecks, h.1, h.2, hl]

/-- `TableOK` passes in no other case. -/
theorem tableReady_of_pass {k : Modulus} {l : Nat} (h : firstFault (s.tableChecks k l) = none) : s.TableReady k l := by
  by_cases ht : s.TableOf k
  · by_cases hl : s.twcfg.tlg.val < l
    · rw [firstFault_tableChecks_length s ht hl] at h
      cases h
    · exact ⟨ht.1, ht.2, not_lt.1 hl⟩
  · rw [firstFault_tableChecks_table s ht] at h
    cases h

end State

end Sys2Proof.Machine
end

