-- ==== Sys2Proof/Laws/Twiddle.lean ====
section
/-! SUPPORT. The twiddle table (R122, R123): the words that building it leaves, and that a true table serves the transforms. -/

namespace Sys2Proof.Machine

variable (c : Config) (k : Modulus)

/-! ### The words of a table -/

theorem length_powers (w n x : Nat) : (powers c k w n x).length = n := by rw [powers_eq]; simp

theorem length_subTables (root : Nat → Nat) (t : Nat) : (subTables c k root t).length = 2 ^ t - 1 := by
  induction t with
  | zero => rfl
  | succ t ih =>
    have := Nat.two_pow_pos t
    rw [subTables, List.length_append, length_powers, ih, pow_succ]
    omega

@[simp] theorem length_tableWords (root : Nat → Nat) (t : Nat) : (tableWords c k root t).length = 2 ^ t := by
  have := Nat.two_pow_pos t
  rw [tableWords, List.length_cons, length_subTables]
  omega

theorem tableWords_succ (root : Nat → Nat) (t : Nat) :
    tableWords c k root (t + 1) = tableWords c k root t ++ powers c k (root (t + 1)) (2 ^ t) (c.one k) := by
  rw [tableWords, subTables, tableWords, List.cons_append]

/-- Word `2^l + j` of a table is the running power j of the root of sub-table l + 1 (R122). -/
theorem nth_tableWords (root : Nat → Nat) {t l j : Nat} (hl : l < t) (hj : j < 2 ^ l) :
    nth (tableWords c k root t) (2 ^ l + j) = runPow c k (root (l + 1)) j (c.one k) := by
  induction t with
  | zero => omega
  | succ t ih =>
    rw [tableWords_succ]
    by_cases h : l = t
    · subst h
      conv_lhs => rw [show 2 ^ l + j = (tableWords c k root l).length + j by simp]
      rw [nth_append_right, powers_eq, nth_map_range _ hj]
    · have h2 : 2 ^ l + 2 ^ l ≤ 2 ^ t := by
        rw [← two_mul, ← pow_succ']
        exact Nat.pow_le_pow_right (by norm_num) (by omega)
      rw [nth_append_left (by simp; omega), ih (by omega)]

theorem lt_of_mem_tableWords {root : Nat → Nat} (hr : ∀ l, root l < c.p k) {t x : Nat} (h : x ∈ tableWords c k root t) :
    x < c.p k := by
  induction t with
  | zero =>
    obtain rfl : x = c.one k := by simpa [tableWords, subTables] using h
    exact c.one_lt k
  | succ t ih =>
    rw [tableWords_succ, List.mem_append] at h
    rcases h with h | h
    · exact ih h
    · rw [powers_eq, List.mem_map] at h
      obtain ⟨j, -, rfl⟩ := h
      exact runPow_lt (lazy_of_lt (hr _)) j _ (c.one_lt k)

theorem lt_word {x : Nat} (h : x < c.p k) : x < 2 ^ 64 := by
  have := c.p_lt k
  omega

/-- The canonical word of a power of a root. -/
theorem runPow_omega {l j : Nat} : runPow c k (omega c k l) j (c.one k) = unityRoot c k l ^ j * 2 ^ 64 % c.p k := by
  refine c.nat_eq_of_cast k (runPow_lt (lazy_of_lt (omega_lt c k l)) j _ (c.one_lt k)) (Nat.mod_lt _ (c.p_pos k)) ?_
  rw [runPow_one_cast (omega_cast c k l), c.cast_mod, Nat.cast_mul, Nat.cast_pow, Config.rootF]
  norm_num

/-- The canonical word of a power of an inverse root (R122). -/
theorem runPow_omegai {l j : Nat} (hl : l ≤ c.logNmax) (hj : j ≤ 2 ^ l) :
    runPow c k (omegai c k l) j (c.one k) = unityRoot c k l ^ (2 ^ l - j) * 2 ^ 64 % c.p k := by
  refine c.nat_eq_of_cast k (runPow_lt (lazy_of_lt (omegai_lt c k l)) j _ (c.one_lt k)) (Nat.mod_lt _ (c.p_pos k)) ?_
  rw [runPow_one_cast (omegai_cast c k l), c.cast_mod, Nat.cast_mul, Nat.cast_pow, c.rootIF_pow k hl hj, Config.rootF]
  norm_num

namespace State

variable (s : State)

/-! ### Building -/

/-- Building changes words of the two twiddle banks and `TWCFG` only. -/
theorem buildTable_eq (k : Modulus) (t : Lg) :
    s.buildTable k t = { s with banks := (s.buildTable k t).banks, twcfg := ⟨k, t, true⟩ } := by
  rw [buildTable, store_eq, store_eq]

/-- Every word after building: those below `2^t` of the two banks are the table's, every other word is as before. -/
theorem bankRead_buildTable (k : Modulus) (t : Lg) (b : Bank) (i : Nat) :
    (s.buildTable k t).bankRead b i
      = if b = .twi ∧ i < 2 ^ t.val then Word.ofNat (nth (tableWords s.cfg k (omegai s.cfg k) t.val) i)
        else if b = .twf ∧ i < 2 ^ t.val then Word.ofNat (nth (tableWords s.cfg k (omega s.cfg k) t.val) i)
        else s.bankRead b i := by
  have e : ∀ u : State, ∀ c, ({ u with twcfg := c } : State).bankRead b i = u.bankRead b i := fun _ _ => rfl
  rw [buildTable, e, bankRead_store, bankRead_store]
  simp

/-- Building leaves the table for length `2^t` (R122, R123, R126). -/
theorem tableUpTo_buildTable {k : Modulus} {t : Lg} (ht : t.val ≤ s.cfg.logNmax) :
    (s.buildTable k t).TableUpTo k t.val := by
  have hp := Nat.two_pow_pos t.val
  have lt : ∀ root : Nat → Nat, (∀ l, root l < s.cfg.p k) → ∀ i < 2 ^ t.val,
      nth (tableWords s.cfg k root t.val) i < 2 ^ 64 := fun root hr i hi =>
    lt_word _ k (lt_of_mem_tableWords _ k hr (nth_mem (by simpa using hi)))
  have hf : ∀ i < 2 ^ t.val, (s.buildTable k t).wordAt .twf i = nth (tableWords s.cfg k (omega s.cfg k) t.val) i := by
    intro i hi
    rw [wordAt, bankRead_buildTable, if_neg (by simp), if_pos ⟨rfl, hi⟩, BitVec.toNat_ofNat,
      Nat.mod_eq_of_lt (lt _ (omega_lt _ k) i hi)]
  have hi : ∀ i < 2 ^ t.val, (s.buildTable k t).wordAt .twi i = nth (tableWords s.cfg k (omegai s.cfg k) t.val) i := by
    intro i hi
    rw [wordAt, bankRead_buildTable, if_pos ⟨rfl, hi⟩, BitVec.toNat_ofNat, Nat.mod_eq_of_lt (lt _ (omegai_lt _ k) i hi)]
  refine ⟨⟨by rw [hf 0 hp, buildTable_cfg]; rfl, by rw [hi 0 hp, buildTable_cfg]; rfl⟩, fun l hl j hj => ?_⟩
  have hlt : 2 ^ l + j < 2 ^ t.val := by
    have : 2 ^ (l + 1) ≤ 2 ^ t.val := Nat.pow_le_pow_right (by norm_num) hl
    rw [pow_succ] at this
    omega
  rw [hf _ hlt, hi _ hlt, nth_tableWords _ _ _ hl hj, nth_tableWords _ _ _ hl hj, buildTable_cfg, runPow_omega,
    runPow_omegai _ _ (by omega) (by rw [pow_succ]; omega)]
  exact ⟨rfl, rfl⟩

/-! ### A true table serves the transforms -/

theorem TableUpTo.mono {s : State} {k : Modulus} {t t' : Nat} (h : s.TableUpTo k t) (ht : t' ≤ t) : s.TableUpTo k t' :=
  ⟨h.1, fun l hl => h.2 l (by omega)⟩

theorem TableUpTo.forward {s : State} {k : Modulus} {t : Nat} (h : s.TableUpTo k t) :
    Twiddles s.cfg k (s.cfg.rootF k) s.twfAt t := by
  intro l hl j hj
  have e : s.twfAt (2 ^ l + j) = unityRoot s.cfg k (l + 1) ^ j * 2 ^ 64 % s.cfg.p k := (h.2 l hl j hj).1
  rw [e]
  refine ⟨lazy_of_lt (Nat.mod_lt _ (s.cfg.p_pos k)), ?_⟩
  rw [s.cfg.cast_mod, Nat.cast_mul, Nat.cast_pow, Config.rootF]
  norm_num

theorem TableUpTo.inverse {s : State} {k : Modulus} {t : Nat} (h : s.TableUpTo k t) (ht : t ≤ s.cfg.logNmax) :
    Twiddles s.cfg k (s.cfg.rootIF k) s.twiAt t := by
  intro l hl j hj
  have e : s.twiAt (2 ^ l + j) = unityRoot s.cfg k (l + 1) ^ (2 ^ (l + 1) - j) * 2 ^ 64 % s.cfg.p k := (h.2 l hl j hj).2
  rw [e]
  refine ⟨lazy_of_lt (Nat.mod_lt _ (s.cfg.p_pos k)), ?_⟩
  rw [s.cfg.cast_mod, Nat.cast_mul, Nat.cast_pow, s.cfg.rootIF_pow k (by omega) (by rw [pow_succ]; omega), Config.rootF]
  norm_num

theorem TableReady.upTo {s : State} {k : Modulus} {l : Nat} (h : s.TableReady k l) (ht : s.TableTrue) : s.TableUpTo k l := by
  have := ht h.1
  rw [h.2.1] at this
  exact this.mono h.2.2

/-- The leaves of a transform of length `2^l` find their twiddles in a true table (R195). -/
theorem leafTable_forward {s : State} {k : Modulus} {l : Nat}
    (h : 4 ≤ min l s.cfg.logThresh → s.TableReady k (min l s.cfg.logThresh)) (ht : s.TableTrue) :
    LeafTable s.cfg k (s.cfg.rootF k) s.twfAt l := fun h4 => ((h h4).upTo ht).forward

theorem leafTable_inverse {s : State} {k : Modulus} {l : Nat} (hl : l ≤ s.cfg.logNmax)
    (h : 4 ≤ min l s.cfg.logThresh → s.TableReady k (min l s.cfg.logThresh)) (ht : s.TableTrue) :
    LeafTable s.cfg k (s.cfg.rootIF k) s.twiAt l := fun h4 => ((h h4).upTo ht).inverse (by omega)

/-- The table stays true where neither the twiddle banks, `TWCFG` nor the configuration change. -/
theorem TableUpTo.congr {s t : State} {k : Modulus} {l : Nat} (h : s.TableUpTo k l) (hc : t.cfg = s.cfg)
    (hf : ∀ i, t.bankRead .twf i = s.bankRead .twf i) (hi : ∀ i, t.bankRead .twi i = s.bankRead .twi i) :
    t.TableUpTo k l := by
  simpa only [TableUpTo, wordAt, hc, hf, hi] using h

theorem TableTrue.congr {s t : State} (h : s.TableTrue) (hc : t.cfg = s.cfg) (hw : t.twcfg = s.twcfg)
    (hf : ∀ i, t.bankRead .twf i = s.bankRead .twf i) (hi : ∀ i, t.bankRead .twi i = s.bankRead .twi i) : t.TableTrue := by
  intro hv
  rw [hw] at hv ⊢
  exact (h hv).congr hc hf hi

end State

end Sys2Proof.Machine
end

