-- ==== Sys2Proof/Laws/BlockCommands.lean ====
section
/-! SUPPORT. The block commands of one shape: the faults that their checks raise, in order (R144, R195, R273), what their
operation leaves in the block, and the sums of R141 as the networks of Laws/Transform.lean. -/

namespace Sys2Proof.Machine

/-! ### The transforms of Safety.lean -/

section Sums

variable {c : Config} {k : Modulus}

theorem dft_lt (c : Config) (k : Modulus) (l : Nat) (x : Nat → Nat) (m : Nat) : dft c k l x m < c.p k :=
  Nat.mod_lt _ (c.p_pos k)

theorem idft_lt (c : Config) (k : Modulus) (l : Nat) (y : Nat → Nat) (j : Nat) : idft c k l y j < c.p k :=
  Nat.mod_lt _ (c.p_pos k)

theorem cast_dft {l : Nat} (hl : l ≤ c.logNmax) (x : Nat → Nat) {m : Nat} (hm : m < 2 ^ l) :
    (dft c k l x m : c.F k) = difF (c.rootF k l) l (fun j => (x j : c.F k)) (brev l m) := by
  rw [dft, c.cast_mod, difF_brev (c.rootF_half k hl) _ hm, Nat.cast_sum]
  refine Finset.sum_congr rfl fun j _ => ?_
  rw [Nat.cast_mul, Nat.cast_pow, Config.rootF]

/-- The layers of R156 (4) are the forward network. -/
theorem cast_difLayers {l : Nat} (hl : l ≤ c.logNmax) (x : Nat → Int) (i : Nat) :
    ((difLayers (fun l => unityRoot c k l) l x i : Int) : c.F k) = difF (c.rootF k l) l (fun j => (x j : c.F k)) i := by
  induction l generalizing x i with
  | zero => rfl
  | succ l ih =>
    have hr : ((unityRoot c k (l + 1) : Nat) : c.F k) = c.rootF k (l + 1) := rfl
    rw [difLayers, difF, c.rootF_sq k hl]
    split
    · rw [ih (by omega)]
      simp only [Int.cast_add]
    · rw [ih (by omega)]
      simp only [Int.cast_mul, Int.cast_sub, Int.cast_pow, Int.cast_natCast, hr]

theorem cast_idft {l : Nat} (hl : l ≤ c.logNmax) (y : Nat → Nat) {j : Nat} (hj : j < 2 ^ l) :
    (idft c k l y j : c.F k) = ditF (c.rootIF k l) l (fun m => (y m : c.F k)) j := by
  rw [idft, c.cast_mod, ditF_eq (c.rootIF_half k hl) _ hj, Nat.cast_sum]
  refine Finset.sum_congr rfl fun m hm => ?_
  rw [Nat.cast_mul, Nat.cast_pow, mul_comm j, pow_mul, mul_comm j, pow_mul,
    c.rootIF_pow k hl (Finset.mem_range.1 hm).le, Config.rootF]

theorem brev_brev (l : Nat) {i : Nat} (hi : i < 2 ^ l) : brev l (brev l i) = i := by
  have high : ∀ (l i : Nat), i < 2 ^ (l + 1) → brev (l + 1) i = 2 * brev l (i % 2 ^ l) + i / 2 ^ l := by
    intro l
    induction l with
    | zero => intro i hi; simp [brev]; omega
    | succ l ih =>
      intro i hi
      rw [brev, ih (i / 2) (by rw [pow_succ] at hi; omega), brev]
      have e1 : i % 2 ^ (l + 1) % 2 = i % 2 := Nat.mod_mod_of_dvd i ⟨2 ^ l, by rw [pow_succ']⟩
      have e2 : i % 2 ^ (l + 1) / 2 = i / 2 % 2 ^ l := by rw [pow_succ', Nat.mod_mul_right_div_self]
      have e3 : i / 2 / 2 ^ l = i / 2 ^ (l + 1) := by rw [Nat.div_div_eq_div_mul, pow_succ']
      rw [e1, e2, e3, pow_succ]
      ring
  induction l generalizing i with
  | zero => simpa [brev] using (Nat.lt_one_iff.1 (by simpa using hi)).symm
  | succ l ih =>
    have hlt := brev_lt l (i % 2 ^ l)
    have hb : i / 2 ^ l < 2 := Nat.div_lt_of_lt_mul (by rwa [pow_succ] at hi)
    have split : ∀ a d : Nat, d < 2 → (2 * a + d) % 2 = d ∧ (2 * a + d) / 2 = a := fun a d hd => by omega
    obtain ⟨h1, h2⟩ := split (brev l (i % 2 ^ l)) _ hb
    rw [high l i hi, brev, h1, h2, ih (Nat.mod_lt _ (Nat.two_pow_pos l))]
    exact Nat.div_add_mod' i (2 ^ l)

end Sums

/-! ### One bank -/

namespace State

variable {s : State} {b : Bank} {off l : Nat} {k : Modulus} {f : List Nat → List Nat}

/-- All checks of a one-bank block command pass. -/
theorem firstFault_block {bad : Bool} {table : List Check} (hb : bad = false) (he : s.Fits b off l)
    (ht : firstFault table = none) (hl : s.LazyBlock b off l k) :
    firstFault ((bad, .length) :: s.blockChecks b off l k table) = none := by
  rw [hb, firstFault_cons, if_neg (by simp), blockChecks, List.cons_append, firstFault_extentCheck_pass s he,
    firstFault_append, ht, firstFault_rangeCheck_pass s hl, firstFault_nil]
  rfl

/-- The words that a block operation leaves: in the block, f of it; elsewhere, as before. -/
theorem mapBlock_spec (hlen : (f (s.block b off l)).length = 2 ^ l) (hlt : ∀ x ∈ f (s.block b off l), x < s.cfg.p k) :
    s.OnlyWords (s.mapBlock b off l f).complete (InBlock b off l) ∧
    (s.mapBlock b off l f).complete.CanonicalBlock b off l k ∧
    ∀ j < 2 ^ l, (s.mapBlock b off l f).complete.wordAt b (off + j) = nth (f (s.block b off l)) j := by
  have hw : ∀ j < 2 ^ l, (s.mapBlock b off l f).complete.wordAt b (off + j) = nth (f (s.block b off l)) j := by
    intro j hj
    rw [wordAt_complete, mapBlock, wordAt_store s (fun x hx => lt_word _ k (hlt x hx)) (by omega)]
  refine ⟨⟨by rw [mapBlock, complete, store_eq], fun b' i hi => ?_⟩, fun j hj => ?_, hw⟩
  · rw [bankRead_complete, mapBlock, bankRead_store_other]
    rw [hlen]
    exact hi
  · rw [hw j hj, complete_cfg, mapBlock, store_cfg]
    exact hlt _ (nth_mem (by omega))

theorem bankSound_mapBlock {b' : Bank} (h : s.BankSound b') (he : s.Fits b off l)
    (hlen : (f (s.block b off l)).length = 2 ^ l) : (s.mapBlock b off l f).BankSound b' :=
  bankSound_store s h (by rw [hlen]; exact he)

end State

/-- The faults of a one-bank block command are those of its checks (R144, R273). -/
theorem blockFaults_of_checks {i : Instr} {s : State} {bad : Bool} {badLength table : Prop} {b : Bank} {off l : Nat}
    {k : Modulus} {tcs : List Check} {l' : Nat} {op : State → State}
    (hx : exec i s = s.command ((bad, .length) :: s.blockChecks b off l k tcs) op) (hbad : bad = true ↔ badLength)
    (hpos : table → tcs = s.tableChecks k l') (hneg : ¬ table → tcs = []) :
    BlockFaults i s badLength b off l k table l' := by
  have hb : ¬ badLength → bad = false := fun h => by
    rw [← hbad] at h
    simpa using h
  rw [BlockFaults, hx]
  refine ⟨fun h => ?_, fun h he => ?_, fun h he ht hk => ?_, fun h he ht hk hl => ?_, fun h he ht hr => ?_⟩
  · rw [State.command_of_fault (f := .length)]
    rw [hbad.2 h, firstFault_cons, if_pos rfl]
  all_goals
    refine State.command_of_fault ?_
    rw [hb h, firstFault_cons, if_neg (by simp), State.blockChecks, List.cons_append]
  · rw [State.firstFault_extentCheck_fail s he]
  · rw [State.firstFault_extentCheck_pass s he, hpos ht, firstFault_append, State.firstFault_tableChecks_table s hk]
    rfl
  · rw [State.firstFault_extentCheck_pass s he, hpos ht, firstFault_append, State.firstFault_tableChecks_length s hk hl]
    rfl
  · rw [State.firstFault_extentCheck_pass s he, firstFault_append, State.firstFault_rangeCheck_fail s hr]
    by_cases htab : table
    · rw [hpos htab, State.firstFault_tableChecks_pass s (ht htab)]
      rfl
    · rw [hneg htab]
      rfl

/-! ### Two banks -/

/-- All checks of a two-bank block command pass. -/
theorem firstFault_pair {s : State} {bad : Bool} {d b : Bank} {off l : Nat} {k : Modulus} {tcs : List Check}
    (hb : bad = false) (hd : d ≠ b) (he : s.Fits d off l) (ht : firstFault tcs = none) (h1 : s.LazyBlock d off l k)
    (h2 : s.LazyBlock b off l k) :
    firstFault ([(bad, .length), aliasCheck d b, s.extentCheck d off l] ++ tcs
      ++ [s.rangeCheck d off l k, s.rangeCheck b off l k]) = none := by
  rw [hb, List.cons_append, List.cons_append, firstFault_cons, if_neg (by simp), List.cons_append, List.cons_append,
    aliasCheck, firstFault_cons, if_neg (by simpa using hd), List.cons_append, List.cons_append, List.nil_append,
    State.firstFault_extentCheck_pass s he, firstFault_append, ht, State.firstFault_rangeCheck_pass s h1,
    State.firstFault_rangeCheck_pass s h2]
  rfl

/-- The faults of a two-bank block command are those of its checks (R195, R273). -/
theorem pairFaults_of_checks {i : Instr} {s : State} {bad : Bool} {badLength table : Prop} {d b : Bank} {off l : Nat}
    {k : Modulus} {tcs : List Check} {l' : Nat} {op : State → State}
    (hx : exec i s = s.command ([(bad, .length), aliasCheck d b, s.extentCheck d off l] ++ tcs
      ++ [s.rangeCheck d off l k, s.rangeCheck b off l k]) op) (hbad : bad = true ↔ badLength)
    (hpos : table → tcs = s.tableChecks k l') (hneg : ¬ table → tcs = []) :
    PairFaults i s badLength d b off l k table l' := by
  have hb : ¬ badLength → bad = false := fun h => by
    rw [← hbad] at h
    simpa using h
  rw [PairFaults, hx]
  refine ⟨fun h => ?_, fun h hd => ?_, fun h hd he => ?_, fun h hd he ht hk => ?_, fun h hd he ht hk hl => ?_,
    fun h hd he ht hr => ?_⟩
  · refine State.command_of_fault ?_
    rw [hbad.2 h, List.cons_append, List.cons_append, firstFault_cons, if_pos rfl]
  · refine State.command_of_fault ?_
    rw [hb h, List.cons_append, List.cons_append, firstFault_cons, if_neg (by simp), List.cons_append, List.cons_append,
      aliasCheck, firstFault_cons, if_pos (by simpa using hd)]
  all_goals
    refine State.command_of_fault ?_
    rw [hb h, List.cons_append, List.cons_append, firstFault_cons, if_neg (by simp), List.cons_append, List.cons_append,
      aliasCheck, firstFault_cons, if_neg (by simpa using hd), List.cons_append, List.cons_append, List.nil_append]
  · rw [State.firstFault_extentCheck_fail s he]
  · rw [State.firstFault_extentCheck_pass s he, hpos ht, firstFault_append, State.firstFault_tableChecks_table s hk]
    rfl
  · rw [State.firstFault_extentCheck_pass s he, hpos ht, firstFault_append, State.firstFault_tableChecks_length s hk hl]
    rfl
  · rw [State.firstFault_extentCheck_pass s he, firstFault_append]
    have htcs : firstFault tcs = none := by
      by_cases htab : table
      · rw [hpos htab, State.firstFault_tableChecks_pass s (ht htab)]
      · rw [hneg htab, firstFault_nil]
    rw [htcs, Option.none_or]
    by_cases h1 : s.LazyBlock d off l k
    · rw [State.firstFault_rangeCheck_pass s h1, State.firstFault_rangeCheck_fail s fun h2 => hr ⟨h1, h2⟩]
    · rw [State.firstFault_rangeCheck_fail s h1]

end Sys2Proof.Machine
end

