-- ==== Sys2Proof/Laws/Convolve.lean ====
section
/-! SUPPORT. What the convolution commands leave in their blocks (R192, R193, R196 to R199). -/

namespace Sys2Proof.Machine

section Lists

variable {c : Config} {k : Modulus} {twf twi : Nat → Nat} {l : Nat}

theorem cast_cyclic (l : Nat) (x y : Nat → Nat) (i : Nat) :
    ((cyclic l x y i : Nat) : c.F k)
      = ∑ j ∈ Finset.range (2 ^ l), (x j : c.F k) * (y ((i + 2 ^ l - j) % 2 ^ l) : c.F k) := by
  rw [cyclic, Nat.cast_sum]
  exact Finset.sum_congr rfl fun j _ => Nat.cast_mul _ _

theorem pow_two_ne (c : Config) (k : Modulus) (l : Nat) : (2 ^ l : c.F k) ≠ 0 := by
  have := c.fact k
  exact pow_ne_zero _ (c.two_ne k)

/-- The words of `CNV1`: the inverse network of the product of the image of x and the words y (R193, R198). -/
theorem finish_one_spec (nf : Bool) (hl : l ≤ c.logNmax) (hf : LeafTable c k (c.rootF k) twf l)
    (hi : LeafTable c k (c.rootIF k) twi l) {x y : List Nat} (hx : x.length = 2 ^ l) (hy : y.length = 2 ^ l)
    (lx : LazyList c k x) (ly : LazyList c k y) :
    (finishConv c k nf l (convr c k .one twf twi l x y).1).length = 2 ^ l ∧
    (∀ a ∈ finishConv c k nf l (convr c k .one twf twi l x y).1, a < c.p k) ∧
    ∀ i < 2 ^ l, resF c k (finishConv c k nf l (convr c k .one twf twi l x y).1) i * 2 ^ 64 * 2 ^ l
      = (scaling nf l : Nat) * ditF (c.rootIF k l) l (fun n => difF (c.rootF k l) l (resF c k x) n * resF c k y n) i := by
  obtain ⟨h1, h2, h3⟩ := convr_one_spec hl hf hi x y hx hy lx ly
  obtain ⟨g1, g2, g3⟩ := finishConv_spec nf h1 h2
  refine ⟨g1, g2, fun i hi => ?_⟩
  rw [mul_right_comm, g3 i hi, h3 i hi]
  have : (fun n => difF (c.rootF k l) l (resF c k x) n * resF c k y n * c.ri k)
      = fun n => c.ri k * (difF (c.rootF k l) l (resF c k x) n * resF c k y n) := funext fun n => mul_comm _ _
  rw [this, ditF_smul, mul_assoc, mul_right_comm, c.ri_mul_radix, one_mul]

/-- Where y is the image of a sequence b, the words are the cyclic convolution of x and b (R193). -/
theorem finish_one_cyclic (nf : Bool) (hl : l ≤ c.logNmax) (hf : LeafTable c k (c.rootF k) twf l)
    (hi : LeafTable c k (c.rootIF k) twi l) {x y : List Nat} (hx : x.length = 2 ^ l) (hy : y.length = 2 ^ l)
    (lx : LazyList c k x) (ly : LazyList c k y) {b : Nat → Nat}
    (hb : ∀ n < 2 ^ l, resF c k y n = difF (c.rootF k l) l (fun j => (b j : c.F k)) n) {i : Nat} (hi' : i < 2 ^ l) :
    resF c k (finishConv c k nf l (convr c k .one twf twi l x y).1) i * 2 ^ 64
      = (scaling nf l : Nat) * (cyclic l (nth x) b i : Nat) := by
  have := c.fact k
  have h := (finish_one_spec nf hl hf hi hx hy lx ly).2.2 i hi'
  have e : ditF (c.rootIF k l) l (fun n => difF (c.rootF k l) l (resF c k x) n * resF c k y n) i
      = 2 ^ l * (cyclic l (nth x) b i : Nat) := by
    rw [ditF_congr (y := fun n => difF (c.rootF k l) l (resF c k x) n * difF (c.rootF k l) l (fun j => (b j : c.F k)) n) _ _
      (fun n hn => by rw [hb n hn]) hi', ditF_mul_difF (c.two_ne k) (c.rootF_half k hl) (fun h0 => by rw [h0, c.rootF_zero])
      (c.rootIF_mul k hl) (c.rootIF_half k hl) _ _ hi', cast_cyclic]
  rw [e, mul_left_comm, mul_comm (2 ^ l : c.F k)] at h
  exact mul_right_cancel₀ (pow_two_ne c k l) h

/-- The words of `CNV2` (R193, R197): the cyclic convolution in the first block, the image of the second in the second. -/
theorem finish_two_spec (nf : Bool) (hl : l ≤ c.logNmax) (hf : LeafTable c k (c.rootF k) twf l)
    (hi : LeafTable c k (c.rootIF k) twi l) {x y : List Nat} (hx : x.length = 2 ^ l) (hy : y.length = 2 ^ l)
    (lx : LazyList c k x) (ly : LazyList c k y) :
    (finishConv c k nf l (convr c k .two twf twi l x y).1).length = 2 ^ l ∧
    (∀ a ∈ finishConv c k nf l (convr c k .two twf twi l x y).1, a < c.p k) ∧
    (∀ i < 2 ^ l, resF c k (finishConv c k nf l (convr c k .two twf twi l x y).1) i * 2 ^ 64
      = (scaling nf l : Nat) * (cyclic l (nth x) (nth y) i : Nat)) ∧
    (canonical c k (convr c k .two twf twi l x y).2).length = 2 ^ l ∧
    (∀ a ∈ canonical c k (convr c k .two twf twi l x y).2, a < c.p k) ∧
    ∀ m < 2 ^ l, nth (canonical c k (convr c k .two twf twi l x y).2) (brev l m) = dft c k l (nth y) m := by
  obtain ⟨f1, f2, f3⟩ := fwdr_computes hl hf y hy ly
  obtain ⟨g1, g2, -⟩ := finish_one_spec nf hl hf hi hx f1 lx f2
  obtain ⟨c1, c2, c3⟩ := canonical_spec f1 f2
  rw [convr_two_snd, convr_two_fst twi hl hf x y hy ly]
  refine ⟨g1, g2, fun i hi' => finish_one_cyclic nf hl hf hi hx f1 lx f2 f3 hi', c1, c2, fun m hm => ?_⟩
  refine c.nat_eq_of_cast k (c2 _ (nth_mem (by rw [c1]; exact brev_lt l m))) (dft_lt c k l _ m) ?_
  rw [cast_dft hl _ hm]
  exact (c3 _ (brev_lt l m)).trans (f3 _ (brev_lt l m))

/-- The words of `CNVSQ` (R193, R199). -/
theorem finish_sq_spec (nf : Bool) (hl : l ≤ c.logNmax) (hf : LeafTable c k (c.rootF k) twf l)
    (hi : LeafTable c k (c.rootIF k) twi l) {x : List Nat} (hx : x.length = 2 ^ l) (lx : LazyList c k x) :
    (finishConv c k nf l (convr c k .sq twf twi l x []).1).length = 2 ^ l ∧
    (∀ a ∈ finishConv c k nf l (convr c k .sq twf twi l x []).1, a < c.p k) ∧
    (∀ i < 2 ^ l, resF c k (finishConv c k nf l (convr c k .sq twf twi l x []).1) i * 2 ^ 64
      = (scaling nf l : Nat) * (cyclic l (nth x) (nth x) i : Nat)) := by
  rw [convr_sq_fst]
  obtain ⟨h1, h2, h3, -⟩ := finish_two_spec nf hl hf hi hx hx lx lx
  exact ⟨h1, h2, h3⟩

end Lists

namespace State

variable {s : State} {d b : Bank} {off l : Nat} {k : Modulus}

theorem cyclic_congr {l : Nat} {x x' y y' : Nat → Nat} (hx : ∀ j < 2 ^ l, x j = x' j) (hy : ∀ j < 2 ^ l, y j = y' j)
    (i : Nat) : cyclic l x y i = cyclic l x' y' i :=
  Finset.sum_congr rfl fun j hj => by
    rw [hx j (Finset.mem_range.1 hj), hy _ (Nat.mod_lt _ (Nat.two_pow_pos l))]

theorem dft_congr (c : Config) (k : Modulus) {l : Nat} {x y : Nat → Nat} (h : ∀ j < 2 ^ l, x j = y j) (m : Nat) :
    dft c k l x m = dft c k l y m := by
  rw [dft, dft, Finset.sum_congr rfl fun j hj => by rw [h j (Finset.mem_range.1 hj)]]

/-- Everything the operation of `CNV2` does (R193, R197). -/
theorem convolve2_spec (nf : Bool) (hdb : d ≠ b) (hl : l ≤ s.cfg.logNmax) (hd : s.LazyBlock d off l k)
    (hb : s.LazyBlock b off l k) (hf : LeafTable s.cfg k (s.cfg.rootF k) s.twfAt l)
    (hi : LeafTable s.cfg k (s.cfg.rootIF k) s.twiAt l) :
    s.convolve2 d b off k l nf = { s with banks := (s.convolve2 d b off k l nf).banks } ∧
    (∀ b' i, ¬ (InBlock d off l b' i ∨ InBlock b off l b' i) →
      (s.convolve2 d b off k l nf).bankRead b' i = s.bankRead b' i) ∧
    (s.convolve2 d b off k l nf).CanonicalBlock d off l k ∧
    (∀ j < 2 ^ l, (s.convolve2 d b off k l nf).wordAt d (off + j) * 2 ^ 64 % s.cfg.p k
      = scaling nf l * cyclic l (fun j => s.wordAt d (off + j)) (fun j => s.wordAt b (off + j)) j % s.cfg.p k) ∧
    ∀ m < 2 ^ l, (s.convolve2 d b off k l nf).wordAt b (off + brev l m)
      = dft s.cfg k l (fun j => s.wordAt b (off + j)) m := by
  obtain ⟨h1, h2, h3, h4, h5, h6⟩ := finish_two_spec nf hl hf hi (s.length_block d off l) (s.length_block b off l)
    (s.lazyList_block hd) (s.lazyList_block hb)
  have rd := fun b' i => (s.store d off (finishConv s.cfg k nf l
    (convr s.cfg k .two s.twfAt s.twiAt l (s.block d off l) (s.block b off l)).1)).bankRead_store b b' off i
    (canonical s.cfg k (convr s.cfg k .two s.twfAt s.twiAt l (s.block d off l) (s.block b off l)).2)
  have wd : ∀ j < 2 ^ l, (s.convolve2 d b off k l nf).wordAt d (off + j) = nth (finishConv s.cfg k nf l
      (convr s.cfg k .two s.twfAt s.twiAt l (s.block d off l) (s.block b off l)).1) j := fun j hj => by
    rw [convolve2, wordAt, rd, if_neg (fun h => hdb h.1), ← wordAt, wordAt_store s (fun x hx => lt_word _ k (h2 x hx))]
    omega
  have hst : s.convolve2 d b off k l nf = { s with banks := (s.convolve2 d b off k l nf).banks } := by
    rw [convolve2, store_eq, store_eq]
  refine ⟨hst, fun b' i hni => ?_, fun j hj => ?_, fun j hj => ?_, fun m hm => ?_⟩
  · rw [not_or, InBlock, InBlock] at hni
    rw [convolve2, rd, h4, if_neg hni.2, bankRead_store_other]
    rw [h1]
    exact hni.1
  · rw [wd j hj, hst]
    exact h2 _ (nth_mem (by omega))
  · rw [wd j hj, s.cfg.mod_eq_iff, Nat.cast_mul, Nat.cast_mul]
    have := h3 j hj
    rw [cyclic_congr (x' := fun j => s.wordAt d (off + j)) (y' := fun j => s.wordAt b (off + j))
      (fun j hj => s.nth_block d off hj) (fun j hj => s.nth_block b off hj)] at this
    rw [← this, Nat.cast_pow, Nat.cast_ofNat]
  · rw [convolve2, wordAt_store _ (fun x hx => lt_word _ k (h5 x hx)) (by rw [h4]; exact brev_lt l m), h6 m hm]
    exact dft_congr _ _ (fun j hj => s.nth_block b off hj) m

/-- Everything the operation of `CNVSQ` does (R193, R199). -/
theorem convolveSq_spec (nf : Bool) (hl : l ≤ s.cfg.logNmax) (hd : s.LazyBlock d off l k)
    (hf : LeafTable s.cfg k (s.cfg.rootF k) s.twfAt l) (hi : LeafTable s.cfg k (s.cfg.rootIF k) s.twiAt l) :
    s.convolveSq d off k l nf = { s with banks := (s.convolveSq d off k l nf).banks } ∧
    (∀ b' i, ¬ InBlock d off l b' i → (s.convolveSq d off k l nf).bankRead b' i = s.bankRead b' i) ∧
    (s.convolveSq d off k l nf).CanonicalBlock d off l k ∧
    ∀ j < 2 ^ l, (s.convolveSq d off k l nf).wordAt d (off + j) * 2 ^ 64 % s.cfg.p k
      = scaling nf l * cyclic l (fun j => s.wordAt d (off + j)) (fun j => s.wordAt d (off + j)) j % s.cfg.p k := by
  obtain ⟨h1, h2, h3⟩ := finish_sq_spec nf hl hf hi (s.length_block d off l) (s.lazyList_block hd)
  have wd : ∀ j < 2 ^ l, (s.convolveSq d off k l nf).wordAt d (off + j) = nth (finishConv s.cfg k nf l
      (convr s.cfg k .sq s.twfAt s.twiAt l (s.block d off l) []).1) j := fun j hj => by
    rw [convolveSq, wordAt_store s (fun x hx => lt_word _ k (h2 x hx))]
    omega
  have hst : s.convolveSq d off k l nf = { s with banks := (s.convolveSq d off k l nf).banks } := by
    rw [convolveSq, store_eq]
  refine ⟨hst, fun b' i hni => ?_, fun j hj => ?_, fun j hj => ?_⟩
  · rw [convolveSq, bankRead_store_other]
    rw [h1]
    exact hni
  · rw [wd j hj, hst]
    exact h2 _ (nth_mem (by omega))
  · rw [wd j hj, s.cfg.mod_eq_iff, Nat.cast_mul, Nat.cast_mul]
    have := h3 j hj
    rw [cyclic_congr (x' := fun j => s.wordAt d (off + j)) (y' := fun j => s.wordAt d (off + j))
      (fun j hj => s.nth_block d off hj) (fun j hj => s.nth_block d off hj)] at this
    rw [← this, Nat.cast_pow, Nat.cast_ofNat]

end State

end Sys2Proof.Machine
end

