-- ==== Sys2Proof/Laws/Crt.lean ====
section
/-! SUPPORT. The CRT combiner reconstructs (R217, R219), and the carry propagator keeps the value it is given (R223, R225). -/

namespace Sys2Proof.Machine

/-! ### Reconstruction -/

section Reconstruct

variable (c : Config)

theorem ppp_eq_mi (k : Modulus) : c.mi k * c.p k = c.ppp := by
  cases k <;> simp only [Config.mi, Config.ppp] <;> ring

theorem ppp_pos : 0 < c.ppp := Nat.mul_pos (Nat.mul_pos (c.p_pos _) (c.p_pos _)) (c.p_pos _)

theorem cast_mi_ne (k : Modulus) : ((c.mi k : Nat) : c.F k) ≠ 0 := by
  have := c.fact k
  have ne : ∀ j, j ≠ k → ((c.p j : Nat) : c.F k) ≠ 0 := fun j h => by
    rw [Ne, ZMod.natCast_eq_zero_iff, (Nat.prime_dvd_prime_iff_eq (c.prime k) (c.prime j))]
    exact fun e => c.p_ne k h e.symm
  cases k <;> simp only [Config.mi, Nat.cast_mul] <;> exact mul_ne_zero (ne _ (by decide)) (ne _ (by decide))

theorem cast_inv (k : Modulus) : ((c.mi k : Nat) : c.F k) * (c.inv k : c.F k) = 1 := by
  have := c.fact k
  rw [Config.inv, c.cast_inverse, c.cast_mod, mul_inv_cancel₀ (cast_mi_ne c k)]

theorem cast_mi_other {k j : Modulus} (h : j ≠ k) : ((c.mi j : Nat) : c.F k) = 0 := by
  rw [ZMod.natCast_eq_zero_iff]
  cases j <;> cases k <;> first | exact absurd rfl h | exact Dvd.intro _ rfl | exact Dvd.intro_left _ rfl

theorem crtTerm_lt (k : Modulus) (r : Nat) : crtTerm c k r < c.ppp := by
  rw [crtTerm, ← ppp_eq_mi c k]
  refine Nat.mul_lt_mul_of_pos_left (Nat.mod_lt _ (c.p_pos k)) ?_
  have := ppp_eq_mi c k
  have := ppp_pos c
  by_contra h
  simp_all

theorem cast_crtTerm (k j : Modulus) (r : Nat) : (crtTerm c j r : c.F k) = if j = k then (r : c.F k) else 0 := by
  rw [crtTerm, Nat.cast_mul]
  split
  · subst_vars
    rw [c.cast_mod, Nat.cast_mul, mul_comm (r : c.F j), ← mul_assoc, cast_inv, one_mul]
  · rw [cast_mi_other c ‹_›, zero_mul]

theorem foldPpp_cast (k : Modulus) (t : Nat) : (foldPpp c t : c.F k) = t := by
  rw [foldPpp]
  split
  · rw [Nat.cast_sub ‹_›, ← ppp_eq_mi c k, Nat.cast_mul, c.cast_p, mul_zero, sub_zero]
  · rfl

theorem crt3_lt (r0 r1 r2 : Nat) : crt3 c r0 r1 r2 < c.ppp := by
  have := crtTerm_lt c .m0 r0
  have := crtTerm_lt c .m1 r1
  have := crtTerm_lt c .m2 r2
  have fold : ∀ t, t < 3 * c.ppp → foldPpp c t < 2 * c.ppp ∧ (t < 2 * c.ppp → foldPpp c t < c.ppp) := fun t ht => by
    rw [foldPpp]
    split <;> omega
  exact (fold _ (by have := (fold (crtTerm c .m0 r0 + crtTerm c .m1 r1 + crtTerm c .m2 r2) (by omega)).1; omega)).2
    (fold _ (by omega)).1

/-- The residues of the reconstructed integer (R219). -/
theorem crt3_cast (r : Modulus → Nat) (k : Modulus) : (crt3 c (r .m0) (r .m1) (r .m2) : c.F k) = r k := by
  rw [crt3, foldPpp_cast, foldPpp_cast, Nat.cast_add, Nat.cast_add, cast_crtTerm, cast_crtTerm, cast_crtTerm]
  cases k <;> simp

/-- An integer below `PPP` is the only one with its residues (R219). -/
theorem eq_of_residues {a b : Nat} (ha : a < c.ppp) (hb : b < c.ppp) (h : ∀ k, (a : c.F k) = b) : a = b := by
  have hm : ∀ k, a ≡ b [MOD c.p k] := fun k => (ZMod.natCast_eq_natCast_iff _ _ _).1 (h k)
  have h01 : (c.p .m0).Coprime (c.p .m1) := c.coprime .m1 (by decide)
  have h2 : (c.p .m0 * c.p .m1).Coprime (c.p .m2) :=
    Nat.Coprime.mul_left (c.coprime .m2 (by decide)) (c.coprime .m2 (by decide))
  have := (Nat.modEq_and_modEq_iff_modEq_mul h2).1 ⟨(Nat.modEq_and_modEq_iff_modEq_mul h01).1 ⟨hm .m0, hm .m1⟩, hm .m2⟩
  exact this.eq_of_lt_of_lt ha hb

theorem ppp_lt : c.ppp < 2 ^ 191 := by
  have := c.three_ppp_lt
  omega

end Reconstruct

/-! ### Wide registers -/

theorem Wide.val_ofNat {n : Nat} (h : n < 2 ^ 192) : (Wide.ofNat n).val = n := by
  simp only [Wide.val, Wide.ofNat, BitVec.toNat_ofNat]
  omega

theorem Wide.val_lt (x : Wide) : x.val < 2 ^ 192 := by
  have := x.w0.isLt
  have := x.w1.isLt
  have := x.w2.isLt
  rw [Wide.val]
  omega

theorem Wide.val_add (x y : Wide) : (x.add y).val = (x.val + y.val) % 2 ^ 192 :=
  Wide.val_ofNat (Nat.mod_lt _ (by norm_num))

theorem Wide.val_shift (x : Wide) : x.w0.toNat + x.shift.val * 2 ^ 64 = x.val := by
  change _ + (x.w1.toNat + 2 ^ 64 * x.w2.toNat + 2 ^ 128 * 0) * 2 ^ 64 = _
  rw [Wide.val]
  ring

theorem Wide.ext_val {x y : Wide} (h : x.val = y.val) : x = y := by
  have := x.w0.isLt; have := x.w1.isLt; have := x.w2.isLt
  have := y.w0.isLt; have := y.w1.isLt; have := y.w2.isLt
  simp only [Wide.val] at h
  obtain ⟨x0, x1, x2⟩ := x
  obtain ⟨y0, y1, y2⟩ := y
  simp only [Wide.mk.injEq, BitVec.toNat_eq] at *
  omega

/-! ### The carry loop -/

namespace State

variable (s : State)

/-- The coefficient that `CRTC` reconstructs at position i (R223). -/
def coefficient (i : Nat) : Nat :=
  crt3 s.cfg (s.residue .ch0 .m0 i) (s.residue .ch1 .m1 i) (s.residue .ch2 .m2 i)

theorem coefficient_lt (i : Nat) : s.coefficient i < s.cfg.ppp := crt3_lt _ _ _ _

theorem coefficient_cast (k : Modulus) (i : Nat) :
    (s.coefficient i : s.cfg.F k) = s.wordAt (channel k) i * s.cfg.ri k := by
  exact (crt3_cast s.cfg (fun k => s.residue (channel k) k i) k).trans (toInt_cast s.cfg k _)

theorem coefficient_congr {s t : State} (hc : t.cfg = s.cfg) {i : Nat}
    (h : ∀ k, t.bankRead (channel k) i = s.bankRead (channel k) i) : t.coefficient i = s.coefficient i := by
  have h0 := h .m0
  have h1 := h .m1
  have h2 := h .m2
  simp only [channel] at h0 h1 h2
  simp only [coefficient, residue, hc, h0, h1, h2]

/-- One turn: the coefficient into `V`, the sum's low word into `OUT[i]`, the rest into `ACC`. -/
theorem crtcStep_spec (i : Nat) (ha : s.acc.val < 2 ^ 191) :
    ∃ (a : Wide) (w : Word), w.toNat + a.val * 2 ^ 64 = s.acc.val + s.coefficient i ∧ a.val < 2 ^ 191 ∧
      s.crtcStep i = { s.bankStore .out i w with v := Wide.ofNat (s.coefficient i), acc := a } := by
  have hv := s.coefficient_lt i
  have hp := ppp_lt s.cfg
  refine ⟨(s.acc.add (Wide.ofNat (s.coefficient i))).shift, (s.acc.add (Wide.ofNat (s.coefficient i))).w0, ?_, ?_, rfl⟩
  · rw [Wide.val_shift, Wide.val_add, Wide.val_ofNat (by omega), Nat.mod_eq_of_lt (by omega)]
  · have h1 := Wide.val_shift (s.acc.add (Wide.ofNat (s.coefficient i)))
    have h2 := (s.acc.add (Wide.ofNat (s.coefficient i))).val_lt
    omega

/-- Everything n turns of the loop do (R225): only `V`, `ACC` and n words of `OUT` change; `V` ends as the last coefficient; and
the words with what stays in `ACC` have the value of the coefficients with what `ACC` held. -/
theorem crtcLoop_spec (n i : Nat) (ha : s.acc.val < 2 ^ 191) :
    ∃ t : State, crtcLoop n i s = t ∧ t = { s with banks := t.banks, v := t.v, acc := t.acc } ∧ t.acc.val < 2 ^ 191 ∧
      (∀ b j, ¬ (b = .out ∧ i ≤ j ∧ j < i + n) → t.bankRead b j = s.bankRead b j) ∧
      t.v = (if n = 0 then s.v else Wide.ofNat (s.coefficient (i + (n - 1)))) ∧
      ∑ j ∈ Finset.range n, t.wordAt .out (i + j) * 2 ^ (64 * j) + t.acc.val * 2 ^ (64 * n)
        = s.acc.val + ∑ j ∈ Finset.range n, s.coefficient (i + j) * 2 ^ (64 * j) := by
  induction n generalizing i s with
  | zero => exact ⟨s, rfl, rfl, ha, fun _ _ _ => rfl, rfl, by simp⟩
  | succ n ih =>
    obtain ⟨a, w, hw, hb, hs⟩ := s.crtcStep_spec i ha
    obtain ⟨t, h1, h2, h3, h4, h5, h6⟩ := ih (s.crtcStep i) (i + 1) (by rw [hs]; exact hb)
    have hread : ∀ b j, (s.crtcStep i).bankRead b j = if b = .out ∧ j = i then w else s.bankRead b j := fun b j => by
      rw [hs]
      exact s.bankRead_bankStore ..
    have hco : ∀ j, (s.crtcStep i).coefficient j = s.coefficient j := fun j =>
      coefficient_congr (by rw [hs]; rfl) fun k => by rw [hread, if_neg (by cases k <;> simp [channel])]
    refine ⟨t, h1, ?_, h3, fun b j hj => ?_, ?_, ?_⟩
    · rw [h2, hs]
      rfl
    · rw [h4 b j fun h => hj ⟨h.1, by omega⟩, hread, if_neg fun h => hj ⟨h.1, by omega⟩]
    · rw [h5, if_neg (Nat.succ_ne_zero n), hco]
      split
      · rename_i h
        subst h
        rw [hs]
        rfl
      · congr 2
        omega
    · have ho : t.wordAt .out i = w.toNat := by rw [wordAt, h4 _ _ (by omega), hread, if_pos ⟨rfl, rfl⟩]
      have hacc : (s.crtcStep i).acc = a := by rw [hs]
      rw [Finset.sum_range_succ', Finset.sum_range_succ', Nat.add_zero, ho]
      simp only [hco, hacc] at h6
      have e1 : ∀ f : Nat → Nat, ∑ j ∈ Finset.range n, f (i + (j + 1)) * 2 ^ (64 * (j + 1))
          = 2 ^ 64 * ∑ j ∈ Finset.range n, f (i + 1 + j) * 2 ^ (64 * j) := fun f => by
        rw [Finset.mul_sum]
        refine Finset.sum_congr rfl fun j _ => ?_
        rw [show i + (j + 1) = i + 1 + j by omega]
        ring
      rw [e1, e1]
      have e2 : 2 ^ (64 * (n + 1)) = 2 ^ 64 * 2 ^ (64 * n) := by ring
      rw [e2]
      simp only [Nat.mul_zero, pow_zero, Nat.mul_one]
      calc _ = 2 ^ 64 * (∑ j ∈ Finset.range n, t.wordAt .out (i + 1 + j) * 2 ^ (64 * j) + t.acc.val * 2 ^ (64 * n)) + w.toNat := by ring
        _ = (w.toNat + a.val * 2 ^ 64) + 2 ^ 64 * ∑ j ∈ Finset.range n, s.coefficient (i + 1 + j) * 2 ^ (64 * j) := by rw [h6]; ring
        _ = _ := by rw [hw]; ring

/-- Everything the operation of `CRTC` does on n coefficients (R223, R225). -/
theorem reconstruct_spec (n : Nat) (hn : n ≠ 0) :
    ∃ t : State, s.reconstruct n = t ∧
      t = { s with
        banks := t.banks
        v := Wide.ofNat (s.coefficient (n - 1))
        acc := t.acc
        olen := Word.ofNat (n + 1) } ∧
      (∀ b j, ¬ (b = .out ∧ j ≤ n) → t.bankRead b j = s.bankRead b j) ∧
      t.limbValue .out (n + 1) + t.acc.val * 2 ^ (64 * (n + 1))
        = ∑ i ∈ Finset.range n, s.coefficient i * 2 ^ (64 * i) := by
  have hz : (s.clearAcc).acc.val = 0 := by simp [Wide.val, Wide.zero]
  obtain ⟨u, h1, h2, h3, h4, h5, h6⟩ := (s.clearAcc).crtcLoop_spec n 0 (by rw [hz]; norm_num)
  have hread : ∀ b j, (s.reconstruct n).bankRead b j = if b = .out ∧ j = n then u.acc.w0 else u.bankRead b j := fun b j => by
    rw [reconstruct, h1]
    exact u.bankRead_bankStore ..
  have hacc : (s.reconstruct n).acc = u.acc.shift := by
    rw [reconstruct, h1]
    rfl
  have hv : (s.reconstruct n).v = Wide.ofNat (s.coefficient (n - 1)) := by
    rw [reconstruct, h1]
    change u.v = _
    rw [h5, if_neg hn, Nat.zero_add]
    rfl
  refine ⟨_, rfl, ?_, fun b j hj => ?_, ?_⟩
  · conv_rhs => rw [← hv]
    rw [reconstruct, h1, h2]
    rfl
  · rw [hread, if_neg fun h => hj ⟨h.1, by omega⟩, h4 b j fun h => hj ⟨h.1, by omega⟩]
    rfl
  · rw [hacc, limbValue, Finset.sum_range_succ]
    have e : ∀ i ∈ Finset.range n, (s.reconstruct n).wordAt .out i * 2 ^ (64 * i) = u.wordAt .out (0 + i) * 2 ^ (64 * i) :=
      fun i hi => by
        rw [Finset.mem_range] at hi
        rw [wordAt, hread, if_neg (by omega), wordAt, Nat.zero_add]
    rw [Finset.sum_congr rfl e, wordAt, hread, if_pos ⟨rfl, rfl⟩]
    have hs := u.acc.val_shift
    have e3 : ∀ i, (s.clearAcc).coefficient (0 + i) = s.coefficient i := fun i => by rw [Nat.zero_add]; rfl
    simp only [hz, e3, Nat.zero_add (∑ _ ∈ _, _)] at h6
    rw [← h6, ← hs]
    ring

theorem bankSound_crtcLoop {b : Bank} {n i : Nat} (h : s.BankSound b) (hi : i + n ≤ capacity s.cfg .out) :
    (crtcLoop n i s).BankSound b := by
  induction n generalizing i s with
  | zero => exact h
  | succ n ih =>
    have hw : ∀ w, (s.bankStore .out i w).BankSound b := fun w => s.bankSound_bankStore h (by omega)
    exact ih (s.crtcStep i) (i := i + 1) (bankSound_of_eq rfl rfl (hw _)) (by change _ ≤ capacity s.cfg .out; omega)

end State

end Sys2Proof.Machine
end

