-- ==== Sys2Proof/Laws/Decode.lean ====
section
/-! SUPPORT. The laws of the command word: its fields and the word they pack into determine each other (R70), and the numbers
of the operands determine the operands. -/

namespace Sys2Proof

/-- Each field is below the number of values its bits have (R70). -/
structure Fields.Fit (f : Fields) : Prop where
  op   : f.op < 2 ^ 8
  m    : f.m < 2 ^ 2
  nf   : f.nf < 2 ^ 1
  zero : f.zero < 2 ^ 3
  lg   : f.lg < 2 ^ 6
  rd   : f.rd < 2 ^ 4
  ra   : f.ra < 2 ^ 4
  rb   : f.rb < 2 ^ 4

theorem Fields.pack_lt {f : Fields} (h : f.Fit) : f.pack < 2 ^ 32 := by
  obtain ⟨h1, h2, h3, h4, h5, h6, h7, h8⟩ := h
  simp only [pack]
  omega

theorem Fields.ofWord_pack {f : Fields} (h : f.Fit) : Fields.ofWord f.pack = f := by
  obtain ⟨op, m, nf, z, lg, rd, ra, rb⟩ := f
  obtain ⟨h1, h2, h3, h4, h5, h6, h7, h8⟩ := h
  simp only at h1 h2 h3 h4 h5 h6 h7 h8
  simp only [ofWord, pack, bitField, Fields.mk.injEq]
  refine ⟨?_, ?_, ?_, ?_, ?_, ?_, ?_, ?_⟩ <;> omega

theorem Fields.fit_ofWord (c : Nat) : (Fields.ofWord c).Fit :=
  ⟨Nat.mod_lt _ (by norm_num), Nat.mod_lt _ (by norm_num), Nat.mod_lt _ (by norm_num), Nat.mod_lt _ (by norm_num),
    Nat.mod_lt _ (by norm_num), Nat.mod_lt _ (by norm_num), Nat.mod_lt _ (by norm_num), Nat.mod_lt _ (by norm_num)⟩

theorem Fields.pack_ofWord {c : Nat} (h : c < 2 ^ 32) : (Fields.ofWord c).pack = c := by
  simp only [ofWord, pack, bitField]
  omega

theorem toNat_ofNat_pack {f : Fields} (h : f.Fit) : (Word.ofNat f.pack).toNat = f.pack := by
  rw [BitVec.toNat_ofNat, Nat.mod_eq_of_lt ((Fields.pack_lt h).trans (by norm_num))]

/-! ### Operands -/

@[simp] theorem bankOf_id (b : Bank) : bankOf b.id = some b := by cases b <;> rfl

theorem id_of_bankOf {n : Nat} {b : Bank} (h : bankOf n = some b) : b.id = n := by
  unfold bankOf at h
  split at h <;> first | (cases h; rfl) | cases h

theorem Bank.id_lt (b : Bank) : b.id < 2 ^ 4 := by cases b <;> decide

theorem bankOf_none {n : Nat} (h : 8 < n) : bankOf n = none := by
  unfold bankOf
  split <;> first | omega | rfl

@[simp] theorem modulusOf_idx (k : Modulus) : modulusOf k.idx = .ok k := by cases k <;> rfl

theorem idx_of_modulusOf {n : Nat} {k : Modulus} (h : modulusOf n = .ok k) : k.idx = n := by
  unfold modulusOf at h
  split at h <;> first | (cases h; rfl) | cases h

theorem Modulus.idx_lt (k : Modulus) : k.idx < 2 ^ 2 := by cases k <;> decide

@[simp] theorem regOf_val (r : Reg) : regOf r.val = r := Fin.ofNat_val_eq_self r

theorem val_regOf {n : Nat} (h : n < 2 ^ 4) : (regOf n).val = n := Nat.mod_eq_of_lt h

@[simp] theorem lgOf_val (l : Lg) : lgOf l.val = l := Fin.ofNat_val_eq_self l

theorem val_lgOf {n : Nat} (h : n < 2 ^ 6) : (lgOf n).val = n := Nat.mod_eq_of_lt h

@[simp] theorem flagOf_toNat (b : Bool) : flagOf b.toNat = b := by cases b <;> rfl

theorem toNat_flagOf {n : Nat} (h : n < 2 ^ 1) : (flagOf n).toNat = n := by
  obtain rfl | rfl : n = 0 ∨ n = 1 := by omega
  all_goals rfl

theorem bankWhere_id {allowed : Bank → Bool} {b : Bank} (h : allowed b = true) : bankWhere allowed b.id = .ok b := by
  simp [bankWhere, h]

/-- A field that is accepted as a bank id names that bank, and the format allows it (R75 step 5). -/
theorem of_bankWhere {allowed : Bank → Bool} {n : Nat} {b : Bank} (h : bankWhere allowed n = .ok b) :
    b.id = n ∧ allowed b = true := by
  unfold bankWhere at h
  split at h
  · split at h
    · cases h
      exact ⟨id_of_bankOf ‹_›, ‹_›⟩
    · cases h
  · cases h

/-- A word with no 1 above bit 31, an opcode of the map, and zeros in the fields its format does not use is built from its
fields (R75). -/
theorem decode_of_fields {c : Word} {fm : Format} (hc : c.toNat < 2 ^ 32)
    (hf : formatOf (Fields.ofWord c.toNat).op = some fm) (hz : fm.unusedAreZero (Fields.ofWord c.toNat) = true) :
    decode c = build (Fields.ofWord c.toNat) := by
  rw [decode, if_neg (by omega)]
  simp [hf, hz]

/-- Everything an accepted word satisfies (R75 steps 1 to 3). -/
theorem fields_of_decode {c : Word} {i : Instr} (h : decode c = .ok i) :
    c.toNat < 2 ^ 32 ∧ ∃ fm, formatOf (Fields.ofWord c.toNat).op = some fm ∧
      fm.unusedAreZero (Fields.ofWord c.toNat) = true ∧ build (Fields.ofWord c.toNat) = .ok i := by
  rw [decode] at h
  split at h
  · cases h
  · refine ⟨by omega, ?_⟩
    simp only at h
    split at h
    · cases h
    · split at h
      · exact ⟨_, ‹_›, ‹_›, h⟩
      · cases h

end Sys2Proof
end

