-- ==== Sys2Proof/Laws/Orchestration.lean ====
section
/-! SUPPORT. The orchestration sequencer: the exponent of R247, the words that `LDM` leaves (R246), what one modulus pass of `MUL`
and of `SQR` does (R249), and the linear convolution that the padded operands give (R253). -/

namespace Sys2Proof.Machine

/-! ### The exponent -/

theorem isLeastLog_clog2 (n : Nat) : IsLeastLog n (clog2 n) := by
  rw [clog2]
  split
  · exact ⟨by simpa, fun l' _ => Nat.zero_le _⟩
  · have hn : n - 1 ≠ 0 := by omega
    refine ⟨?_, fun l' h => ?_⟩
    · have := Nat.lt_log2_self (n := n - 1)
      omega
    · have := (Nat.log2_lt hn).2 (show n - 1 < 2 ^ l' by omega)
      omega

theorem IsLeastLog.unique {n l l' : Nat} (h : IsLeastLog n l) (h' : IsLeastLog n l') : l = l' :=
  Nat.le_antisymm (h.2 l' h'.1) (h'.2 l h.1)

theorem IsLeastLog.eq_clog2 {n l : Nat} (h : IsLeastLog n l) : clog2 n = l := (isLeastLog_clog2 n).unique h

theorem clog2_le {n l : Nat} (h : n ≤ 2 ^ l) : clog2 n ≤ l := (isLeastLog_clog2 n).2 l h

theorem val_tableExp (s : State) (l : Nat) : (s.tableExp l).val = min l s.cfg.logThresh := by
  have := s.cfg.thresh_lt
  exact Nat.mod_eq_of_lt (by omega)

/-! ### Linear and cyclic convolution -/

/-- A limb sequence continued by zeros. -/
def pad (n : Nat) (a : Nat → Nat) (j : Nat) : Nat := if j < n then a j else 0

/-- Where the product fits the transform, the cyclic convolution of the padded operands is the linear one (R253). -/
theorem cyclic_pad {n1 n2 l : Nat} (a b : Nat → Nat) (h : n1 + n2 - 1 ≤ 2 ^ l) (h1 : n1 ≠ 0) (h2 : n2 ≠ 0) {i : Nat}
    (hi : i < 2 ^ l) : cyclic l (pad n1 a) (pad n2 b) i = linear n1 n2 a b i := by
  rw [cyclic, linear, ← Finset.sum_subset (Finset.range_subset_range.2 (show n1 ≤ 2 ^ l by omega))]
  · refine Finset.sum_congr rfl fun j hj => ?_
    rw [Finset.mem_range] at hj
    rw [pad, if_pos hj, pad]
    by_cases hji : j ≤ i
    · rw [show i + 2 ^ l - j = i - j + 2 ^ l by omega, Nat.add_mod_right, Nat.mod_eq_of_lt (by omega)]
      by_cases hb : i - j < n2
      · rw [if_pos hb, if_pos ⟨hji, hb⟩]
      · rw [if_neg hb, if_neg (by omega), Nat.mul_zero]
    · rw [Nat.mod_eq_of_lt (by omega), if_neg (by omega), if_neg (by omega), Nat.mul_zero]
  · intro j _ hj
    rw [Finset.mem_range] at hj
    rw [pad, if_neg hj, Nat.zero_mul]

/-- The residue of a convolution of Montgomery words (R193). -/
theorem cast_linear_mont (c : Config) (k : Modulus) (n1 n2 : Nat) (a b : Nat → Nat) (i : Nat) :
    ((linear n1 n2 (fun j => c.mont k (a j)) (fun j => c.mont k (b j)) i : Nat) : c.F k)
      = (linear n1 n2 a b i : Nat) * 2 ^ 64 * 2 ^ 64 := by
  rw [linear, linear, Nat.cast_sum, Nat.cast_sum, Finset.sum_mul, Finset.sum_mul]
  refine Finset.sum_congr rfl fun j _ => ?_
  split
  · rw [Nat.cast_mul, Nat.cast_mul, c.cast_mont, c.cast_mont]
    ring
  · simp

theorem capacity_channel (c : Config) (k : Modulus) : capacity c (channel k) = c.ncap := by cases k <;> rfl

theorem channel_transform (k : Modulus) : (channel k).isTransform = true := by cases k <;> rfl

theorem capacity_transform (c : Config) {b : Bank} (h : b.isTransform = true) : capacity c b = c.ncap := by
  cases b <;> first | rfl | cases h

theorem channel_ne {k : Modulus} {b : Bank} (h : b ≠ .ch0 ∧ b ≠ .ch1 ∧ b ≠ .ch2) : b ≠ channel k := by
  cases k
  · exact h.1
  · exact h.2.1
  · exact h.2.2

theorem channel_inj {j k : Modulus} (h : channel j = channel k) : j = k := by
  cases j <;> cases k <;> first | rfl | cases h

namespace State

variable (s : State)

/-! ### `LDM` -/

/-- A load changes words of its bank only. -/
theorem loadOperand_eq (d src : Bank) (k : Modulus) (l : Nat) :
    s.loadOperand d src k l = { s with banks := (s.loadOperand d src k l).banks } := by
  simp only [loadOperand]
  rw [store_eq]

/-- The words that a load leaves (R246). -/
theorem loadOperand_spec {d src : Bank} {k : Modulus} {l : Nat} (hn : s.lengthOf src ≤ 2 ^ l) :
    (∀ b i, ¬ (b = d ∧ i < 2 ^ l) → (s.loadOperand d src k l).bankRead b i = s.bankRead b i) ∧
    (∀ j < 2 ^ l, (s.loadOperand d src k l).wordAt d j
      = pad (s.lengthOf src) (fun j => s.cfg.mont k (s.wordAt src j)) j) := by
  simp only [loadOperand]
  have hlen : ((s.load src 0 (s.lengthOf src)).map (toMont s.cfg k)
      ++ List.replicate (2 ^ l - s.lengthOf src) 0).length = 2 ^ l := by
    simp
    omega
  have hlt : ∀ x ∈ (s.load src 0 (s.lengthOf src)).map (toMont s.cfg k) ++ List.replicate (2 ^ l - s.lengthOf src) 0,
      x < 2 ^ 64 := by
    intro x hx
    rw [List.mem_append, List.mem_map] at hx
    rcases hx with ⟨y, hy, rfl⟩ | hx
    · exact lt_word _ k (toMont_lt _ k (s.lt_of_mem_load hy))
    · rw [(List.mem_replicate.1 hx).2]
      norm_num
  refine ⟨fun b i h => ?_, fun j hj => ?_⟩
  · rw [bankRead_store_other]
    rw [hlen]
    exact fun e => h ⟨e.1, by omega⟩
  · have hw := s.wordAt_store (b := d) (i := 0) hlt (j := j) (by rw [hlen]; exact hj)
    rw [Nat.zero_add] at hw
    rw [hw, pad]
    split
    · rw [nth_append_left (by simpa using ‹_›), nth_map (by simpa using ‹_›), s.nth_load _ _ ‹_›, Nat.zero_add,
        toMont_eq _ _ (s.wordAt_lt _ _)]
    · rename_i h
      conv_lhs => rw [show j = ((s.load src 0 (s.lengthOf src)).map (toMont s.cfg k)).length + (j - s.lengthOf src) by
        simp; omega]
      rw [nth_append_right]
      simp [nth, List.getD_eq_getElem?_getD]

theorem pad_mont_lt (c : Config) (k : Modulus) (n : Nat) (a : Nat → Nat) (j : Nat) :
    pad n (fun j => c.mont k (a j)) j < c.p k := by
  rw [pad]
  split
  · exact c.mont_lt k _
  · exact c.p_pos k

/-! ### One modulus pass -/

/-- What a pass of either command leaves alike: the words it may touch, and the table. -/
structure PassFrame (t : State) (k : Modulus) (l : Nat) (touched : Bank → Prop) : Prop where
  state : t = { s with banks := t.banks, twcfg := ⟨k, s.tableExp l, true⟩ }
  words : ∀ b i, ¬ (touched b ∧ i < 2 ^ l) → ¬ ((b = .twf ∨ b = .twi) ∧ i < 2 ^ min l s.cfg.logThresh) →
    t.bankRead b i = s.bankRead b i
  table : t.TableUpTo k (min l s.cfg.logThresh)

theorem leafTables {s : State} {k : Modulus} {l : Nat} (hl : l ≤ s.cfg.logNmax)
    (h : s.TableUpTo k (min l s.cfg.logThresh)) :
    LeafTable s.cfg k (s.cfg.rootF k) s.twfAt l ∧ LeafTable s.cfg k (s.cfg.rootIF k) s.twiAt l :=
  ⟨fun _ => h.forward, fun _ => h.inverse (by omega)⟩

/-- The state after the table and the operands of a pass are in place. -/
theorem prepared {k : Modulus} {l : Nat} (hl : l ≤ s.cfg.logNmax) (h1 : s.len1.toNat ≤ 2 ^ l) :
    ∃ u : State, (s.buildTable k (s.tableExp l)).loadOperand (channel k) .ina k l = u ∧
      s.PassFrame u k l (fun b => b = channel k) ∧
      ∀ j < 2 ^ l, u.wordAt (channel k) j = pad s.len1.toNat (fun j => s.cfg.mont k (s.wordAt .ina j)) j := by
  have ht : (s.tableExp l).val ≤ s.cfg.logNmax := by rw [val_tableExp]; omega
  have hlen : (s.buildTable k (s.tableExp l)).lengthOf .ina = s.len1.toNat := by
    rw [lengthOf, if_neg (by decide), buildTable_len1]
  obtain ⟨w1, w2⟩ := (s.buildTable k (s.tableExp l)).loadOperand_spec (d := channel k) (src := .ina) (k := k) (l := l)
    (by rw [hlen]; exact h1)
  have tw : Bank.twf ≠ channel k ∧ Bank.twi ≠ channel k := by cases k <;> decide
  refine ⟨_, rfl, ⟨?_, fun b i hb ht' => ?_, ?_⟩, fun j hj => ?_⟩
  · rw [loadOperand_eq, buildTable_eq]
  · rw [← val_tableExp] at ht'
    rw [w1 b i hb, bankRead_buildTable, if_neg (fun e => ht' ⟨.inr e.1, e.2⟩), if_neg (fun e => ht' ⟨.inl e.1, e.2⟩)]
  · have := s.tableUpTo_buildTable (k := k) ht
    rw [val_tableExp] at this
    refine this.congr (by rw [loadOperand_eq]) (fun i => w1 _ _ fun e => tw.1 e.1) (fun i => w1 _ _ fun e => tw.2 e.1)
  · have e : ∀ j, (s.buildTable k (s.tableExp l)).wordAt .ina j = s.wordAt .ina j := fun j => by
      rw [wordAt, wordAt, bankRead_buildTable, if_neg (by simp), if_neg (by simp)]
    rw [w2 j hj, hlen, buildTable_cfg]
    simp only [e]

/-- Everything one modulus pass of `MUL` does (R249, R253). -/
theorem mulPass_spec {k : Modulus} {l : Nat} (hl : l ≤ s.cfg.logNmax) (h1 : s.len1.toNat ≠ 0) (h2 : s.len2.toNat ≠ 0)
    (hn : s.len1.toNat + s.len2.toNat - 1 ≤ 2 ^ l) :
    ∃ t : State, s.mulPass k l = t ∧ s.PassFrame t k l (fun b => b = channel k ∨ b = .scr) ∧
      (∀ i < 2 ^ l, t.wordAt (channel k) i
        = linear s.len1.toNat s.len2.toNat (s.wordAt .ina) (s.wordAt .inb) i * 2 ^ 64 % s.cfg.p k) ∧
      ∀ m < 2 ^ l, t.wordAt .scr (brev l m)
        = dft s.cfg k l (pad s.len2.toNat fun j => s.cfg.mont k (s.wordAt .inb j)) m := by
  obtain ⟨u, hu, ⟨us, uw, ut⟩, ux⟩ := s.prepared (k := k) hl (by omega)
  have uc : u.cfg = s.cfg := by rw [us]
  have ulen : u.lengthOf .inb = s.len2.toNat := by rw [us]; rfl
  have hscr : Bank.scr ≠ channel k := channel_ne (by decide)
  have tw : Bank.twf ≠ channel k ∧ Bank.twi ≠ channel k := by cases k <;> decide
  obtain ⟨w1, w2⟩ := u.loadOperand_spec (d := .scr) (src := .inb) (k := k) (l := l) (by rw [ulen]; omega)
  have vs : u.loadOperand .scr .inb k l = { u with banks := (u.loadOperand .scr .inb k l).banks } := u.loadOperand_eq ..
  have hinb : ∀ j, u.wordAt .inb j = s.wordAt .inb j := fun j => by
    rw [wordAt, uw _ _ (fun e => channel_ne (by decide) e.1) (by simp), wordAt]
  have vx : ∀ j < 2 ^ l, (u.loadOperand .scr .inb k l).wordAt (channel k) (0 + j)
      = pad s.len1.toNat (fun j => s.cfg.mont k (s.wordAt .ina j)) j := fun j hj => by
    rw [Nat.zero_add, wordAt, w1 _ _ (fun e => hscr e.1.symm), ← wordAt, ux j hj]
  have vy : ∀ j < 2 ^ l, (u.loadOperand .scr .inb k l).wordAt .scr (0 + j)
      = pad s.len2.toNat (fun j => s.cfg.mont k (s.wordAt .inb j)) j := fun j hj => by
    rw [Nat.zero_add, w2 j hj, ulen, uc]
    simp only [hinb]
  have vt : (u.loadOperand .scr .inb k l).TableUpTo k (min l s.cfg.logThresh) :=
    ut.congr (by rw [vs]) (fun i => w1 _ _ (by simp)) (fun i => w1 _ _ (by simp))
  generalize hv : u.loadOperand .scr .inb k l = v at *
  have vc : v.cfg = s.cfg := by rw [vs, uc]
  have hlazy : v.LazyBlock (channel k) 0 l k ∧ v.LazyBlock .scr 0 l k := by
    refine ⟨fun j hj => ?_, fun j hj => ?_⟩
    · rw [vx j hj, vc]; exact lazy_of_lt (pad_mont_lt ..)
    · rw [vy j hj, vc]; exact lazy_of_lt (pad_mont_lt ..)
  obtain ⟨lf, li⟩ := leafTables (s := v) (k := k) (l := l) (by rw [vc]; exact hl) (by rw [vc]; exact vt)
  obtain ⟨c1, c2, c3, c4, c5⟩ := convolve2_spec (s := v) (off := 0) true hscr.symm (by rw [vc]; exact hl) hlazy.1 hlazy.2 lf li
  refine ⟨_, rfl, ⟨?_, fun b i hb ht' => ?_, ?_⟩, fun i hi => ?_, fun m hm => ?_⟩
  all_goals simp only [mulPass, hu, hv]
  · rw [c1, vs, us]
  · rw [not_and_or, not_or] at hb
    have ntw : ∀ b', InBlock b' 0 l b i → b = b' ∧ i < 2 ^ l := fun b' h => ⟨h.1, by have := h.2.2; omega⟩
    rw [c2 b i (by
        rintro (h | h)
        · have := ntw _ h; rcases hb with hb | hb
          · exact hb.1 this.1
          · exact hb this.2
        · have := ntw _ h; rcases hb with hb | hb
          · exact hb.2 this.1
          · exact hb this.2),
      w1 b i (fun e => by rcases hb with hb | hb; exacts [hb.2 e.1, hb e.2]),
      uw b i (fun e => by rcases hb with hb | hb; exacts [hb.1 e.1, hb e.2]) ht']
  · refine vt.congr (by rw [c1]) (fun i => c2 _ _ ?_) (fun i => c2 _ _ ?_)
    · rintro (h | h)
      · exact tw.1 h.1
      · cases h.1
    · rintro (h | h)
      · exact tw.2 h.1
      · cases h.1
  · have h4 := c4 i hi
    have h3 := c3 i hi
    rw [Nat.zero_add] at h3 h4
    have hvc : (v.convolve2 (channel k) .scr 0 k l true).cfg = s.cfg := by rw [c1, vc]
    rw [hvc] at h3
    rw [vc, scaling, if_pos rfl, one_mul, cyclic_congr vx vy, cyclic_pad _ _ hn h1 h2 hi, s.cfg.mod_eq_iff, cast_linear_mont,
      Nat.cast_mul, Nat.cast_pow, Nat.cast_ofNat, s.cfg.mul_radix_inj] at h4
    refine s.cfg.nat_eq_of_cast k h3 (Nat.mod_lt _ (s.cfg.p_pos k)) ?_
    rw [h4, s.cfg.cast_mod, Nat.cast_mul, Nat.cast_pow, Nat.cast_ofNat]
  · have h5 := c5 m hm
    rw [Nat.zero_add] at h5
    rw [h5, vc]
    exact dft_congr _ _ vy m

/-- Everything one modulus pass of `SQR` does (R249, R251). -/
theorem sqrPass_spec {k : Modulus} {l : Nat} (hl : l ≤ s.cfg.logNmax) (h1 : s.len1.toNat ≠ 0)
    (hn : 2 * s.len1.toNat - 1 ≤ 2 ^ l) :
    ∃ t : State, s.sqrPass k l = t ∧ s.PassFrame t k l (fun b => b = channel k) ∧
      ∀ i < 2 ^ l, t.wordAt (channel k) i
        = linear s.len1.toNat s.len1.toNat (s.wordAt .ina) (s.wordAt .ina) i * 2 ^ 64 % s.cfg.p k := by
  obtain ⟨v, hv, ⟨vs, vw, vt⟩, ux⟩ := s.prepared (k := k) hl (by omega)
  have vc : v.cfg = s.cfg := by rw [vs]
  have tw : Bank.twf ≠ channel k ∧ Bank.twi ≠ channel k := by cases k <;> decide
  have vx : ∀ j < 2 ^ l, v.wordAt (channel k) (0 + j) = pad s.len1.toNat (fun j => s.cfg.mont k (s.wordAt .ina j)) j :=
    fun j hj => by rw [Nat.zero_add, ux j hj]
  have hlazy : v.LazyBlock (channel k) 0 l k := fun j hj => by
    rw [vx j hj, vc]; exact lazy_of_lt (pad_mont_lt ..)
  obtain ⟨lf, li⟩ := leafTables (s := v) (k := k) (l := l) (by rw [vc]; exact hl) (by rw [vc]; exact vt)
  obtain ⟨c1, c2, c3, c4⟩ := convolveSq_spec (s := v) (off := 0) true (by rw [vc]; exact hl) hlazy lf li
  refine ⟨_, rfl, ⟨?_, fun b i hb ht' => ?_, ?_⟩, fun i hi => ?_⟩
  all_goals simp only [sqrPass, hv]
  · rw [c1, vs]
  · rw [c2 b i (fun h => hb ⟨h.1, by have := h.2.2; omega⟩), vw b i hb ht']
  · exact vt.congr (by rw [c1]) (fun i => c2 _ _ fun h => tw.1 h.1) (fun i => c2 _ _ fun h => tw.2 h.1)
  · have h4 := c4 i hi
    have h3 := c3 i hi
    rw [Nat.zero_add] at h3 h4
    have hvc : (v.convolveSq (channel k) 0 k l true).cfg = s.cfg := by rw [c1, vc]
    rw [hvc] at h3
    rw [vc, scaling, if_pos rfl, one_mul, cyclic_congr vx vx, cyclic_pad _ _ (by omega) h1 h1 hi, s.cfg.mod_eq_iff,
      cast_linear_mont, Nat.cast_mul, Nat.cast_pow, Nat.cast_ofNat, s.cfg.mul_radix_inj] at h4
    refine s.cfg.nat_eq_of_cast k h3 (Nat.mod_lt _ (s.cfg.p_pos k)) ?_
    rw [h4, s.cfg.cast_mod, Nat.cast_mul, Nat.cast_pow, Nat.cast_ofNat]

end State

end Sys2Proof.Machine
end

