-- ==== Sys2Proof/Laws/Exec.lean ====
section
/-! SUPPORT. What every command has in common: it is a list of checks and an operation (R274), and the operation leaves the control
registers, the input lengths, the configuration and the host alone (R78). -/

namespace Sys2Proof.Machine

/-- The word of a command, from its fields (R70). -/
theorem encode_eq_commandWord {i : Instr} {op m nf lg rd ra rb : Nat} (h : i.fields = ⟨op, m, nf, 0, lg, rd, ra, rb⟩) :
    encode i = commandWord op m nf lg rd ra rb := by
  rw [encode, h, commandWord, Fields.pack, Nat.zero_mul, Nat.add_zero]

/-- t has the fields of s that no operation of a command writes (R78). -/
structure Kept (s t : State) : Prop where
  cfg    : t.cfg = s.cfg
  cmd    : t.cmd = s.cmd
  status : t.status = s.status
  finfo  : t.finfo = s.finfo
  len1   : t.len1 = s.len1
  len2   : t.len2 = s.len2
  epoch  : t.epoch = s.epoch
  host   : t.host = s.host
  answer : t.answer = s.answer

namespace Kept

theorem refl (s : State) : Kept s s := ⟨rfl, rfl, rfl, rfl, rfl, rfl, rfl, rfl, rfl⟩

theorem trans {s t u : State} (h : Kept s t) (g : Kept t u) : Kept s u :=
  ⟨g.1.trans h.1, g.2.trans h.2, g.3.trans h.3, g.4.trans h.4, g.5.trans h.5, g.6.trans h.6, g.7.trans h.7, g.8.trans h.8,
    g.9.trans h.9⟩

theorem store (s : State) (b : Bank) (i : Nat) (xs : List Nat) : Kept s (s.store b i xs) := by constructor <;> simp

theorem buildTable (s : State) (k : Modulus) (t : Lg) : Kept s (s.buildTable k t) := by constructor <;> simp

theorem setV (s : State) (a : Wide) : Kept s (s.setV a) := ⟨rfl, rfl, rfl, rfl, rfl, rfl, rfl, rfl, rfl⟩

theorem setAcc (s : State) (a : Wide) : Kept s (s.setAcc a) := ⟨rfl, rfl, rfl, rfl, rfl, rfl, rfl, rfl, rfl⟩

theorem memWrite (s : State) (b : Bank) (i : Nat) (v : Word) : Kept s (s.memWrite b i v) := by constructor <;> simp

theorem crtcLoop (s : State) (n i : Nat) : Kept s (State.crtcLoop n i s) := by
  induction n generalizing i s with
  | zero => exact refl s
  | succ n ih =>
    have h : Kept s (s.crtcStep i) := ⟨rfl, rfl, rfl, rfl, rfl, rfl, rfl, rfl, rfl⟩
    exact h.trans (ih _ _)

theorem reconstruct (s : State) (n : Nat) : Kept s (s.reconstruct n) := by
  have h := crtcLoop s.clearAcc n 0
  exact ⟨h.1, h.2, h.3, h.4, h.5, h.6, h.7, h.8, h.9⟩

theorem mulPass (s : State) (k : Modulus) (l : Nat) : Kept s (s.mulPass k l) :=
  ((((buildTable s k _).trans (store _ _ _ _)).trans (store _ _ _ _)).trans (store _ _ _ _)).trans (store _ _ _ _)

theorem sqrPass (s : State) (k : Modulus) (l : Nat) : Kept s (s.sqrPass k l) :=
  ((buildTable s k _).trans (store _ _ _ _)).trans (store _ _ _ _)

theorem setLengths (s : State) (n : Nat) : Kept s (s.setLengths n) := ⟨rfl, rfl, rfl, rfl, rfl, rfl, rfl, rfl, rfl⟩

end Kept

/-- Every command is checks and an operation (R274). -/
theorem exec_eq_command (i : Instr) (s : State) :
    ∃ checks op, exec i s = s.command checks op ∧ Kept s (op s) := by
  cases i
  all_goals simp only [exec, State.engine, State.transform,
      execNop, execMto, execMfrom, execMmul, execMadd, execMsub, execMnorm, execMpow, execMinv, execLde,
      execSte, execTwb, execKdif, execKdit, execR4dif, execR4dit, execNttf, execNtti, execPwmul, execPwsqr,
      execScl, execFwd, execCnv2, execCnv1, execCnvsq, execCrt3, execCacc, execCemit, execCclr, execCrtc,
      execLdm, execMul, execSqr]
  all_goals refine ⟨_, _, rfl, ?_⟩
  case mul =>
    exact ((((Kept.setLengths s _).trans (Kept.mulPass _ _ _)).trans (Kept.mulPass _ _ _)).trans (Kept.mulPass _ _ _)).trans
      (Kept.reconstruct _ _)
  case sqr =>
    exact ((((Kept.setLengths s _).trans (Kept.sqrPass _ _ _)).trans (Kept.sqrPass _ _ _)).trans (Kept.sqrPass _ _ _)).trans
      (Kept.reconstruct _ _)
  case crtc => exact Kept.reconstruct _ _
  case cacc | cclr => exact Kept.setAcc _ _
  case crt3 => exact Kept.setV _ _
  case twb => exact Kept.buildTable _ _ _
  case ste => exact Kept.memWrite _ _ _ _
  case cnv2 => exact (Kept.store s _ _ _).trans (Kept.store _ _ _ _)
  case kdif | kdit | r4dif | r4dit | nttf | ntti | pwmul | pwsqr | scl | fwd | cnv1 | cnvsq | ldm => exact Kept.store _ _ _ _
  all_goals exact ⟨rfl, rfl, rfl, rfl, rfl, rfl, rfl, rfl, rfl⟩

/-- A command completes or faults (R274): it has a next state in every state. -/
theorem exec_cases (i : Instr) (s : State) :
    ∃ t, exec i s = .next t ∧ ((∃ u, Kept s u ∧ t = u.complete) ∨ ∃ f, t = s.raise f) := by
  obtain ⟨checks, op, h, hk⟩ := exec_eq_command i s
  rcases s.command_cases checks op with ⟨f, h1, h2⟩ | ⟨h1, h2⟩
  · exact ⟨_, h.trans h2, .inr ⟨f, rfl⟩⟩
  · exact ⟨_, h.trans h2, .inl ⟨_, hk, rfl⟩⟩

end Sys2Proof.Machine
end

