-- ==== Sys2Proof/Laws/Engine.lean ====
section
/-! SUPPORT. The laws of the Montgomery-engine commands: the operand check of R91, what an engine command does when its checks pass
and when one fails, and the words of `MTO`, `MPOW` and `MINV` as residues (R97, R99, R107). -/

namespace Sys2Proof.Machine

section Words

variable {c : Config} {k : Modulus}

/-- A canonical word is the residue of whatever it is congruent to. -/
theorem eq_mod_of_cast {a b : Nat} (ha : a < c.p k) (h : (a : c.F k) = b) : a = b % c.p k := by
  rw [← (c.mod_eq_iff k a b).2 h, Nat.mod_eq_of_lt ha]

theorem represents_iff (v x : Nat) : Represents c k v x ↔ (v : c.F k) = x * 2 ^ 64 := by
  rw [Represents, c.mod_eq_iff, Nat.cast_mul, Nat.cast_pow, Nat.cast_ofNat]

/-- Every word represents a residue (R14). -/
theorem exists_represents (c : Config) (k : Modulus) (v : Nat) : ∃ x, x < c.p k ∧ Represents c k v x := by
  have := c.fact k
  have : NeZero (c.p k) := ⟨(c.p_pos k).ne'⟩
  refine ⟨((v : c.F k) * c.ri k).val, ZMod.val_lt _, (represents_iff _ _).2 ?_⟩
  rw [ZMod.natCast_zmod_val, mul_assoc, c.ri_mul_radix, mul_one]

theorem toMont_eq_mod (c : Config) (k : Modulus) {x : Nat} (h : x < 2 ^ 64) : toMont c k x = x * 2 ^ 64 % c.p k := by
  rw [toMont_eq c k h, c.mont_eq]

/-- The word of a power (R99). -/
theorem modpow_eq_mod {b x : Nat} (e : Nat) (hb : b < 2 * c.p k) (h : Represents c k b x) :
    modpow c k b e = x ^ e * 2 ^ 64 % c.p k := by
  refine eq_mod_of_cast (modpow_lt c k e hb) ?_
  rw [modpow_cast c k e ((represents_iff _ _).1 h), Nat.cast_mul, Nat.cast_pow, Nat.cast_pow, Nat.cast_ofNat]

end Words

namespace State

variable {s : State}

theorem val_eq (s : State) (r : Reg) : s.val r = (s.getS r).toNat := rfl

theorem firstFault_operandCheck_pass {k : Modulus} {r : Reg} (h : s.val r < 2 * s.cfg.p k) (cs : List Check) :
    firstFault (s.operandCheck k r :: cs) = firstFault cs := by
  rw [operandCheck, firstFault_cons, (notLazy_eq _ _ _).2 h, if_neg (by simp)]

theorem firstFault_operandCheck_fail {k : Modulus} {r : Reg} (h : 2 * s.cfg.p k ≤ s.val r) (cs : List Check) :
    firstFault (s.operandCheck k r :: cs) = some .range := by
  rw [operandCheck, firstFault_cons, if_pos (by rw [notLazy, decide_eq_true h])]

theorem engine_of_pass {checks : List Check} (rd : Reg) (v : Nat) (h : firstFault checks = none) :
    s.engine checks rd v = .next { s with sreg := s.sreg.set rd (Word.ofNat v), status := s.status.completed } := by
  rw [engine, command_of_pass h]
  rfl

theorem engine_of_fault {checks : List Check} {f : FaultCode} (rd : Reg) (v : Nat) (h : firstFault checks = some f) :
    s.engine checks rd v = .next (s.raise f) := by
  rw [engine, command_of_fault h]

end State

end Sys2Proof.Machine
end

