-- ==== Sys2Proof/Laws/Lengths.lean ====
section
/-! SUPPORT. Every operation on a block gives a block of the same length, whatever the words and the table are: so a command
writes inside its blocks. -/

namespace Sys2Proof.Machine

variable (c : Config) (k : Modulus)

theorem length_kdif {l : Nat} {x : List Nat} (h : x.length = 2 ^ l) : (kdif c k l x).length = 2 ^ l := by
  unfold kdif
  split <;> simp_all [Quad.toList]

theorem length_kdit {l : Nat} {x : List Nat} (h : x.length = 2 ^ l) : (kdit c k l x).length = 2 ^ l := by
  unfold kdit
  split <;> simp_all [Quad.toList]

theorem length_toQuads {q : Nat} {x : List Nat} (h : x.length = 4 * q) : (toQuads q x).length = q := by
  rw [toQuads_eq h]
  simp

theorem length_mapQuads (f : Nat → Quad → Quad) (j : Nat) (xs : List Quad) : (mapQuads f j xs).length = xs.length := by
  induction xs generalizing j with
  | nil => rfl
  | cons x xs ih => rw [mapQuads, List.length_cons, List.length_cons, ih]

theorem length_runQuads (f : Quad → Nat → Nat → Quad) (w w3 : Nat) (xs : List Quad) (c1 c3 : Nat) :
    (runQuads c k f w w3 xs c1 c3).length = xs.length := by
  induction xs generalizing c1 c3 with
  | nil => rfl
  | cons x xs ih => rw [runQuads, List.length_cons, List.length_cons, ih]

theorem length_ofQuads_list (qs : List Quad) : (ofQuads qs).length = 4 * qs.length := by
  simp [ofQuads]
  omega

theorem quarter {l : Nat} {x : List Nat} (hl : 2 ≤ l) (h : x.length = 2 ^ l) : x.length = 4 * 2 ^ (l - 2) := by
  obtain ⟨n, rfl⟩ : ∃ n, l = n + 2 := ⟨l - 2, by omega⟩
  rw [h, Nat.add_sub_cancel, pow_add]
  ring

theorem length_r4dif (tw : Nat → Nat) {l : Nat} {x : List Nat} (hl : 2 ≤ l) (h : x.length = 2 ^ l) :
    (r4dif c k tw l x).length = 2 ^ l := by
  rw [r4dif, length_ofQuads_list, length_mapQuads, length_toQuads (quarter hl h), ← quarter hl h, h]

theorem length_r4dit (tw : Nat → Nat) {l : Nat} {x : List Nat} (hl : 2 ≤ l) (h : x.length = 2 ^ l) :
    (r4dit c k tw l x).length = 2 ^ l := by
  rw [r4dit, length_ofQuads_list, length_mapQuads, length_toQuads (quarter hl h), ← quarter hl h, h]

theorem length_split4 {l : Nat} {x : List Nat} (hl : 2 ≤ l) (h : x.length = 2 ^ l) :
    (split4 c k l x).length = 2 ^ l := by
  rw [split4, length_ofQuads_list, length_runQuads, length_toQuads (quarter hl h), ← quarter hl h, h]

theorem length_merge4 {l : Nat} {x : List Nat} (hl : 2 ≤ l) (h : x.length = 2 ^ l) :
    (merge4 c k l x).length = 2 ^ l := by
  rw [merge4, length_ofQuads_list, length_runQuads, length_toQuads (quarter hl h), ← quarter hl h, h]

theorem length_mapBlocks {f : List Nat → List Nat} {len : Nat} (hf : ∀ x : List Nat, x.length = len → (f x).length = len)
    (n : Nat) {x : List Nat} (h : x.length = n * len) : (mapBlocks f len n x).length = n * len := by
  induction n generalizing x with
  | zero => simp [mapBlocks]
  | succ n ih =>
    rw [Nat.succ_mul] at h
    rw [mapBlocks, List.length_append, hf _ (by rw [List.length_take]; omega), ih (by rw [List.length_drop]; omega),
      Nat.succ_mul]
    omega

theorem whole {l s : Nat} (hs : s ≤ l) : (2 : Nat) ^ (l - s) * 2 ^ s = 2 ^ l := by
  rw [← pow_add, Nat.sub_add_cancel hs]

theorem length_nttfFrom (tw : Nat → Nat) {l : Nat} : ∀ s ≤ l, ∀ x : List Nat, x.length = 2 ^ l →
    (nttfFrom c k tw l s x).length = 2 ^ l
  | s + 4, hs, x, h => by
    rw [nttfFrom]
    refine length_nttfFrom tw (s + 2) (by omega) _ ?_
    rw [length_mapBlocks (fun y hy => length_r4dif c k tw (by omega) hy) _ (by rw [whole hs, h]), whole hs]
  | 0, hs, x, h => by
    rw [nttfFrom.eq_def]
    change (mapBlocks (kdif c k 0) (2 ^ 0) (2 ^ (l - 0)) x).length = _
    rw [length_mapBlocks (fun y hy => length_kdif c k hy) _ (by rw [whole hs, h]), whole hs]
  | 1, hs, x, h => by
    rw [nttfFrom.eq_def]
    change (mapBlocks (kdif c k 1) (2 ^ 1) (2 ^ (l - 1)) x).length = _
    rw [length_mapBlocks (fun y hy => length_kdif c k hy) _ (by rw [whole hs, h]), whole hs]
  | 2, hs, x, h => by
    rw [nttfFrom.eq_def]
    change (mapBlocks (kdif c k 2) (2 ^ 2) (2 ^ (l - 2)) x).length = _
    rw [length_mapBlocks (fun y hy => length_kdif c k hy) _ (by rw [whole hs, h]), whole hs]
  | 3, hs, x, h => by
    rw [nttfFrom.eq_def]
    change (mapBlocks (kdif c k 3) (2 ^ 3) (2 ^ (l - 3)) x).length = _
    rw [length_mapBlocks (fun y hy => length_kdif c k hy) _ (by rw [whole hs, h]), whole hs]

theorem length_nttf (tw : Nat → Nat) {l : Nat} {x : List Nat} (h : x.length = 2 ^ l) : (nttf c k tw l x).length = 2 ^ l := by
  rw [nttf]
  split
  · exact length_kdif c k h
  · exact length_nttfFrom c k tw l le_rfl x h

theorem length_nttiUpTo (tw : Nat → Nat) {l : Nat} : ∀ s ≤ l, ∀ x : List Nat, x.length = 2 ^ l →
    (nttiUpTo c k tw l s x).length = 2 ^ l
  | s + 4, hs, x, h => by
    rw [nttiUpTo, length_mapBlocks (fun y hy => length_r4dit c k tw (by omega) hy) _
      (by rw [whole hs, length_nttiUpTo tw (s + 2) (by omega) x h]), whole hs]
  | 0, hs, x, h => by
    rw [nttiUpTo.eq_def]
    change (mapBlocks (kdit c k 0) (2 ^ 0) (2 ^ (l - 0)) x).length = _
    rw [length_mapBlocks (fun y hy => length_kdit c k hy) _ (by rw [whole hs, h]), whole hs]
  | 1, hs, x, h => by
    rw [nttiUpTo.eq_def]
    change (mapBlocks (kdit c k 1) (2 ^ 1) (2 ^ (l - 1)) x).length = _
    rw [length_mapBlocks (fun y hy => length_kdit c k hy) _ (by rw [whole hs, h]), whole hs]
  | 2, hs, x, h => by
    rw [nttiUpTo.eq_def]
    change (mapBlocks (kdit c k 2) (2 ^ 2) (2 ^ (l - 2)) x).length = _
    rw [length_mapBlocks (fun y hy => length_kdit c k hy) _ (by rw [whole hs, h]), whole hs]
  | 3, hs, x, h => by
    rw [nttiUpTo.eq_def]
    change (mapBlocks (kdit c k 3) (2 ^ 3) (2 ^ (l - 3)) x).length = _
    rw [length_mapBlocks (fun y hy => length_kdit c k hy) _ (by rw [whole hs, h]), whole hs]

theorem length_ntti (tw : Nat → Nat) {l : Nat} {x : List Nat} (h : x.length = 2 ^ l) : (ntti c k tw l x).length = 2 ^ l := by
  rw [ntti]
  split
  · exact length_kdit c k h
  · exact length_nttiUpTo c k tw l le_rfl x h

theorem length_fwdr (tw : Nat → Nat) : ∀ {l : Nat} {x : List Nat}, x.length = 2 ^ l → (fwdr c k tw l x).length = 2 ^ l
  | 0, x, h => by rw [fwdr]; exact length_nttf c k tw h
  | 1, x, h => by rw [fwdr]; exact length_nttf c k tw h
  | l + 2, x, h => by
    rw [fwdr]
    split
    · exact length_nttf c k tw h
    · obtain ⟨h1, h2, h3⟩ := length_parts (length_split4 c k (by omega) h)
      simp only [List.length_append]
      rw [length_fwdr tw h1, length_fwdr tw h2, length_fwdr tw h3, pow_succ, pow_succ, pow_succ]
      ring

@[simp] theorem length_pointwise {x y : List Nat} {n : Nat} (hx : x.length = n) (hy : y.length = n) :
    (pointwise c k x y).length = n := by simp [pointwise, hx, hy]

@[simp] theorem length_canonical (x : List Nat) : (canonical c k x).length = x.length := by simp [canonical]

@[simp] theorem length_scaleBy (f : Nat) (x : List Nat) : (scaleBy c k f x).length = x.length := by simp [scaleBy]

@[simp] theorem length_finishConv (nf : Bool) (l : Nat) (x : List Nat) : (finishConv c k nf l x).length = x.length := by
  rw [finishConv]
  split <;> simp

/-- The second block of a variant of the convolution: none for `sq`. -/
def Variant.Second (v : Variant) (l : Nat) (y : List Nat) : Prop := v ≠ .sq → y.length = 2 ^ l

theorem length_convLeaf (v : Variant) (twf twi : Nat → Nat) {l : Nat} {x y : List Nat} (hx : x.length = 2 ^ l)
    (hy : v.Second l y) :
    (convLeaf c k v twf twi l x y).1.length = 2 ^ l ∧ (v ≠ .sq → (convLeaf c k v twf twi l x y).2.length = 2 ^ l) := by
  cases v <;> simp only [Variant.Second, convLeaf, ne_eq, reduceCtorEq, not_false_eq_true, forall_const, not_true_eq_false,
    false_implies, and_true] at hy ⊢
  · exact ⟨length_ntti c k twi (length_pointwise c k (length_nttf c k twf hx) (length_nttf c k twf hy)), length_nttf c k twf hy⟩
  · exact ⟨length_ntti c k twi (length_pointwise c k (length_nttf c k twf hx) hy), hy⟩
  · exact length_ntti c k twi (length_pointwise c k (length_nttf c k twf hx) (length_nttf c k twf hx))

theorem length_convr (v : Variant) (twf twi : Nat → Nat) : ∀ {l : Nat} {x y : List Nat}, x.length = 2 ^ l → v.Second l y →
    (convr c k v twf twi l x y).1.length = 2 ^ l ∧ (v ≠ .sq → (convr c k v twf twi l x y).2.length = 2 ^ l)
  | 0, x, y, hx, hy => by rw [convr]; exact length_convLeaf c k v twf twi hx hy
  | 1, x, y, hx, hy => by rw [convr]; exact length_convLeaf c k v twf twi hx hy
  | l + 2, x, y, hx, hy => by
    rw [convr.eq_def]
    dsimp only
    split
    · exact length_convLeaf c k v twf twi hx hy
    · obtain ⟨h1, h2, h3⟩ := length_parts (length_split4 c k (by omega) hx)
      have e : ∀ a b d : Nat, a = 2 ^ (l + 1) → b = 2 ^ l → d = 2 ^ l → a + b + d = 2 ^ (l + 2) := fun a b d ha hb hd => by
        rw [ha, hb, hd, pow_succ, pow_succ, pow_succ]
        ring
      have hs : ∀ y' : List Nat, (v ≠ .sq → y'.length = 2 ^ (l + 2)) → v.Second (l + 1) (firstHalf l y') ∧
          v.Second l (thirdQuarter l y') ∧ v.Second l (fourthQuarter l y') := fun y' hy' =>
        ⟨fun hv => (length_parts (hy' hv)).1, fun hv => (length_parts (hy' hv)).2.1, fun hv => (length_parts (hy' hv)).2.2⟩
      have hy2 : v ≠ .sq → (match v with
          | .two => split4 c k (l + 2) y
          | .one | .sq => y).length = 2 ^ (l + 2) := fun hv => by
        cases v
        · exact length_split4 c k (by omega) (hy hv)
        · exact hy hv
        · exact absurd rfl hv
      obtain ⟨s1, s2, s3⟩ := hs _ hy2
      obtain ⟨a1, b1⟩ := length_convr v twf twi h1 s1
      obtain ⟨a2, b2⟩ := length_convr v twf twi h2 s2
      obtain ⟨a3, b3⟩ := length_convr v twf twi h3 s3
      refine ⟨length_merge4 c k (by omega) ?_, fun hv => ?_⟩
      · simp only [List.length_append]
        exact e _ _ _ a1 a2 a3
      · simp only [List.length_append]
        exact e _ _ _ (b1 hv) (b2 hv) (b3 hv)

end Sys2Proof.Machine
end

