-- ==== Sys2Proof/Laws/PerInstr.lean ====
section
/-! SUPPORT. Facts of every command, one lemma for each constructor: its fields fit the bits they have, its opcode is in the map
with a format that uses no other field, and a well-formed command is built from its own fields (R70, R71, R75, R77). -/

namespace Sys2Proof.Laws

/-- The fields of a command fit their bits (R70). -/
def Fitting.Statement (i : Instr) : Prop := i.fields.Fit

/-- A well-formed command is built from its own fields, which its format admits (R71, R75, R77). -/
def Building.Statement (i : Instr) : Prop :=
  i.wellFormed = true →
    ∃ fm, formatOf i.fields.op = some fm ∧ fm.unusedAreZero i.fields = true ∧ build i.fields = .ok i

/-- The numbers of the operands are below the number of values their fields have. -/
theorem Fitting.of_lt {op m nf lg rd ra rb : Nat} (ho : op < 2 ^ 8) (hm : m < 2 ^ 2) (hn : nf < 2 ^ 1) (hl : lg < 2 ^ 6)
    (hd : rd < 2 ^ 4) (ha : ra < 2 ^ 4) (hb : rb < 2 ^ 4) : (Fields.mk op m nf 0 lg rd ra rb).Fit :=
  ⟨ho, hm, hn, by norm_num, hl, hd, ha, hb⟩

theorem Fitting.bool_lt (b : Bool) : b.toNat < 2 ^ 1 := Bool.toNat_lt b

theorem Fitting.nop : Fitting.Statement (.nop) :=
  of_lt (by norm_num) (by norm_num) (by norm_num) (by norm_num) (by norm_num) (by norm_num) (by norm_num)

theorem Fitting.mto (rd : Reg) (ra : Reg) (k : Modulus) : Fitting.Statement (.mto rd ra k) :=
  of_lt (by norm_num) k.idx_lt (by norm_num) (by norm_num) rd.isLt ra.isLt (by norm_num)

theorem Fitting.mfrom (rd : Reg) (ra : Reg) (k : Modulus) : Fitting.Statement (.mfrom rd ra k) :=
  of_lt (by norm_num) k.idx_lt (by norm_num) (by norm_num) rd.isLt ra.isLt (by norm_num)

theorem Fitting.mmul (rd : Reg) (ra : Reg) (rb : Reg) (k : Modulus) : Fitting.Statement (.mmul rd ra rb k) :=
  of_lt (by norm_num) k.idx_lt (by norm_num) (by norm_num) rd.isLt ra.isLt rb.isLt

theorem Fitting.madd (rd : Reg) (ra : Reg) (rb : Reg) (k : Modulus) : Fitting.Statement (.madd rd ra rb k) :=
  of_lt (by norm_num) k.idx_lt (by norm_num) (by norm_num) rd.isLt ra.isLt rb.isLt

theorem Fitting.msub (rd : Reg) (ra : Reg) (rb : Reg) (k : Modulus) : Fitting.Statement (.msub rd ra rb k) :=
  of_lt (by norm_num) k.idx_lt (by norm_num) (by norm_num) rd.isLt ra.isLt rb.isLt

theorem Fitting.mnorm (rd : Reg) (ra : Reg) (k : Modulus) : Fitting.Statement (.mnorm rd ra k) :=
  of_lt (by norm_num) k.idx_lt (by norm_num) (by norm_num) rd.isLt ra.isLt (by norm_num)

theorem Fitting.mpow (rd : Reg) (ra : Reg) (rb : Reg) (k : Modulus) : Fitting.Statement (.mpow rd ra rb k) :=
  of_lt (by norm_num) k.idx_lt (by norm_num) (by norm_num) rd.isLt ra.isLt rb.isLt

theorem Fitting.minv (rd : Reg) (ra : Reg) (k : Modulus) : Fitting.Statement (.minv rd ra k) :=
  of_lt (by norm_num) k.idx_lt (by norm_num) (by norm_num) rd.isLt ra.isLt (by norm_num)

theorem Fitting.lde (rd : Reg) (bank : Bank) (rb : Reg) : Fitting.Statement (.lde rd bank rb) :=
  of_lt (by norm_num) (by norm_num) (by norm_num) (by norm_num) rd.isLt bank.id_lt rb.isLt

theorem Fitting.ste (bank : Bank) (ra : Reg) (rb : Reg) : Fitting.Statement (.ste bank ra rb) :=
  of_lt (by norm_num) (by norm_num) (by norm_num) (by norm_num) bank.id_lt ra.isLt rb.isLt

theorem Fitting.twb (k : Modulus) (lg : Lg) : Fitting.Statement (.twb k lg) :=
  of_lt (by norm_num) k.idx_lt (by norm_num) lg.isLt (by norm_num) (by norm_num) (by norm_num)

theorem Fitting.kdif (bank : Bank) (ra : Reg) (k : Modulus) (lg : Lg) : Fitting.Statement (.kdif bank ra k lg) :=
  of_lt (by norm_num) k.idx_lt (by norm_num) lg.isLt bank.id_lt ra.isLt (by norm_num)

theorem Fitting.kdit (bank : Bank) (ra : Reg) (k : Modulus) (lg : Lg) : Fitting.Statement (.kdit bank ra k lg) :=
  of_lt (by norm_num) k.idx_lt (by norm_num) lg.isLt bank.id_lt ra.isLt (by norm_num)

theorem Fitting.r4dif (bank : Bank) (ra : Reg) (k : Modulus) (lg : Lg) : Fitting.Statement (.r4dif bank ra k lg) :=
  of_lt (by norm_num) k.idx_lt (by norm_num) lg.isLt bank.id_lt ra.isLt (by norm_num)

theorem Fitting.r4dit (bank : Bank) (ra : Reg) (k : Modulus) (lg : Lg) : Fitting.Statement (.r4dit bank ra k lg) :=
  of_lt (by norm_num) k.idx_lt (by norm_num) lg.isLt bank.id_lt ra.isLt (by norm_num)

theorem Fitting.nttf (bank : Bank) (ra : Reg) (k : Modulus) (lg : Lg) : Fitting.Statement (.nttf bank ra k lg) :=
  of_lt (by norm_num) k.idx_lt (by norm_num) lg.isLt bank.id_lt ra.isLt (by norm_num)

theorem Fitting.ntti (bank : Bank) (ra : Reg) (k : Modulus) (lg : Lg) : Fitting.Statement (.ntti bank ra k lg) :=
  of_lt (by norm_num) k.idx_lt (by norm_num) lg.isLt bank.id_lt ra.isLt (by norm_num)

theorem Fitting.pwmul (bankd : Bank) (banks : Bank) (rb : Reg) (k : Modulus) (lg : Lg) : Fitting.Statement (.pwmul bankd banks rb k lg) :=
  of_lt (by norm_num) k.idx_lt (by norm_num) lg.isLt bankd.id_lt banks.id_lt rb.isLt

theorem Fitting.pwsqr (bank : Bank) (ra : Reg) (k : Modulus) (lg : Lg) : Fitting.Statement (.pwsqr bank ra k lg) :=
  of_lt (by norm_num) k.idx_lt (by norm_num) lg.isLt bank.id_lt ra.isLt (by norm_num)

theorem Fitting.scl (bank : Bank) (ra : Reg) (rb : Reg) (k : Modulus) (lg : Lg) : Fitting.Statement (.scl bank ra rb k lg) :=
  of_lt (by norm_num) k.idx_lt (by norm_num) lg.isLt bank.id_lt ra.isLt rb.isLt

theorem Fitting.fwd (bank : Bank) (ra : Reg) (k : Modulus) (lg : Lg) : Fitting.Statement (.fwd bank ra k lg) :=
  of_lt (by norm_num) k.idx_lt (by norm_num) lg.isLt bank.id_lt ra.isLt (by norm_num)

theorem Fitting.cnv2 (bankd : Bank) (banks : Bank) (rb : Reg) (k : Modulus) (lg : Lg) (nf : Bool) : Fitting.Statement (.cnv2 bankd banks rb k lg nf) :=
  of_lt (by norm_num) k.idx_lt (bool_lt nf) lg.isLt bankd.id_lt banks.id_lt rb.isLt

theorem Fitting.cnv1 (bankd : Bank) (banks : Bank) (rb : Reg) (k : Modulus) (lg : Lg) (nf : Bool) : Fitting.Statement (.cnv1 bankd banks rb k lg nf) :=
  of_lt (by norm_num) k.idx_lt (bool_lt nf) lg.isLt bankd.id_lt banks.id_lt rb.isLt

theorem Fitting.cnvsq (bank : Bank) (ra : Reg) (k : Modulus) (lg : Lg) (nf : Bool) : Fitting.Statement (.cnvsq bank ra k lg nf) :=
  of_lt (by norm_num) k.idx_lt (bool_lt nf) lg.isLt bank.id_lt ra.isLt (by norm_num)

theorem Fitting.crt3 (ra : Reg) : Fitting.Statement (.crt3 ra) :=
  of_lt (by norm_num) (by norm_num) (by norm_num) (by norm_num) (by norm_num) ra.isLt (by norm_num)

theorem Fitting.cacc : Fitting.Statement (.cacc) :=
  of_lt (by norm_num) (by norm_num) (by norm_num) (by norm_num) (by norm_num) (by norm_num) (by norm_num)

theorem Fitting.cemit (rd : Reg) : Fitting.Statement (.cemit rd) :=
  of_lt (by norm_num) (by norm_num) (by norm_num) (by norm_num) rd.isLt (by norm_num) (by norm_num)

theorem Fitting.cclr : Fitting.Statement (.cclr) :=
  of_lt (by norm_num) (by norm_num) (by norm_num) (by norm_num) (by norm_num) (by norm_num) (by norm_num)

theorem Fitting.crtc : Fitting.Statement (.crtc) :=
  of_lt (by norm_num) (by norm_num) (by norm_num) (by norm_num) (by norm_num) (by norm_num) (by norm_num)

theorem Fitting.ldm (bank : Bank) (src : Bank) (k : Modulus) (lg : Lg) : Fitting.Statement (.ldm bank src k lg) :=
  of_lt (by norm_num) k.idx_lt (by norm_num) lg.isLt bank.id_lt src.id_lt (by norm_num)

theorem Fitting.mul : Fitting.Statement (.mul) :=
  of_lt (by norm_num) (by norm_num) (by norm_num) (by norm_num) (by norm_num) (by norm_num) (by norm_num)

theorem Fitting.sqr : Fitting.Statement (.sqr) :=
  of_lt (by norm_num) (by norm_num) (by norm_num) (by norm_num) (by norm_num) (by norm_num) (by norm_num)

/-! ### What the builders make of the numbers of the operands -/

theorem Building.transform {b : Bank} (h : b.isTransform = true) : transformOf b.id = .ok b := bankWhere_id h

theorem Building.s2 (op : Nat) (k : Modulus) (rd ra : Reg) (rb : Nat) (mk : Reg → Reg → Modulus → Instr) :
    buildS2 (.s op k rd ra rb) mk = .ok (mk rd ra k) := by
  simp only [buildS2, Fields.s, modulusOf_idx, regOf_val]
  rfl

theorem Building.s3 (op : Nat) (k : Modulus) (rd ra rb : Reg) (mk : Reg → Reg → Reg → Modulus → Instr) :
    buildS3 (.s op k rd ra rb) mk = .ok (mk rd ra rb k) := by
  simp only [buildS3, Fields.s, modulusOf_idx, regOf_val]
  rfl

theorem Building.b1 {b : Bank} (h : b.isTransform = true) (op : Nat) (k : Modulus) (nf : Bool) (lg : Lg) (ra : Reg) (rb : Nat)
    (mk : Bank → Reg → Modulus → Lg → Instr) : buildB1 (.b op k nf lg b.id ra rb) mk = .ok (mk b ra k lg) := by
  simp only [buildB1, Fields.b, modulusOf_idx, regOf_val, lgOf_val, transform h]
  rfl

theorem Building.b2 {d b : Bank} (h : (d.isTransform && b.isTransform) = true) (op : Nat) (k : Modulus) (nf : Bool) (lg : Lg)
    (rb : Reg) (mk : Bank → Bank → Reg → Modulus → Lg → Instr) :
    buildB2 (.b op k nf lg d.id b.id rb) mk = .ok (mk d b rb k lg) := by
  rw [Bool.and_eq_true] at h
  simp only [buildB2, Fields.b, modulusOf_idx, regOf_val, lgOf_val, transform h.1, transform h.2]
  rfl

theorem Building.nop : Building.Statement (.nop) := fun _ =>
  ⟨.z, rfl, rfl, rfl⟩

theorem Building.mto (rd : Reg) (ra : Reg) (k : Modulus) : Building.Statement (.mto rd ra k) := fun _ =>
  ⟨.s2, rfl, rfl, s2 ..⟩

theorem Building.mfrom (rd : Reg) (ra : Reg) (k : Modulus) : Building.Statement (.mfrom rd ra k) := fun _ =>
  ⟨.s2, rfl, rfl, s2 ..⟩

theorem Building.mmul (rd : Reg) (ra : Reg) (rb : Reg) (k : Modulus) : Building.Statement (.mmul rd ra rb k) := fun _ =>
  ⟨.s3, rfl, rfl, s3 ..⟩

theorem Building.madd (rd : Reg) (ra : Reg) (rb : Reg) (k : Modulus) : Building.Statement (.madd rd ra rb k) := fun _ =>
  ⟨.s3, rfl, rfl, s3 ..⟩

theorem Building.msub (rd : Reg) (ra : Reg) (rb : Reg) (k : Modulus) : Building.Statement (.msub rd ra rb k) := fun _ =>
  ⟨.s3, rfl, rfl, s3 ..⟩

theorem Building.mnorm (rd : Reg) (ra : Reg) (k : Modulus) : Building.Statement (.mnorm rd ra k) := fun _ =>
  ⟨.s2, rfl, rfl, s2 ..⟩

theorem Building.mpow (rd : Reg) (ra : Reg) (rb : Reg) (k : Modulus) : Building.Statement (.mpow rd ra rb k) := fun _ =>
  ⟨.s3, rfl, rfl, s3 ..⟩

theorem Building.minv (rd : Reg) (ra : Reg) (k : Modulus) : Building.Statement (.minv rd ra k) := fun _ =>
  ⟨.s2, rfl, rfl, s2 ..⟩

theorem Building.lde (rd : Reg) (bank : Bank) (rb : Reg) : Building.Statement (.lde rd bank rb) := fun _ =>
  ⟨.el, rfl, rfl, by
    simp only [build, Instr.fields, bankWhere_id (allowed := fun _ => true) rfl, regOf_val]
    rfl⟩

theorem Building.ste (bank : Bank) (ra : Reg) (rb : Reg) : Building.Statement (.ste bank ra rb) := fun h =>
  ⟨.es, rfl, rfl, by
    simp only [build, Instr.fields, bankWhere_id (allowed := fun b => !b.isInput) h, regOf_val]
    rfl⟩

theorem Building.twb (k : Modulus) (lg : Lg) : Building.Statement (.twb k lg) := fun _ =>
  ⟨.t, rfl, rfl, by
    simp only [build, Instr.fields, Fields.b, modulusOf_idx, lgOf_val]
    rfl⟩

theorem Building.kdif (bank : Bank) (ra : Reg) (k : Modulus) (lg : Lg) : Building.Statement (.kdif bank ra k lg) := fun h =>
  ⟨.b1, rfl, rfl, b1 h ..⟩

theorem Building.kdit (bank : Bank) (ra : Reg) (k : Modulus) (lg : Lg) : Building.Statement (.kdit bank ra k lg) := fun h =>
  ⟨.b1, rfl, rfl, b1 h ..⟩

theorem Building.r4dif (bank : Bank) (ra : Reg) (k : Modulus) (lg : Lg) : Building.Statement (.r4dif bank ra k lg) := fun h =>
  ⟨.b1, rfl, rfl, b1 h ..⟩

theorem Building.r4dit (bank : Bank) (ra : Reg) (k : Modulus) (lg : Lg) : Building.Statement (.r4dit bank ra k lg) := fun h =>
  ⟨.b1, rfl, rfl, b1 h ..⟩

theorem Building.nttf (bank : Bank) (ra : Reg) (k : Modulus) (lg : Lg) : Building.Statement (.nttf bank ra k lg) := fun h =>
  ⟨.b1, rfl, rfl, b1 h ..⟩

theorem Building.ntti (bank : Bank) (ra : Reg) (k : Modulus) (lg : Lg) : Building.Statement (.ntti bank ra k lg) := fun h =>
  ⟨.b1, rfl, rfl, b1 h ..⟩

theorem Building.pwmul (bankd : Bank) (banks : Bank) (rb : Reg) (k : Modulus) (lg : Lg) : Building.Statement (.pwmul bankd banks rb k lg) := fun h =>
  ⟨.b2, rfl, rfl, b2 h ..⟩

theorem Building.pwsqr (bank : Bank) (ra : Reg) (k : Modulus) (lg : Lg) : Building.Statement (.pwsqr bank ra k lg) := fun h =>
  ⟨.b1, rfl, rfl, b1 h ..⟩

theorem Building.scl (bank : Bank) (ra : Reg) (rb : Reg) (k : Modulus) (lg : Lg) : Building.Statement (.scl bank ra rb k lg) := fun h =>
  ⟨.b1s, rfl, rfl, by
    simp only [build, Instr.fields, Fields.b, buildB1, modulusOf_idx, regOf_val, lgOf_val, transform h]
    rfl⟩

theorem Building.fwd (bank : Bank) (ra : Reg) (k : Modulus) (lg : Lg) : Building.Statement (.fwd bank ra k lg) := fun h =>
  ⟨.b1, rfl, rfl, b1 h ..⟩

theorem Building.cnv2 (bankd : Bank) (banks : Bank) (rb : Reg) (k : Modulus) (lg : Lg) (nf : Bool) : Building.Statement (.cnv2 bankd banks rb k lg nf) := fun h =>
  ⟨.b2n, rfl, rfl, by
    rw [Instr.wellFormed, Bool.and_eq_true] at h
    simp only [build, Instr.fields, Fields.b, buildB2, modulusOf_idx, regOf_val, lgOf_val, flagOf_toNat, transform h.1,
      transform h.2]
    rfl⟩

theorem Building.cnv1 (bankd : Bank) (banks : Bank) (rb : Reg) (k : Modulus) (lg : Lg) (nf : Bool) : Building.Statement (.cnv1 bankd banks rb k lg nf) := fun h =>
  ⟨.b2n, rfl, rfl, by
    rw [Instr.wellFormed, Bool.and_eq_true] at h
    simp only [build, Instr.fields, Fields.b, buildB2, modulusOf_idx, regOf_val, lgOf_val, flagOf_toNat, transform h.1,
      transform h.2]
    rfl⟩

theorem Building.cnvsq (bank : Bank) (ra : Reg) (k : Modulus) (lg : Lg) (nf : Bool) : Building.Statement (.cnvsq bank ra k lg nf) := fun h =>
  ⟨.b1n, rfl, rfl, by
    simp only [build, Instr.fields, Fields.b, buildB1, modulusOf_idx, regOf_val, lgOf_val, flagOf_toNat, transform h]
    rfl⟩

theorem Building.crt3 (ra : Reg) : Building.Statement (.crt3 ra) := fun h =>
  ⟨.sa, rfl, rfl, by
    simp only [Instr.wellFormed, decide_eq_true_eq] at h
    simp only [build, Instr.fields, if_pos h, regOf_val]⟩

theorem Building.cacc : Building.Statement (.cacc) := fun _ =>
  ⟨.z, rfl, rfl, rfl⟩

theorem Building.cemit (rd : Reg) : Building.Statement (.cemit rd) := fun _ =>
  ⟨.sd, rfl, rfl, by simp only [build, Instr.fields, regOf_val]⟩

theorem Building.cclr : Building.Statement (.cclr) := fun _ =>
  ⟨.z, rfl, rfl, rfl⟩

theorem Building.crtc : Building.Statement (.crtc) := fun _ =>
  ⟨.z, rfl, rfl, rfl⟩

theorem Building.ldm (bank : Bank) (src : Bank) (k : Modulus) (lg : Lg) : Building.Statement (.ldm bank src k lg) := fun h =>
  ⟨.ld, rfl, rfl, by
    rw [Instr.wellFormed, Bool.and_eq_true] at h
    simp only [build, Instr.fields, Fields.b, modulusOf_idx, lgOf_val, transform h.1, bankWhere_id h.2]
    rfl⟩

theorem Building.mul : Building.Statement (.mul) := fun _ =>
  ⟨.z, rfl, rfl, rfl⟩

theorem Building.sqr : Building.Statement (.sqr) := fun _ =>
  ⟨.z, rfl, rfl, rfl⟩

end Sys2Proof.Laws
end

