-- ==== Sys2Proof/Laws/Product.lean ====
section
/-! SUPPORT. The products of `MUL` and `SQR` (R249 to R254): the linear convolution as a product of limb sequences and its bound,
the coefficients that the channels carry, and the three modulus passes together. -/

namespace Sys2Proof.Machine

/-! ### The linear convolution -/

/-- A sum of n limbs is below `2^(64n)` (R12). -/
theorem sum_limbs_lt {a : Nat → Nat} (ha : ∀ j, a j < 2 ^ 64) (n : Nat) :
    ∑ j ∈ Finset.range n, a j * 2 ^ (64 * j) < 2 ^ (64 * n) := by
  induction n with
  | zero => simp
  | succ n ih =>
    rw [Finset.sum_range_succ]
    calc _ < 2 ^ (64 * n) + a n * 2 ^ (64 * n) := by omega
      _ = (a n + 1) * 2 ^ (64 * n) := by ring
      _ ≤ 2 ^ 64 * 2 ^ (64 * n) := Nat.mul_le_mul_right _ (ha n)
      _ = _ := by ring

/-- The limbs of a value, and what stands above them, are determined by the value. -/
theorem limbs_unique {a b : Nat → Nat} (ha : ∀ j, a j < 2 ^ 64) (hb : ∀ j, b j < 2 ^ 64) (n : Nat) {x y : Nat}
    (h : ∑ i ∈ Finset.range n, a i * 2 ^ (64 * i) + x * 2 ^ (64 * n)
      = ∑ i ∈ Finset.range n, b i * 2 ^ (64 * i) + y * 2 ^ (64 * n)) : (∀ i < n, a i = b i) ∧ x = y := by
  induction n generalizing x y with
  | zero => exact ⟨fun i hi => absurd hi (Nat.not_lt_zero i), by simpa using h⟩
  | succ n ih =>
    rw [Finset.sum_range_succ, Finset.sum_range_succ, show 64 * (n + 1) = 64 + 64 * n by ring, pow_add] at h
    obtain ⟨h1, h2⟩ := ih (x := a n + x * 2 ^ 64) (y := b n + y * 2 ^ 64) (by linarith)
    have := ha n
    have := hb n
    refine ⟨fun i hi => ?_, by omega⟩
    rcases Nat.lt_succ_iff_lt_or_eq.1 hi with h | rfl
    · exact h1 i h
    · omega

theorem linear_congr {n1 n2 : Nat} {a a' b b' : Nat → Nat} (ha : ∀ j < n1, a j = a' j) (hb : ∀ j < n2, b j = b' j) (i : Nat) :
    linear n1 n2 a b i = linear n1 n2 a' b' i := by
  refine Finset.sum_congr rfl fun j hj => ?_
  rw [ha j (Finset.mem_range.1 hj)]
  by_cases h : j ≤ i ∧ i - j < n2
  · rw [if_pos h, if_pos h, hb _ h.2]
  · rw [if_neg h, if_neg h]

/-- The coefficients of the product have the value of the product (R254). -/
theorem sum_linear {n1 n2 : Nat} (a b : Nat → Nat) (x : Nat) :
    ∑ i ∈ Finset.range (n1 + n2 - 1), linear n1 n2 a b i * x ^ i
      = (∑ j ∈ Finset.range n1, a j * x ^ j) * ∑ j ∈ Finset.range n2, b j * x ^ j := by
  simp only [linear, Finset.sum_mul]
  rw [Finset.sum_comm]
  refine Finset.sum_congr rfl fun j hj => ?_
  rw [Finset.mem_range] at hj
  rw [Finset.mul_sum]
  have hs : Finset.image (j + ·) (Finset.range n2) ⊆ Finset.range (n1 + n2 - 1) := by
    intro i hi
    obtain ⟨m, hm, rfl⟩ := Finset.mem_image.1 hi
    rw [Finset.mem_range] at *
    omega
  rw [← Finset.sum_subset hs, Finset.sum_image fun _ _ _ _ h => Nat.add_left_cancel h]
  · refine Finset.sum_congr rfl fun m hm => ?_
    rw [Finset.mem_range] at hm
    rw [if_pos (by omega), Nat.add_sub_cancel_left, pow_add]
    ring
  · intro i _ hi
    rw [if_neg, Nat.zero_mul]
    rintro ⟨h, h'⟩
    exact hi (Finset.mem_image.2 ⟨i - j, Finset.mem_range.2 h', by omega⟩)

/-- A coefficient has at most `min(n1, n2)` terms (R254). -/
theorem linear_le {n1 n2 M : Nat} {a b : Nat → Nat} (ha : ∀ j, a j ≤ M) (hb : ∀ j, b j ≤ M) (i : Nat) :
    linear n1 n2 a b i ≤ min n1 n2 * M ^ 2 := by
  rw [linear, ← Finset.sum_filter]
  refine (Finset.sum_le_card_nsmul _ _ (M ^ 2) fun j _ => ?_).trans ?_
  · rw [pow_two]
    exact Nat.mul_le_mul (ha j) (hb _)
  · rw [smul_eq_mul]
    refine Nat.mul_le_mul_right _ (le_min ?_ ?_)
    · exact (Finset.card_filter_le _ _).trans (Finset.card_range n1).le
    · refine (Finset.card_le_card_of_injOn (t := Finset.range n2) (fun j => i - j) ?_ ?_).trans (Finset.card_range n2).le
      · intro j hj
        simp only [Finset.coe_filter, Set.mem_ofPred_eq] at hj
        simpa using hj.2.2
      · intro j hj j' hj' h
        simp only [Finset.coe_filter, Set.mem_ofPred_eq] at hj hj'
        simp only at h
        omega

/-- The last coefficient is the product of the two top limbs. -/
theorem linear_last {n1 n2 : Nat} (a b : Nat → Nat) (h1 : n1 ≠ 0) (h2 : n2 ≠ 0) :
    linear n1 n2 a b (n1 + n2 - 2) = a (n1 - 1) * b (n2 - 1) := by
  rw [linear, Finset.sum_eq_single (n1 - 1)]
  · rw [if_pos (by omega), show n1 + n2 - 2 - (n1 - 1) = n2 - 1 by omega]
  · intro j hj hne
    rw [Finset.mem_range] at hj
    exact if_neg (by omega)
  · intro h
    exact absurd (Finset.mem_range.2 (by omega)) h

/-- Under R7 (e) every coefficient of a product that fits the block is below `PPP` (R254). -/
theorem linear_lt_ppp {c : Config} {n1 n2 : Nat} {a b : Nat → Nat} (hc : c.ProductBound) (ha : ∀ j, a j < 2 ^ 64)
    (hb : ∀ j, b j < 2 ^ 64) (hn : n1 + n2 - 1 ≤ c.ncap) (i : Nat) :
    linear n1 n2 a b i < c.ppp := by
  refine (linear_le (M := 2 ^ 64 - 1) (fun j => by have := ha j; omega) (fun j => by have := hb j; omega) i).trans_lt
    (lt_of_le_of_lt (Nat.mul_le_mul_right _ ?_) hc)
  rw [Config.ncap] at *
  cases h : c.logNcap with
  | zero => rw [h] at hn; omega
  | succ m => rw [h, pow_succ] at hn; rw [pow_succ]; omega

/-- The exponent of a product that fits its bank is a legal transform exponent (R6, R247). -/
theorem IsLeastLog.le_nmax {c : Config} {n l : Nat} (h : IsLeastLog n l) (hn : n ≤ c.ncap) : l ≤ c.logNmax :=
  (h.2 _ hn).trans c.ncap_le_nmax

namespace State

variable (s : State)

/-! ### The coefficients of the channels -/

/-- The channels' words determine the coefficients that `CRTC` reconstructs. -/
theorem coefficient_eq_of_channels {s t : State} (hc : t.cfg = s.cfg) {i : Nat}
    (h : ∀ k, t.wordAt (channel k) i = s.wordAt (channel k) i) : t.coefficient i = s.coefficient i :=
  coefficient_congr hc fun k => BitVec.eq_of_toNat_eq (h k)

/-- Channels that hold the residues of an integer below `PPP` give that integer (R224). -/
theorem coefficient_of_residues {i n : Nat} (hn : n < s.cfg.ppp)
    (h : ∀ k, s.wordAt (channel k) i = n * 2 ^ 64 % s.cfg.p k) : s.coefficient i = n := by
  refine eq_of_residues s.cfg (s.coefficient_lt i) hn fun k => ?_
  rw [coefficient_cast, h k, s.cfg.cast_mod, Nat.cast_mul, Nat.cast_pow, Nat.cast_ofNat, mul_assoc, s.cfg.radix_mul_ri, mul_one]

/-! ### Three passes -/

theorem not_channel {b : Bank} {k : Modulus} {P : Prop} (h : ¬ ((b = .ch0 ∨ b = .ch1 ∨ b = .ch2) ∧ P)) :
    ¬ (b = channel k ∧ P) := fun e => h ⟨by cases k <;> simp [e.1, channel], e.2⟩

/-- Everything the three passes of `MUL` do (R249, R250, R253). -/
theorem mulPasses_spec {l : Nat} (hl : l ≤ s.cfg.logNmax) (h1 : s.len1.toNat ≠ 0) (h2 : s.len2.toNat ≠ 0)
    (hn : s.len1.toNat + s.len2.toNat - 1 ≤ 2 ^ l) :
    ∃ t, ((s.mulPass .m0 l).mulPass .m1 l).mulPass .m2 l = t ∧
      t = { s with banks := t.banks, twcfg := ⟨.m2, s.tableExp l, true⟩ } ∧
      (∀ k, ∀ i < 2 ^ l, t.wordAt (channel k) i
        = linear s.len1.toNat s.len2.toNat (s.wordAt .ina) (s.wordAt .inb) i * 2 ^ 64 % s.cfg.p k) ∧
      (∀ m < 2 ^ l, t.wordAt .scr (brev l m)
        = dft s.cfg .m2 l (pad s.len2.toNat fun j => s.cfg.mont .m2 (s.wordAt .inb j)) m) ∧
      t.TableUpTo .m2 (min l s.cfg.logThresh) ∧
      ∀ b i, ¬ ((b = .ch0 ∨ b = .ch1 ∨ b = .ch2 ∨ b = .scr) ∧ i < 2 ^ l) →
        ¬ ((b = .twf ∨ b = .twi) ∧ i < 2 ^ min l s.cfg.logThresh) → t.bankRead b i = s.bankRead b i := by
  obtain ⟨s1, e1, ⟨a1, b1, _⟩, d1, _⟩ := s.mulPass_spec (k := .m0) hl h1 h2 hn
  have cf1 : s1.cfg = s.cfg := by rw [a1]
  have l1 : s1.len1 = s.len1 := by rw [a1]
  have m1 : s1.len2 = s.len2 := by rw [a1]
  obtain ⟨s2, e2, ⟨a2, b2, _⟩, d2, _⟩ := s1.mulPass_spec (k := .m1) (l := l) (by rw [cf1]; exact hl) (by rw [l1]; exact h1)
    (by rw [m1]; exact h2) (by rw [l1, m1]; exact hn)
  have cf2 : s2.cfg = s.cfg := by rw [a2, cf1]
  have l2 : s2.len1 = s.len1 := by rw [a2, l1]
  have m2 : s2.len2 = s.len2 := by rw [a2, m1]
  obtain ⟨s3, e3, ⟨a3, b3, c3⟩, d3, f3⟩ := s2.mulPass_spec (k := .m2) (l := l) (by rw [cf2]; exact hl)
    (by rw [l2]; exact h1) (by rw [m2]; exact h2) (by rw [l2, m2]; exact hn)
  rw [cf1] at b2 d2
  rw [cf2] at b3 c3 d3 f3
  have ina1 : s1.wordAt .ina = s.wordAt .ina := funext fun j => by rw [wordAt, wordAt, b1 _ _ (by simp [channel]) (by simp)]
  have inb1 : s1.wordAt .inb = s.wordAt .inb := funext fun j => by rw [wordAt, wordAt, b1 _ _ (by simp [channel]) (by simp)]
  have ina2 : s2.wordAt .ina = s.wordAt .ina := by
    rw [← ina1]
    exact funext fun j => by rw [wordAt, wordAt, b2 _ _ (by simp [channel]) (by simp)]
  have inb2 : s2.wordAt .inb = s.wordAt .inb := by
    rw [← inb1]
    exact funext fun j => by rw [wordAt, wordAt, b2 _ _ (by simp [channel]) (by simp)]
  rw [ina1, inb1, l1, m1] at d2
  rw [ina2, inb2, l2, m2] at d3
  rw [inb2, m2] at f3
  refine ⟨s3, by rw [e1, e2, e3], ?_, ?_, f3, c3, fun b i hb ht => ?_⟩
  · rw [a3, a2, a1]
    rfl
  · intro k i hi
    cases k
    · rw [wordAt, b3 _ _ (by simp [channel]) (by simp [channel]), b2 _ _ (by simp [channel]) (by simp [channel])]
      exact d1 i hi
    · rw [wordAt, b3 _ _ (by simp [channel]) (by simp [channel])]
      exact d2 i hi
    · exact d3 i hi
  · rw [b3 b i _ ht, b2 b i _ ht, b1 b i _ ht]
    all_goals
      rintro ⟨h | h, h'⟩ <;> exact hb ⟨by subst h; simp [channel], h'⟩

/-- Everything the three passes of `SQR` do (R249, R251, R253). -/
theorem sqrPasses_spec {l : Nat} (hl : l ≤ s.cfg.logNmax) (h1 : s.len1.toNat ≠ 0) (hn : 2 * s.len1.toNat - 1 ≤ 2 ^ l) :
    ∃ t, ((s.sqrPass .m0 l).sqrPass .m1 l).sqrPass .m2 l = t ∧
      t = { s with banks := t.banks, twcfg := ⟨.m2, s.tableExp l, true⟩ } ∧
      (∀ k, ∀ i < 2 ^ l, t.wordAt (channel k) i
        = linear s.len1.toNat s.len1.toNat (s.wordAt .ina) (s.wordAt .ina) i * 2 ^ 64 % s.cfg.p k) ∧
      t.TableUpTo .m2 (min l s.cfg.logThresh) ∧
      ∀ b i, ¬ ((b = .ch0 ∨ b = .ch1 ∨ b = .ch2) ∧ i < 2 ^ l) →
        ¬ ((b = .twf ∨ b = .twi) ∧ i < 2 ^ min l s.cfg.logThresh) → t.bankRead b i = s.bankRead b i := by
  obtain ⟨s1, e1, ⟨a1, b1, _⟩, d1⟩ := s.sqrPass_spec (k := .m0) hl h1 hn
  have cf1 : s1.cfg = s.cfg := by rw [a1]
  have l1 : s1.len1 = s.len1 := by rw [a1]
  obtain ⟨s2, e2, ⟨a2, b2, _⟩, d2⟩ := s1.sqrPass_spec (k := .m1) (l := l) (by rw [cf1]; exact hl) (by rw [l1]; exact h1)
    (by rw [l1]; exact hn)
  have cf2 : s2.cfg = s.cfg := by rw [a2, cf1]
  have l2 : s2.len1 = s.len1 := by rw [a2, l1]
  obtain ⟨s3, e3, ⟨a3, b3, c3⟩, d3⟩ := s2.sqrPass_spec (k := .m2) (l := l) (by rw [cf2]; exact hl) (by rw [l2]; exact h1)
    (by rw [l2]; exact hn)
  rw [cf1] at b2 d2
  rw [cf2] at b3 c3 d3
  have ina1 : s1.wordAt .ina = s.wordAt .ina := funext fun j => by rw [wordAt, wordAt, b1 _ _ (by simp [channel]) (by simp)]
  have ina2 : s2.wordAt .ina = s.wordAt .ina := by
    rw [← ina1]
    exact funext fun j => by rw [wordAt, wordAt, b2 _ _ (by simp [channel]) (by simp)]
  rw [ina1, l1] at d2
  rw [ina2, l2] at d3
  refine ⟨s3, by rw [e1, e2, e3], ?_, ?_, c3, fun b i hb ht => ?_⟩
  · rw [a3, a2, a1]
    rfl
  · intro k i hi
    cases k
    · rw [wordAt, b3 _ _ (by simp [channel]) (by simp [channel]), b2 _ _ (by simp [channel]) (by simp [channel])]
      exact d1 i hi
    · rw [wordAt, b3 _ _ (by simp [channel]) (by simp [channel])]
      exact d2 i hi
    · exact d3 i hi
  · rw [b3 b i (not_channel hb) ht, b2 b i (not_channel hb) ht, b1 b i (not_channel hb) ht]

/-! ### What `CRTC` makes of the channels -/

/-- `CRTC` leaves words and registers that the coefficients alone determine. -/
theorem reconstruct_congr {s t : State} {n : Nat} (hn : n ≠ 0) (h : ∀ i < n, t.coefficient i = s.coefficient i) :
    (∀ i ≤ n, (t.reconstruct n).bankRead .out i = (s.reconstruct n).bankRead .out i) ∧
    (t.reconstruct n).v = (s.reconstruct n).v ∧ (t.reconstruct n).acc = (s.reconstruct n).acc := by
  obtain ⟨u, hu, e, _, g⟩ := s.reconstruct_spec n hn
  obtain ⟨u', hu', e', _, g'⟩ := t.reconstruct_spec n hn
  rw [hu, hu']
  rw [Finset.sum_congr rfl fun i hi => by rw [h i (Finset.mem_range.1 hi)], ← g] at g'
  obtain ⟨k1, k2⟩ := limbs_unique (fun _ => BitVec.isLt _) (fun _ => BitVec.isLt _) _ g'
  refine ⟨fun i hi => BitVec.eq_of_toNat_eq (k1 i (by omega)), ?_, Wide.ext_val k2⟩
  rw [e, e']
  simp only [h (n - 1) (by omega)]

/-- Channels that hold the linear convolution of two limb sequences give the exact product, with nothing left in `ACC`
(R225, R254). -/
theorem reconstruct_product {n1 n2 : Nat} {a b : Nat → Nat} (hc : s.cfg.ProductBound) (ha : ∀ j, a j < 2 ^ 64)
    (hb : ∀ j, b j < 2 ^ 64) (h1 : n1 ≠ 0) (h2 : n2 ≠ 0) (hn : n1 + n2 - 1 ≤ s.cfg.ncap)
    (hw : ∀ k, ∀ i < n1 + n2 - 1, s.wordAt (channel k) i = linear n1 n2 a b i * 2 ^ 64 % s.cfg.p k) :
    ∃ u, s.reconstruct (n1 + n2 - 1) = u ∧ u.olen.toNat = n1 + n2 ∧
      u.limbValue .out (n1 + n2)
        = (∑ j ∈ Finset.range n1, a j * 2 ^ (64 * j)) * ∑ j ∈ Finset.range n2, b j * 2 ^ (64 * j) ∧
      u.v.val = a (n1 - 1) * b (n2 - 1) ∧ u.acc = ⟨0, 0, 0⟩ := by
  obtain ⟨u, hu, e, _, g⟩ := s.reconstruct_spec (n1 + n2 - 1) (by omega)
  have co : ∀ i < n1 + n2 - 1, s.coefficient i = linear n1 n2 a b i := fun i hi =>
    s.coefficient_of_residues (linear_lt_ppp hc ha hb hn i) fun k => hw k i hi
  have hs := sum_linear (n1 := n1) (n2 := n2) a b (2 ^ 64)
  simp only [← pow_mul] at hs
  have hlen : n1 + n2 - 1 + 1 = n1 + n2 := by omega
  rw [Finset.sum_congr rfl fun i hi => by rw [co i (Finset.mem_range.1 hi)], hs, hlen] at g
  have hz : u.acc.val = 0 := by
    have hp := Nat.mul_lt_mul'' (sum_limbs_lt ha n1) (sum_limbs_lt hb n2)
    rw [← pow_add, ← Nat.mul_add] at hp
    by_contra hne
    have : 2 ^ (64 * (n1 + n2)) ≤ u.acc.val * 2 ^ (64 * (n1 + n2)) := Nat.le_mul_of_pos_left _ (by omega)
    omega
  refine ⟨u, hu, ?_, ?_, ?_, Wide.ext_val hz⟩
  · have := s.cfg.ncap_le
    rw [e, hlen]
    exact (BitVec.toNat_ofNat ..).trans (Nat.mod_eq_of_lt (by omega))
  · rw [hz] at g
    simpa using g
  · have := ppp_lt s.cfg
    rw [e]
    change (Wide.ofNat _).val = _
    rw [Wide.val_ofNat ((s.coefficient_lt _).trans (by omega)), co _ (by omega), show n1 + n2 - 1 - 1 = n1 + n2 - 2 by omega,
      linear_last _ _ h1 h2]

/-! ### Where `MUL` and `SQR` complete -/

theorem firstFault_orchChecks {n1 n2 : Nat} (h1 : n1 ≠ 0) (h2 : n2 ≠ 0) (h : n1 + n2 - 1 ≤ s.cfg.ncap) :
    firstFault (s.orchChecks n1 n2) = none := by
  rw [orchChecks, firstFault_cons, if_neg (by simp [h1, h2]), firstFault_pass (by omega), firstFault_nil]

/-- `MUL` past its checks is its three passes and `CRTC` (R250). -/
theorem execMul_eq {l : Nat} (h1 : s.len1.toNat ≠ 0) (h2 : s.len2.toNat ≠ 0)
    (h : s.len1.toNat + s.len2.toNat - 1 ≤ s.cfg.ncap) (hl : IsLeastLog (s.len1.toNat + s.len2.toNat - 1) l) :
    execMul s = .next (((((s.setLengths (s.len1.toNat + s.len2.toNat - 1)).mulPass .m0 l).mulPass .m1 l).mulPass .m2 l).reconstruct
      (s.len1.toNat + s.len2.toNat - 1)).complete := by
  rw [execMul, command_of_pass (s.firstFault_orchChecks h1 h2 h), hl.eq_clog2]

/-- `SQR` past its checks is its three passes and `CRTC` (R251). -/
theorem execSqr_eq {l : Nat} (h1 : s.len1.toNat ≠ 0) (h : 2 * s.len1.toNat - 1 ≤ s.cfg.ncap)
    (hl : IsLeastLog (2 * s.len1.toNat - 1) l) :
    execSqr s = .next (((((s.setLengths (2 * s.len1.toNat - 1)).sqrPass .m0 l).sqrPass .m1 l).sqrPass .m2 l).reconstruct
      (2 * s.len1.toNat - 1)).complete := by
  rw [execSqr, command_of_pass (s.firstFault_orchChecks h1 h1 (by omega)), hl.eq_clog2]

end State

end Sys2Proof.Machine
end

