-- ==== Sys2Proof/Laws/Step.lean ====
section
/-! SUPPORT. The laws of a step: what each move of the host does in an idle block (R58), and what a write of `CMD` does (R31, R276). -/

namespace Sys2Proof.Machine

theorem step_nil {s : State} (h : s.host = []) : step s = .next s := by rw [step, h]

theorem step_cons {s : State} {m : HostMove} {rest : List HostMove} (h : s.host = m :: rest) :
    step s = ({ s with host := rest } : State).hostMove m := by rw [step, h]

namespace State

variable {s : State}

theorem hostMove_writeCmd (hb : s.status.busy = false) (v : Word) : s.hostMove (.writeReg 0 v) = s.issue v := by
  rw [hostMove.eq_def, hb, Bool.false_and, if_neg (by simp)]
  rfl

theorem hostMove_writeReg (hb : s.status.busy = false) {idx : BitVec 7} (hi : idx ≠ 0) (v : Word) :
    s.hostMove (.writeReg idx v) = .next (s.regWrite idx v) := by
  rw [hostMove.eq_def, hb, Bool.false_and, if_neg (by simp)]
  exact if_neg hi

theorem hostMove_readReg (hb : s.status.busy = false) (idx : BitVec 7) :
    s.hostMove (.readReg idx) = .next { s with answer := some (s.regRead idx) } := by
  rw [hostMove.eq_def, hb, Bool.false_and, if_neg (by simp)]

theorem hostMove_writeBank (hb : s.status.busy = false) (id : BitVec 4) (i : Nat) (v : Word) :
    s.hostMove (.writeBank id i v) = .next (s.portWrite id i v) := by
  rw [hostMove.eq_def, hb, Bool.false_and, if_neg (by simp)]

theorem hostMove_readBank (hb : s.status.busy = false) (id : BitVec 4) (i : Nat) :
    s.hostMove (.readBank id i) = .next { s with answer := some (s.portRead id i) } := by
  rw [hostMove.eq_def, hb, Bool.false_and, if_neg (by simp)]

/-- Reset may come in any state (R300). -/
theorem hostMove_reset : s.hostMove .reset = .next s.hostReset := by
  rw [hostMove.eq_def, if_neg (by simp [HostMove.allowedWhileBusy])]

/-- A busy block refuses what the host may not do (R59). -/
theorem hostMove_busy (hb : s.status.busy = true) {m : HostMove} (hm : m.allowedWhileBusy = false) :
    s.hostMove m = .refused .hostAccessWhileBusy := by
  rw [hostMove.eq_def, hb, hm, if_pos (by simp)]

theorem issue_of_fault (hf : s.status.fault = true) (c : Word) : s.issue c = .next s := by rw [issue, if_pos hf]

theorem issue_of_decode (hf : s.status.fault = false) {c : Word} {i : Instr} (hd : decode c = .ok i) :
    s.issue c = exec i (s.accept c) := by
  rw [issue, hf, if_neg (by simp), hd]

theorem issue_of_illegal (hf : s.status.fault = false) {c : Word} {e : Illegal} (hd : decode c = .error e) :
    s.issue c = .next ((s.accept c).raise .illegal) := by
  rw [issue, hf, if_neg (by simp), hd]

/-! ### The register port -/

theorem regRead_scalar (s : State) (r : Reg) : s.regRead (BitVec.ofNat 7 (0x20 + r.val)) = s.getS r := by
  fin_cases r <;> rfl

/-- An index that the register map does not list reads as zero (R24). -/
theorem regRead_unlisted (s : State) {idx : BitVec 7}
    (h : (0x08 < idx.toNat ∧ idx.toNat < 0x0C) ∨ idx.toNat = 0x0F ∨ (0x12 < idx.toNat ∧ idx.toNat < 0x20) ∨
      (0x2F < idx.toNat ∧ idx.toNat < 0x40) ∨ 0x73 < idx.toNat) : s.regRead idx = 0 := by
  have hi := idx.isLt
  rw [regRead]
  generalize idx.toNat = n at *
  have h2 : ¬ n / 16 = 2 := by omega
  have h4 : ¬ n / 16 = 4 := by omega
  have h5 : ¬ n / 16 = 5 := by omega
  have h6 : ¬ n / 16 = 6 := by omega
  split <;> first | rw [if_neg h2, if_neg h4, if_neg h5, if_neg h6] | omega

/-- The register port reads the modulus descriptors (R24, R26). -/
theorem regRead_descriptor (s : State) (k : Modulus) (j : Fin 16) :
    s.regRead (BitVec.ofNat 7 (0x40 + 16 * k.idx + j.val)) = Word.ofNat (s.cfg.descriptor k j.val) := by
  cases k <;> fin_cases j <;> rfl

/-- A write of a scalar register's index writes that register (R24). -/
theorem regWrite_scalar (s : State) (r : Reg) (v : Word) : s.regWrite (BitVec.ofNat 7 (0x20 + r.val)) v = s.setS r v := by
  fin_cases r <;> rfl

/-- A write of a read-only or unlisted index changes nothing (R24). -/
theorem regWrite_ignored (s : State) {idx : BitVec 7} (v : Word)
    (h : idx.toNat ∉ [0x00, 0x02, 0x03, 0x04, 0x0C, 0x0D, 0x0E, 0x10, 0x11, 0x12])
    (h' : ¬ (0x20 ≤ idx.toNat ∧ idx.toNat ≤ 0x2F)) : s.regWrite idx v = s := by
  rw [regWrite]
  generalize idx.toNat = n at *
  have h2 : ¬ n / 16 = 2 := by omega
  split <;> first | rw [if_neg h2] | exact absurd (by simp) h

/-! ### The memory port -/

theorem portTarget_some {id : BitVec 4} {i : Nat} {b : Bank} (h : s.portTarget id i = some b) :
    id.toNat = b.id ∧ i < capacity s.cfg b := by
  rw [portTarget] at h
  split at h
  · rename_i b' hb
    split at h
    · cases h
      exact ⟨(id_of_bankOf hb).symm, ‹_›⟩
    · cases h
  · cases h

theorem portTarget_of {id : BitVec 4} {i : Nat} {b : Bank} (hid : id.toNat = b.id) (hi : i < capacity s.cfg b) :
    s.portTarget id i = some b := by simp [portTarget, hid, hi]

theorem portTarget_none {id : BitVec 4} {i : Nat} (h : ∀ b : Bank, id.toNat = b.id → capacity s.cfg b ≤ i) :
    s.portTarget id i = none := by
  cases ht : s.portTarget id i with
  | none => rfl
  | some b =>
    obtain ⟨h1, h2⟩ := portTarget_some ht
    have := h b h1
    omega

/-- A write of a bank word, whole (R52, R56). -/
theorem memWrite_eq (s : State) (b : Bank) (i : Nat) (v : Word) :
    s.memWrite b i v = { s with
      banks := s.banks.set b ((s.banks.get b).write i v)
      twcfg := { s.twcfg with tvalid := s.twcfg.tvalid && !(b == .twf || b == .twi) } } := by
  rw [show (b == .twf || b == .twi) = b.isTwiddle by cases b <;> rfl]
  cases h : b.isTwiddle <;> simp [memWrite, h, bankStore, clearTable]

end State

/-! ### Steps of an idle block -/

section Idle

variable {s : State} {rest : List HostMove}

theorem step_writeCmd (hb : s.status.busy = false) {v : Word} (h : s.host = .writeReg 0 v :: rest) :
    step s = ({ s with host := rest } : State).issue v := by
  rw [step_cons h, State.hostMove_writeCmd (s := { s with host := rest }) hb]

theorem step_writeReg (hb : s.status.busy = false) {idx : BitVec 7} (hi : idx ≠ 0) {v : Word}
    (h : s.host = .writeReg idx v :: rest) : step s = .next (({ s with host := rest } : State).regWrite idx v) := by
  rw [step_cons h, State.hostMove_writeReg (s := { s with host := rest }) hb hi]

theorem step_readReg (hb : s.status.busy = false) {idx : BitVec 7} (h : s.host = .readReg idx :: rest) :
    step s = .next { s with host := rest, answer := some (s.regRead idx) } := by
  rw [step_cons h, State.hostMove_readReg (s := { s with host := rest }) hb]
  rfl

theorem step_writeBank (hb : s.status.busy = false) {id : BitVec 4} {i : Nat} {v : Word}
    (h : s.host = .writeBank id i v :: rest) : step s = .next (({ s with host := rest } : State).portWrite id i v) := by
  rw [step_cons h, State.hostMove_writeBank (s := { s with host := rest }) hb]

theorem step_readBank (hb : s.status.busy = false) {id : BitVec 4} {i : Nat} (h : s.host = .readBank id i :: rest) :
    step s = .next { s with host := rest, answer := some (s.portRead id i) } := by
  rw [step_cons h, State.hostMove_readBank (s := { s with host := rest }) hb]
  rfl

theorem step_reset (h : s.host = .reset :: rest) : step s = .next ({ s with host := rest } : State).hostReset := by
  rw [step_cons h, State.hostMove_reset]

end Idle

end Sys2Proof.Machine
end

