-- ==== Sys2Proof/Machine/Assembler.lean ====
section
/-! DEFINITION. The assembler syntax of R80, as the text of a command, and the pseudo-instructions of R81 with their
expansions. The block sees command words only: nothing here is read by a step. -/

namespace Sys2Proof

/-- `m0`, `m1`, `m2` (R80). -/
def Modulus.text : Modulus → String
  | .m0 => "m0"
  | .m1 => "m1"
  | .m2 => "m2"

/-- The name of a bank (R80). -/
def Bank.text : Bank → String
  | .ch0 => "ch0"
  | .ch1 => "ch1"
  | .ch2 => "ch2"
  | .scr => "scr"
  | .twf => "twf"
  | .twi => "twi"
  | .ina => "ina"
  | .inb => "inb"
  | .out => "out"

/-- `s0` to `s15` (R80). -/
def regText (r : Reg) : String := "s" ++ toString r.val

/-- `lg=` and a decimal (R80). -/
def lgText (l : Lg) : String := "lg=" ++ toString l.val

/-- A bank at an element offset or index, `bank[sX]` (R80). -/
def atText (b : Bank) (r : Reg) : String := b.text ++ "[" ++ regText r ++ "]"

/-- The `norm` operand, present where `NF` = 1 (R80). -/
def normText (nf : Bool) : List String := if nf then ["norm"] else []

/-- A mnemonic and its operands, separated by commas (R80). -/
def line (mnemonic : String) : List String → String
  | [] => mnemonic
  | ops => mnemonic ++ " " ++ String.intercalate ", " ops

/-- The text of a command (R80). -/
def Instr.text : Instr → String
  | .nop => line "nop" []
  | .mto rd ra k => line "mto" [regText rd, regText ra, k.text]
  | .mfrom rd ra k => line "mfrom" [regText rd, regText ra, k.text]
  | .mmul rd ra rb k => line "mmul" [regText rd, regText ra, regText rb, k.text]
  | .madd rd ra rb k => line "madd" [regText rd, regText ra, regText rb, k.text]
  | .msub rd ra rb k => line "msub" [regText rd, regText ra, regText rb, k.text]
  | .mnorm rd ra k => line "mnorm" [regText rd, regText ra, k.text]
  | .mpow rd ra rb k => line "mpow" [regText rd, regText ra, regText rb, k.text]
  | .minv rd ra k => line "minv" [regText rd, regText ra, k.text]
  | .lde rd bank rb => line "lde" [regText rd, atText bank rb]
  | .ste bank ra rb => line "ste" [atText bank ra, regText rb]
  | .twb k lg => line "twb" [k.text, lgText lg]
  | .kdif bank ra k lg => line "kdif" [atText bank ra, k.text, lgText lg]
  | .kdit bank ra k lg => line "kdit" [atText bank ra, k.text, lgText lg]
  | .r4dif bank ra k lg => line "r4dif" [atText bank ra, k.text, lgText lg]
  | .r4dit bank ra k lg => line "r4dit" [atText bank ra, k.text, lgText lg]
  | .nttf bank ra k lg => line "nttf" [atText bank ra, k.text, lgText lg]
  | .ntti bank ra k lg => line "ntti" [atText bank ra, k.text, lgText lg]
  | .pwmul bankd banks rb k lg => line "pwmul" [atText bankd rb, banks.text, k.text, lgText lg]
  | .pwsqr bank ra k lg => line "pwsqr" [atText bank ra, k.text, lgText lg]
  | .scl bank ra rb k lg => line "scl" [atText bank ra, regText rb, k.text, lgText lg]
  | .fwd bank ra k lg => line "fwd" [atText bank ra, k.text, lgText lg]
  | .cnv2 bankd banks rb k lg nf => line "cnv2" ([atText bankd rb, banks.text, k.text, lgText lg] ++ normText nf)
  | .cnv1 bankd banks rb k lg nf => line "cnv1" ([atText bankd rb, banks.text, k.text, lgText lg] ++ normText nf)
  | .cnvsq bank ra k lg nf => line "cnvsq" ([atText bank ra, k.text, lgText lg] ++ normText nf)
  | .crt3 ra => line "crt3" [regText ra]
  | .cacc => line "cacc" []
  | .cemit rd => line "cemit" [regText rd]
  | .cclr => line "cclr" []
  | .crtc => line "crtc" []
  | .ldm bank src k lg => line "ldm" [bank.text, src.text, k.text, lgText lg]
  | .mul => line "mul" []
  | .sqr => line "sqr" []

/-- The pseudo-instructions of R81. `kdifN` and `kditN` stand for the four sizes 1, 2, 4, 8 = 2^size. -/
inductive Pseudo where
  /-- `msqr sd, sa, mod`. -/
  | msqr (rd ra : Reg) (k : Modulus)
  /-- `mdbl sd, sa, mod`. -/
  | mdbl (rd ra : Reg) (k : Modulus)
  /-- `mzero sd, sa, mod`. -/
  | mzero (rd ra : Reg) (k : Modulus)
  /-- `kdif1`, `kdif2`, `kdif4`, `kdif8 bank[sa], mod`. -/
  | kdifN (size : Fin 4) (bank : Bank) (ra : Reg) (k : Modulus)
  /-- `kdit1`, `kdit2`, `kdit4`, `kdit8 bank[sa], mod`. -/
  | kditN (size : Fin 4) (bank : Bank) (ra : Reg) (k : Modulus)
  /-- `cnv bankd[sb], banks, mod, lg`. -/
  | cnv (bankd banks : Bank) (rb : Reg) (k : Modulus) (lg : Lg)
  /-- `cstep sd`. -/
  | cstep (rd : Reg)
deriving DecidableEq, Repr

/-- The commands a pseudo-instruction stands for (R81). -/
def Pseudo.expand : Pseudo → List Instr
  | .msqr rd ra k => [.mmul rd ra ra k]
  | .mdbl rd ra k => [.madd rd ra ra k]
  | .mzero rd ra k => [.msub rd ra ra k]
  | .kdifN size bank ra k => [.kdif bank ra k (size.castLE (by decide))]
  | .kditN size bank ra k => [.kdit bank ra k (size.castLE (by decide))]
  | .cnv bankd banks rb k lg => [.cnv2 bankd banks rb k lg true]
  | .cstep rd => [.cacc, .cemit rd]

end Sys2Proof
end

