-- ==== Sys2Proof/Tests/Slice0.lean ====
section
/-! SUPPORT. Tests: the checks of WellFormed on ill-formed terms; every command's word, written out from the formats and opcodes
of R70, R71 and R77; the vectors of spec/95_test_vectors.md, one step each; and, for every statement with hypotheses, a state
that meets them, each clause at a boundary. Expected values are the spec's. -/

set_option Elab.async false

namespace Sys2Proof.Tests

open Sys2Proof.Machine

/-! ### WellFormed refuses (R71, R75 steps 5 and 6) -/

theorem test_ill_formed_ste_ina : (Instr.ste .ina 0 0).wellFormed = false := by decide
theorem test_ill_formed_ste_inb : (Instr.ste .inb 0 0).wellFormed = false := by decide
theorem test_ill_formed_kdif : (Instr.kdif .twf 0 .m0 1).wellFormed = false := by decide
theorem test_ill_formed_kdit : (Instr.kdit .twi 0 .m0 1).wellFormed = false := by decide
theorem test_ill_formed_r4dif : (Instr.r4dif .ina 0 .m0 2).wellFormed = false := by decide
theorem test_ill_formed_r4dit : (Instr.r4dit .inb 0 .m0 2).wellFormed = false := by decide
theorem test_ill_formed_nttf : (Instr.nttf .out 0 .m0 2).wellFormed = false := by decide
theorem test_ill_formed_ntti : (Instr.ntti .twf 0 .m0 2).wellFormed = false := by decide
theorem test_ill_formed_pwmul_first : (Instr.pwmul .out .ch0 0 .m0 1).wellFormed = false := by decide
theorem test_ill_formed_pwmul_second : (Instr.pwmul .ch0 .ina 0 .m0 1).wellFormed = false := by decide
theorem test_ill_formed_pwsqr : (Instr.pwsqr .twi 0 .m0 1).wellFormed = false := by decide
theorem test_ill_formed_scl : (Instr.scl .inb 0 0 .m0 1).wellFormed = false := by decide
theorem test_ill_formed_fwd : (Instr.fwd .out 0 .m0 1).wellFormed = false := by decide
theorem test_ill_formed_cnv2_first : (Instr.cnv2 .twf .ch0 0 .m0 1 true).wellFormed = false := by decide
theorem test_ill_formed_cnv2_second : (Instr.cnv2 .ch0 .out 0 .m0 1 true).wellFormed = false := by decide
theorem test_ill_formed_cnv1_first : (Instr.cnv1 .ina .ch0 0 .m0 1 true).wellFormed = false := by decide
theorem test_ill_formed_cnv1_second : (Instr.cnv1 .ch0 .inb 0 .m0 1 true).wellFormed = false := by decide
theorem test_ill_formed_cnvsq : (Instr.cnvsq .out 0 .m0 1 true).wellFormed = false := by decide
theorem test_ill_formed_crt3 : (Instr.crt3 14).wellFormed = false := by decide
theorem test_ill_formed_ldm_bank : (Instr.ldm .out .ina .m0 1).wellFormed = false := by decide
theorem test_ill_formed_ldm_source : (Instr.ldm .ch0 .scr .m0 1).wellFormed = false := by decide
theorem test_well_formed_bounds : (Instr.crt3 13).wellFormed = true ∧ (Instr.ste .out 0 0).wellFormed = true := by decide

/-! ### The word of every command (R70, R71, R77): OP, M, NF, 000, LG, RD, RA, RB -/

theorem test_word_nop :
    decode 0b00000000_00_0_000_000000_0000_0000_0000 = .ok (.nop) ∧ encode (.nop) = 0b00000000_00_0_000_000000_0000_0000_0000 := by
  decide +kernel
theorem test_word_mto :
    decode 0b00010000_10_0_000_000000_0011_0101_0000 = .ok (.mto 3 5 .m2) ∧ encode (.mto 3 5 .m2) = 0b00010000_10_0_000_000000_0011_0101_0000 := by
  decide +kernel
theorem test_word_mfrom :
    decode 0b00010001_01_0_000_000000_1111_0001_0000 = .ok (.mfrom 15 1 .m1) ∧ encode (.mfrom 15 1 .m1) = 0b00010001_01_0_000_000000_1111_0001_0000 := by
  decide +kernel
theorem test_word_mmul :
    decode 0b00010010_01_0_000_000000_0011_0001_0010 = .ok (.mmul 3 1 2 .m1) ∧ encode (.mmul 3 1 2 .m1) = 0b00010010_01_0_000_000000_0011_0001_0010 := by
  decide +kernel
theorem test_word_madd :
    decode 0b00010011_00_0_000_000000_0100_0010_0001 = .ok (.madd 4 2 1 .m0) ∧ encode (.madd 4 2 1 .m0) = 0b00010011_00_0_000_000000_0100_0010_0001 := by
  decide +kernel
theorem test_word_msub :
    decode 0b00010100_10_0_000_000000_0101_0110_0111 = .ok (.msub 5 6 7 .m2) ∧ encode (.msub 5 6 7 .m2) = 0b00010100_10_0_000_000000_0101_0110_0111 := by
  decide +kernel
theorem test_word_mnorm :
    decode 0b00010101_01_0_000_000000_1000_1001_0000 = .ok (.mnorm 8 9 .m1) ∧ encode (.mnorm 8 9 .m1) = 0b00010101_01_0_000_000000_1000_1001_0000 := by
  decide +kernel
theorem test_word_mpow :
    decode 0b00010110_10_0_000_000000_1010_1011_1100 = .ok (.mpow 10 11 12 .m2) ∧ encode (.mpow 10 11 12 .m2) = 0b00010110_10_0_000_000000_1010_1011_1100 := by
  decide +kernel
theorem test_word_minv :
    decode 0b00010111_00_0_000_000000_1101_1110_0000 = .ok (.minv 13 14 .m0) ∧ encode (.minv 13 14 .m0) = 0b00010111_00_0_000_000000_1101_1110_0000 := by
  decide +kernel
theorem test_word_lde :
    decode 0b00011000_00_0_000_000000_0010_1000_0001 = .ok (.lde 2 .out 1) ∧ encode (.lde 2 .out 1) = 0b00011000_00_0_000_000000_0010_1000_0001 := by
  decide +kernel
theorem test_word_ste :
    decode 0b00011001_00_0_000_000000_0101_0011_0100 = .ok (.ste .twi 3 4) ∧ encode (.ste .twi 3 4) = 0b00011001_00_0_000_000000_0101_0011_0100 := by
  decide +kernel
theorem test_word_twb :
    decode 0b00100000_01_0_000_010001_0000_0000_0000 = .ok (.twb .m1 17) ∧ encode (.twb .m1 17) = 0b00100000_01_0_000_010001_0000_0000_0000 := by
  decide +kernel
theorem test_word_kdif :
    decode 0b00110000_10_0_000_000011_0001_0011_0000 = .ok (.kdif .ch1 3 .m2 3) ∧ encode (.kdif .ch1 3 .m2 3) = 0b00110000_10_0_000_000011_0001_0011_0000 := by
  decide +kernel
theorem test_word_kdit :
    decode 0b00110001_00_0_000_000010_0010_0100_0000 = .ok (.kdit .ch2 4 .m0 2) ∧ encode (.kdit .ch2 4 .m0 2) = 0b00110001_00_0_000_000010_0010_0100_0000 := by
  decide +kernel
theorem test_word_r4dif :
    decode 0b00110010_01_0_000_000100_0011_0101_0000 = .ok (.r4dif .scr 5 .m1 4) ∧ encode (.r4dif .scr 5 .m1 4) = 0b00110010_01_0_000_000100_0011_0101_0000 := by
  decide +kernel
theorem test_word_r4dit :
    decode 0b00110011_10_0_000_000110_0000_0110_0000 = .ok (.r4dit .ch0 6 .m2 6) ∧ encode (.r4dit .ch0 6 .m2 6) = 0b00110011_10_0_000_000110_0000_0110_0000 := by
  decide +kernel
theorem test_word_nttf :
    decode 0b00110100_00_0_000_010001_0001_0111_0000 = .ok (.nttf .ch1 7 .m0 17) ∧ encode (.nttf .ch1 7 .m0 17) = 0b00110100_00_0_000_010001_0001_0111_0000 := by
  decide +kernel
theorem test_word_ntti :
    decode 0b00110101_01_0_000_001001_0010_1000_0000 = .ok (.ntti .ch2 8 .m1 9) ∧ encode (.ntti .ch2 8 .m1 9) = 0b00110101_01_0_000_001001_0010_1000_0000 := by
  decide +kernel
theorem test_word_pwmul :
    decode 0b01000000_10_0_000_000101_0000_0011_1001 = .ok (.pwmul .ch0 .scr 9 .m2 5) ∧ encode (.pwmul .ch0 .scr 9 .m2 5) = 0b01000000_10_0_000_000101_0000_0011_1001 := by
  decide +kernel
theorem test_word_pwsqr :
    decode 0b01000001_00_0_000_000111_0011_1010_0000 = .ok (.pwsqr .scr 10 .m0 7) ∧ encode (.pwsqr .scr 10 .m0 7) = 0b01000001_00_0_000_000111_0011_1010_0000 := by
  decide +kernel
theorem test_word_scl :
    decode 0b01000010_01_0_000_001000_0001_0010_0011 = .ok (.scl .ch1 2 3 .m1 8) ∧ encode (.scl .ch1 2 3 .m1 8) = 0b01000010_01_0_000_001000_0001_0010_0011 := by
  decide +kernel
theorem test_word_fwd :
    decode 0b01010000_10_0_000_010100_0010_0001_0000 = .ok (.fwd .ch2 1 .m2 20) ∧ encode (.fwd .ch2 1 .m2 20) = 0b01010000_10_0_000_010100_0010_0001_0000 := by
  decide +kernel
theorem test_word_cnv2 :
    decode 0b01010001_10_1_000_010010_0000_0011_0000 = .ok (.cnv2 .ch0 .scr 0 .m2 18 true) ∧ encode (.cnv2 .ch0 .scr 0 .m2 18 true) = 0b01010001_10_1_000_010010_0000_0011_0000 := by
  decide +kernel
theorem test_word_cnv2_plain :
    decode 0b01010001_00_0_000_111111_0001_0010_1111 = .ok (.cnv2 .ch1 .ch2 15 .m0 63 false) ∧ encode (.cnv2 .ch1 .ch2 15 .m0 63 false) = 0b01010001_00_0_000_111111_0001_0010_1111 := by
  decide +kernel
theorem test_word_cnv1 :
    decode 0b01010010_10_1_000_000100_0001_0000_0000 = .ok (.cnv1 .ch1 .ch0 0 .m2 4 true) ∧ encode (.cnv1 .ch1 .ch0 0 .m2 4 true) = 0b01010010_10_1_000_000100_0001_0000_0000 := by
  decide +kernel
theorem test_word_cnvsq :
    decode 0b01010011_00_1_000_000100_0000_0000_0000 = .ok (.cnvsq .ch0 0 .m0 4 true) ∧ encode (.cnvsq .ch0 0 .m0 4 true) = 0b01010011_00_1_000_000100_0000_0000_0000 := by
  decide +kernel
theorem test_word_crt3 :
    decode 0b01100000_00_0_000_000000_0000_1101_0000 = .ok (.crt3 13) ∧ encode (.crt3 13) = 0b01100000_00_0_000_000000_0000_1101_0000 := by
  decide +kernel
theorem test_word_cacc :
    decode 0b01100001_00_0_000_000000_0000_0000_0000 = .ok (.cacc) ∧ encode (.cacc) = 0b01100001_00_0_000_000000_0000_0000_0000 := by
  decide +kernel
theorem test_word_cemit :
    decode 0b01100010_00_0_000_000000_1001_0000_0000 = .ok (.cemit 9) ∧ encode (.cemit 9) = 0b01100010_00_0_000_000000_1001_0000_0000 := by
  decide +kernel
theorem test_word_cclr :
    decode 0b01100011_00_0_000_000000_0000_0000_0000 = .ok (.cclr) ∧ encode (.cclr) = 0b01100011_00_0_000_000000_0000_0000_0000 := by
  decide +kernel
theorem test_word_crtc :
    decode 0b01100100_00_0_000_000000_0000_0000_0000 = .ok (.crtc) ∧ encode (.crtc) = 0b01100100_00_0_000_000000_0000_0000_0000 := by
  decide +kernel
theorem test_word_ldm :
    decode 0b01110000_10_0_000_000010_0011_0111_0000 = .ok (.ldm .scr .inb .m2 2) ∧ encode (.ldm .scr .inb .m2 2) = 0b01110000_10_0_000_000010_0011_0111_0000 := by
  decide +kernel
theorem test_word_mul :
    decode 0b01110001_00_0_000_000000_0000_0000_0000 = .ok (.mul) ∧ encode (.mul) = 0b01110001_00_0_000_000000_0000_0000_0000 := by
  decide +kernel
theorem test_word_sqr :
    decode 0b01110010_00_0_000_000000_0000_0000_0000 = .ok (.sqr) ∧ encode (.sqr) = 0b01110010_00_0_000_000000_0000_0000_0000 := by
  decide +kernel

/-- The refusals by name, one for each step of R75 (V-F1, V-F3, V-F4, V-F5, V-F7, V-F8, V-F9), and a bank id above 8. -/
theorem test_refused_words :
    decode 0x01000000 = .error .opcode ∧ decode 0x12C00312 = .error .modulus ∧ decode 0x00040000 = .error .unusedField ∧
    decode 0x10000111 = .error .unusedField ∧ decode 0x30000400 = .error .bank ∧ decode 0x600000E0 = .error .triple ∧
    decode 0x100000000 = .error .upperHalf ∧ decode 0x18000090 = .error .bank := by
  decide +kernel

/-- The `mask` column of R77, by format. -/
theorem test_masks :
    Format.mask .z = 0xFFFFFFFF ∧ Format.mask .s2 = 0xFF3FF00F ∧ Format.mask .s3 = 0xFF3FF000 ∧
    Format.mask .el = 0xFFFFF000 ∧ Format.mask .es = 0xFFFFF000 ∧ Format.mask .t = 0xFF3C0FFF ∧
    Format.mask .b1 = 0xFF3C000F ∧ Format.mask .b1n = 0xFF1C000F ∧ Format.mask .b1s = 0xFF3C0000 ∧
    Format.mask .b2 = 0xFF3C0000 ∧ Format.mask .b2n = 0xFF1C0000 ∧ Format.mask .sa = 0xFFFFFF0F ∧
    Format.mask .sd = 0xFFFFF0FF ∧ Format.mask .ld = 0xFF3C000F := by
  decide

/-- R80 and R81: the texts and expansions of V-ENC2, V-ENC4, V-ENC10 and V-ENC11, and `cstep`. -/
theorem test_assembler :
    (Instr.cnv2 .ch0 .scr 0 .m2 18 true).text = "cnv2 ch0[s0], scr, m2, lg=18, norm" ∧
    (Instr.ste .out 5 4).text = "ste out[s5], s4" ∧
    (Pseudo.msqr 2 1 .m0).expand.map encode = [0x12000211] ∧
    (Pseudo.kdifN 3 .ch1 3 .m2).expand.map encode = [0x30803130] ∧
    (Pseudo.cstep 7).expand = [.cacc, .cemit 7] := by
  decide +kernel

/-! ### States -/

/-- TOYCFG, and TOYCFG with `LOG_THRESH` = 2; REFCFG. -/
def toy : State := State.resetWith .toy 0 [] none

def toyLow : State := State.resetWith .toyLow 0 [] none

def ref : State := State.resetWith .ref 0 [] none

/-- A scalar register set. -/
def withS (s : State) (r : Reg) (v : Nat) : State := s.setS r (Word.ofNat v)

/-- The state after the one step that runs the command word c. -/
def after (s : State) (c : Nat) : State :=
  match step (s.withFetchWord 32 c) with
  | .next t => t
  | .fault _ => s
  | .refused _ => s

/-- `STATUS` as the register port reads it. -/
def status (s : State) : Nat := (s.regRead 0x01).toNat

/-- `STATUS` and a scalar register after a command. -/
def scalar (s : State) (r : Reg) (c : Nat) : Nat × Nat := (status (after s c), (after s c).val r)

/-- The first n words of a bank after a command. -/
def words (s : State) (b : Bank) (n c : Nat) : List Nat := (after s c).load b 0 n

/-- The naturals 1 to n. -/
def count (n : Nat) : List Nat := List.range' 1 n

/-! ### Vectors -/

/-- V-MG45. -/
theorem test_nop :
    after (withS toy 3 9) 0 = { withS toy 3 9 with status := ⟨false, true, false, 0⟩ } := by
  decide +kernel

/-- V-MG1, V-MG2. -/
theorem test_mto :
    scalar (withS toy 1 5) 3 0x10000310 = (2, 14) ∧ scalar (withS toy 1 0xFFFFFFFFFFFFFFFF) 3 0x10000310 = (2, 71) := by
  decide +kernel

/-- V-MG4, V-MG5. -/
theorem test_mfrom :
    scalar (withS toy 1 14) 3 0x11000310 = (2, 5) ∧ scalar (withS toy 1 1) 3 0x11000310 = (2, 35) := by
  decide +kernel

/-- V-MG6, V-MG7, V-MG10. -/
theorem test_mmul :
    scalar (withS (withS toy 1 14) 2 39) 3 0x12000312 = (2, 1) ∧
    scalar (withS (withS toy 1 193) 2 193) 3 0x12000312 = (2, 35) ∧ scalar (withS (withS toy 1 194) 2 1) 3 0x12000312 = (0x604, 0) := by
  decide +kernel

/-- V-MG35. -/
theorem test_mmul_ref :
    scalar (withS (withS ref 1 0x03B29D27D27D036C) 2 0x3C4D4ED82D62FC9A) 3 0x12000312 = (2, 0x77CCF5F7F0A47642) := by
  decide +kernel

/-- V-MG11, V-MG12. -/
theorem test_madd :
    scalar (withS (withS toy 1 150) 2 100) 3 0x13000312 = (2, 56) ∧
    scalar (withS (withS toy 1 96) 2 97) 3 0x13000312 = (2, 193) := by
  decide +kernel

/-- V-MG14, V-MG16. -/
theorem test_msub :
    scalar (withS (withS toy 1 3) 2 5) 3 0x14000312 = (2, 192) ∧
    scalar (withS (withS toy 1 0) 2 193) 3 0x14000312 = (2, 1) := by
  decide +kernel

/-- V-MG20, V-MG21. -/
theorem test_mnorm :
    scalar (withS toy 1 193) 3 0x15000310 = (2, 96) ∧ scalar (withS toy 1 194) 3 0x15000310 = (0x604, 0) := by
  decide +kernel

/-- V-MG22, V-MG23. -/
theorem test_mpow :
    scalar (withS (withS toy 1 14) 2 3) 3 0x16000312 = (2, 59) ∧ scalar toy 3 0x16000312 = (2, 61) := by
  decide +kernel

/-- V-MG24, V-MG25. -/
theorem test_minv :
    scalar (withS toy 1 14) 3 0x17000310 = (2, 51) ∧ scalar toy 3 0x17000310 = (2, 0) := by
  decide +kernel

/-- V-MG46, V-MG42. -/
theorem test_lde :
    scalar (toy.store .ina 0 [5]) 1 0x18000160 = (2, 5) ∧ scalar (withS toy 0 32) 6 0x18000600 = (0x704, 0) := by
  decide +kernel

/-- V-MG43. -/
theorem test_ste :
    ((after (withS (withS toy 0 32) 4 9) 0x19000804).bankRead .out 32).toNat = 9 ∧
    status (after (withS (withS toy 0 33) 4 9) 0x19000804) = 0x704 := by
  decide +kernel

/-- V-MG44. -/
theorem test_ste_table :
    let t := after (withS (after toy 0x20003000) 0 1) 0x19000401
    (t.bankRead .twf 1).toNat = 0 ∧ t.twcfg.tvalid = false := by
  decide +kernel

/-- V-TW1. -/
theorem test_twb :
    words toy .twf 8 0x20003000 = [61, 61, 61, 81, 61, 24, 81, 43] ∧ words toy .twi 8 0x20003000 = [61, 61, 61, 16, 61, 54, 16, 73] := by
  decide +kernel

/-- V-TW4, V-TW5. -/
theorem test_twb_faults :
    status (after toy 0x20006000) = 0x204 ∧ status (after toyLow 0x20003000) = 0x404 := by
  decide +kernel

/-- V-K5. -/
theorem test_kdif :
    words (toy.store .ch0 0 (count 8)) .ch0 8 0x30803000 = [36, 253, 60, 189, 45, 75, 174, 204] := by
  decide +kernel

/-- V-K14, V-K15. -/
theorem test_kdif_offset :
    (after (withS (toy.store .ch0 28 (count 4)) 0 28) 0x30002000).load .ch0 28 4 = [10, 95, 51, 42] ∧
    status (after (withS toy 0 29) 0x30002000) = 0x704 := by
  decide +kernel

/-- V-K7. -/
theorem test_kdit :
    words (toy.store .ch0 0 [10, 95, 51, 42]) .ch0 4 0x31002000 = [4, 8, 12, 16] := by
  decide +kernel

/-- V-K8. -/
theorem test_r4dif :
    words ((after toy 0x20804000).store .ch0 0 (count 16)) .ch0 16 0x32804000
    = [28, 32, 36, 40, 249, 2, 128, 225, 120, 68, 227, 240, 121, 242, 227, 197] := by
  decide +kernel

/-- V-K9. -/
theorem test_r4dit :
    words ((after toy 0x20804000).store .ch0 0 [28, 32, 36, 40, 249, 2, 128, 225, 120, 68, 227, 240, 121, 242, 227, 197])
    .ch0 16 0x33804000 = (count 16).map (4 * ·) := by
  decide +kernel

/-- V-K10. -/
theorem test_nttf :
    words ((after toy 0x20804000).store .ch0 0 (count 16)) .ch0 16 0x34804000
    = [136, 249, 120, 121, 90, 150, 91, 151, 141, 39, 75, 225, 16, 166, 202, 100] := by
  decide +kernel

/-- V-K11. -/
theorem test_ntti :
    words ((after toy 0x20804000).store .ch0 0 [136, 249, 120, 121, 90, 150, 91, 151, 141, 39, 75, 225, 16, 166, 202, 100])
    .ch0 16 0x35804000 = (count 16).map (16 * ·) := by
  decide +kernel

/-- V-PW1, V-PW4. -/
theorem test_pwmul :
    words ((toy.store .ch0 0 [14, 39]).store .ch1 0 [39, 39]) .ch0 2 0x40001010 = [1, 79] ∧
    status (after toy 0x40000000) = 0x304 := by
  decide +kernel

/-- V-PW2. -/
theorem test_pwsqr :
    words (toy.store .ch0 0 [14]) .ch0 1 0x41000000 = [70] := by
  decide +kernel

/-- V-PW3. -/
theorem test_scl :
    words (withS (toy.store .ch0 0 [16, 32, 48, 64]) 1 241) .ch0 4 0x42802001 = [1, 2, 3, 4] := by
  decide +kernel

/-- V-FS4. -/
theorem test_fwd :
    words (toyLow.store .ch0 0 (count 16)) .ch0 16 0x50804000
    = [136, 249, 120, 121, 90, 150, 91, 151, 141, 39, 75, 225, 16, 166, 202, 100] := by
  decide +kernel

/-- V-FS1. -/
theorem test_cnv2 :
    let t := after ((toyLow.store .ch0 0 (count 8)).store .scr 0 [1, 1, 0, 0, 0, 0, 0, 0]) 0x51A03030
    t.load .ch0 0 8 = [9, 3, 5, 7, 9, 11, 13, 15] ∧ t.load .scr 0 8 = [2, 0, 242, 17, 65, 194, 5, 254] := by
  decide +kernel

/-- V-FS3. -/
theorem test_cnv2_plain :
    words ((toyLow.store .ch0 0 (count 16)).store .scr 0 ([1, 1] ++ List.replicate 14 0)) .ch0 16 0x51804030
    = [15, 48, 80, 112, 144, 176, 208, 240, 15, 47, 79, 111, 143, 175, 207, 239] := by
  decide +kernel

/-- V-FS4. -/
theorem test_cnv1 :
    words ((after (toyLow.store .ch0 0 (count 16)) 0x50004000).store .ch1 0 (61 :: List.replicate 15 0)) .ch1 16 0x52204100
    = count 16 := by
  decide +kernel

/-- V-FS6. -/
theorem test_cnvsq :
    words (toyLow.store .ch0 0 (count 16)) .ch0 16 0x53A04000
    = [165, 12, 100, 172, 228, 11, 35, 43, 35, 11, 228, 172, 100, 12, 165, 45] := by
  decide +kernel

/-- V-FS7, its second half. -/
theorem test_cnvsq_m0 :
    words (toyLow.store .ch0 0 (count 16)) .ch0 16 0x53204000
    = [71, 25, 1, 96, 19, 61, 28, 17, 28, 61, 19, 96, 1, 25, 71, 42] := by
  decide +kernel

/-- V-CRT1, V-CRT8. -/
theorem test_crt3 :
    (after (withS (withS (withS toy 1 35) 2 35) 3 35) 0x60000010).v = ⟨35, 0, 0⟩ ∧ status (after (withS toy 1 97) 0x60000010) = 0x604 := by
  decide +kernel

/-- V-CRT12. -/
theorem test_crt3_ref :
    (after (withS (withS (withS ref 1 0x7FFFFE0000000000) 2 0x7FFFEF0000000000) 3 0x7FFFE90000000000) 0x60000010).v
    = ⟨0x7FFFD60000000000, 0xB1FFD60001D70001, 0x1FFFF58000EB7FFD⟩ := by
  decide +kernel

/-- V-CA2, V-CA3. -/
theorem test_cacc :
    (after { toy with acc := ⟨0xFFFFFFFFFFFFFFFF, 0xFFFFFFFFFFFFFFFF, 0⟩, v := ⟨1, 0, 0⟩ } 0x61000000).acc = ⟨0, 0, 1⟩ ∧
    (after { toy with acc := ⟨0, 0, 0xFFFFFFFFFFFFFFFF⟩, v := ⟨0, 0, 1⟩ } 0x61000000).acc = ⟨0, 0, 0⟩ := by
  decide +kernel

/-- V-CA6. -/
theorem test_cemit :
    let t := after { toy with acc := ⟨7, 8, 9⟩ } 0x62000200
    t.val 2 = 7 ∧ t.acc = ⟨8, 9, 0⟩ := by
  decide +kernel

/-- V-CA7. -/
theorem test_cclr :
    let t := after { toy with acc := ⟨7, 8, 9⟩, v := ⟨1, 2, 3⟩ } 0x63000000
    t.acc = ⟨0, 0, 0⟩ ∧ t.v = ⟨1, 2, 3⟩ := by
  decide +kernel

/-- V-CA9. -/
theorem test_crtc :
    words { ((ref.store .ch0 0 [0x1000480000F7FFF3, 0x1000480000F7FFF3]).store .ch1 0
      [0x1388BADADDAB13C5, 0x1388BADADDAB13C5]).store .ch2 0 [0x7E88A9C7F6BDF436, 0x7E88A9C7F6BDF436] with clen := 2 }
    .out 3 0x64000000 = [1, 0xFFFFFFFFFFFFFFFF, 0xFFFFFFFFFFFFFFFE] := by
  decide +kernel

/-- V-CA10, V-CA11. -/
theorem test_crtc_faults :
    status (after toy 0x64000000) = 0x204 ∧ status (after { toy with clen := 33 } 0x64000000) = 0x404 := by
  decide +kernel

/-- V-OR2, V-OR3. -/
theorem test_ldm :
    words { toy.store .inb 0 [100, 7] with len2 := 2 } .scr 4 0x70002370 = [86, 39, 0, 0] ∧
    status (after { toy with len1 := 3 } 0x70001060) = 0x204 := by
  decide +kernel

/-- V-OR4. -/
theorem test_mul :
    words { (ref.store .ina 0 [0xFFFFFFFFFFFFFFFF, 0xFFFFFFFFFFFFFFFF]).store .inb 0
      [0xFFFFFFFFFFFFFFFF, 0xFFFFFFFFFFFFFFFF] with len1 := 2, len2 := 2 } .out 4 0x71000000
    = [1, 0, 0xFFFFFFFFFFFFFFFE, 0xFFFFFFFFFFFFFFFF] := by
  decide +kernel

/-- E1. -/
theorem test_mul_e1 :
    let t := after { (ref.store .ina 0 [5]).store .inb 0 [7] with len1 := 1, len2 := 1 } 0x71000000
    t.load .out 0 2 = [35, 0] ∧ t.load .ch0 0 1 = [0x8BFFFFFFFFBA] ∧ t.v = ⟨35, 0, 0⟩ ∧ t.acc = ⟨0, 0, 0⟩ := by
  decide +kernel

/-- E3. -/
theorem test_sqr :
    words { ref.store .ina 0 [0x100000000] with len1 := 1 } .out 2 0x72000000 = [0, 1] := by
  decide +kernel

/-- V-OR8. -/
theorem test_sqr_faults :
    status (after { toy with len1 := 0 } 0x72000000) = 0x204 ∧ status (after { toy with len1 := 17 } 0x72000000) = 0x404 := by
  decide +kernel

/-- V-F9, V-F1. -/
theorem test_illegal :
    (after toy 0x01000000).finfo = 0x01000000 ∧ status (after toy 0x01000000) = 0x104 := by
  decide +kernel


/-! ### The hypotheses of the statements are met -/

/-- A table for length 16 of modulus 2, three equal lazy blocks, offsets 0 (`S0`), 16 (`S1`), 17 (`S2`), 24 (`S3`), 25 (`S4`), the
Montgomery word of 1/16 (`S5`), and 2p (`S6`) for p = 257. -/
def full : State :=
  let s := (after toy 0x20804000).store .ch0 0 (List.replicate 15 3 ++ [513] ++ List.replicate 16 513)
  let s := (s.store .ch1 0 (List.replicate 15 3 ++ [513] ++ List.replicate 16 513)).store .scr 0 (List.replicate 15 3 ++ [513] ++ List.replicate 16 513)
  withS (withS (withS (withS (withS (withS s 1 16) 2 17) 3 24) 4 25) 5 241) 6 514

/-- The last word of the upper half of `CH0` is 2p, not lazy. -/
def unlazy : State := full.store .ch0 31 [514]

/-- TOYCFG with `LOG_THRESH` = 2: no table, and blocks of length 16 above the threshold. -/
def low : State :=
  (toyLow.store .ch0 0 (List.replicate 32 513)).store .scr 0 (List.replicate 32 513)

theorem test_witness_DecodeInvertsEncode :
    (Instr.cnv2 .ch0 .scr 15 .m2 63 true).wellFormed = true ∧
    (Instr.crt3 13).wellFormed = true := by
  decide +kernel

theorem test_witness_EncodeInvertsDecode :
    decode 0x51A3F03F = .ok (.cnv2 .ch0 .scr 15 .m2 63 true) := by
  decide +kernel

/-- One word for each of R79 (a) to (g), and the words beside `crt3 s14` and `ste ina` that are legal. -/
theorem test_witness_IllegalEncodingsFault :
    toy.status.fault = false ∧
    IllegalWord 0x100000000 ∧
    IllegalWord 0x01000000 ∧
    IllegalWord 0x00040000 ∧
    IllegalWord 0x00400000 ∧
    IllegalWord 0x00200000 ∧
    IllegalWord 0x00001000 ∧
    IllegalWord 0x00000100 ∧
    IllegalWord 0x00000010 ∧
    IllegalWord 0x00000001 ∧
    IllegalWord 0x12C00312 ∧
    IllegalWord 0x30000400 ∧
    IllegalWord 0x40000040 ∧
    IllegalWord 0x70000000 ∧
    IllegalWord 0x18000090 ∧
    IllegalWord 0x19000600 ∧
    IllegalWord 0x600000E0 ∧
    ¬ IllegalWord 0x600000D0 ∧
    ¬ IllegalWord 0x19000800 := by
  simp [IllegalWord, BadOperand, formatOf, Format.usesM, Format.usesNf, Format.usesLg, Format.usesRd, Format.usesRa, Format.usesRb, toy]
  decide

theorem test_witness_StepRunsTheDecodedCommand :
    (toy.withFetchWord 32 0x12400312).host = .writeReg 0 0x12400312 :: [] ∧
    toy.status.busy = false ∧
    toy.status.fault = false ∧
    decode 0x12400312 = .ok (.mmul 3 1 2 .m1) := by
  decide +kernel

theorem test_witness_CommandsCompleteOrFaultPrecisely :
    toy.status.fault = false ∧
    (after toy 0).status.fault = false := by
  decide +kernel

theorem test_witness_EveryIdleStepHasANextState :
    ({ toy with host := [.writeReg 0 0x71000000] } : State).status.busy = false := by
  decide +kernel

/-- A stopped block whose host writes `CMD`, and one whose host does anything else. -/
theorem test_witness_FaultsAreStickyUntilReset :
    (after toy 0xFF000000).status.fault = true ∧
    (after toy 0xFF000000).status.busy = false ∧
    ({ after toy 0xFF000000 with host := [.writeReg 0 0] } : State).host = .writeReg 0 0 :: [] ∧
    ({ after toy 0xFF000000 with host := [.writeReg 2 7] } : State).host = .writeReg 2 7 :: [] := by
  decide +kernel

theorem test_witness_ResetLeavesTheResetState :
    ({ after toy 0xFF000000 with host := [.reset, .readReg 1] } : State).host = .reset :: [.readReg 1] := by
  decide +kernel

/-- The first and the last index of each unlisted range, and the one between `V2` and `ACC0`. -/
theorem test_witness_RegisterPortReads :
    [0x09, 0x0B, 0x0F, 0x13, 0x1F, 0x30, 0x3F, 0x74, 0x7F].map (fun i => (full.regRead (BitVec.ofNat 7 i)).toNat) = [0, 0, 0, 0, 0, 0, 0, 0, 0] ∧
    (0x08 < (0x09 : BitVec 7).toNat ∧ (0x0B : BitVec 7).toNat < 0x0C) ∧
    (0x0F : BitVec 7).toNat = 0x0F ∧
    (0x12 < (0x13 : BitVec 7).toNat ∧ (0x1F : BitVec 7).toNat < 0x20) ∧
    (0x2F < (0x30 : BitVec 7).toNat ∧ (0x3F : BitVec 7).toNat < 0x40) ∧
    0x73 < (0x74 : BitVec 7).toNat := by
  decide +kernel

theorem test_witness_WritableRegistersHoldWhatIsWritten :
    toy.status.busy = false ∧
    ({ toy with host := [.writeReg 0x2F 7] } : State).host = .writeReg 0x2F 7 :: [] ∧
    (0x20 ≤ (0x20 : BitVec 7).toNat ∧ (0x2F : BitVec 7).toNat ≤ 0x2F) ∧
    (0x12 : BitVec 7).toNat ∈ [0x02, 0x03, 0x04, 0x0C, 0x0D, 0x0E, 0x10, 0x11, 0x12] := by
  decide +kernel

theorem test_witness_ReadOnlyRegistersIgnoreWrites :
    toy.status.busy = false ∧
    ({ toy with host := [.writeReg 0x40 7] } : State).host = .writeReg 0x40 7 :: [] ∧
    (∀ i ∈ [0x01, 0x05, 0x08, 0x0F, 0x13, 0x1F, 0x30, 0x40, 0x7F], i ∉ [0x00, 0x02, 0x03, 0x04, 0x0C, 0x0D, 0x0E, 0x10, 0x11, 0x12] ∧ ¬ (0x20 ≤ i ∧ i ≤ 0x2F)) := by
  decide +kernel

theorem test_witness_ReadsHaveNoSideEffect :
    toy.status.busy = false ∧
    ({ toy with host := [.readReg 1] } : State).host = .readReg 1 :: [] ∧
    ({ toy with host := [.readBank 8 32] } : State).host = .readBank 8 32 :: [] := by
  decide +kernel

/-- The last word of `OUT` (index 32) and the index beyond it. -/
theorem test_witness_MemoryPortReadsAndWritesWords :
    toy.status.busy = false ∧
    ({ toy with host := [.writeBank 8 32 7] } : State).host = .writeBank 8 32 7 :: [] ∧
    (8 : BitVec 4).toNat = Bank.out.id ∧
    32 < capacity toy.cfg .out ∧
    capacity toy.cfg .out ≤ 33 ∧
    ∀ b : Bank, (9 : BitVec 4).toNat ≠ b.id := by
  refine ⟨rfl, rfl, rfl, by decide +kernel, by decide +kernel, fun b => by cases b <;> decide⟩

/-- The reset state with any move of the host to make meets the invariant. -/
theorem test_witness_EveryStepKeepsTheInvariant :
    Inv { State.reset with host := [.writeReg 0 0x71000000] } := by
  refine ⟨fun b => by cases b <;> exact ⟨rfl, rfl⟩, rfl, by simp [State.reset, State.resetWith], fun _ => ⟨rfl, rfl⟩,
    fun h => absurd h (by simp [State.reset, State.resetWith]), by simp [State.reset, State.resetWith],
    fun h => absurd h (by simp [State.reset, State.resetWith]), fun h => absurd h (by simp [State.reset, State.resetWith])⟩

theorem test_witness_CommandsWriteOnlyTheirRow :
    (Instr.sqr).wellFormed = true ∧
    ∃ t, exec .sqr toy = .next t := by
  exact ⟨rfl, _, rfl⟩

/-- Lazy words up to 2p - 1, and representatives of them. -/
theorem test_witness_MontgomeryLaws :
    193 < 2 * Config.toy.p .m0 ∧
    (2 ^ 64 - 1 < 2 ^ 64) ∧
    (96 : Nat) < Config.toy.p .m0 ∧
    Represents .toy .m0 14 5 ∧
    Represents .toy .m0 193 62 ∧
    193 % Config.toy.p .m0 = 96 % Config.toy.p .m0 := by
  unfold Represents
  decide +kernel

/-- Operands 2p - 1 and 2p. -/
theorem test_witness_MmulMultipliesResidues :
    ((withS toy 1 193).getS 1).toNat < 2 * toy.cfg.p .m0 ∧
    2 * toy.cfg.p .m0 ≤ ((withS toy 1 194).getS 1).toNat := by
  decide +kernel

/-- Operands 2p - 1 and 2p. -/
theorem test_witness_MaddAddsModuloTheDoubledModulus :
    ((withS toy 1 193).getS 1).toNat < 2 * toy.cfg.p .m0 ∧
    2 * toy.cfg.p .m0 ≤ ((withS toy 1 194).getS 1).toNat := by
  decide +kernel

/-- Operands 2p - 1 and 2p. -/
theorem test_witness_MsubSubtractsModuloTheDoubledModulus :
    ((withS toy 1 193).getS 1).toNat < 2 * toy.cfg.p .m0 ∧
    2 * toy.cfg.p .m0 ≤ ((withS toy 1 194).getS 1).toNat := by
  decide +kernel

/-- Operands 2p - 1 and 2p. -/
theorem test_witness_MnormReducesToCanonical :
    ((withS toy 1 193).getS 1).toNat < 2 * toy.cfg.p .m0 ∧
    2 * toy.cfg.p .m0 ≤ ((withS toy 1 194).getS 1).toNat := by
  decide +kernel

/-- Operands 2p - 1 and 2p. -/
theorem test_witness_MpowRaisesToAPower :
    ((withS toy 1 193).getS 1).toNat < 2 * toy.cfg.p .m0 ∧
    2 * toy.cfg.p .m0 ≤ ((withS toy 1 194).getS 1).toNat := by
  decide +kernel

/-- Operands 2p - 1 and 2p. -/
theorem test_witness_MinvInvertsResidues :
    ((withS toy 1 193).getS 1).toNat < 2 * toy.cfg.p .m0 ∧
    2 * toy.cfg.p .m0 ≤ ((withS toy 1 194).getS 1).toNat := by
  decide +kernel

/-- The last word of a bank and the index beyond it. -/
theorem test_witness_LdeLoadsOneWord :
    ((withS toy 1 31).getS 1).toNat < capacity toy.cfg .ina ∧
    capacity toy.cfg .ina ≤ ((withS toy 1 32).getS 1).toNat := by
  decide +kernel

theorem test_witness_SteStoresOneWord :
    Bank.out.isInput = false ∧
    ((withS toy 1 32).getS 1).toNat < capacity toy.cfg .out ∧
    capacity toy.cfg .out ≤ ((withS toy 1 33).getS 1).toNat := by
  decide +kernel

theorem test_witness_TwbBuildsTheTable :
    toy.cfg.logNmax < (6 : Lg).val ∧
    (3 : Lg).val ≤ toyLow.cfg.logNmax ∧
    toyLow.cfg.twcap < 2 ^ (3 : Lg).val ∧
    (5 : Lg).val ≤ toy.cfg.logNmax ∧
    2 ^ (5 : Lg).val ≤ toy.cfg.twcap := by
  decide +kernel

theorem test_witness_KdifTransformsABlock :
    Bank.ch0.isTransform = true ∧
    3 < (4 : Lg).val ∧
    (3 : Lg).val ≤ 3 ∧
    ¬ full.Fits .ch0 (full.getS 4).toNat (3 : Lg).val ∧
    full.Fits .ch0 (full.getS 3).toNat (3 : Lg).val ∧
    ¬ unlazy.LazyBlock .ch0 (unlazy.getS 3).toNat (3 : Lg).val .m2 ∧
    full.LazyBlock .ch0 (full.getS 3).toNat (3 : Lg).val .m2 := by
  unfold State.Fits State.LazyBlock
  decide +kernel

theorem test_witness_KditInvertsABlock :
    Bank.ch0.isTransform = true ∧
    3 < (4 : Lg).val ∧
    (3 : Lg).val ≤ 3 ∧
    ¬ full.Fits .ch0 (full.getS 4).toNat (3 : Lg).val ∧
    full.Fits .ch0 (full.getS 3).toNat (3 : Lg).val ∧
    ¬ unlazy.LazyBlock .ch0 (unlazy.getS 3).toNat (3 : Lg).val .m2 ∧
    full.LazyBlock .ch0 (full.getS 3).toNat (3 : Lg).val .m2 := by
  unfold State.Fits State.LazyBlock
  decide +kernel

theorem test_witness_R4difRunsOneStage :
    Bank.ch0.isTransform = true ∧
    ((1 : Lg).val < 2 ∨ full.cfg.logNmax < (1 : Lg).val) ∧
    (2 ≤ (4 : Lg).val ∧ (4 : Lg).val ≤ full.cfg.logNmax) ∧
    ¬ full.Fits .ch0 (full.getS 2).toNat (4 : Lg).val ∧
    full.Fits .ch0 (full.getS 1).toNat (4 : Lg).val ∧
    4 ≤ (4 : Lg).val ∧
    ¬ full.TableOf .m0 ∧
    full.TableOf .m2 ∧
    full.twcfg.tlg.val < (5 : Lg).val ∧
    full.TableReady .m2 (4 : Lg).val ∧
    full.TableTrue ∧
    ¬ unlazy.LazyBlock .ch0 (unlazy.getS 1).toNat (4 : Lg).val .m2 ∧
    full.LazyBlock .ch0 (full.getS 1).toNat (4 : Lg).val .m2 ∧
    full.cfg.logNmax < (6 : Lg).val ∧
    (2 ≤ (2 : Lg).val ∧ full.TableReady .m2 (2 : Lg).val) := by
  unfold State.Fits State.LazyBlock State.TableReady State.TableOf State.TableTrue State.TableUpTo
  decide +kernel

theorem test_witness_R4ditRunsOneStage :
    Bank.ch0.isTransform = true ∧
    ((1 : Lg).val < 2 ∨ full.cfg.logNmax < (1 : Lg).val) ∧
    (2 ≤ (4 : Lg).val ∧ (4 : Lg).val ≤ full.cfg.logNmax) ∧
    ¬ full.Fits .ch0 (full.getS 2).toNat (4 : Lg).val ∧
    full.Fits .ch0 (full.getS 1).toNat (4 : Lg).val ∧
    4 ≤ (4 : Lg).val ∧
    ¬ full.TableOf .m0 ∧
    full.TableOf .m2 ∧
    full.twcfg.tlg.val < (5 : Lg).val ∧
    full.TableReady .m2 (4 : Lg).val ∧
    full.TableTrue ∧
    ¬ unlazy.LazyBlock .ch0 (unlazy.getS 1).toNat (4 : Lg).val .m2 ∧
    full.LazyBlock .ch0 (full.getS 1).toNat (4 : Lg).val .m2 ∧
    full.cfg.logNmax < (6 : Lg).val ∧
    (2 ≤ (2 : Lg).val ∧ full.TableReady .m2 (2 : Lg).val) := by
  unfold State.Fits State.LazyBlock State.TableReady State.TableOf State.TableTrue State.TableUpTo
  decide +kernel

theorem test_witness_NttfIsTheForwardTransform :
    Bank.ch0.isTransform = true ∧
    (full.cfg.logThresh < (18 : Lg).val ∨ full.cfg.logNmax < (6 : Lg).val) ∧
    ((4 : Lg).val ≤ full.cfg.logThresh ∧ (4 : Lg).val ≤ full.cfg.logNmax) ∧
    ¬ full.Fits .ch0 (full.getS 2).toNat (4 : Lg).val ∧
    full.Fits .ch0 (full.getS 1).toNat (4 : Lg).val ∧
    4 ≤ (4 : Lg).val ∧
    ¬ full.TableOf .m0 ∧
    full.TableOf .m2 ∧
    full.twcfg.tlg.val < (5 : Lg).val ∧
    full.TableReady .m2 (4 : Lg).val ∧
    full.TableTrue ∧
    ¬ unlazy.LazyBlock .ch0 (unlazy.getS 1).toNat (4 : Lg).val .m2 ∧
    full.LazyBlock .ch0 (full.getS 1).toNat (4 : Lg).val .m2 ∧
    low.cfg.logThresh < (3 : Lg).val := by
  unfold State.Fits State.LazyBlock State.TableReady State.TableOf State.TableTrue State.TableUpTo
  decide +kernel

theorem test_witness_NttiIsTheInverseTransform :
    Bank.ch0.isTransform = true ∧
    (full.cfg.logThresh < (18 : Lg).val ∨ full.cfg.logNmax < (6 : Lg).val) ∧
    ((4 : Lg).val ≤ full.cfg.logThresh ∧ (4 : Lg).val ≤ full.cfg.logNmax) ∧
    ¬ full.Fits .ch0 (full.getS 2).toNat (4 : Lg).val ∧
    full.Fits .ch0 (full.getS 1).toNat (4 : Lg).val ∧
    4 ≤ (4 : Lg).val ∧
    ¬ full.TableOf .m0 ∧
    full.TableOf .m2 ∧
    full.twcfg.tlg.val < (5 : Lg).val ∧
    full.TableReady .m2 (4 : Lg).val ∧
    full.TableTrue ∧
    ¬ unlazy.LazyBlock .ch0 (unlazy.getS 1).toNat (4 : Lg).val .m2 ∧
    full.LazyBlock .ch0 (full.getS 1).toNat (4 : Lg).val .m2 ∧
    low.cfg.logThresh < (3 : Lg).val := by
  unfold State.Fits State.LazyBlock State.TableReady State.TableOf State.TableTrue State.TableUpTo
  decide +kernel

theorem test_witness_TransformRoundTrip :
    Bank.ch0.isTransform = true ∧
    (4 : Lg).val ≤ full.cfg.logThresh ∧
    (4 : Lg).val ≤ full.cfg.logNmax ∧
    full.Fits .ch0 (full.getS 1).toNat (4 : Lg).val ∧
    full.TableReady .m2 (4 : Lg).val ∧
    full.LazyBlock .ch0 (full.getS 1).toNat (4 : Lg).val .m2 ∧
    full.TableTrue ∧
    (full.getS 5).toNat < 2 * full.cfg.p .m2 ∧
    (full.getS 5).toNat * 2 ^ (4 : Lg).val % full.cfg.p .m2 = 2 ^ 64 % full.cfg.p .m2 := by
  unfold State.Fits State.LazyBlock State.TableReady State.TableTrue State.TableUpTo
  decide +kernel

/-- A block of 16 words at 16 (`S1`), and its quarters at 20 (`S7`), 24 (`S3`) and 28 (`S8`). -/
def quarters : State := withS (withS full 7 20) 8 28

theorem test_witness_TransformLaws :
    Bank.ch0.isTransform = true ∧
    Bank.ch1.isTransform = true ∧
    (4 : Lg).val ≤ quarters.cfg.logThresh ∧
    (4 : Lg).val ≤ quarters.cfg.logNmax ∧
    quarters.Fits .ch0 (quarters.getS 1).toNat (4 : Lg).val ∧
    quarters.TableReady .m2 (4 : Lg).val ∧
    quarters.LazyBlock .ch0 (quarters.getS 1).toNat (4 : Lg).val .m2 ∧
    quarters.LazyBlock .ch1 (quarters.getS 1).toNat (4 : Lg).val .m2 ∧
    quarters.TableTrue ∧
    (2 : Lg).val + 2 = (4 : Lg).val ∧
    (quarters.getS 7).toNat = (quarters.getS 1).toNat + 2 ^ (2 : Lg).val ∧
    (quarters.getS 3).toNat = (quarters.getS 1).toNat + 2 * 2 ^ (2 : Lg).val ∧
    (quarters.getS 8).toNat = (quarters.getS 1).toNat + 3 * 2 ^ (2 : Lg).val := by
  unfold State.Fits State.LazyBlock State.TableReady State.TableTrue State.TableUpTo
  decide +kernel

theorem test_witness_PwmulMultipliesPointwise :
    Bank.ch0.isTransform = true ∧
    Bank.scr.isTransform = true ∧
    full.cfg.logNmax < (6 : Lg).val ∧
    (4 : Lg).val ≤ full.cfg.logNmax ∧
    Bank.ch0 ≠ Bank.scr ∧
    ¬ full.Fits .ch0 (full.getS 2).toNat (4 : Lg).val ∧
    full.Fits .ch0 (full.getS 1).toNat (4 : Lg).val ∧
    ¬ unlazy.LazyBlock .ch0 (unlazy.getS 1).toNat (4 : Lg).val .m2 ∧
    full.LazyBlock .ch0 (full.getS 1).toNat (4 : Lg).val .m2 ∧
    full.LazyBlock .scr (full.getS 1).toNat (4 : Lg).val .m2 := by
  unfold State.Fits State.LazyBlock
  and_intros <;> decide +kernel

theorem test_witness_PwsqrSquaresPointwise :
    Bank.ch0.isTransform = true ∧
    full.cfg.logNmax < (6 : Lg).val ∧
    (4 : Lg).val ≤ full.cfg.logNmax ∧
    ¬ full.Fits .ch0 (full.getS 2).toNat (4 : Lg).val ∧
    full.Fits .ch0 (full.getS 1).toNat (4 : Lg).val ∧
    ¬ unlazy.LazyBlock .ch0 (unlazy.getS 1).toNat (4 : Lg).val .m2 ∧
    full.LazyBlock .ch0 (full.getS 1).toNat (4 : Lg).val .m2 := by
  unfold State.Fits State.LazyBlock
  and_intros <;> decide +kernel

theorem test_witness_SclScalesABlock :
    Bank.ch0.isTransform = true ∧
    full.cfg.logNmax < (6 : Lg).val ∧
    (4 : Lg).val ≤ full.cfg.logNmax ∧
    ¬ full.Fits .ch0 (full.getS 2).toNat (4 : Lg).val ∧
    full.Fits .ch0 (full.getS 1).toNat (4 : Lg).val ∧
    ¬ unlazy.LazyBlock .ch0 (unlazy.getS 1).toNat (4 : Lg).val .m2 ∧
    full.LazyBlock .ch0 (full.getS 1).toNat (4 : Lg).val .m2 ∧
    2 * full.cfg.p .m2 ≤ (full.getS 6).toNat ∧
    (full.getS 5).toNat < 2 * full.cfg.p .m2 := by
  unfold State.Fits State.LazyBlock
  and_intros <;> decide +kernel

theorem test_witness_FwdIsTheForwardTransform :
    Bank.ch0.isTransform = true ∧
    full.cfg.logNmax < (6 : Lg).val ∧
    (4 : Lg).val ≤ full.cfg.logNmax ∧
    ¬ full.Fits .ch0 (full.getS 2).toNat (4 : Lg).val ∧
    full.Fits .ch0 (full.getS 1).toNat (4 : Lg).val ∧
    4 ≤ min (4 : Lg).val full.cfg.logThresh ∧
    ¬ full.TableOf .m0 ∧
    full.TableOf .m2 ∧
    full.twcfg.tlg.val < min (5 : Lg).val full.cfg.logThresh ∧
    full.TableReady .m2 (min (4 : Lg).val full.cfg.logThresh) ∧
    full.TableTrue ∧
    ¬ 4 ≤ min (4 : Lg).val low.cfg.logThresh ∧
    low.TableTrue ∧
    ¬ unlazy.LazyBlock .ch0 (unlazy.getS 1).toNat (4 : Lg).val .m2 ∧
    full.LazyBlock .ch0 (full.getS 1).toNat (4 : Lg).val .m2 := by
  unfold State.Fits State.LazyBlock State.TableReady State.TableOf State.TableTrue State.TableUpTo
  and_intros <;> decide +kernel

theorem test_witness_Cnv2ConvolvesTwoBlocks :
    Bank.ch0.isTransform = true ∧
    Bank.scr.isTransform = true ∧
    full.cfg.logNmax < (6 : Lg).val ∧
    (4 : Lg).val ≤ full.cfg.logNmax ∧
    Bank.ch0 ≠ Bank.scr ∧
    ¬ full.Fits .ch0 (full.getS 2).toNat (4 : Lg).val ∧
    full.Fits .ch0 (full.getS 1).toNat (4 : Lg).val ∧
    4 ≤ min (4 : Lg).val full.cfg.logThresh ∧
    ¬ full.TableOf .m0 ∧
    full.TableOf .m2 ∧
    full.twcfg.tlg.val < min (5 : Lg).val full.cfg.logThresh ∧
    full.TableReady .m2 (min (4 : Lg).val full.cfg.logThresh) ∧
    full.TableTrue ∧
    ¬ 4 ≤ min (4 : Lg).val low.cfg.logThresh ∧
    low.TableTrue ∧
    ¬ unlazy.LazyBlock .ch0 (unlazy.getS 1).toNat (4 : Lg).val .m2 ∧
    full.LazyBlock .ch0 (full.getS 1).toNat (4 : Lg).val .m2 ∧
    full.LazyBlock .scr (full.getS 1).toNat (4 : Lg).val .m2 := by
  unfold State.Fits State.LazyBlock State.TableReady State.TableOf State.TableTrue State.TableUpTo
  and_intros <;> decide +kernel

theorem test_witness_Cnv1ConvolvesWithAnImage :
    Bank.ch0.isTransform = true ∧
    Bank.scr.isTransform = true ∧
    full.cfg.logNmax < (6 : Lg).val ∧
    (4 : Lg).val ≤ full.cfg.logNmax ∧
    Bank.ch0 ≠ Bank.scr ∧
    ¬ full.Fits .ch0 (full.getS 2).toNat (4 : Lg).val ∧
    full.Fits .ch0 (full.getS 1).toNat (4 : Lg).val ∧
    4 ≤ min (4 : Lg).val full.cfg.logThresh ∧
    ¬ full.TableOf .m0 ∧
    full.TableOf .m2 ∧
    full.twcfg.tlg.val < min (5 : Lg).val full.cfg.logThresh ∧
    full.TableReady .m2 (min (4 : Lg).val full.cfg.logThresh) ∧
    full.TableTrue ∧
    ¬ 4 ≤ min (4 : Lg).val low.cfg.logThresh ∧
    low.TableTrue ∧
    ¬ unlazy.LazyBlock .ch0 (unlazy.getS 1).toNat (4 : Lg).val .m2 ∧
    full.LazyBlock .ch0 (full.getS 1).toNat (4 : Lg).val .m2 ∧
    full.LazyBlock .scr (full.getS 1).toNat (4 : Lg).val .m2 ∧
    (∀ m < 2 ^ (2 : Lg).val, full.wordAt .scr (brev (2 : Lg).val m) % full.cfg.p .m2 = dft full.cfg .m2 (2 : Lg).val (fun j => if j = 0 then 3 else 0) m) := by
  unfold State.Fits State.LazyBlock State.TableReady State.TableOf State.TableTrue State.TableUpTo
  and_intros <;> decide +kernel

theorem test_witness_CnvsqConvolvesABlockWithItself :
    Bank.ch0.isTransform = true ∧
    full.cfg.logNmax < (6 : Lg).val ∧
    (4 : Lg).val ≤ full.cfg.logNmax ∧
    ¬ full.Fits .ch0 (full.getS 2).toNat (4 : Lg).val ∧
    full.Fits .ch0 (full.getS 1).toNat (4 : Lg).val ∧
    4 ≤ min (4 : Lg).val full.cfg.logThresh ∧
    ¬ full.TableOf .m0 ∧
    full.TableOf .m2 ∧
    full.twcfg.tlg.val < min (5 : Lg).val full.cfg.logThresh ∧
    full.TableReady .m2 (min (4 : Lg).val full.cfg.logThresh) ∧
    full.TableTrue ∧
    ¬ 4 ≤ min (4 : Lg).val low.cfg.logThresh ∧
    low.TableTrue ∧
    ¬ unlazy.LazyBlock .ch0 (unlazy.getS 1).toNat (4 : Lg).val .m2 ∧
    full.LazyBlock .ch0 (full.getS 1).toNat (4 : Lg).val .m2 := by
  unfold State.Fits State.LazyBlock State.TableReady State.TableOf State.TableTrue State.TableUpTo
  and_intros <;> decide +kernel

theorem test_witness_CnvsqAgreesWithCnv2 :
    Bank.ch0.isTransform = true ∧
    Bank.scr.isTransform = true ∧
    Bank.ch0 ≠ Bank.scr ∧
    full.getS 1 = full.getS 1 ∧
    (∀ j < 2 ^ (4 : Lg).val, full.wordAt .scr ((full.getS 1).toNat + j) = full.wordAt .ch0 ((full.getS 1).toNat + j)) ∧
    (4 : Lg).val ≤ full.cfg.logNmax ∧
    full.Fits .ch0 (full.getS 1).toNat (4 : Lg).val ∧
    full.TableReady .m2 (min (4 : Lg).val full.cfg.logThresh) ∧
    full.LazyBlock .ch0 (full.getS 1).toNat (4 : Lg).val .m2 := by
  unfold State.Fits State.LazyBlock State.TableReady
  decide +kernel

/-- Residues p - 1 and p, of the last triple of scalar registers. -/
theorem test_witness_Crt3ReconstructsTheInteger :
    (13 : Reg).val + 2 < 16 ∧
    ((withS toy 13 96).sreg[13]).toNat < toy.cfg.p .m0 ∧
    ((withS toy 14 192).sreg[14]).toNat < toy.cfg.p .m1 ∧
    ((withS toy 15 256).sreg[15]).toNat < toy.cfg.p .m2 ∧
    toy.cfg.p .m2 ≤ ((withS toy 15 257).sreg[15]).toNat := by
  decide +kernel

theorem test_witness_CrtcReconstructsAndCarries :
    toy.clen.toNat = 0 ∧
    toy.cfg.ncap < ({ toy with clen := 33 } : State).clen.toNat ∧
    (({ toy with clen := 32 } : State).clen.toNat ≠ 0 ∧ ({ toy with clen := 32 } : State).clen.toNat ≤ toy.cfg.ncap) := by
  decide +kernel

/-- Under REFCFG with a length below `2^LOG_NMAX`, a block that exceeds the bank; and a whole bank. -/
theorem test_witness_LdmLoadsAndPads :
    toy.cfg.logNmax < (6 : Lg).val ∧
    ({ toy with len1 := 0 } : State).len1.toNat = 0 ∧
    2 ^ (1 : Lg).val < ({ toy with len1 := 3 } : State).len1.toNat ∧
    ({ ref with len1 := 1 } : State).len1.toNat ≠ 0 ∧
    (40 : Lg).val ≤ ref.cfg.logNmax ∧
    ref.cfg.ncap < 2 ^ (18 : Lg).val ∧
    ({ toy with len1 := 32 } : State).len1.toNat ≤ 2 ^ (5 : Lg).val ∧
    2 ^ (5 : Lg).val ≤ toy.cfg.ncap := by
  decide +kernel

/-- Lengths that sum to `NCAP` + 1, and to one more. -/
theorem test_witness_MulEndState :
    ({ toy with len1 := 0 } : State).len1.toNat = 0 ∧
    toy.cfg.ncap < 16 + 18 - 1 ∧
    16 + 17 - 1 ≤ toy.cfg.ncap ∧
    ({ toy with len1 := 16, len2 := 17 } : State).len1.toNat + ({ toy with len1 := 16, len2 := 17 } : State).len2.toNat - 1 = 32 ∧
    (32 ≤ 2 ^ 5 ∧ ∀ l' < 5, ¬ 32 ≤ 2 ^ l') := by
  decide +kernel

theorem test_witness_SqrEndState :
    ({ toy with len1 := 0 } : State).len1.toNat = 0 ∧
    toy.cfg.ncap < 2 * ({ toy with len1 := 17 } : State).len1.toNat - 1 ∧
    2 * ({ toy with len1 := 16 } : State).len1.toNat - 1 ≤ toy.cfg.ncap ∧
    (31 ≤ 2 ^ 5 ∧ ∀ l' < 5, ¬ 31 ≤ 2 ^ l') := by
  decide +kernel

/-- REFCFG meets R7 (e). -/
theorem test_witness_MulComputesTheProduct :
    ref.cfg.ProductBound ∧
    ({ ref with len1 := 3, len2 := 4 } : State).len1.toNat ≠ 0 ∧
    ({ ref with len1 := 3, len2 := 4 } : State).len2.toNat ≠ 0 ∧
    3 + 4 - 1 ≤ ref.cfg.ncap ∧
    2 * 3 - 1 ≤ ref.cfg.ncap := by
  unfold Config.ProductBound
  decide +kernel

/-- REFCFG meets R7 (e). -/
theorem test_witness_SqrComputesTheSquare :
    ref.cfg.ProductBound ∧
    ({ ref with len1 := 3, len2 := 4 } : State).len1.toNat ≠ 0 ∧
    ({ ref with len1 := 3, len2 := 4 } : State).len2.toNat ≠ 0 ∧
    3 + 4 - 1 ≤ ref.cfg.ncap ∧
    2 * 3 - 1 ≤ ref.cfg.ncap := by
  unfold Config.ProductBound
  decide +kernel

/-- Two operands of two limbs under TOYCFG. -/
def pairOfTwo : State := { (toy.store .ina 0 [5, 6]).store .inb 0 [7, 8] with len1 := 2, len2 := 2 }

theorem test_witness_MulIsItsCommandSequence :
    pairOfTwo.status.busy = false ∧
    pairOfTwo.status.fault = false ∧
    pairOfTwo.len1.toNat + pairOfTwo.len2.toNat - 1 = 3 ∧
    3 ≤ pairOfTwo.cfg.ncap ∧
    pairOfTwo.getS 0 = 0 ∧
    (3 ≤ 2 ^ (2 : Lg).val ∧ ∀ l' < 2, ¬ 3 ≤ 2 ^ l') ∧
    (2 : Lg).val = min (2 : Lg).val pairOfTwo.cfg.logThresh := by
  decide +kernel

/-- R255 on two operands of two limbs: the host's own commands, in order, leave what `MUL` leaves, but for `LGN` and `CMD`. -/
theorem test_mul_sequence :
    ([0x20002000, 0x70002060, 0x70002370, 0x51202030, 0x20402000, 0x70402160, 0x70402370, 0x51602130, 0x20802000, 0x70802260,
      0x70802370, 0x51A02230, 0x64000000].foldl after { pairOfTwo with clen := 3 } : State)
      = { after pairOfTwo 0x71000000 with lgn := 0, cmd := 0x64000000 } := by
  decide +kernel

/-- Two runs that differ in all else. -/
theorem test_witness_MulDependsOnItsInputsAlone :
    ({ full with banks := pairOfTwo.banks, len1 := 2, len2 := 2 } : State).cfg = pairOfTwo.cfg ∧
    (∀ i < 2, ({ full with banks := pairOfTwo.banks, len1 := 2, len2 := 2 } : State).bankRead .ina i = pairOfTwo.bankRead .ina i) ∧
    (∀ i < 2, ({ full with banks := pairOfTwo.banks, len1 := 2, len2 := 2 } : State).bankRead .inb i = pairOfTwo.bankRead .inb i) ∧
    pairOfTwo.len1.toNat = 2 ∧
    pairOfTwo.len2.toNat = 2 ∧
    full.twcfg ≠ pairOfTwo.twcfg ∧
    (3 ≤ 2 ^ 2 ∧ ∀ l' < 2, ¬ 3 ≤ 2 ^ l') := by
  decide +kernel

theorem test_witness_SqrAgreesWithMul :
    pairOfTwo.len2 = pairOfTwo.len1 ∧
    (∀ i < 2, (pairOfTwo.store .inb 0 [5, 6]).bankRead .inb i = (pairOfTwo.store .inb 0 [5, 6]).bankRead .ina i) ∧
    2 * 2 - 1 ≤ pairOfTwo.cfg.ncap ∧
    (3 ≤ 2 ^ 2 ∧ ∀ l' < 2, ¬ 3 ≤ 2 ^ l') := by
  decide +kernel

end Sys2Proof.Tests
end

section
/-! Proofs. The product laws of `MUL` and `SQR` (R254): the three passes leave the linear convolution of the limbs in the channels,
and `CRTC` makes the exact product of it. -/

namespace Sys2Proof.Machine.State

/-- Under R7 (e) `MUL` leaves the exact product, its top coefficient in `V`, and nothing in `ACC` (R253, R254). -/
theorem execMul_product {s : State} (hc : s.cfg.ProductBound) (h1 : s.len1.toNat ≠ 0) (h2 : s.len2.toNat ≠ 0)
    (hn : s.len1.toNat + s.len2.toNat - 1 ≤ s.cfg.ncap) :
    ∃ t, execMul s = .next t ∧ t.status.done = true ∧ t.olen.toNat = s.len1.toNat + s.len2.toNat ∧
      t.limbValue .out (s.len1.toNat + s.len2.toNat)
        = s.limbValue .ina s.len1.toNat * s.limbValue .inb s.len2.toNat ∧
      t.v.val = s.wordAt .ina (s.len1.toNat - 1) * s.wordAt .inb (s.len2.toNat - 1) ∧ t.acc = ⟨0, 0, 0⟩ := by
  have hlog := isLeastLog_clog2 (s.len1.toNat + s.len2.toNat - 1)
  obtain ⟨u, hu, hstate, hchannels, -⟩ := (s.setLengths (s.len1.toNat + s.len2.toNat - 1)).mulPasses_spec
    (hlog.le_nmax hn) h1 h2 hlog.1
  have hcfg : u.cfg = s.cfg := by rw [hstate]; rfl
  obtain ⟨t, ht, holen, hvalue, hv, hacc⟩ := u.reconstruct_product (by rwa [hcfg]) (s.wordAt_lt .ina) (s.wordAt_lt .inb)
    h1 h2 (by rwa [hcfg]) fun k i hi => by rw [hcfg]; exact hchannels k i (hi.trans_le hlog.1)
  exact ⟨t.complete, by rw [s.execMul_eq h1 h2 hn hlog, hu, ht], rfl, holen, hvalue, hv, hacc⟩

/-- Under R7 (e) `SQR` leaves the exact square, the square of the top limb in `V`, and nothing in `ACC` (R253, R254). -/
theorem execSqr_square {s : State} (hc : s.cfg.ProductBound) (h1 : s.len1.toNat ≠ 0) (hn : 2 * s.len1.toNat - 1 ≤ s.cfg.ncap) :
    ∃ t, execSqr s = .next t ∧ t.status.done = true ∧ t.olen.toNat = 2 * s.len1.toNat ∧
      t.limbValue .out (2 * s.len1.toNat) = s.limbValue .ina s.len1.toNat ^ 2 ∧
      t.v.val = s.wordAt .ina (s.len1.toNat - 1) ^ 2 ∧ t.acc = ⟨0, 0, 0⟩ := by
  have hlog := isLeastLog_clog2 (2 * s.len1.toNat - 1)
  obtain ⟨u, hu, hstate, hchannels, -⟩ := (s.setLengths (2 * s.len1.toNat - 1)).sqrPasses_spec (hlog.le_nmax hn) h1 hlog.1
  have hcfg : u.cfg = s.cfg := by rw [hstate]; rfl
  have heq := s.execSqr_eq h1 hn hlog
  rw [hu, two_mul] at heq
  rw [two_mul] at hn hchannels hlog
  obtain ⟨t, ht, holen, hvalue, hv, hacc⟩ := u.reconstruct_product (by rwa [hcfg]) (s.wordAt_lt .ina) (s.wordAt_lt .ina)
    h1 h1 (by rwa [hcfg]) fun k i hi => by rw [hcfg]; exact hchannels k i (hi.trans_le hlog.1)
  rw [two_mul, pow_two, pow_two]
  exact ⟨t.complete, by rw [heq, ht], rfl, holen, hvalue, hv, hacc⟩

end Sys2Proof.Machine.State

namespace Sys2Proof

/-- Settles O55: the passes leave the linear convolution in the channels, whose coefficients R7 (e) keeps below `PPP`, so that
`CRTC` reconstructs each of them and the carries run out. -/
theorem mulComputesTheProduct : Obligations.MulComputesTheProduct :=
  fun _ hc h1 h2 hn => Machine.State.execMul_product hc h1 h2 hn

/-- Settles O56: as O55, with the convolution of the operand with itself. -/
theorem sqrComputesTheSquare : Obligations.SqrComputesTheSquare :=
  fun _ hc h1 hn => Machine.State.execSqr_square hc h1 hn

end Sys2Proof
end

section
/-! Proofs. The decoder yields well-formed commands only (R75 steps 5 and 6). -/

namespace Sys2Proof

variable {f : Fields} {i : Instr}

/-- A command built through format `S2` is well formed where the command of any operands is. -/
theorem wellFormed_of_buildS2 {mk : Reg → Reg → Modulus → Instr} (hmk : ∀ rd ra k, (mk rd ra k).wellFormed = true)
    (h : buildS2 f mk = .ok i) : i.wellFormed = true := by
  rw [buildS2] at h
  cases hk : modulusOf f.m <;> rw [hk] at h <;> cases h
  exact hmk ..

/-- A command built through format `S3` is well formed where the command of any operands is. -/
theorem wellFormed_of_buildS3 {mk : Reg → Reg → Reg → Modulus → Instr}
    (hmk : ∀ rd ra rb k, (mk rd ra rb k).wellFormed = true) (h : buildS3 f mk = .ok i) : i.wellFormed = true := by
  rw [buildS3] at h
  cases hk : modulusOf f.m <;> rw [hk] at h <;> cases h
  exact hmk ..

/-- A command built through format `B1` is well formed where the command of any transform bank is. -/
theorem wellFormed_of_buildB1 {mk : Bank → Reg → Modulus → Lg → Instr}
    (hmk : ∀ b ra k lg, b.isTransform = true → (mk b ra k lg).wellFormed = true) (h : buildB1 f mk = .ok i) :
    i.wellFormed = true := by
  rw [buildB1] at h
  cases hk : modulusOf f.m <;> rw [hk] at h
  · cases h
  · cases hb : transformOf f.rd <;> rw [hb] at h <;> cases h
    exact hmk _ _ _ _ (of_bankWhere hb).2

/-- A command built through format `B2` or `B2N` is well formed where the command of any two transform banks is. -/
theorem wellFormed_of_buildB2 {mk : Bank → Bank → Reg → Modulus → Lg → Instr}
    (hmk : ∀ d b rb k lg, d.isTransform = true → b.isTransform = true → (mk d b rb k lg).wellFormed = true)
    (h : buildB2 f mk = .ok i) : i.wellFormed = true := by
  rw [buildB2] at h
  cases hk : modulusOf f.m <;> rw [hk] at h
  · cases h
  · cases hd : transformOf f.rd <;> rw [hd] at h
    · cases h
    · cases hb : transformOf f.ra <;> rw [hb] at h <;> cases h
      exact hmk _ _ _ _ _ (of_bankWhere hd).2 (of_bankWhere hb).2

/-- A command that the opcode map builds has the banks and the register triple that R75 steps 5 and 6 allow. -/
theorem wellFormed_of_build (h : build f = .ok i) : i.wellFormed = true := by
  have b1 {mk : Bank → Reg → Modulus → Lg → Instr} (hmk : ∀ b ra k lg, (mk b ra k lg).wellFormed = b.isTransform)
      (h : buildB1 f mk = .ok i) : i.wellFormed = true :=
    wellFormed_of_buildB1 (fun _ _ _ _ hb => (hmk ..).trans hb) h
  have b2 {mk : Bank → Bank → Reg → Modulus → Lg → Instr}
      (hmk : ∀ d b rb k lg, (mk d b rb k lg).wellFormed = (d.isTransform && b.isTransform))
      (h : buildB2 f mk = .ok i) : i.wellFormed = true :=
    wellFormed_of_buildB2 (fun _ _ _ _ _ hd hb => by rw [hmk, hd, hb]; rfl) h
  -- The cases are the opcodes of the map, in its order (R77).
  rw [build.eq_def] at h
  split at h
  case h_2 | h_3 | h_7 | h_9 => exact wellFormed_of_buildS2 (fun _ _ _ => rfl) h
  case h_4 | h_5 | h_6 | h_8 => exact wellFormed_of_buildS3 (fun _ _ _ _ => rfl) h
  case h_10 => -- `LDE`
    cases hb : bankWhere (fun _ => true) f.ra <;> rw [hb] at h <;> cases h
    rfl
  case h_11 => -- `STE`
    cases hb : bankWhere (fun b => !b.isInput) f.rd <;> rw [hb] at h <;> cases h
    exact (of_bankWhere hb).2
  case h_12 => -- `TWB`
    cases hk : modulusOf f.m <;> rw [hk] at h <;> cases h
    rfl
  case h_13 | h_14 | h_15 | h_16 | h_17 | h_18 | h_20 | h_21 | h_22 | h_25 => exact b1 (fun _ _ _ _ => rfl) h
  case h_19 | h_23 | h_24 => exact b2 (fun _ _ _ _ _ => rfl) h
  case h_26 => -- `CRT3`
    split at h <;> cases h
    rename_i hr
    exact decide_eq_true ((Nat.mod_le _ _).trans hr)
  case h_31 => -- `LDM`
    cases hk : modulusOf f.m <;> rw [hk] at h
    · cases h
    · cases hd : transformOf f.rd <;> rw [hd] at h
      · cases h
      · cases hb : bankWhere Bank.isInput f.ra <;> rw [hb] at h <;> cases h
        rw [Instr.wellFormed, (of_bankWhere hd).2, (of_bankWhere hb).2]
        rfl
  case h_34 => cases h -- no opcode of the map
  all_goals
    cases h
    rfl

/-- An accepted word selects a well-formed command (R75). -/
theorem wellFormed_of_decode {c : Word} (h : decode c = .ok i) : i.wellFormed = true := by
  obtain ⟨-, -, -, -, hb⟩ := fields_of_decode h
  exact wellFormed_of_build hb

end Sys2Proof
end

section
/-! Proofs. The part of the invariant that the data of a state decide, kept by every operation of a command on its legal
operands (R25, R28, R29, R30). -/

namespace Sys2Proof.Machine

theorem not_isTwiddle_of_isTransform {b : Bank} (h : b.isTransform = true) : b.isTwiddle = false := by
  cases b <;> first | rfl | cases h

/-- Checks that pass have each passed (R273). -/
theorem pass_of_firstFault {cs : List Check} (h : firstFault cs = none) : ∀ c ∈ cs, c.1 = false := by
  induction cs with
  | nil => simp
  | cons c cs ih =>
    obtain ⟨bad, f⟩ := c
    rw [firstFault_cons] at h
    cases bad
    · simpa using ih h
    · cases h

/-- A condition that a passed list checks does not hold. -/
theorem not_of_firstFault {cs : List Check} (h : firstFault cs = none) {P : Prop} [Decidable P] {f : FaultCode}
    (hc : (decide P, f) ∈ cs) : ¬ P :=
  of_decide_eq_false (pass_of_firstFault h _ hc)

/-- A block whose extent a passed list checks lies inside its bank (R144 (1)). -/
theorem State.fits_of_firstFault {s : State} {cs : List Check} (h : firstFault cs = none) {b : Bank} {off l : Nat}
    (hc : s.extentCheck b off l ∈ cs) : s.Fits b off l :=
  (s.extentCheck_eq b off l).1 (pass_of_firstFault h _ hc)

/-- Lengths that pass the checks of `MUL` and `SQR` (R248). -/
theorem State.lengths_of_firstFault {s : State} {n1 n2 : Nat} (h : firstFault (s.orchChecks n1 n2) = none) :
    n1 ≠ 0 ∧ n2 ≠ 0 ∧ n1 + n2 - 1 ≤ s.cfg.ncap := by
  have hzero := pass_of_firstFault h (decide (n1 = 0) || decide (n2 = 0), .length) (by simp [orchChecks])
  have hcap : ¬ s.cfg.ncap < n1 + n2 - 1 := not_of_firstFault h (f := .capacity) (by simp [orchChecks])
  rw [Bool.or_eq_false_iff, decide_eq_false_iff_not, decide_eq_false_iff_not] at hzero
  exact ⟨hzero.1, hzero.2, not_lt.1 hcap⟩

/-- What the invariant says of the banks, `LGN` and the table: the part that an operation of a command could break. -/
structure State.DataSound (s : State) : Prop where
  banks  : ∀ b, s.BankSound b
  lgn    : s.lgn.toNat ≤ 63
  length : s.twcfg.tvalid = true → s.twcfg.tlg.val ≤ s.cfg.logNmax ∧ 2 ^ s.twcfg.tlg.val ≤ s.cfg.twcap
  table  : s.TableTrue

namespace State.DataSound

variable {s t : State}

/-- Only the configuration, the banks, the epoch, `LGN` and `TWCFG` decide it. -/
theorem congr (h : s.DataSound) (hc : t.cfg = s.cfg) (hb : t.banks = s.banks) (he : t.epoch = s.epoch) (hl : t.lgn = s.lgn)
    (hw : t.twcfg = s.twcfg) : t.DataSound where
  banks b := bankSound_of_eq hb hc (h.banks b)
  lgn := by rw [hl]; exact h.lgn
  length := by rw [hw, hc]; exact h.length
  table := h.table.congr hc hw (bankRead_of_banks hb he _) (bankRead_of_banks hb he _)

/-! ### Writes of words -/

/-- A store of a word into a bank other than the table's (R52). -/
theorem bankStore (h : s.DataSound) {b : Bank} (hb : b.isTwiddle = false) {i : Nat} (hi : i < capacity s.cfg b) (v : Word) :
    (s.bankStore b i v).DataSound where
  banks b' := s.bankSound_bankStore (h.banks b') hi
  lgn := h.lgn
  length := h.length
  table := by
    have other : ∀ b', b'.isTwiddle = true → ∀ j, (s.bankStore b i v).bankRead b' j = s.bankRead b' j := fun b' ht j => by
      rw [bankRead_bankStore, if_neg]
      rintro ⟨rfl, -⟩
      rw [hb] at ht
      cases ht
    exact h.table.congr rfl rfl (other .twf rfl) (other .twi rfl)

/-- A store of words into a bank other than the table's (R135). -/
theorem store (h : s.DataSound) {b : Bank} (hb : b.isTwiddle = false) {i : Nat} {xs : List Nat}
    (hi : i + xs.length ≤ capacity s.cfg b) : (s.store b i xs).DataSound := by
  induction xs generalizing s i with
  | nil => exact h
  | cons x xs ih =>
    rw [List.length_cons] at hi
    exact ih (h.bankStore hb (by omega) _) (by rw [bankStore_cfg]; omega)

/-- A write of a word into any bank: one of the table's ends the table (R56). -/
theorem memWrite (h : s.DataSound) {b : Bank} {i : Nat} (hi : i < capacity s.cfg b) (v : Word) :
    (s.memWrite b i v).DataSound := by
  cases hb : b.isTwiddle
  · rw [State.memWrite, hb]
    exact h.bankStore hb hi v
  · have gone : (s.memWrite b i v).twcfg.tvalid ≠ true := by rw [memWrite_twcfg, hb]; simp
    exact ⟨fun b' => s.bankSound_memWrite (h.banks b') hi, by rw [memWrite_lgn]; exact h.lgn, fun hv => absurd hv gone,
      fun hv => absurd hv gone⟩

/-- A block operation that keeps the block's length (R135). -/
theorem mapBlock (h : s.DataSound) {b : Bank} (hb : b.isTransform = true) {off l : Nat} (hf : s.Fits b off l)
    {f : List Nat → List Nat} (hlen : ∀ x, x.length = 2 ^ l → (f x).length = 2 ^ l) : (s.mapBlock b off l f).DataSound :=
  h.store (not_isTwiddle_of_isTransform hb) (by rw [hlen _ (s.length_block b off l)]; exact hf)

/-- Building a table of an admitted length makes it the valid one (R126). -/
theorem buildTable (h : s.DataSound) {k : Modulus} {l : Lg} (hn : l.val ≤ s.cfg.logNmax) (hc : 2 ^ l.val ≤ s.cfg.twcap) :
    (s.buildTable k l).DataSound where
  banks b := by
    refine bankSound_of_eq rfl rfl (bankSound_store _ (bankSound_store s (h.banks b) ?_) ?_)
    · rw [length_tableWords, Nat.zero_add]
      exact hc
    · rw [length_tableWords, Nat.zero_add, store_cfg]
      exact hc
  lgn := by rw [buildTable_lgn]; exact h.lgn
  length _ := by rw [buildTable_twcfg, buildTable_cfg]; exact ⟨hn, hc⟩
  table _ := by rw [buildTable_twcfg]; exact s.tableUpTo_buildTable hn

/-! ### The convolutions -/

variable {d b : Bank} {off l : Nat} {k : Modulus}

/-- The operation of `CNV2` writes its two blocks (R197). -/
theorem convolve2 (h : s.DataSound) (hd : d.isTransform = true) (hb : b.isTransform = true) (hf : s.Fits d off l) (nf : Bool) :
    (s.convolve2 d b off k l nf).DataSound := by
  obtain ⟨hx, hy⟩ := length_convr s.cfg k .two s.twfAt s.twiAt (s.length_block d off l) fun _ => s.length_block b off l
  refine (h.store (not_isTwiddle_of_isTransform hd) ?_).store (not_isTwiddle_of_isTransform hb) ?_
  · rw [length_finishConv, hx]
    exact hf
  · rw [length_canonical, hy (by decide), store_cfg, capacity_transform _ hb, ← capacity_transform _ hd]
    exact hf

/-- The operation of `CNV1` writes its first block (R198). -/
theorem convolve1 (h : s.DataSound) (hd : d.isTransform = true) (hf : s.Fits d off l) (nf : Bool) :
    (s.convolve1 d b off k l nf).DataSound := by
  obtain ⟨hx, -⟩ := length_convr s.cfg k .one s.twfAt s.twiAt (s.length_block d off l) fun _ => s.length_block b off l
  refine h.store (not_isTwiddle_of_isTransform hd) ?_
  rw [length_finishConv, hx]
  exact hf

/-- The operation of `CNVSQ` writes its block (R199). -/
theorem convolveSq (h : s.DataSound) (hd : d.isTransform = true) (hf : s.Fits d off l) (nf : Bool) :
    (s.convolveSq d off k l nf).DataSound := by
  obtain ⟨hx, -⟩ := length_convr s.cfg k .sq s.twfAt s.twiAt (y := []) (s.length_block d off l) fun hv => absurd rfl hv
  refine h.store (not_isTwiddle_of_isTransform hd) ?_
  rw [length_finishConv, hx]
  exact hf

/-! ### `CRTC` -/

/-- The loop of `CRTC` writes below the end of `OUT` (R223). -/
theorem crtcLoop (h : s.DataSound) {n i : Nat} (hi : i + n ≤ capacity s.cfg .out) : (crtcLoop n i s).DataSound := by
  induction n generalizing i s with
  | zero => exact h
  | succ n ih =>
    have hstep : (s.crtcStep i).DataSound :=
      (h.bankStore (b := .out) rfl (show i < capacity s.cfg .out by omega) _).congr rfl rfl rfl rfl rfl
    exact ih hstep (i := i + 1) (by change _ ≤ capacity s.cfg .out; omega)

/-- `CRTC` on the coefficients of at most a channel writes one word more, and `OUT` holds it (R30, R223). -/
theorem reconstruct (h : s.DataSound) {n : Nat} (hn : n ≤ s.cfg.ncap) : (s.reconstruct n).DataSound := by
  have hclear : s.clearAcc.DataSound := h.congr rfl rfl rfl rfl rfl
  have hloop := hclear.crtcLoop (n := n) (i := 0) (by rw [Nat.zero_add]; exact hn.trans (Nat.le_succ _))
  have hcfg := (Kept.crtcLoop s.clearAcc n 0).cfg
  refine (hloop.bankStore (b := .out) rfl (i := n) ?_ _).congr rfl rfl rfl rfl rfl
  rw [hcfg]
  exact Nat.lt_succ_of_le hn

/-! ### `MUL` and `SQR` -/

/-- The exponent that `MUL` and `SQR` set fits `LGN` (R28, R250). -/
theorem setLengths (h : s.DataSound) {n : Nat} (hn : n ≤ s.cfg.ncap) : (s.setLengths n).DataSound where
  banks := h.banks
  lgn := by
    have := clog2_le (hn.trans s.cfg.ncap_le)
    rw [setLengths_lgn, BitVec.toNat_ofNat, Nat.mod_eq_of_lt (by omega)]
    exact this
  length := h.length
  table := h.table

/-- `LDM` writes a block that its bank holds (R246). -/
theorem loadOperand (h : s.DataSound) {src : Bank} (hd : d.isTransform = true) (hn : s.lengthOf src ≤ 2 ^ l)
    (hl : 2 ^ l ≤ s.cfg.ncap) : (s.loadOperand d src k l).DataSound := by
  refine h.store (not_isTwiddle_of_isTransform hd) ?_
  rw [List.length_append, List.length_map, length_load, List.length_replicate, capacity_transform _ hd]
  omega

/-- The table that precedes a pass is of an admitted length (R247, R249). -/
theorem buildTable_tableExp (h : s.DataSound) (hl : l ≤ s.cfg.logNcap) : (s.buildTable k (s.tableExp l)).DataSound := by
  have := s.cfg.ncap_le_nmax
  refine h.buildTable ?_ (Nat.pow_le_pow_right (by norm_num) ?_) <;> rw [val_tableExp] <;> omega

/-- The operands of a pass fit the channel (R249). -/
theorem loadChannel (h : s.DataSound) (hl : l ≤ s.cfg.logNcap) (h1 : s.len1.toNat ≤ 2 ^ l) :
    ((s.buildTable k (s.tableExp l)).loadOperand (channel k) .ina k l).DataSound := by
  refine (h.buildTable_tableExp hl).loadOperand (channel_transform k) ?_ ?_
  · rw [lengthOf, if_neg (by decide), buildTable_len1]
    exact h1
  · rw [buildTable_cfg]
    exact Nat.pow_le_pow_right (by norm_num) hl

/-- One modulus pass of `SQR` (R249). -/
theorem sqrPass (h : s.DataSound) (hl : l ≤ s.cfg.logNcap) (h1 : s.len1.toNat ≤ 2 ^ l) : (s.sqrPass k l).DataSound := by
  refine (h.loadChannel hl h1).convolveSq (channel_transform k) ?_ _
  rw [Fits, loadOperand_eq, buildTable_cfg, capacity_channel, Nat.zero_add]
  exact Nat.pow_le_pow_right (by norm_num) hl

/-- One modulus pass of `MUL` (R249). -/
theorem mulPass (h : s.DataSound) (hl : l ≤ s.cfg.logNcap) (h1 : s.len1.toNat ≤ 2 ^ l) (h2 : s.len2.toNat ≤ 2 ^ l) :
    (s.mulPass k l).DataSound := by
  have hcap : 2 ^ l ≤ s.cfg.ncap := Nat.pow_le_pow_right (by norm_num) hl
  refine ((h.loadChannel hl h1).loadOperand (src := .inb) rfl ?_ ?_).convolve2 (channel_transform k) rfl ?_ _
  · rw [lengthOf, if_pos rfl, loadOperand_eq, buildTable_len2]
    exact h2
  · rw [loadOperand_eq, buildTable_cfg]
    exact hcap
  · rw [Fits, loadOperand_eq, loadOperand_eq, buildTable_cfg, capacity_channel, Nat.zero_add]
    exact hcap

/-- The three passes of `SQR` (R251). -/
theorem sqrPasses (h : s.DataSound) (hl : l ≤ s.cfg.logNcap) (h1 : s.len1.toNat ≤ 2 ^ l) :
    (((s.sqrPass .m0 l).sqrPass .m1 l).sqrPass .m2 l).DataSound := by
  have k0 := Kept.sqrPass s .m0 l
  have k1 := k0.trans (Kept.sqrPass _ .m1 l)
  exact ((h.sqrPass hl h1).sqrPass (by rwa [k0.cfg]) (by rwa [k0.len1])).sqrPass (by rwa [k1.cfg]) (by rwa [k1.len1])

/-- The three passes of `MUL` (R250). -/
theorem mulPasses (h : s.DataSound) (hl : l ≤ s.cfg.logNcap) (h1 : s.len1.toNat ≤ 2 ^ l) (h2 : s.len2.toNat ≤ 2 ^ l) :
    (((s.mulPass .m0 l).mulPass .m1 l).mulPass .m2 l).DataSound := by
  have k0 := Kept.mulPass s .m0 l
  have k1 := k0.trans (Kept.mulPass _ .m1 l)
  exact ((h.mulPass hl h1 h2).mulPass (by rwa [k0.cfg]) (by rwa [k0.len1]) (by rwa [k0.len2])).mulPass (by rwa [k1.cfg])
    (by rwa [k1.len1]) (by rwa [k1.len2])

/-- The operation of `MUL` on lengths that pass its checks (R248, R250). -/
theorem mulOperation (h : s.DataSound) {n : Nat} (hn : n ≤ s.cfg.ncap) (h1 : s.len1.toNat ≤ n) (h2 : s.len2.toNat ≤ n) :
    (((((s.setLengths n).mulPass .m0 (clog2 n)).mulPass .m1 (clog2 n)).mulPass .m2 (clog2 n)).reconstruct n).DataSound := by
  have hle := (isLeastLog_clog2 n).1
  have hk := (((Kept.setLengths s n).trans (Kept.mulPass _ .m0 (clog2 n))).trans (Kept.mulPass _ .m1 (clog2 n))).trans
    (Kept.mulPass _ .m2 (clog2 n))
  exact ((h.setLengths hn).mulPasses (clog2_le hn) (h1.trans hle) (h2.trans hle)).reconstruct (by rwa [hk.cfg])

/-- The operation of `SQR` on a length that passes its checks (R248, R251). -/
theorem sqrOperation (h : s.DataSound) {n : Nat} (hn : n ≤ s.cfg.ncap) (h1 : s.len1.toNat ≤ n) :
    (((((s.setLengths n).sqrPass .m0 (clog2 n)).sqrPass .m1 (clog2 n)).sqrPass .m2 (clog2 n)).reconstruct n).DataSound := by
  have hle := (isLeastLog_clog2 n).1
  have hk := (((Kept.setLengths s n).trans (Kept.sqrPass _ .m0 (clog2 n))).trans (Kept.sqrPass _ .m1 (clog2 n))).trans
    (Kept.sqrPass _ .m2 (clog2 n))
  exact ((h.setLengths hn).sqrPasses (clog2_le hn) (h1.trans hle)).reconstruct (by rwa [hk.cfg])

/-! ### Commands -/

/-- A command keeps it where its operation does, the checks having passed (R274). -/
theorem of_command {checks : List Check} {op : State → State} (h : s.DataSound)
    (hop : firstFault checks = none → (op s).DataSound) (ht : s.command checks op = .next t) : t.DataSound := by
  rcases s.command_cases checks op with ⟨f, -, e⟩ | ⟨hp, e⟩
  · rw [e] at ht
    cases ht
    exact h.congr rfl rfl rfl rfl rfl
  · rw [e] at ht
    cases ht
    exact (hop hp).congr rfl rfl rfl rfl rfl

/-- An engine command writes a scalar register only (R100). -/
theorem of_engine {checks : List Check} {rd : Reg} {v : Nat} (h : s.DataSound) (ht : s.engine checks rd v = .next t) :
    t.DataSound :=
  h.of_command (fun _ => h.congr rfl rfl rfl rfl rfl) ht

/-- A kernel command keeps it where its transform keeps the block's length (R135). -/
theorem of_transform {bad : Bool} {bank : Bank} {ra : Reg} {table : List Check} {f : List Nat → List Nat} (h : s.DataSound)
    (hb : bank.isTransform = true) (hlen : bad = false → ∀ x, x.length = 2 ^ l → (f x).length = 2 ^ l)
    (ht : s.transform bad bank ra k l table f = .next t) : t.DataSound := by
  refine h.of_command (fun hp => h.mapBlock hb (fits_of_firstFault hp (by simp [blockChecks])) fun x hx => ?_) ht
  rw [length_canonical]
  exact hlen (pass_of_firstFault hp _ (List.mem_cons_self ..)) x hx

/-- Every well-formed command keeps it: it writes inside its banks, and the table's banks only where it builds the table or
ends it. -/
theorem of_exec {i : Instr} (h : s.DataSound) (hw : i.wellFormed = true) (ht : exec i s = .next t) : t.DataSound := by
  have two_le {l n : Nat} (hbad : (decide (l < 2) || decide (n < l)) = false) : 2 ≤ l :=
    not_lt.1 (of_decide_eq_false (Bool.or_eq_false_iff.1 hbad).1)
  cases i
  all_goals dsimp only [exec, execCrt3, execLdm, execMul, execSqr] at ht
  case nop => exact h.of_command (fun _ => h) ht
  case mto | mfrom | mmul | madd | msub | mnorm | mpow | minv => exact h.of_engine ht
  case lde | crt3 | cacc | cemit | cclr => exact h.of_command (fun _ => h.congr rfl rfl rfl rfl rfl) ht
  case ste bank ra rb =>
    exact h.of_command (fun hp => h.memWrite (not_le.1 (not_of_firstFault hp (List.mem_singleton_self _))) _) ht
  case twb k lg =>
    refine h.of_command (fun hp => h.buildTable ?_ ?_) ht
    · exact not_lt.1 (not_of_firstFault hp (f := .length) (by simp))
    · exact not_lt.1 (not_of_firstFault hp (f := .capacity) (by simp))
  case kdif => exact h.of_transform hw (fun _ _ => length_kdif _ _) ht
  case kdit => exact h.of_transform hw (fun _ _ => length_kdit _ _) ht
  case r4dif => exact h.of_transform hw (fun hbad _ => length_r4dif _ _ _ (two_le hbad)) ht
  case r4dit => exact h.of_transform hw (fun hbad _ => length_r4dit _ _ _ (two_le hbad)) ht
  case nttf => exact h.of_transform hw (fun _ _ => length_nttf _ _ _) ht
  case ntti => exact h.of_transform hw (fun _ _ => length_ntti _ _ _) ht
  case pwmul bankd banks rb k lg =>
    rw [Instr.wellFormed, Bool.and_eq_true] at hw
    exact h.of_command (fun hp => h.mapBlock hw.1 (fits_of_firstFault hp (by simp))
      fun x hx => length_pointwise _ _ hx (s.length_block banks _ _)) ht
  case pwsqr bank ra k lg =>
    exact h.of_command (fun hp => h.mapBlock hw (fits_of_firstFault hp (by simp [blockChecks]))
      fun x hx => length_pointwise _ _ hx hx) ht
  case scl bank ra rb k lg =>
    exact h.of_command (fun hp => h.mapBlock hw (fits_of_firstFault hp (by simp))
      fun x hx => (length_scaleBy ..).trans hx) ht
  case fwd bank ra k lg =>
    exact h.of_command (fun hp => h.mapBlock hw (fits_of_firstFault hp (by simp [convChecks1, blockChecks]))
      fun x hx => (length_canonical ..).trans (length_fwdr _ _ _ hx)) ht
  case cnv2 bankd banks rb k lg nf =>
    rw [Instr.wellFormed, Bool.and_eq_true] at hw
    exact h.of_command (fun hp => h.convolve2 hw.1 hw.2 (fits_of_firstFault hp (by simp [convChecks2])) nf) ht
  case cnv1 bankd banks rb k lg nf =>
    rw [Instr.wellFormed, Bool.and_eq_true] at hw
    exact h.of_command (fun hp => h.convolve1 hw.1 (fits_of_firstFault hp (by simp [convChecks2])) nf) ht
  case cnvsq bank ra k lg nf =>
    exact h.of_command (fun hp => h.convolveSq hw (fits_of_firstFault hp (by simp [convChecks1, blockChecks])) nf) ht
  case crtc =>
    exact h.of_command (fun hp => h.reconstruct (not_lt.1 (not_of_firstFault hp (f := .capacity) (by simp)))) ht
  case ldm bank src k lg =>
    rw [Instr.wellFormed, Bool.and_eq_true] at hw
    refine h.of_command (fun hp => h.loadOperand hw.1 ?_ ?_) ht
    · have hlen := pass_of_firstFault hp (decide (s.lengthOf src = 0) || decide (2 ^ lg.val < s.lengthOf src), .length)
        (by simp)
      rw [Bool.or_eq_false_iff] at hlen
      exact not_lt.1 (of_decide_eq_false hlen.2)
    · exact not_lt.1 (not_of_firstFault hp (f := .bounds) (by simp))
  case mul =>
    refine h.of_command (fun hp => ?_) ht
    obtain ⟨h1, h2, hcap⟩ := lengths_of_firstFault hp
    exact h.mulOperation hcap (by omega) (by omega)
  case sqr =>
    refine h.of_command (fun hp => ?_) ht
    obtain ⟨h1, -, hcap⟩ := lengths_of_firstFault hp
    exact h.sqrOperation (by omega) (by omega)

end State.DataSound

end Sys2Proof.Machine
end

section
/-! Proofs. The invariant of the machine: at reset and across every step. Its control part (R25, R271, R276, R278) is decided by
`STATUS`, `FINFO` and `CMD`; its data part is `DataSound`. -/

namespace Sys2Proof.Machine

/-- What the invariant says of `STATUS`, `FINFO` and `CMD`. -/
structure State.ControlSound (s : State) : Prop where
  idle      : s.status.busy = false
  exclusive : ¬ (s.status.done = true ∧ s.status.fault = true)
  clean     : s.status.fault = false → s.status.fcode = 0 ∧ s.finfo = 0
  recorded  : s.status.fault = true → (∃ f : FaultCode, s.status.fcode = f.bits) ∧ s.finfo.toNat = s.cmd.toNat % 2 ^ 32

/-- The invariant is its control part and its data part. -/
theorem inv_iff {s : State} : Inv s ↔ s.ControlSound ∧ s.DataSound :=
  ⟨fun ⟨hbanks, hidle, hexcl, hclean, hrec, hlgn, hlen, htab⟩ => ⟨⟨hidle, hexcl, hclean, hrec⟩, ⟨hbanks, hlgn, hlen, htab⟩⟩,
    fun ⟨⟨hidle, hexcl, hclean, hrec⟩, ⟨hbanks, hlgn, hlen, htab⟩⟩ => ⟨hbanks, hidle, hexcl, hclean, hrec, hlgn, hlen, htab⟩⟩

theorem toNat_finfoOf (c : Word) : (finfoOf c).toNat = c.toNat % 2 ^ 32 := by
  rw [finfoOf, BitVec.toNat_ofNat]
  omega

namespace State.ControlSound

variable {s t : State}

theorem congr (h : s.ControlSound) (hs : t.status = s.status) (hf : t.finfo = s.finfo) (hc : t.cmd = s.cmd) :
    t.ControlSound where
  idle := by rw [hs]; exact h.idle
  exclusive := by rw [hs]; exact h.exclusive
  clean := by rw [hs, hf]; exact h.clean
  recorded := by rw [hs, hf, hc]; exact h.recorded

/-- A fault records itself, whatever the state was (R276). -/
theorem raise (s : State) (f : FaultCode) : (s.raise f).ControlSound where
  idle := rfl
  exclusive := by simp [Status.faulted]
  clean h := by cases h
  recorded _ := ⟨⟨f, rfl⟩, toNat_finfoOf s.cmd⟩

/-- Completion of a command that a sound, unstopped block accepted (R76). -/
theorem complete (h : s.ControlSound) (hf : s.status.fault = false) {c : Word} (hk : Kept (s.accept c) t) :
    t.complete.ControlSound := by
  have hstatus : t.complete.status = s.status.accepted.completed := by rw [complete_status, hk.status, accept_status]
  have hfault : t.complete.status.fault = false := by rw [hstatus]; exact hf
  refine ⟨by rw [hstatus]; rfl, fun hx => ?_, fun _ => ?_, fun hx => ?_⟩
  · rw [hfault] at hx
    cases hx.2
  · rw [hstatus, complete_finfo, hk.finfo, accept_finfo]
    exact h.clean hf
  · rw [hfault] at hx
    cases hx

/-- A command accepted by a sound, unstopped block completes or faults soundly (R274). -/
theorem of_exec {i : Instr} {c : Word} (h : s.ControlSound) (hf : s.status.fault = false)
    (ht : exec i (s.accept c) = .next t) : t.ControlSound := by
  obtain ⟨u, hu, ⟨v, hk, rfl⟩ | ⟨f, rfl⟩⟩ := exec_cases i (s.accept c)
  · rw [hu] at ht
    cases ht
    exact h.complete hf hk
  · rw [hu] at ht
    cases ht
    exact raise _ f

end State.ControlSound

/-- The reset state meets the invariant: nothing is written, and every register is zero (R34). -/
theorem inv_resetWith (cfg : Config) (epoch : Nat) (host : List HostMove) (answer : Option Word) :
    Inv (State.resetWith cfg epoch host answer) where
  banks b := by cases b <;> exact ⟨rfl, rfl⟩
  idle := rfl
  exclusive h := by cases h.1
  clean _ := ⟨rfl, rfl⟩
  recorded h := by cases h
  lgn := Nat.zero_le _
  length h := by cases h
  table h := by cases h

namespace Inv

variable {s t : State}

/-- The moves that the host has left and the answer it had last are no part of the invariant (R60). -/
theorem withHost (h : Inv s) (host : List HostMove) (answer : Option Word) :
    Inv { s with host := host, answer := answer } := by
  obtain ⟨hc, hd⟩ := inv_iff.1 h
  exact inv_iff.2 ⟨hc.congr rfl rfl rfl, hd.congr rfl rfl rfl rfl rfl⟩

/-- A write of `CMD` keeps the invariant: ignored, refused as illegal, or run as a well-formed command (R31, R276). -/
theorem of_issue (h : Inv s) {c : Word} (ht : s.issue c = .next t) : Inv t := by
  obtain ⟨hc, hd⟩ := inv_iff.1 h
  have haccept : (s.accept c).DataSound := hd.congr rfl rfl rfl rfl rfl
  cases hf : s.status.fault
  · cases hdec : decode c with
    | error e =>
      rw [State.issue_of_illegal hf hdec] at ht
      cases ht
      exact inv_iff.2 ⟨.raise _ _, haccept.congr rfl rfl rfl rfl rfl⟩
    | ok i =>
      rw [State.issue_of_decode hf hdec] at ht
      exact inv_iff.2 ⟨hc.of_exec hf ht, haccept.of_exec (wellFormed_of_decode hdec) ht⟩
  · rw [State.issue_of_fault hf] at ht
    cases ht
    exact h

/-- A write of another register keeps the invariant: none of them is a register that it speaks of (R24). -/
theorem regWrite (h : Inv s) (idx : BitVec 7) (v : Word) : Inv (s.regWrite idx v) := by
  obtain ⟨hc, hd⟩ := inv_iff.1 h
  rw [State.regWrite]
  split
  case h_10 =>
    split
    · exact inv_iff.2 ⟨hc.congr rfl rfl rfl, hd.congr rfl rfl rfl rfl rfl⟩
    · exact h
  all_goals exact inv_iff.2 ⟨hc.congr rfl rfl rfl, hd.congr rfl rfl rfl rfl rfl⟩

/-- A write of the memory port keeps the invariant: it reaches a word of a bank or none (R52, R56). -/
theorem portWrite (h : Inv s) (bank : BitVec 4) (i : Nat) (v : Word) : Inv (s.portWrite bank i v) := by
  obtain ⟨hc, hd⟩ := inv_iff.1 h
  rw [State.portWrite]
  split
  · obtain ⟨-, hi⟩ := State.portTarget_some ‹_›
    exact inv_iff.2 ⟨hc.congr (s.memWrite_status ..) (s.memWrite_finfo ..) (s.memWrite_cmd ..), hd.memWrite hi v⟩
  · exact h

/-- Every move of the host keeps the invariant (R58). -/
theorem of_hostMove (h : Inv s) {m : HostMove} (ht : s.hostMove m = .next t) : Inv t := by
  cases m with
  | writeReg idx v =>
    by_cases hidx : idx = 0
    · rw [hidx, State.hostMove_writeCmd h.idle] at ht
      exact h.of_issue ht
    · rw [State.hostMove_writeReg h.idle hidx] at ht
      cases ht
      exact h.regWrite idx v
  | readReg idx =>
    rw [State.hostMove_readReg h.idle] at ht
    cases ht
    exact h.withHost _ _
  | writeBank bank i v =>
    rw [State.hostMove_writeBank h.idle] at ht
    cases ht
    exact h.portWrite bank i v
  | readBank bank i =>
    rw [State.hostMove_readBank h.idle] at ht
    cases ht
    exact h.withHost _ _
  | reset =>
    rw [State.hostMove_reset] at ht
    cases ht
    exact inv_resetWith ..

/-- Every step keeps the invariant. -/
theorem of_step (h : Inv s) (ht : step s = .next t) : Inv t := by
  cases hhost : s.host with
  | nil =>
    rw [step_nil hhost] at ht
    cases ht
    exact h
  | cons m rest =>
    rw [step_cons hhost] at ht
    exact (h.withHost rest s.answer).of_hostMove ht

end Inv

end Sys2Proof.Machine

namespace Sys2Proof

/-- Settles O16: after reset nothing is written and every register is zero, so that each clause holds of the empty banks or has
a false hypothesis. -/
theorem invariantHoldsAtReset : Obligations.InvariantHoldsAtReset :=
  ⟨Machine.inv_resetWith, Machine.inv_resetWith ..⟩

/-- Settles O17: the control part by the form of a command, which completes or faults; the data part by the writes of each
command, which its checks keep inside the banks, and which reach the table's banks only where they end the table or build it. -/
theorem everyStepKeepsTheInvariant : Obligations.EveryStepKeepsTheInvariant :=
  fun _ _ h ht => h.of_step ht

end Sys2Proof
end

section
/-! Proofs. The constant ROM (R26, R27): each entry of a modulus descriptor by its defining equation, and the words of `PPP` and
`CFG`. -/

namespace Sys2Proof.Config

open Machine

variable (c : Config) (k : Modulus)

/-! ### The entries of a descriptor -/

theorem cast_root_ne : ((c.root k : Nat) : c.F k) ≠ 0 := by
  have := c.fact k
  rw [Ne, ZMod.natCast_eq_zero_iff]
  have hroot := c.legal.modulus k
  exact Nat.not_dvd_of_pos_of_lt hroot.root_pos hroot.root_lt

/-- A Montgomery word of an inverse, times what it inverts, is the Montgomery form of 1. -/
theorem mul_mod_of_cast_inv {a b : Nat} (hb : (b : c.F k) ≠ 0) (h : (a : c.F k) = (b : c.F k)⁻¹ * 2 ^ 64) :
    a * b % c.p k = 2 ^ 64 % c.p k := by
  have := c.fact k
  rw [c.mod_eq_iff, Nat.cast_mul, h, mul_right_comm, inv_mul_cancel₀ hb, one_mul, Nat.cast_pow, Nat.cast_ofNat]

/-- A canonical word with the residue of a Montgomery form is that form (R14). -/
theorem eq_mont_of_cast {a b : Nat} (ha : a < c.p k) (h : (a : c.F k) = b * 2 ^ 64) : a = b * 2 ^ 64 % c.p k :=
  eq_mod_of_cast ha (by rw [h, Nat.cast_mul, Nat.cast_pow, Nat.cast_ofNat])

theorem cast_unityRoot_ne {l : Nat} (hl : l ≤ c.logNmax) : ((unityRoot c k l : Nat) : c.F k) ≠ 0 := c.rootF_ne k hl

theorem rootim_mul_root : c.rootim k * c.root k % c.p k = 2 ^ 64 % c.p k :=
  c.mul_mod_of_cast_inv k (c.cast_root_ne k) (c.cast_rootim k)

theorem w4_eq : c.w4 k = unityRoot c k 2 * 2 ^ 64 % c.p k :=
  c.eq_mont_of_cast k (c.mont_lt k _) (c.cast_w4 k)

theorem w4i_mul : c.w4i k * unityRoot c k 2 % c.p k = 2 ^ 64 % c.p k :=
  c.mul_mod_of_cast_inv k (c.cast_unityRoot_ne k (Nat.le_of_succ_le c.nmax_ge)) (c.cast_w4i k)

theorem w8_eq : c.w8 k = unityRoot c k 3 * 2 ^ 64 % c.p k :=
  c.eq_mont_of_cast k (c.mont_lt k _) (c.cast_w8 k)

theorem w8c_eq : c.w8c k = unityRoot c k 3 ^ 3 * 2 ^ 64 % c.p k :=
  c.eq_mont_of_cast k (c.mont_lt k _) (by rw [c.cast_w8c, Nat.cast_pow]; rfl)

theorem w8i_mul : c.w8i k * unityRoot c k 3 % c.p k = 2 ^ 64 % c.p k :=
  c.mul_mod_of_cast_inv k (c.cast_unityRoot_ne k c.nmax_ge) (c.cast_w8i k)

theorem w8ic_mul : c.w8ic k * unityRoot c k 3 ^ 3 % c.p k = 2 ^ 64 % c.p k := by
  have := c.fact k
  have hne := c.cast_unityRoot_ne k c.nmax_ge
  refine c.mul_mod_of_cast_inv k (by rw [Nat.cast_pow]; exact pow_ne_zero 3 hne) ?_
  rw [c.cast_w8ic, Nat.cast_pow, ← inv_pow]
  rfl

theorem inv_mul_mi : c.inv k * c.mi k % c.p k = 1 := by
  have h : ((c.inv k * c.mi k : Nat) : c.F k) = ((1 : Nat) : c.F k) := by
    rw [Nat.cast_mul, mul_comm, cast_inv, Nat.cast_one]
  rw [(c.mod_eq_iff k _ _).2 h, Nat.mod_eq_of_lt (c.prime k).one_lt]

theorem one_le_inv : 1 ≤ c.inv k := by
  by_contra h
  have hone := c.inv_mul_mi k
  rw [Nat.lt_one_iff.1 (not_le.1 h), Nat.zero_mul, Nat.zero_mod] at hone
  cases hone

/-- The two words of `MI` have its value. -/
theorem mi_words : c.mi k % radix + c.mi k / radix * 2 ^ 64 = c.mi k := Nat.mod_add_div' _ _

/-! ### `CFG` -/

theorem cfgWord_lt : c.cfgWord < 2 ^ 64 := by
  have := c.nmax_le
  have := c.thresh_lt
  have := c.ncap_le_nmax
  rw [cfgWord]
  omega

end Sys2Proof.Config

namespace Sys2Proof.Machine.State

/-- The register port reads each entry of a descriptor whole: it fits the word (R26). -/
theorem toNat_regRead_descriptor (s : State) (k : Modulus) {j : Nat} (hj : j < 16) :
    (s.regRead (BitVec.ofNat 7 (0x40 + 16 * k.idx + j))).toNat = s.cfg.descriptor k j := by
  rw [s.regRead_descriptor k ⟨j, hj⟩, BitVec.toNat_ofNat, Nat.mod_eq_of_lt (s.cfg.descriptor_lt k j)]

/-- The three words of `PPP` have the value of the product of the primes (R27). -/
theorem regRead_ppp (s : State) :
    (s.regRead 0x70).toNat + 2 ^ 64 * (s.regRead 0x71).toNat + 2 ^ 128 * (s.regRead 0x72).toNat = s.cfg.ppp :=
  Wide.val_ofNat ((ppp_lt s.cfg).trans (by norm_num))

/-- `CFG` fits its word (R27). -/
theorem toNat_regRead_cfg (s : State) : (s.regRead 0x73).toNat = s.cfg.cfgWord :=
  (BitVec.toNat_ofNat ..).trans (Nat.mod_eq_of_lt s.cfg.cfgWord_lt)

end Sys2Proof.Machine.State

namespace Sys2Proof

/-- Settles O15: the port reads the descriptor's entries whole, and each meets its equation in the field of residues. -/
theorem romHoldsItsConstants : Obligations.RomHoldsItsConstants := by
  refine fun s => ⟨fun k => ?_, s.regRead_ppp, s.toNat_regRead_cfg⟩
  let c := s.cfg
  have entry {j : Nat} (hj : j < 16) := s.toNat_regRead_descriptor k hj
  simp only [entry, Nat.reduceLT]
  refine ⟨rfl, rfl, c.nprime_mul k, c.one_eq k, c.mont_eq k _, ⟨c.mont_lt k _, c.rootim_mul_root k⟩, c.w4_eq k,
    ⟨c.mont_lt k _, c.w4i_mul k⟩, c.w8_eq k, c.w8c_eq k, ⟨c.mont_lt k _, c.w8i_mul k⟩, ⟨c.mont_lt k _, c.w8ic_mul k⟩,
    ⟨c.one_le_inv k, c.inverse_lt k _, ?_⟩, ?_, rfl⟩
  · rw [c.descriptor_thirteen, c.descriptor_fourteen, c.mi_words]
    exact c.inv_mul_mi k
  · rw [c.descriptor_thirteen, c.descriptor_fourteen, c.mi_words]
    exact Machine.ppp_eq_mi c k

end Sys2Proof
end

section
/-! Proofs. The register port (R24): what it reads, what a write of a writable register leaves; acceptance (R31) and reset (R34). -/

namespace Sys2Proof.Machine

/-- `STATUS` as the register port reads it holds its fields at the bits of R25. -/
theorem Status.toNat_word (t : Status) :
    t.word.toNat = t.busy.toNat + 2 * t.done.toNat + 4 * t.fault.toNat + 2 ^ 8 * t.fcode.toNat := by
  have := t.busy.toNat_lt
  have := t.done.toNat_lt
  have := t.fault.toNat_lt
  have := t.fcode.isLt
  rw [word, BitVec.toNat_ofNat, Nat.mod_eq_of_lt (by omega)]
  ring

/-- `TWCFG` as the register port reads it holds its fields at the bits of R29. -/
theorem TableCfg.toNat_word (t : TableCfg) :
    t.word.toNat = t.tmod.idx + 2 ^ 8 * t.tlg.val + 2 ^ 16 * t.tvalid.toNat := by
  have := t.tmod.idx_lt
  have := t.tlg.isLt
  have := t.tvalid.toNat_lt
  rw [word, BitVec.toNat_ofNat, Nat.mod_eq_of_lt (by omega)]
  ring

/-- The indices that R24 lists as RW, but for `CMD`. -/
def Writable (idx : BitVec 7) : Prop :=
  idx.toNat ∈ [0x02, 0x03, 0x04, 0x0C, 0x0D, 0x0E, 0x10, 0x11, 0x12] ∨ (0x20 ≤ idx.toNat ∧ idx.toNat ≤ 0x2F)

/-- The index of a scalar register names one of the sixteen (R21, R24). -/
theorem exists_scalar {idx : BitVec 7} (h : idx.toNat / 16 = 2) : ∃ r : Reg, idx = BitVec.ofNat 7 (0x20 + r.val) := by
  refine ⟨⟨idx.toNat - 0x20, by omega⟩, BitVec.eq_of_toNat_eq ?_⟩
  rw [BitVec.toNat_ofNat, Nat.mod_eq_of_lt (by dsimp only; omega)]
  dsimp only
  omega

namespace State

variable (s : State)

theorem getS_setS_self (r : Reg) (v : Word) : (s.setS r v).getS r = v := Vector.getElem_set_self ..

theorem getS_setS_ne {r r' : Reg} (h : r ≠ r') (v : Word) : (s.setS r v).getS r' = s.getS r' :=
  Vector.getElem_set_ne r.isLt r'.isLt fun e => h (Fin.ext e)

/-- A write of a writable register is read back (R24). -/
theorem regRead_regWrite_self {idx : BitVec 7} (h : Writable idx) (v : Word) : (s.regWrite idx v).regRead idx = v := by
  rcases h with h | h
  · have hidx {n : Nat} (e : idx.toNat = n) : idx = BitVec.ofNat 7 n := by rw [← e, BitVec.ofNat_toNat, BitVec.setWidth_eq]
    simp only [List.mem_cons, List.not_mem_nil, or_false] at h
    rcases h with e | e | e | e | e | e | e | e | e <;> rw [hidx e] <;> rfl
  · obtain ⟨r, rfl⟩ := exists_scalar (idx := idx) (by omega)
    rw [regWrite_scalar, regRead_scalar, getS_setS_self]

/-- A write of a scalar register leaves every other index as it was (R24). -/
theorem regRead_setS_ne {j : BitVec 7} {r : Reg} (h : j ≠ BitVec.ofNat 7 (0x20 + r.val)) (v : Word) :
    (s.setS r v).regRead j = s.regRead j := by
  by_cases hj : j.toNat / 16 = 2
  · obtain ⟨r', rfl⟩ := exists_scalar hj
    rw [regRead_scalar, regRead_scalar, getS_setS_ne]
    rintro rfl
    exact h rfl
  · rw [regRead, regRead]
    split
    case h_20 => rw [if_neg hj, if_neg hj]; rfl
    all_goals rfl

/-- A write of the register port leaves every other index as it was (R24). -/
theorem regRead_regWrite_ne {idx j : BitVec 7} (h : j ≠ idx) (v : Word) : (s.regWrite idx v).regRead j = s.regRead j := by
  have hne : j.toNat ≠ idx.toNat := fun e => h (BitVec.eq_of_toNat_eq e)
  by_cases hscalar : idx.toNat / 16 = 2
  · obtain ⟨r, rfl⟩ := exists_scalar hscalar
    rw [regWrite_scalar, regRead_setS_ne s h]
  · rw [regWrite]
    split
    case h_10 => rw [if_neg hscalar]
    -- The port reads another register at every index but the written one, which is not j.
    all_goals
      rename_i hidx
      rw [hidx] at hne
      rw [regRead, regRead]
      split <;> first | rfl | exact absurd ‹_› hne

/-- What no write of the register port changes: the banks, the configuration and the model's own fields. -/
theorem regWrite_frame (idx : BitVec 7) (v : Word) :
    (s.regWrite idx v).banks = s.banks ∧ (s.regWrite idx v).cfg = s.cfg ∧ (s.regWrite idx v).epoch = s.epoch ∧
      (s.regWrite idx v).host = s.host ∧ (s.regWrite idx v).answer = s.answer := by
  rw [regWrite]
  split
  case h_10 => split <;> exact ⟨rfl, rfl, rfl, rfl, rfl⟩
  all_goals exact ⟨rfl, rfl, rfl, rfl, rfl⟩

theorem getS_resetWith (cfg : Config) (epoch : Nat) (host : List HostMove) (answer : Option Word) (r : Reg) :
    (resetWith cfg epoch host answer).getS r = 0 := Vector.getElem_replicate ..

/-- After reset every bank word is the free word of its epoch (R57, R301). -/
theorem bankRead_resetWith (cfg : Config) (epoch : Nat) (host : List HostMove) (answer : Option Word) (b : Bank) (i : Nat) :
    (resetWith cfg epoch host answer).bankRead b i = Config.unwrittenWord epoch b.id i := by
  cases b <;> rfl

end State

end Sys2Proof.Machine

namespace Sys2Proof

open Machine

/-- Settles O5: the step is the issue of the word, which in a block that is not stopped is `exec` of the decoded command. -/
theorem stepRunsTheDecodedCommand : Obligations.StepRunsTheDecodedCommand := by
  intro s c i rest hhost hbusy hfault hdec
  rw [step_writeCmd hbusy hhost, State.issue_of_decode (s := { s with host := rest }) hfault hdec]
  rfl

/-- Settles O9: the reset move answers the reset state of the next epoch. -/
theorem resetLeavesTheResetState : Obligations.ResetLeavesTheResetState := fun _ _ hhost =>
  ⟨_, step_reset hhost, State.getS_resetWith _ _ _ _, rfl, rfl, rfl, rfl, rfl, rfl, rfl, rfl, rfl, rfl, rfl, rfl,
    State.bankRead_resetWith _ _ _ _, rfl, rfl, rfl⟩

/-- Settles O10: each listed index reads its register by the register map; `STATUS` and `TWCFG` are packed from their fields. -/
theorem registerPortReads : Obligations.RegisterPortReads := fun s =>
  ⟨rfl, s.status.toNat_word, rfl, rfl, rfl, rfl, rfl, s.twcfg.toNat_word, rfl, rfl, rfl, rfl, rfl, rfl, rfl, s.regRead_scalar,
    fun _ => s.regRead_unlisted⟩

/-- Settles O11: the step is the write of the register port, which is read back and leaves every other index as it was. -/
theorem writableRegistersHoldWhatIsWritten : Obligations.WritableRegistersHoldWhatIsWritten := by
  intro s idx v rest hbusy hhost hidx
  have hcmd : idx ≠ 0 := by
    rintro rfl
    simp at hidx
  exact ⟨_, step_writeReg hbusy hcmd hhost, State.regRead_regWrite_self _ hidx v,
    fun _ hj => State.regRead_regWrite_ne { s with host := rest } hj v, State.regWrite_frame { s with host := rest } idx v⟩

/-- Settles O12: the step is the write of the register port, which ignores an index that is not writable. -/
theorem readOnlyRegistersIgnoreWrites : Obligations.ReadOnlyRegistersIgnoreWrites := by
  intro s idx v rest hbusy hhost hlist hscalar
  have hcmd : idx ≠ 0 := by
    rintro rfl
    exact hlist (List.mem_cons_self ..)
  rw [step_writeReg hbusy hcmd hhost, State.regWrite_ignored _ v hlist hscalar]

end Sys2Proof
end

section
/-! Proofs. The two ports as the host uses them on an idle block: reads (R55), and the words that the memory port reaches (R52, R56). -/

namespace Sys2Proof.Machine.State

variable (s : State) {id : BitVec 4} {i : Nat} {b : Bank}

/-- A read of a word that is there reads it (R52). -/
theorem portRead_of (hid : id.toNat = b.id) (hi : i < capacity s.cfg b) : s.portRead id i = s.bankRead b i := by
  rw [portRead, portTarget_of hid hi]

/-- A bad read reads as zero (R52). -/
theorem portRead_none (h : ∀ b : Bank, id.toNat = b.id → capacity s.cfg b ≤ i) : s.portRead id i = 0 := by
  rw [portRead, portTarget_none h]

/-- A write of a word that is there writes it (R52). -/
theorem portWrite_of (hid : id.toNat = b.id) (hi : i < capacity s.cfg b) (v : Word) :
    s.portWrite id i v = s.memWrite b i v := by
  rw [portWrite, portTarget_of hid hi]

/-- A bad write changes nothing (R52). -/
theorem portWrite_none (h : ∀ b : Bank, id.toNat = b.id → capacity s.cfg b ≤ i) (v : Word) : s.portWrite id i v = s := by
  rw [portWrite, portTarget_none h]

/-- A written word is read back. -/
theorem bankRead_memWrite_self (b : Bank) (i : Nat) (v : Word) : (s.memWrite b i v).bankRead b i = v := by
  rw [bankRead_memWrite, if_pos ⟨rfl, rfl⟩]

/-- A write of a word leaves every other word of every bank. -/
theorem bankRead_memWrite_ne {b b' : Bank} {i j : Nat} (h : b' ≠ b ∨ j ≠ i) (v : Word) :
    (s.memWrite b i v).bankRead b' j = s.bankRead b' j := by
  rw [bankRead_memWrite, if_neg (not_and_or.2 h)]

end Sys2Proof.Machine.State

namespace Sys2Proof

open Machine

/-- Settles O13: the step of either read is the answer to the host. -/
theorem readsHaveNoSideEffect : Obligations.ReadsHaveNoSideEffect := fun _ _ hbusy =>
  ⟨fun _ => step_readReg hbusy, fun _ _ => step_readBank hbusy⟩

/-- Settles O14: the port reaches either one word, which it reads or writes as `memWrite` does, or no word. -/
theorem memoryPortReadsAndWritesWords : Obligations.MemoryPortReadsAndWritesWords := by
  intro s id i v rest hbusy hhost
  let s' : State := { s with host := rest }
  have hstep : step s = .next (s'.portWrite id i v) := step_writeBank hbusy hhost
  refine ⟨fun b hid hi => ⟨s.portRead_of hid hi, s'.memWrite b i v, ?_, s'.bankRead_memWrite_self b i v,
    fun _ _ hne => s'.bankRead_memWrite_ne hne v, ?_⟩, fun hbad => ⟨s.portRead_none hbad, ?_⟩⟩
  · rw [hstep, s'.portWrite_of hid hi]
  · rw [State.memWrite_eq]
  · rw [hstep, s'.portWrite_none hbad]

end Sys2Proof
end

section
/-! Proofs. The word of a well-formed command decodes to it (R70, R75), the words that R82 works out among them. -/

namespace Sys2Proof.Laws

/-- The fields of every command fit their bits, and a well-formed command is built from its own fields (R70, R71, R75). -/
theorem fitting_building : ∀ i : Instr, Fitting.Statement i ∧ Building.Statement i
  | .nop => ⟨Fitting.nop, Building.nop⟩
  | .mto .. => ⟨Fitting.mto .., Building.mto _ _ _⟩
  | .mfrom .. => ⟨Fitting.mfrom .., Building.mfrom _ _ _⟩
  | .mmul .. => ⟨Fitting.mmul .., Building.mmul _ _ _ _⟩
  | .madd .. => ⟨Fitting.madd .., Building.madd _ _ _ _⟩
  | .msub .. => ⟨Fitting.msub .., Building.msub _ _ _ _⟩
  | .mnorm .. => ⟨Fitting.mnorm .., Building.mnorm _ _ _⟩
  | .mpow .. => ⟨Fitting.mpow .., Building.mpow _ _ _ _⟩
  | .minv .. => ⟨Fitting.minv .., Building.minv _ _ _⟩
  | .lde .. => ⟨Fitting.lde .., Building.lde _ _ _⟩
  | .ste .. => ⟨Fitting.ste .., Building.ste _ _ _⟩
  | .twb .. => ⟨Fitting.twb .., Building.twb _ _⟩
  | .kdif .. => ⟨Fitting.kdif .., Building.kdif _ _ _ _⟩
  | .kdit .. => ⟨Fitting.kdit .., Building.kdit _ _ _ _⟩
  | .r4dif .. => ⟨Fitting.r4dif .., Building.r4dif _ _ _ _⟩
  | .r4dit .. => ⟨Fitting.r4dit .., Building.r4dit _ _ _ _⟩
  | .nttf .. => ⟨Fitting.nttf .., Building.nttf _ _ _ _⟩
  | .ntti .. => ⟨Fitting.ntti .., Building.ntti _ _ _ _⟩
  | .pwmul .. => ⟨Fitting.pwmul .., Building.pwmul _ _ _ _ _⟩
  | .pwsqr .. => ⟨Fitting.pwsqr .., Building.pwsqr _ _ _ _⟩
  | .scl .. => ⟨Fitting.scl .., Building.scl _ _ _ _ _⟩
  | .fwd .. => ⟨Fitting.fwd .., Building.fwd _ _ _ _⟩
  | .cnv2 .. => ⟨Fitting.cnv2 .., Building.cnv2 _ _ _ _ _ _⟩
  | .cnv1 .. => ⟨Fitting.cnv1 .., Building.cnv1 _ _ _ _ _ _⟩
  | .cnvsq .. => ⟨Fitting.cnvsq .., Building.cnvsq _ _ _ _ _⟩
  | .crt3 .. => ⟨Fitting.crt3 .., Building.crt3 _⟩
  | .cacc => ⟨Fitting.cacc, Building.cacc⟩
  | .cemit .. => ⟨Fitting.cemit .., Building.cemit _⟩
  | .cclr => ⟨Fitting.cclr, Building.cclr⟩
  | .crtc => ⟨Fitting.crtc, Building.crtc⟩
  | .ldm .. => ⟨Fitting.ldm .., Building.ldm _ _ _ _⟩
  | .mul => ⟨Fitting.mul, Building.mul⟩
  | .sqr => ⟨Fitting.sqr, Building.sqr⟩

end Sys2Proof.Laws

namespace Sys2Proof

/-- The decoder reads from the word of a command the fields that were packed into it (R70). -/
theorem ofWord_encode (i : Instr) : Fields.ofWord (encode i).toNat = i.fields := by
  obtain ⟨hfit, -⟩ := Laws.fitting_building i
  rw [encode, toNat_ofNat_pack hfit, Fields.ofWord_pack hfit]

/-- The word of a well-formed command decodes to it: its upper half is zero, and it is built from its own fields (R75). -/
theorem decode_encode {i : Instr} (h : i.wellFormed = true) : decode (encode i) = .ok i := by
  obtain ⟨hfit, hbuilding⟩ := Laws.fitting_building i
  obtain ⟨fm, hformat, hunused, hbuild⟩ := hbuilding h
  have hupper : (encode i).toNat < 2 ^ 32 := by
    rw [encode, toNat_ofNat_pack hfit]
    exact Fields.pack_lt hfit
  rw [← ofWord_encode i] at hformat hunused hbuild
  rw [decode_of_fields hupper hformat hunused, hbuild]

/-- Settles O1: the word of a command gives back its fields, from which the command is built. -/
theorem decodeInvertsEncode : Obligations.DecodeInvertsEncode := fun _ => decode_encode

/-- Settles O3: each word is the word of the command it stands for, and that command is well formed. -/
theorem workedWordsDecode : Obligations.WorkedWordsDecode :=
  ⟨decode_encode (i := .mmul 3 1 2 .m1) rfl, decode_encode (i := .cnv2 .ch0 .scr 0 .m2 18 true) rfl,
    decode_encode (i := .nop) rfl, decode_encode (i := .mul) rfl, decode_encode (i := .sqr) rfl⟩

end Sys2Proof
end

section
/-! Proofs. The command that a word selects has the word's own fields, so that the word is its word (R70, R75): the converse of the
round trip above. -/

namespace Sys2Proof

theorem bind_eq_ok {ε α β : Type} {x : Except ε α} {g : α → Except ε β} {b : β} :
    x >>= g = .ok b ↔ ∃ a, x = .ok a ∧ g a = .ok b := by
  cases x with
  | error e => exact ⟨fun h => (nomatch h), fun ⟨_, h, _⟩ => (nomatch h)⟩
  | ok a => exact ⟨fun h => ⟨a, rfl, h⟩, fun ⟨_, h, hg⟩ => by cases h; exact hg⟩

/-! ### The fields that a format uses -/

/-- What R75 step 3 asks of the fields. -/
theorem Format.unusedAreZero_iff {fm : Format} {f : Fields} :
    fm.unusedAreZero f = true ↔ (fm.usesM = false → f.m = 0) ∧ (fm.usesNf = false → f.nf = 0) ∧ f.zero = 0 ∧
      (fm.usesLg = false → f.lg = 0) ∧ (fm.usesRd = false → f.rd = 0) ∧ (fm.usesRa = false → f.ra = 0) ∧
      (fm.usesRb = false → f.rb = 0) := by
  simp only [unusedAreZero, Bool.and_eq_true, Bool.or_eq_true, beq_iff_eq, and_assoc, ← Bool.not_eq_true, or_iff_not_imp_left]

/-- The fields with zeros in place of those that the format does not use (R71). -/
def Format.used (fm : Format) (f : Fields) : Fields where
  op := f.op
  m := bif fm.usesM then f.m else 0
  nf := bif fm.usesNf then f.nf else 0
  zero := 0
  lg := bif fm.usesLg then f.lg else 0
  rd := bif fm.usesRd then f.rd else 0
  ra := bif fm.usesRa then f.ra else 0
  rb := bif fm.usesRb then f.rb else 0

/-- The fields that R75 step 3 admits are those that the format uses. -/
theorem Format.used_eq {fm : Format} {f : Fields} (h : fm.unusedAreZero f = true) : fm.used f = f := by
  obtain ⟨op, m, nf, z, lg, rd, ra, rb⟩ := f
  obtain ⟨hm, hnf, rfl, hlg, hrd, hra, hrb⟩ := unusedAreZero_iff.1 h
  have keep {u : Bool} {n : Nat} (hn : u = false → n = 0) : (bif u then n else 0) = n := by
    cases u
    · exact (hn rfl).symm
    · rfl
  rw [used, keep hm, keep hnf, keep hlg, keep hrd, keep hra, keep hrb]

/-! ### The fields of a built command -/

variable {f : Fields} {i : Instr} {op : Nat}

theorem fields_of_buildS2 {mk : Reg → Reg → Modulus → Instr} (hf : f.Fit) (hop : f.op = op) (h : buildS2 f mk = .ok i)
    (hmk : ∀ rd ra k, (mk rd ra k).fields = .s op k rd ra 0) : i.fields = Format.s2.used f := by
  obtain ⟨k, hk, hi⟩ := bind_eq_ok.1 h
  cases hi
  rw [hmk, Fields.s, idx_of_modulusOf hk, val_regOf hf.rd, val_regOf hf.ra, ← hop]
  rfl

theorem fields_of_buildS3 {mk : Reg → Reg → Reg → Modulus → Instr} (hf : f.Fit) (hop : f.op = op)
    (h : buildS3 f mk = .ok i) (hmk : ∀ rd ra rb k, (mk rd ra rb k).fields = .s op k rd ra rb) :
    i.fields = Format.s3.used f := by
  obtain ⟨k, hk, hi⟩ := bind_eq_ok.1 h
  cases hi
  rw [hmk, Fields.s, idx_of_modulusOf hk, val_regOf hf.rd, val_regOf hf.ra, val_regOf hf.rb, ← hop]
  rfl

/-- The formats `B1`, `B1N` and `B1S` are told apart by what the command makes of `NF` and `RB`. -/
theorem fields_of_buildB1 {mk : Bank → Reg → Modulus → Lg → Instr} {nf : Bool} {rb : Nat} (hf : f.Fit) (hop : f.op = op)
    (h : buildB1 f mk = .ok i) (hmk : ∀ b ra k lg, (mk b ra k lg).fields = .b op k nf lg b.id ra rb) :
    i.fields = ⟨f.op, f.m, nf.toNat, 0, f.lg, f.rd, f.ra, rb⟩ := by
  obtain ⟨k, hk, h⟩ := bind_eq_ok.1 h
  obtain ⟨b, hb, hi⟩ := bind_eq_ok.1 h
  cases hi
  rw [hmk, Fields.b, idx_of_modulusOf hk, val_lgOf hf.lg, (of_bankWhere hb).1, val_regOf hf.ra, hop]

/-- The formats `B2` and `B2N` are told apart by what the command makes of `NF`. -/
theorem fields_of_buildB2 {mk : Bank → Bank → Reg → Modulus → Lg → Instr} {nf : Bool} (hf : f.Fit) (hop : f.op = op)
    (h : buildB2 f mk = .ok i) (hmk : ∀ d b rb k lg, (mk d b rb k lg).fields = .b op k nf lg d.id b.id rb) :
    i.fields = ⟨f.op, f.m, nf.toNat, 0, f.lg, f.rd, f.ra, f.rb⟩ := by
  obtain ⟨k, hk, h⟩ := bind_eq_ok.1 h
  obtain ⟨d, hd, h⟩ := bind_eq_ok.1 h
  obtain ⟨b, hb, hi⟩ := bind_eq_ok.1 h
  cases hi
  rw [hmk, Fields.b, idx_of_modulusOf hk, val_lgOf hf.lg, (of_bankWhere hd).1, (of_bankWhere hb).1, val_regOf hf.rb, hop]

/-- A command that the opcode map builds has the fields that its format uses. -/
theorem fields_of_build {fm : Format} (hf : f.Fit) (hfm : formatOf f.op = some fm) (h : build f = .ok i) :
    i.fields = fm.used f := by
  -- The cases are the opcodes of the map, in its order (R77).
  rw [build.eq_def] at h
  split at h
  case h_34 => cases h -- no opcode of the map
  all_goals
    rename_i hop
    rw [hop] at hfm
    cases hfm
  case h_2 | h_3 | h_7 | h_9 => exact fields_of_buildS2 hf hop h fun _ _ _ => rfl
  case h_4 | h_5 | h_6 | h_8 => exact fields_of_buildS3 hf hop h fun _ _ _ _ => rfl
  case h_10 => -- `LDE`
    obtain ⟨b, hb, hi⟩ := bind_eq_ok.1 h
    cases hi
    rw [Instr.fields, val_regOf hf.rd, (of_bankWhere hb).1, val_regOf hf.rb, ← hop]
    rfl
  case h_11 => -- `STE`
    obtain ⟨b, hb, hi⟩ := bind_eq_ok.1 h
    cases hi
    rw [Instr.fields, (of_bankWhere hb).1, val_regOf hf.ra, val_regOf hf.rb, ← hop]
    rfl
  case h_12 => -- `TWB`
    obtain ⟨k, hk, hi⟩ := bind_eq_ok.1 h
    cases hi
    rw [Instr.fields, Fields.b, idx_of_modulusOf hk, val_lgOf hf.lg, ← hop]
    rfl
  case h_13 | h_14 | h_15 | h_16 | h_17 | h_18 | h_20 | h_22 =>
    exact fields_of_buildB1 (nf := false) hf hop h fun _ _ _ _ => rfl
  case h_19 => exact fields_of_buildB2 (nf := false) hf hop h fun _ _ _ _ _ => rfl
  case h_21 => -- `SCL`
    rw [fields_of_buildB1 (nf := false) hf hop h fun _ _ _ _ => rfl, val_regOf hf.rb]
    rfl
  case h_23 | h_24 => -- `CNV2`, `CNV1`
    rw [fields_of_buildB2 hf hop h fun _ _ _ _ _ => rfl, toNat_flagOf hf.nf]
    rfl
  case h_25 => -- `CNVSQ`
    rw [fields_of_buildB1 hf hop h fun _ _ _ _ => rfl, toNat_flagOf hf.nf]
    rfl
  case h_26 => -- `CRT3`
    split at h <;> cases h
    rw [Instr.fields, val_regOf hf.ra, ← hop]
    rfl
  case h_28 => -- `CEMIT`
    cases h
    rw [Instr.fields, val_regOf hf.rd, ← hop]
    rfl
  case h_31 => -- `LDM`
    obtain ⟨k, hk, h⟩ := bind_eq_ok.1 h
    obtain ⟨d, hd, h⟩ := bind_eq_ok.1 h
    obtain ⟨b, hb, hi⟩ := bind_eq_ok.1 h
    cases hi
    rw [Instr.fields, Fields.b, idx_of_modulusOf hk, val_lgOf hf.lg, (of_bankWhere hd).1, (of_bankWhere hb).1, ← hop]
    rfl
  all_goals -- format `Z`
    cases h
    rw [Format.used, hop]
    rfl

/-- A word that selects a command is the word of that command (R75). -/
theorem encode_decode {c : Word} (h : decode c = .ok i) : encode i = c := by
  obtain ⟨hupper, fm, hformat, hunused, hbuild⟩ := fields_of_decode h
  have hfields : i.fields = Fields.ofWord c.toNat :=
    (fields_of_build (Fields.fit_ofWord _) hformat hbuild).trans (Format.used_eq hunused)
  rw [encode, hfields, Fields.pack_ofWord hupper]
  exact (BitVec.ofNat_toNat 64 c).trans (BitVec.setWidth_eq c)

/-- Settles O2: an accepted word selects a well-formed command with the fields of the word. -/
theorem encodeInvertsDecode : Obligations.EncodeInvertsDecode :=
  fun _ _ h => ⟨wellFormed_of_decode h, encode_decode h⟩

end Sys2Proof
end

section
/-! Proofs. The words that select a command are those that R79 does not list; a listed one raises `F_ILLEGAL` (R75, R276). -/

namespace Sys2Proof

open Machine

/-! ### What the checks of R75 steps 4 to 6 accept -/

theorem exists_bind_ok {ε α β : Type} {x : Except ε α} {g : α → Except ε β} :
    (∃ b, x >>= g = .ok b) ↔ ∃ a, x = .ok a ∧ ∃ b, g a = .ok b := by
  simp only [bind_eq_ok]
  exact ⟨fun ⟨b, a, hx, hg⟩ => ⟨a, hx, b, hg⟩, fun ⟨a, hx, b, hg⟩ => ⟨b, a, hx, hg⟩⟩

/-- A bind whose second part accepts everything accepts what its first part accepts. -/
theorem exists_bind_pure {ε α β : Type} {x : Except ε α} {g : α → β} :
    (∃ b, (do let a ← x; return g a) = Except.ok b) ↔ ∃ a, x = .ok a := by
  rw [exists_bind_ok]
  exact exists_congr fun a => and_iff_left ⟨g a, rfl⟩

/-- R75 step 4. -/
theorem exists_modulusOf {n : Nat} : (∃ k, modulusOf n = .ok k) ↔ n < 3 := by
  constructor
  · rintro ⟨k, hk⟩
    rw [← idx_of_modulusOf hk]
    cases k <;> decide
  · intro h
    interval_cases n <;> exact ⟨_, rfl⟩

theorem Bank.exists_iff {P : Bank → Prop} :
    (∃ b, P b) ↔ P .ch0 ∨ P .ch1 ∨ P .ch2 ∨ P .scr ∨ P .twf ∨ P .twi ∨ P .ina ∨ P .inb ∨ P .out := by
  constructor
  · rintro ⟨b, h⟩
    cases b <;> simp only [h, true_or, or_true]
  · rintro (h | h | h | h | h | h | h | h | h) <;> exact ⟨_, h⟩

/-- R75 step 5: the ids that are accepted are those of the banks that the format allows. -/
theorem exists_bankWhere {allowed : Bank → Bool} {n : Nat} :
    (∃ b, bankWhere allowed n = .ok b) ↔ ∃ b : Bank, b.id = n ∧ allowed b = true :=
  ⟨fun ⟨b, h⟩ => ⟨b, of_bankWhere h⟩, fun ⟨b, hid, h⟩ => ⟨b, hid ▸ bankWhere_id h⟩⟩

theorem exists_bankWhere_any {n : Nat} : (∃ b, bankWhere (fun _ => true) n = .ok b) ↔ n ≤ 8 := by
  rw [exists_bankWhere, Bank.exists_iff]
  simp only [Bank.id, and_true]
  omega

theorem exists_transformOf {n : Nat} : (∃ b, transformOf n = .ok b) ↔ n ≤ 3 := by
  rw [transformOf, exists_bankWhere, Bank.exists_iff]
  simp only [Bank.id, Bank.isTransform, and_true, Bool.false_eq_true, and_false, or_false]
  omega

theorem exists_bankWhere_isInput {n : Nat} : (∃ b, bankWhere Bank.isInput n = .ok b) ↔ n = 6 ∨ n = 7 := by
  rw [exists_bankWhere, Bank.exists_iff]
  simp only [Bank.id, Bank.isInput, and_true, Bool.false_eq_true, and_false, or_false, false_or]
  omega

theorem exists_bankWhere_not_isInput {n : Nat} :
    (∃ b, bankWhere (fun b => !b.isInput) n = .ok b) ↔ ¬ (n = 6 ∨ n = 7 ∨ 8 < n) := by
  rw [exists_bankWhere, Bank.exists_iff]
  simp only [Bank.id, Bank.isInput, Bool.not_false, Bool.not_true, and_true, Bool.false_eq_true, and_false, false_or]
  omega

/-! ### What the builders accept -/

variable {f : Fields}

theorem exists_buildS2 {mk : Reg → Reg → Modulus → Instr} : (∃ i, buildS2 f mk = .ok i) ↔ f.m < 3 :=
  exists_bind_pure.trans exists_modulusOf

theorem exists_buildS3 {mk : Reg → Reg → Reg → Modulus → Instr} : (∃ i, buildS3 f mk = .ok i) ↔ f.m < 3 :=
  exists_bind_pure.trans exists_modulusOf

theorem exists_buildB1 {mk : Bank → Reg → Modulus → Lg → Instr} :
    (∃ i, buildB1 f mk = .ok i) ↔ f.m < 3 ∧ f.rd ≤ 3 := by
  simp only [buildB1, exists_bind_ok (x := modulusOf _), exists_bind_pure, exists_transformOf, exists_and_right, exists_modulusOf]

theorem exists_buildB2 {mk : Bank → Bank → Reg → Modulus → Lg → Instr} :
    (∃ i, buildB2 f mk = .ok i) ↔ f.m < 3 ∧ f.rd ≤ 3 ∧ f.ra ≤ 3 := by
  simp only [buildB2, exists_bind_ok (x := modulusOf _), exists_bind_ok (x := transformOf f.rd), exists_bind_pure,
    exists_transformOf, exists_and_right, exists_modulusOf]

/-- The fields that select a command of the map are those of R75 steps 4 to 6. -/
theorem exists_build {fm : Format} (hfm : formatOf f.op = some fm) :
    (∃ i, build f = .ok i) ↔ (fm.usesM = true → f.m < 3) ∧ ¬ BadOperand fm f.rd f.ra := by
  have always {x : Instr} {P : Prop} (h : P) : (∃ i, (Except.ok x : Except Illegal Instr) = .ok i) ↔ P :=
    iff_of_true ⟨x, rfl⟩ h
  -- The cases are the opcodes of the map, in its order (R77).
  rw [build.eq_def]
  split
  case h_34 => -- no opcode of the map
    rw [formatOf.eq_def] at hfm
    split at hfm <;> contradiction
  all_goals
    rename_i hop
    rw [hop] at hfm
    cases hfm
  case h_2 | h_3 | h_7 | h_9 =>
    rw [exists_buildS2]
    simp [Format.usesM, BadOperand]
  case h_4 | h_5 | h_6 | h_8 =>
    rw [exists_buildS3]
    simp [Format.usesM, BadOperand]
  case h_10 => -- `LDE`
    rw [exists_bind_pure, exists_bankWhere_any]
    simp [Format.usesM, BadOperand]
  case h_11 => -- `STE`
    rw [exists_bind_pure, exists_bankWhere_not_isInput]
    simp [Format.usesM, BadOperand]
  case h_12 => -- `TWB`
    rw [exists_bind_pure, exists_modulusOf]
    simp [Format.usesM, BadOperand]
  case h_13 | h_14 | h_15 | h_16 | h_17 | h_18 | h_20 | h_21 | h_22 | h_25 =>
    rw [exists_buildB1]
    simp [Format.usesM, BadOperand]
  case h_19 | h_23 | h_24 =>
    rw [exists_buildB2]
    simp [Format.usesM, BadOperand]
  case h_26 => -- `CRT3`
    split
    · exact always ⟨Bool.false_ne_true.elim, not_lt.2 ‹_›⟩
    · exact iff_of_false (by rintro ⟨_, ⟨⟩⟩) fun ⟨_, h⟩ => h (not_le.1 ‹_›)
  case h_31 => -- `LDM`
    simp only [exists_bind_ok (x := modulusOf _), exists_bind_ok (x := transformOf f.rd), exists_bind_pure,
      exists_transformOf, exists_and_right, exists_modulusOf, exists_bankWhere_isInput]
    simp [Format.usesM, BadOperand, or_iff_not_imp_left]
  all_goals exact always ⟨Bool.false_ne_true.elim, id⟩ -- formats `Z` and `SD`

/-- The words that R79 does not list are those that pass R75 steps 1 to 6. -/
theorem not_illegalWord_iff {c : Nat} :
    ¬ IllegalWord c ↔ c < 2 ^ 32 ∧ ∃ fm, formatOf (Fields.ofWord c).op = some fm ∧ fm.unusedAreZero (Fields.ofWord c) = true ∧
      (fm.usesM = true → (Fields.ofWord c).m < 3) ∧ ¬ BadOperand fm (Fields.ofWord c).rd (Fields.ofWord c).ra := by
  have hm : c / 2 ^ 22 % 2 ^ 2 < 3 ↔ c / 2 ^ 22 % 2 ^ 2 ≠ 3 := by omega
  simp only [IllegalWord, Format.unusedAreZero_iff, Fields.ofWord, bitField, pow_zero, Nat.div_one, pow_one, hm]
  cases hfm : formatOf (c / 2 ^ 24 % 2 ^ 8) with
  | none => simp
  | some fm =>
    simp only [reduceCtorEq, false_or, Option.some.injEq, exists_eq_left', not_or, not_and, not_not, not_le, ne_eq]
    exact and_congr_right' ⟨fun ⟨hzero, hm, hnf, hlg, hrd, hra, hrb, h⟩ => ⟨⟨hm, hnf, hzero, hlg, hrd, hra, hrb⟩, h⟩,
      fun ⟨⟨hm, hnf, hzero, hlg, hrd, hra, hrb⟩, h⟩ => ⟨hzero, hm, hnf, hlg, hrd, hra, hrb, h⟩⟩

/-- The words that select a command are those that R79 does not list. -/
theorem exists_decode_iff {c : Word} : (∃ i, decode c = .ok i) ↔ ¬ IllegalWord c.toNat := by
  rw [not_illegalWord_iff]
  constructor
  · rintro ⟨i, h⟩
    obtain ⟨hupper, fm, hformat, hunused, hbuild⟩ := fields_of_decode h
    exact ⟨hupper, fm, hformat, hunused, (exists_build hformat).1 ⟨i, hbuild⟩⟩
  · rintro ⟨hupper, fm, hformat, hunused, hoperands⟩
    rw [decode_of_fields hupper hformat hunused]
    exact (exists_build hformat).2 hoperands

/-- A word that R79 lists raises `F_ILLEGAL` in a block that is not stopped (R75). -/
theorem issue_of_illegalWord {s : State} {c : Word} (hfault : s.status.fault = false) (hc : IllegalWord c.toNat) :
    s.issue c = .next ((s.accept c).raise .illegal) := by
  cases hdec : decode c with
  | ok i => exact absurd hc (exists_decode_iff.1 ⟨i, hdec⟩)
  | error e => exact State.issue_of_illegal hfault hdec

/-- Settles O4: the decoder rejects exactly the words that R79 lists, and a rejection is the fault `F_ILLEGAL`, taken after
acceptance. -/
theorem illegalEncodingsFault : Obligations.IllegalEncodingsFault :=
  ⟨fun _ _ => issue_of_illegalWord, fun _ => exists_decode_iff.2⟩

end Sys2Proof
end

section
/-! Proofs. A command writes nothing outside its row of R78: each operation of the state writes what the rows of the commands that
run it list, and a command is operations one after another. -/

namespace Sys2Proof.Machine

/-- t has what s has in every register and bank that the row of i does not list as written (R78). The fields that no row lists
are those of `Kept`. -/
structure RowFrame (i : Instr) (s t : State) : Prop where
  sreg  : ∀ r, i.writesS ≠ some r → t.getS r = s.getS r
  banks : ∀ b ∉ i.writesBanks, ∀ j, t.bankRead b j = s.bankRead b j
  twcfg : i.writesTwcfg = false → t.twcfg = s.twcfg
  v     : ¬ i.writesV → t.v = s.v
  acc   : ¬ i.writesAcc → t.acc = s.acc
  clen  : ¬ i.writesLengths → t.clen = s.clen
  lgn   : ¬ i.writesLengths → t.lgn = s.lgn
  olen  : ¬ i.writesOlen → t.olen = s.olen

namespace RowFrame

variable {i : Instr} {s t u : State}

theorem refl (i : Instr) (s : State) : RowFrame i s s :=
  ⟨fun _ _ => rfl, fun _ _ _ => rfl, fun _ => rfl, fun _ => rfl, fun _ => rfl, fun _ => rfl, fun _ => rfl, fun _ => rfl⟩

theorem trans (h : RowFrame i s t) (g : RowFrame i t u) : RowFrame i s u where
  sreg r hr := (g.sreg r hr).trans (h.sreg r hr)
  banks b hb j := (g.banks b hb j).trans (h.banks b hb j)
  twcfg hi := (g.twcfg hi).trans (h.twcfg hi)
  v hi := (g.v hi).trans (h.v hi)
  acc hi := (g.acc hi).trans (h.acc hi)
  clen hi := (g.clen hi).trans (h.clen hi)
  lgn hi := (g.lgn hi).trans (h.lgn hi)
  olen hi := (g.olen hi).trans (h.olen hi)

/-! ### The operations of the state -/

theorem setS {r : Reg} (hr : i.writesS = some r) (w : Word) : RowFrame i s (s.setS r w) :=
  { refl i s with sreg := fun _ hne => State.getS_setS_ne s (fun e => hne (hr.trans (congrArg some e))) w }

theorem setV (hv : i.writesV) (a : Wide) : RowFrame i s (s.setV a) :=
  { refl i s with v := fun h => absurd hv h }

theorem setAcc (ha : i.writesAcc) (a : Wide) : RowFrame i s (s.setAcc a) :=
  { refl i s with acc := fun h => absurd ha h }

theorem setLengths (hl : i.writesLengths) (n : Nat) : RowFrame i s (s.setLengths n) :=
  { refl i s with clen := fun h => absurd hl h, lgn := fun h => absurd hl h }

theorem bankStore {b : Bank} (hb : b ∈ i.writesBanks) (j : Nat) (w : Word) : RowFrame i s (s.bankStore b j w) :=
  { refl i s with
    banks := fun b' hb' n => by
      rw [State.bankRead_bankStore, if_neg]
      rintro ⟨rfl, -⟩
      exact hb' hb }

theorem store {b : Bank} (hb : b ∈ i.writesBanks) (j : Nat) (xs : List Nat) : RowFrame i s (s.store b j xs) := by
  induction xs generalizing s j with
  | nil => exact refl i s
  | cons x xs ih => exact (bankStore hb j _).trans (ih (j + 1))

theorem memWrite {b : Bank} (hb : b ∈ i.writesBanks) (ht : b.isTwiddle = true → i.writesTwcfg = true) (j : Nat) (w : Word) :
    RowFrame i s (s.memWrite b j w) := by
  rw [State.memWrite]
  split
  · exact (bankStore hb j w).trans { refl i _ with twcfg := fun h => by rw [ht ‹_›] at h; cases h }
  · exact bankStore hb j w

theorem buildTable (hf : .twf ∈ i.writesBanks) (hi : .twi ∈ i.writesBanks) (ht : i.writesTwcfg = true) (k : Modulus) (l : Lg) :
    RowFrame i s (s.buildTable k l) :=
  ((store hf 0 _).trans (store hi 0 _)).trans { refl i _ with twcfg := fun h => by rw [ht] at h; cases h }

theorem crtcLoop (ho : .out ∈ i.writesBanks) (hv : i.writesV) (ha : i.writesAcc) (n j : Nat) :
    RowFrame i s (State.crtcLoop n j s) := by
  induction n generalizing s j with
  | zero => exact refl i s
  | succ n ih =>
    have step : RowFrame i s (s.crtcStep j) :=
      (((setV hv _).trans (setAcc ha _)).trans (bankStore ho _ _)).trans (setAcc ha _)
    exact step.trans (ih (j + 1))

theorem reconstruct (ho : .out ∈ i.writesBanks) (hv : i.writesV) (ha : i.writesAcc) (hl : i.writesOlen) (n : Nat) :
    RowFrame i s (s.reconstruct n) :=
  ((((setAcc ha _).trans (crtcLoop ho hv ha n 0)).trans (bankStore ho _ _)).trans (setAcc ha _)).trans
    { refl i _ with olen := fun h => absurd hl h }

theorem mulPass (k : Modulus) (l : Nat) : RowFrame .mul s (s.mulPass k l) := by
  have hc : channel k ∈ Instr.mul.writesBanks := by cases k <;> decide
  have hscr : Bank.scr ∈ Instr.mul.writesBanks := by decide
  exact ((((buildTable (by decide) (by decide) rfl k _).trans (store hc _ _)).trans (store hscr _ _)).trans
    (store hc _ _)).trans (store hscr _ _)

theorem sqrPass (k : Modulus) (l : Nat) : RowFrame .sqr s (s.sqrPass k l) := by
  have hc : channel k ∈ Instr.sqr.writesBanks := by cases k <;> decide
  exact ((buildTable (by decide) (by decide) rfl k _).trans (store hc _ _)).trans (store hc _ _)

/-! ### The commands -/

/-- A command stays in its row where its operation does: a fault writes `STATUS` and `FINFO` only (R274, R276). -/
theorem of_command {checks : List Check} {op : State → State} (ht : s.command checks op = .next t) (hop : RowFrame i s (op s)) :
    RowFrame i s t := by
  rcases s.command_cases checks op with ⟨f, -, e⟩ | ⟨-, e⟩
  · rw [e] at ht
    cases ht
    exact { refl i s with }
  · rw [e] at ht
    cases ht
    exact { hop with }

/-- An engine command writes a scalar register (R100). -/
theorem of_engine {checks : List Check} {rd : Reg} {n : Nat} (ht : s.engine checks rd n = .next t)
    (hr : i.writesS = some rd) : RowFrame i s t :=
  of_command ht (setS hr _)

/-- A kernel command writes words of its bank (R135). -/
theorem of_transform {bad : Bool} {b : Bank} {ra : Reg} {k : Modulus} {l : Nat} {table : List Check} {f : List Nat → List Nat}
    (ht : s.transform bad b ra k l table f = .next t) (hb : b ∈ i.writesBanks) : RowFrame i s t :=
  of_command ht (store hb _ _)

/-- Every command stays in its row (R78). -/
theorem of_exec (ht : exec i s = .next t) : RowFrame i s t := by
  cases i
  all_goals dsimp only [exec, execCrt3, execLdm, execMul, execSqr] at ht
  case nop => exact of_command ht (refl _ s)
  case mto | mfrom | mmul | madd | msub | mnorm | mpow | minv => exact of_engine ht rfl
  case lde => exact of_command ht (setS rfl _)
  case ste bank ra rb =>
    have htwiddle : (Instr.ste bank ra rb).writesTwcfg = bank.isTwiddle := by cases bank <;> rfl
    exact of_command ht (memWrite (List.mem_singleton_self bank) htwiddle.trans _ _)
  case twb => exact of_command ht (buildTable (List.mem_cons_self ..) (List.mem_pair.2 (.inr rfl)) rfl _ _)
  case kdif | kdit | r4dif | r4dit | nttf | ntti => exact of_transform ht (List.mem_singleton_self _)
  case pwmul | pwsqr | scl | fwd | cnv1 | cnvsq | ldm =>
    exact of_command ht (store (List.mem_singleton_self _) _ _)
  case cnv2 bankd banks _ _ _ _ =>
    have hd : bankd ∈ [bankd, banks] := List.mem_cons_self ..
    have hb : banks ∈ [bankd, banks] := List.mem_cons_of_mem _ (List.mem_singleton_self _)
    exact of_command ht ((store hd _ _).trans (store hb _ _))
  case crt3 ra => exact of_command ht (setV (.inl ⟨ra, rfl⟩) _)
  case cacc => exact of_command ht (setAcc (.inl rfl) _)
  case cemit rd => exact of_command ht ((setS rfl _).trans (setAcc (.inr (.inl ⟨rd, rfl⟩)) _))
  case cclr => exact of_command ht (setAcc (by simp [Instr.writesAcc]) _)
  case crtc => exact of_command ht (reconstruct (by decide) (by simp [Instr.writesV]) (by simp [Instr.writesAcc]) (.inl rfl) _)
  case mul =>
    have passes {u : State} (l : Nat) : RowFrame .mul u (((u.mulPass .m0 l).mulPass .m1 l).mulPass .m2 l) :=
      ((mulPass .m0 l).trans (mulPass .m1 l)).trans (mulPass .m2 l)
    exact of_command ht (((setLengths (.inl rfl) _).trans (passes _)).trans
      (reconstruct (by decide) (by simp [Instr.writesV]) (by simp [Instr.writesAcc]) (by simp [Instr.writesOlen]) _))
  case sqr =>
    have passes {u : State} (l : Nat) : RowFrame .sqr u (((u.sqrPass .m0 l).sqrPass .m1 l).sqrPass .m2 l) :=
      ((sqrPass .m0 l).trans (sqrPass .m1 l)).trans (sqrPass .m2 l)
    exact of_command ht (((setLengths (.inr rfl) _).trans (passes _)).trans
      (reconstruct (by decide) (by simp [Instr.writesV]) (by simp [Instr.writesAcc]) (by simp [Instr.writesOlen]) _))

end RowFrame

/-- What no command writes, and a fault neither: the fields of `Kept` but `STATUS` and `FINFO` (R78, R276). -/
theorem exec_keeps {i : Instr} {s t : State} (ht : exec i s = .next t) :
    t.cfg = s.cfg ∧ t.len1 = s.len1 ∧ t.len2 = s.len2 ∧ t.cmd = s.cmd ∧ t.epoch = s.epoch ∧ t.host = s.host ∧
      t.answer = s.answer := by
  obtain ⟨t', ht', ⟨u, hu, rfl⟩ | ⟨f, rfl⟩⟩ := exec_cases i s
  · rw [ht'] at ht
    cases ht
    exact ⟨hu.cfg, hu.len1, hu.len2, hu.cmd, hu.epoch, hu.host, hu.answer⟩
  · rw [ht'] at ht
    cases ht
    exact ⟨rfl, rfl, rfl, rfl, rfl, rfl, rfl⟩

end Sys2Proof.Machine

namespace Sys2Proof

theorem Bank.not_isInput_of_isTransform {b : Bank} (h : b.isTransform = true) : b.isInput = false := by
  revert h
  cases b <;> decide

/-- No row lists an input bank as written (R30, R78). -/
theorem Instr.not_isInput_of_mem_writesBanks {i : Instr} (hw : i.wellFormed = true) {b : Bank} (hb : b ∈ i.writesBanks) :
    b.isInput = false := by
  cases i
  case ste =>
    cases List.mem_singleton.1 hb
    exact (Bool.not_eq_true' _).mp hw
  case kdif | kdit | r4dif | r4dit | nttf | ntti | pwsqr | scl | fwd | cnvsq =>
    cases List.mem_singleton.1 hb
    exact Bank.not_isInput_of_isTransform hw
  case pwmul | cnv1 | ldm =>
    cases List.mem_singleton.1 hb
    exact Bank.not_isInput_of_isTransform (Bool.and_eq_true_iff.1 hw).1
  case cnv2 =>
    obtain ⟨hd, hs⟩ := Bool.and_eq_true_iff.1 hw
    rcases List.mem_pair.1 hb with rfl | rfl
    · exact Bank.not_isInput_of_isTransform hd
    · exact Bank.not_isInput_of_isTransform hs
  case twb => rcases List.mem_pair.1 hb with rfl | rfl <;> rfl
  case crtc | mul | sqr =>
    revert b
    decide
  all_goals cases hb

/-- Settles O18: the operations that make up a command stay in its row, and no row lists an input bank. -/
theorem commandsWriteOnlyTheirRow : Obligations.CommandsWriteOnlyTheirRow := by
  intro i s t hw ht
  have row := Machine.RowFrame.of_exec ht
  obtain ⟨hcfg, hlen1, hlen2, hcmd, hepoch, hhost, hanswer⟩ := Machine.exec_keeps ht
  have input {b : Bank} (hb : b.isInput = true) : b ∉ i.writesBanks := fun hmem =>
    Bool.false_ne_true ((Instr.not_isInput_of_mem_writesBanks hw hmem).symm.trans hb)
  exact ⟨hcfg, hlen1, hlen2, hcmd, hepoch, hhost, hanswer, row.sreg, row.banks, row.banks _ (input rfl), row.banks _ (input rfl),
    row.twcfg, row.v, row.acc, fun h => ⟨row.clen h, row.lgn h⟩, row.olen⟩

end Sys2Proof
end

section
/-! Proofs. The laws of the Montgomery engine (R109): its functions on the residues they represent, and the words that a residue
and a range determine. -/

namespace Sys2Proof.Machine

variable {c : Config} {k : Modulus} {a b u v x y : Nat}

/-! ### The functions on residues -/

namespace Represents

theorem addmod (ha : Represents c k a u) (hb : Represents c k b v) : Represents c k (addmod c k a b) (u + v) := by
  rw [represents_iff] at *
  rw [addmod_cast, ha, hb, Nat.cast_add, add_mul]

theorem submod (hb : b < 2 * c.p k) (hv : v ≤ c.p k) (ha : Represents c k a u) (hbv : Represents c k b v) :
    Represents c k (submod c k a b) (u + c.p k - v) := by
  rw [represents_iff] at *
  rw [submod_cast c k a hb, ha, hbv, Nat.cast_sub (hv.trans (Nat.le_add_left ..)), Nat.cast_add, c.cast_p, add_zero, sub_mul]

theorem mulmod (ha : Represents c k a u) (hb : Represents c k b v) : Represents c k (mulmod c k a b) (u * v) := by
  rw [represents_iff] at *
  rw [mulmod_twiddle c k hb, ha, Nat.cast_mul, mul_right_comm]

theorem toMont (hx : x < 2 ^ 64) : Represents c k (toMont c k x) x :=
  (represents_iff _ _).2 (by rw [toMont_eq c k hx, c.cast_mont])

/-- A canonical word is the Montgomery word of what it represents (R14). -/
theorem eq_mod (ha : a < c.p k) (h : Represents c k a x) : a = x * 2 ^ 64 % c.p k := (Nat.mod_eq_of_lt ha).symm.trans h

end Represents

/-! ### Conversion (R109 (2), (6)) -/

theorem lazy_lt_radix (ha : a < 2 * c.p k) : a < 2 ^ 64 := by
  have := c.p_lt k
  omega

theorem toInt_mul_radix_mod (v : Nat) : toInt c k v * 2 ^ 64 % c.p k = v % c.p k := by
  rw [c.mod_eq_iff, Nat.cast_mul, toInt_cast, Nat.cast_pow, Nat.cast_ofNat, mul_assoc, c.ri_mul_radix, mul_one]

theorem toInt_of_represents (hv : v < 2 ^ 64) (h : Represents c k v x) : toInt c k v = x % c.p k := by
  refine eq_mod_of_cast (toInt_lt c k hv) ?_
  rw [toInt_cast, (represents_iff _ _).1 h, mul_assoc, c.radix_mul_ri, mul_one]

theorem toInt_toMont (hx : x < 2 ^ 64) : toInt c k (toMont c k x) = x % c.p k :=
  toInt_of_represents (lazy_lt_radix (lazy_of_lt (toMont_lt c k hx))) (.toMont hx)

theorem toMont_toInt (ha : a < 2 * c.p k) : toMont c k (toInt c k a) = norm2 c k a := by
  have hint := lazy_lt_radix (lazy_of_lt (toInt_lt c k (lazy_lt_radix ha)))
  rw [toMont_eq_mod c k hint, toInt_mul_radix_mod, norm2_eq c k ha]

theorem mulmod_toMont (hx : x < 2 ^ 64) (hy : y < 2 ^ 64) :
    mulmod c k (toMont c k x) (toMont c k y) = toMont c k (x * y % c.p k) := by
  have hxy := lazy_lt_radix (lazy_of_lt (Nat.mod_lt (x * y) (c.p_pos k)))
  have hlt := mulmod_lt c k (lazy_of_lt (toMont_lt c k hx)) (lazy_of_lt (toMont_lt c k hy))
  rw [toMont_eq_mod c k hxy, Nat.mod_mul_mod]
  exact (Represents.mulmod (.toMont hx) (.toMont hy)).eq_mod hlt

theorem represents_one : Represents c k (c.one k) 1 :=
  (represents_iff _ _).2 (by rw [c.cast_one, Nat.cast_one, one_mul])

theorem represents_r2 : Represents c k (c.r2 k) (c.one k) :=
  (represents_iff _ _).2 (by rw [c.cast_r2, c.cast_one])

theorem toInt_one : toInt c k (c.one k) = 1 := by
  rw [toInt_of_represents (lazy_lt_radix (lazy_of_lt (c.one_lt k))) represents_one, Nat.mod_eq_of_lt (c.prime k).one_lt]

theorem toInt_r2 : toInt c k (c.r2 k) = c.one k := by
  rw [toInt_of_represents (lazy_lt_radix (lazy_of_lt (c.r2_lt k))) represents_r2, Nat.mod_eq_of_lt (c.one_lt k)]

/-! ### Products and sums (R109 (3) to (5)) -/

theorem mulmod_one (ha : a < 2 * c.p k) : mulmod c k a (c.one k) = norm2 c k a := by
  refine c.nat_eq_of_cast k (mulmod_lt c k ha (lazy_of_lt (c.one_lt k))) (norm2_lt c k ha) ?_
  rw [mulmod_cast, c.cast_one, mul_assoc, c.radix_mul_ri, mul_one, norm2_cast]

theorem mulmod_zero (ha : a < 2 * c.p k) : mulmod c k a 0 = 0 := by
  have hpos := c.p_pos k
  refine c.nat_eq_of_cast k (mulmod_lt c k ha (lazy_of_lt hpos)) hpos ?_
  rw [mulmod_cast, Nat.cast_zero, mul_zero, zero_mul]

theorem addmod_comm (a b : Nat) : addmod c k a b = addmod c k b a := by rw [addmod, addmod, Nat.add_comm]

theorem mulmod_comm (a b : Nat) : mulmod c k a b = mulmod c k b a := by rw [mulmod, mulmod, Nat.mul_comm]

theorem submod_self (a : Nat) : submod c k a a = 0 := by rw [submod, if_pos le_rfl, Nat.sub_self]

/-- Lazy words of one residue have one canonical form. -/
theorem norm2_eq_of_cast (ha : a < 2 * c.p k) (hb : b < 2 * c.p k) (h : (a : c.F k) = b) : norm2 c k a = norm2 c k b := by
  rw [norm2_eq c k ha, norm2_eq c k hb, (c.mod_eq_iff k a b).2 h]

theorem mulmod_mul_radix_mod (a b : Nat) : mulmod c k a b * 2 ^ 64 % c.p k = a * b % c.p k := by
  rw [c.mod_eq_iff, Nat.cast_mul, mulmod_cast, Nat.cast_pow, Nat.cast_ofNat, mul_assoc, c.ri_mul_radix, mul_one, Nat.cast_mul]

theorem results_eq_of_residues_eq {a' b' : Nat} (ha : a < 2 * c.p k) (hb : b < 2 * c.p k) (ha' : a' < 2 * c.p k)
    (hb' : b' < 2 * c.p k) (hres : a % c.p k = a' % c.p k) (hres' : b % c.p k = b' % c.p k) :
    norm2 c k (addmod c k a b) = norm2 c k (addmod c k a' b') ∧
      norm2 c k (submod c k a b) = norm2 c k (submod c k a' b') ∧ mulmod c k a b = mulmod c k a' b' := by
  rw [c.mod_eq_iff] at hres hres'
  refine ⟨norm2_eq_of_cast (addmod_lt c k ha hb) (addmod_lt c k ha' hb') ?_,
    norm2_eq_of_cast (submod_lt c k ha) (submod_lt c k ha') ?_,
    c.nat_eq_of_cast k (mulmod_lt c k ha hb) (mulmod_lt c k ha' hb') ?_⟩
  · rw [addmod_cast, addmod_cast, hres, hres']
  · rw [submod_cast c k a hb, submod_cast c k a' hb', hres, hres']
  · rw [mulmod_cast, mulmod_cast, hres, hres']

end Sys2Proof.Machine

namespace Sys2Proof

open Machine

/-- Settles O19: each law is an equation of residues, and a canonical word is determined by its residue. -/
theorem montgomeryLaws : Obligations.MontgomeryLaws := by
  intro c k a b x y ha hb hx hy
  exact ⟨fun u v _ hv hau hbv => ⟨hau.addmod hbv, .submod hb hv.le hau hbv, hau.mulmod hbv⟩,
    ⟨mulmod_toMont hx hy, toInt_toMont hx, toMont_toInt ha⟩,
    ⟨mulmod_one ha, mulmod_zero ha⟩,
    ⟨addmod_comm a b, mulmod_comm a b, submod_self a⟩,
    fun _ _ ha' hb' => results_eq_of_residues_eq ha hb ha' hb',
    ⟨toInt_r2, toInt_one⟩,
    ⟨addmod_lt c k ha hb, submod_lt c k ha, mulmod_lt c k ha hb, norm2_lt c k ha⟩⟩

end Sys2Proof
end

section
/-! Proofs. The Montgomery-engine commands (R100 to R107): the operand checks of R91 pass or raise `F_RANGE`, and the result is the
word that its residue determines. -/

namespace Sys2Proof.Machine

/-! ### The commands as engine commands -/

section Exec

variable (s : State) (rd ra rb : Reg) (k : Modulus)

theorem exec_mto : exec (.mto rd ra k) s = s.engine [] rd (toMont s.cfg k (s.val ra)) := rfl

theorem exec_mfrom : exec (.mfrom rd ra k) s = s.engine [] rd (toInt s.cfg k (s.val ra)) := rfl

theorem exec_mmul : exec (.mmul rd ra rb k) s =
    s.engine [s.operandCheck k ra, s.operandCheck k rb] rd (mulmod s.cfg k (s.val ra) (s.val rb)) := rfl

theorem exec_madd : exec (.madd rd ra rb k) s =
    s.engine [s.operandCheck k ra, s.operandCheck k rb] rd (addmod s.cfg k (s.val ra) (s.val rb)) := rfl

theorem exec_msub : exec (.msub rd ra rb k) s =
    s.engine [s.operandCheck k ra, s.operandCheck k rb] rd (submod s.cfg k (s.val ra) (s.val rb)) := rfl

theorem exec_mnorm : exec (.mnorm rd ra k) s = s.engine [s.operandCheck k ra] rd (norm2 s.cfg k (s.val ra)) := rfl

theorem exec_mpow : exec (.mpow rd ra rb k) s =
    s.engine [s.operandCheck k ra] rd (modpow s.cfg k (s.val ra) (s.val rb)) := rfl

theorem exec_minv : exec (.minv rd ra k) s =
    s.engine [s.operandCheck k ra] rd (modpow s.cfg k (s.val ra) (s.cfg.p k - 2)) := rfl

end Exec

/-! ### The operand checks (R91) -/

namespace State

variable {s : State} {k : Modulus} {ra rb : Reg} (rd : Reg) (v : Nat)

theorem engine_of_lazy (ha : s.val ra < 2 * s.cfg.p k) :
    s.engine [s.operandCheck k ra] rd v =
      .next { s with sreg := s.sreg.set rd (Word.ofNat v), status := s.status.completed } :=
  engine_of_pass rd v (firstFault_operandCheck_pass ha [])

theorem engine_of_not_lazy (ha : 2 * s.cfg.p k ≤ s.val ra) : s.engine [s.operandCheck k ra] rd v = .next (s.raise .range) :=
  engine_of_fault rd v (firstFault_operandCheck_fail ha [])

theorem engine_of_lazy_pair (ha : s.val ra < 2 * s.cfg.p k) (hb : s.val rb < 2 * s.cfg.p k) :
    s.engine [s.operandCheck k ra, s.operandCheck k rb] rd v =
      .next { s with sreg := s.sreg.set rd (Word.ofNat v), status := s.status.completed } :=
  engine_of_pass rd v ((firstFault_operandCheck_pass ha _).trans (firstFault_operandCheck_pass hb []))

theorem engine_of_not_lazy_pair (h : 2 * s.cfg.p k ≤ s.val ra ∨ 2 * s.cfg.p k ≤ s.val rb) :
    s.engine [s.operandCheck k ra, s.operandCheck k rb] rd v = .next (s.raise .range) := by
  refine engine_of_fault rd v ?_
  by_cases ha : 2 * s.cfg.p k ≤ s.val ra
  · exact firstFault_operandCheck_fail ha _
  · rw [firstFault_operandCheck_pass (not_le.1 ha)]
    exact firstFault_operandCheck_fail (h.resolve_left ha) []

end State

/-! ### The inverse by Fermat (R107) -/

variable {c : Config} {k : Modulus} {x : Nat}

theorem mul_inverse_mod (hx : x < c.p k) (h0 : x ≠ 0) : x * c.inverse k x % c.p k = 1 := by
  have := c.fact k
  have hne : (x : c.F k) ≠ 0 := by
    rw [Ne, ZMod.natCast_eq_zero_iff]
    exact Nat.not_dvd_of_pos_of_lt (Nat.pos_of_ne_zero h0) hx
  have h : ((x * c.inverse k x : Nat) : c.F k) = ((1 : Nat) : c.F k) := by
    rw [Nat.cast_mul, c.cast_inverse, mul_inv_cancel₀ hne, Nat.cast_one]
  rw [(c.mod_eq_iff k _ _).2 h, Nat.mod_eq_of_lt (c.prime k).one_lt]

theorem inverse_zero : c.inverse k 0 = 0 := by
  have := c.two_lt_p k
  rw [Config.inverse, powMod_eq, zero_pow (by omega), Nat.zero_mod]

/-- `MINV` raises to the power p - 2, as the ROM constants of R10 do for an inverse. -/
theorem modpow_inverse {a : Nat} (ha : a < 2 * c.p k) (h : Represents c k a x) :
    modpow c k a (c.p k - 2) = c.inverse k x * 2 ^ 64 % c.p k := by
  rw [modpow_eq_mod _ ha h, Config.inverse, powMod_eq, Nat.mod_mul_mod]

end Sys2Proof.Machine

namespace Sys2Proof

open Machine

/-- Settles O20: conversion of a word is its Montgomery word. -/
theorem mtoConvertsToMontgomeryForm : Obligations.MtoConvertsToMontgomeryForm := by
  intro s rd ra k
  refine ⟨encode_eq_commandWord rfl, ?_⟩
  rw [exec_mto, State.engine_of_pass rd _ rfl, State.val_eq, toMont_eq_mod s.cfg k (BitVec.isLt _)]

/-- Settles O21: w is the conversion of the word. -/
theorem mfromConvertsToAnInteger : Obligations.MfromConvertsToAnInteger := by
  intro s rd ra k
  refine ⟨encode_eq_commandWord rfl, toInt s.cfg k (s.val ra), toInt_lt s.cfg k (BitVec.isLt _), toInt_mul_radix_mod _, ?_⟩
  rw [exec_mfrom, State.engine_of_pass rd _ rfl]

/-- Settles O22: w is the product of the engine. -/
theorem mmulMultipliesResidues : Obligations.MmulMultipliesResidues := by
  intro s rd ra rb k a b
  rw [exec_mmul]
  exact ⟨encode_eq_commandWord rfl,
    fun ha hb => ⟨mulmod s.cfg k a b, mulmod_lt s.cfg k ha hb, mulmod_mul_radix_mod a b, State.engine_of_lazy_pair rd _ ha hb⟩,
    State.engine_of_not_lazy_pair rd _⟩

/-- Settles O23: on lazy operands the one correction by 2p makes the sum its residue modulo 2p. -/
theorem maddAddsModuloTheDoubledModulus : Obligations.MaddAddsModuloTheDoubledModulus := by
  intro s rd ra rb k a b
  rw [exec_madd]
  refine ⟨encode_eq_commandWord rfl, fun ha hb => ?_, State.engine_of_not_lazy_pair rd _⟩
  rw [← addmod_eq s.cfg k ha hb]
  exact State.engine_of_lazy_pair rd _ ha hb

/-- Settles O24: on lazy operands the one correction by 2p makes the difference its residue modulo 2p. -/
theorem msubSubtractsModuloTheDoubledModulus : Obligations.MsubSubtractsModuloTheDoubledModulus := by
  intro s rd ra rb k a b
  rw [exec_msub]
  refine ⟨encode_eq_commandWord rfl, fun ha hb => ?_, State.engine_of_not_lazy_pair rd _⟩
  rw [← submod_eq s.cfg k ha hb]
  exact State.engine_of_lazy_pair rd _ ha hb

/-- Settles O25: on a lazy operand one conditional subtraction of p reaches the residue. -/
theorem mnormReducesToCanonical : Obligations.MnormReducesToCanonical := by
  intro s rd ra k a
  rw [exec_mnorm]
  refine ⟨encode_eq_commandWord rfl, fun ha => ?_, State.engine_of_not_lazy rd _⟩
  rw [← norm2_eq s.cfg k ha]
  exact State.engine_of_lazy rd _ ha

/-- Settles O26: the base represents some residue, and the loop of `modpow` is its power. -/
theorem mpowRaisesToAPower : Obligations.MpowRaisesToAPower := by
  intro s rd ra rb k a e
  rw [exec_mpow]
  refine ⟨encode_eq_commandWord rfl, fun ha => ?_, State.engine_of_not_lazy rd _⟩
  obtain ⟨x, hx, hax⟩ := exists_represents s.cfg k a
  refine ⟨x, hx, hax, ?_⟩
  rw [← modpow_eq_mod e ha hax]
  exact State.engine_of_lazy rd _ ha

/-- Settles O27: the power p - 2 of a residue is its inverse, and 0 where it is 0. -/
theorem minvInvertsResidues : Obligations.MinvInvertsResidues := by
  intro s rd ra k a
  rw [exec_minv]
  refine ⟨encode_eq_commandWord rfl, fun ha => ?_, State.engine_of_not_lazy rd _⟩
  obtain ⟨x, hx, hax⟩ := exists_represents s.cfg k a
  refine ⟨x, s.cfg.inverse k x, hx, hax, s.cfg.inverse_lt k x, mul_inverse_mod hx, ?_, ?_⟩
  · rintro rfl
    exact inverse_zero
  · rw [← modpow_inverse ha hax]
    exact State.engine_of_lazy rd _ ha

end Sys2Proof
end

section
/-! Proofs. Data movement and no-operation (R110 to R112): the index check of `LDE` and `STE`, the word they move, and `NOP`. -/

namespace Sys2Proof.Machine

theorem exec_nop (s : State) : exec .nop s = s.command [] fun s => s := rfl

theorem exec_lde (s : State) (rd : Reg) (bank : Bank) (rb : Reg) : exec (.lde rd bank rb) s =
    s.command [s.indexCheck bank (s.val rb)] fun s => s.setS rd (s.bankRead bank (s.val rb)) := rfl

theorem exec_ste (s : State) (bank : Bank) (ra rb : Reg) : exec (.ste bank ra rb) s =
    s.command [s.indexCheck bank (s.val ra)] fun s => s.memWrite bank (s.val ra) (s.getS rb) := rfl

namespace State

variable {s : State} {b : Bank} {i : Nat} (op : State → State)

theorem command_of_index (h : i < capacity s.cfg b) : s.command [s.indexCheck b i] op = .next (op s).complete :=
  command_of_pass (firstFault_pass (not_le.2 h) _ [])

theorem command_of_bad_index (h : capacity s.cfg b ≤ i) : s.command [s.indexCheck b i] op = .next (s.raise .bounds) :=
  command_of_fault (firstFault_fail h _ [])

end State

end Sys2Proof.Machine

namespace Sys2Proof

open Machine

/-- Settles O28: the index check decides between the load and the fault. -/
theorem ldeLoadsOneWord : Obligations.LdeLoadsOneWord := by
  intro s rd bank rb i
  rw [exec_lde]
  exact ⟨encode_eq_commandWord rfl, State.command_of_index _, State.command_of_bad_index _⟩

/-- Settles O29: the store is one write of a bank word, which changes that word alone. -/
theorem steStoresOneWord : Obligations.SteStoresOneWord := by
  intro s bank ra rb _ i
  rw [exec_ste]
  refine ⟨encode_eq_commandWord rfl, fun hi => ⟨(s.memWrite bank i (s.getS rb)).complete, State.command_of_index _ hi,
    s.bankRead_memWrite_self bank i _, fun _ _ hne => s.bankRead_memWrite_ne hne _, ?_⟩, State.command_of_bad_index _⟩
  rw [State.memWrite_eq]
  rfl

/-- Settles O30: with no check and no operation, completion is all that is left. -/
theorem nopOnlyCompletes : Obligations.NopOnlyCompletes := by
  intro s
  rw [exec_nop, State.command_of_pass firstFault_nil]
  exact ⟨encode_eq_commandWord rfl, rfl⟩

end Sys2Proof
end

section
/-! Proofs. `TWB` (R126): its two checks in order, and the table it leaves (R122). -/

namespace Sys2Proof.Machine

theorem exec_twb (s : State) (k : Modulus) (lg : Lg) : exec (.twb k lg) s =
    s.command [(decide (s.cfg.logNmax < lg.val), .length), (decide (s.cfg.twcap < 2 ^ lg.val), .capacity)]
      fun s => s.buildTable k lg := rfl

/-- Building leaves every word outside the table as it was (R126). -/
theorem State.bankRead_buildTable_other {s : State} {k : Modulus} {t : Lg} {b : Bank} {i : Nat}
    (h : ¬ ((b = .twf ∨ b = .twi) ∧ i < 2 ^ t.val)) : (s.buildTable k t).bankRead b i = s.bankRead b i := by
  rw [bankRead_buildTable, if_neg fun hi => h ⟨.inr hi.1, hi.2⟩, if_neg fun hf => h ⟨.inl hf.1, hf.2⟩]

end Sys2Proof.Machine

namespace Sys2Proof

open Machine

/-- Settles O31: the checks decide between the faults and the build, whose words are the table's and whose frame is the rest. -/
theorem twbBuildsTheTable : Obligations.TwbBuildsTheTable := by
  intro s k lg
  rw [exec_twb]
  refine ⟨encode_eq_commandWord rfl, fun hlong => ?_, fun hlen hbig => ?_, fun hlen hcap => ?_⟩
  · exact State.command_of_fault (firstFault_fail hlong _ _)
  · exact State.command_of_fault ((firstFault_pass (not_lt.2 hlen) _ _).trans (firstFault_fail hbig _ _))
  · refine ⟨(s.buildTable k lg).complete, State.command_of_pass ?_, ?_, s.tableUpTo_buildTable hlen, fun _ _ hout =>
      State.bankRead_buildTable_other hout⟩
    · exact (firstFault_pass (not_lt.2 hlen) _ _).trans (firstFault_pass (not_lt.2 hcap) _ _)
    · rw [State.complete, State.buildTable_eq]

end Sys2Proof
end

section
/-! Proofs. The radix-4 stages `R4DIF` and `R4DIT` (R148 to R151): a kernel command whose operands pass completes with the
canonical words of its transform, and with a true table each quartet of a stage is given by the powers of one root. -/

namespace Sys2Proof.Machine

theorem exec_r4dif (s : State) (bank : Bank) (ra : Reg) (k : Modulus) (lg : Lg) : exec (.r4dif bank ra k lg) s =
    s.transform (decide (lg.val < 2) || decide (s.cfg.logNmax < lg.val)) bank ra k lg.val (s.tableChecks k lg.val)
      (r4dif s.cfg k s.twfAt lg.val) := rfl

theorem exec_r4dit (s : State) (bank : Bank) (ra : Reg) (k : Modulus) (lg : Lg) : exec (.r4dit bank ra k lg) s =
    s.transform (decide (lg.val < 2) || decide (s.cfg.logNmax < lg.val)) bank ra k lg.val (s.tableChecks k lg.val)
      (r4dit s.cfg k s.twiAt lg.val) := rfl

/-- The words of a block as residues. -/
theorem State.resF_block (s : State) (k : Modulus) (b : Bank) (off : Nat) {l i : Nat} (hi : i < 2 ^ l) :
    resF s.cfg k (s.block b off l) i = s.wordAt b (off + i) := by rw [resF, s.nth_block b off hi]

/-- A kernel command whose checks pass, where its function keeps the block lazy (R135): the block's words become the canonical
words of the function's residues, and nothing else changes. -/
theorem State.transform_spec {s : State} {bad : Bool} {b : Bank} {ra : Reg} {k : Modulus} {off l : Nat} {table : List Check}
    {f : List Nat → List Nat} (hoff : s.val ra = off) (hbad : bad = false) (hfits : s.Fits b off l)
    (htable : firstFault table = none) (hlazy : s.LazyBlock b off l k) (hlen : (f (s.block b off l)).length = 2 ^ l)
    (hf : LazyList s.cfg k (f (s.block b off l))) :
    ∃ t, s.transform bad b ra k l table f = .next t ∧ s.OnlyWords t (InBlock b off l) ∧ t.CanonicalBlock b off l k ∧
      ∀ i < 2 ^ l, resF s.cfg k (f (s.block b off l)) i = t.wordAt b (off + i) := by
  subst hoff
  obtain ⟨hclen, hclt, hcres⟩ := canonical_spec hlen hf
  obtain ⟨honly, hcanon, hword⟩ := mapBlock_spec (f := fun x => canonical s.cfg k (f x)) hclen hclt
  refine ⟨_, command_of_pass (firstFault_block hbad hfits htable hlazy), honly, hcanon, fun i hi => ?_⟩
  rw [hword i hi]
  exact (hcres i hi).symm

section Stages

variable {c : Config} {k : Modulus} {tw : Nat → Nat} {l : Nat} {x : List Nat}

theorem stage_admitted (hl : 2 ≤ l) (hmax : l ≤ c.logNmax) : (decide (l < 2) || decide (c.logNmax < l)) = false :=
  Bool.or_eq_false_iff.2 ⟨decide_eq_false (not_lt.2 hl), decide_eq_false (not_lt.2 hmax)⟩

/-- A forward stage, every twiddle a power of the one root of order `2^l` (R148). -/
theorem r4dif_stage (hl : 2 ≤ l) (hmax : l ≤ c.logNmax) (ht : Twiddles c k (c.rootF k) tw l) (hx : x.length = 2 ^ l)
    (hlz : LazyList c k x) :
    (r4dif c k tw l x).length = 2 ^ l ∧ LazyList c k (r4dif c k tw l x) ∧
    ∀ j < 2 ^ (l - 2),
      let q := 2 ^ (l - 2)
      let w := c.rootF k l
      let y := resF c k (r4dif c k tw l x)
      let x := resF c k x
      y j = x j + x (j + 2 * q) + (x (j + q) + x (j + 3 * q)) ∧
      y (j + q) = (x j + x (j + 2 * q) - (x (j + q) + x (j + 3 * q))) * w ^ (2 * j) ∧
      y (j + 2 * q) = (x j - x (j + 2 * q) + (x (j + q) - x (j + 3 * q)) * w ^ q) * w ^ j ∧
      y (j + 3 * q) = (x j - x (j + 2 * q) - (x (j + q) - x (j + 3 * q)) * w ^ q) * w ^ (3 * j) := by
  obtain ⟨n, rfl⟩ := Nat.exists_eq_add_of_le' hl
  obtain ⟨hlen, hlazy, hwords⟩ := r4dif_spec ht hx hlz
  refine ⟨hlen, hlazy, fun j hj => ?_⟩
  rw [Nat.add_sub_cancel] at *
  obtain ⟨h0, h1, h2, h3⟩ := hwords j hj
  have hhalf : c.rootF k (n + 1) ^ j = c.rootF k (n + 2) ^ (2 * j) := by rw [pow_mul, c.rootF_sq k hmax]
  rw [Nat.add_comm _ j] at h1 h2 h3
  refine ⟨h0, ?_, ?_, ?_⟩
  · rw [h1, hhalf]
  · rw [h2, pow_add]
    ring
  · rw [h3, hhalf, pow_add]
    ring

/-- An inverse stage, every inverse of a power of the root written as a positive power (R149). -/
theorem r4dit_stage (hl : 2 ≤ l) (hmax : l ≤ c.logNmax) (ht : Twiddles c k (c.rootIF k) tw l) (hx : x.length = 2 ^ l)
    (hlz : LazyList c k x) :
    (r4dit c k tw l x).length = 2 ^ l ∧ LazyList c k (r4dit c k tw l x) ∧
    ∀ j < 2 ^ (l - 2),
      let q := 2 ^ (l - 2)
      let w := c.rootF k l
      let y := resF c k (r4dit c k tw l x)
      let x := resF c k x
      let b := x (j + q) * w ^ (4 * q - 2 * j)
      let d := x (j + 3 * q) * w ^ (4 * q - 2 * j)
      let u := (x (j + 2 * q) + d) * w ^ (4 * q - j)
      let v := (x (j + 2 * q) - d) * w ^ (4 * q - j - q)
      y j = x j + b + u ∧ y (j + q) = x j - b + v ∧ y (j + 2 * q) = x j + b - u ∧ y (j + 3 * q) = x j - b - v := by
  obtain ⟨n, rfl⟩ := Nat.exists_eq_add_of_le' hl
  obtain ⟨hlen, hlazy, hwords⟩ := r4dit_spec ht hx hlz
  refine ⟨hlen, hlazy, fun j hj => ?_⟩
  rw [Nat.add_sub_cancel] at *
  obtain ⟨h0, h1, h2, h3⟩ := hwords j hj
  have hfour : 2 ^ (n + 2) = 4 * 2 ^ n := by ring
  have hpow : ∀ m ≤ 4 * 2 ^ n, c.rootIF k (n + 2) ^ m = c.rootF k (n + 2) ^ (4 * 2 ^ n - m) := fun m hm => by
    rw [c.rootIF_pow k hmax (hfour ▸ hm), hfour]
  have hhalf : c.rootIF k (n + 1) ^ j = c.rootF k (n + 2) ^ (4 * 2 ^ n - 2 * j) := by
    rw [← c.rootIF_sq k hmax, ← pow_mul, hpow _ (by omega)]
  rw [hhalf, hpow j (by omega)] at h0 h2
  rw [hhalf, hpow (j + 2 ^ n) (by omega), ← Nat.sub_sub] at h1 h3
  rw [Nat.add_comm _ j] at h1 h2 h3
  exact ⟨h0, h1, h2, h3⟩

end Stages

end Sys2Proof.Machine

namespace Sys2Proof

open Machine

/-- Settles O34: with the powers of one root in the table, the loop of `r4dif` is the two fused layers on residues. -/
theorem r4difRunsOneStage : Obligations.R4difRunsOneStage := by
  intro s bank ra k lg _ off i p q w x
  refine ⟨encode_eq_commandWord rfl, blockFaults_of_checks (exec_r4dif s bank ra k lg) (by simp) (fun _ => rfl)
    (absurd trivial), fun hl hmax hfits htable hlazy htrue => ?_⟩
  obtain ⟨hlen, hlist, hstage⟩ := r4dif_stage hl hmax (htable.upTo htrue).forward (s.length_block bank off lg.val)
    (s.lazyList_block hlazy)
  obtain ⟨t, hexec, honly, hcanon, hword⟩ := State.transform_spec (off := off) rfl (stage_admitted hl hmax) hfits
    (s.firstFault_tableChecks_pass htable) hlazy hlen hlist
  refine ⟨t, hexec, honly, hcanon, fun j (hj : j < 2 ^ (lg.val - 2)) => ?_⟩
  -- `whole` bounds the four places of the quartet by the block; there both blocks' residues are words.
  have hquarter := whole hl
  have hquartet := hstage j hj
  simp (disch := omega) only [hword, s.resF_block] at hquartet
  simp only [← ZMod.intCast_eq_intCast_iff, Nat.add_assoc]
  push_cast
  exact hquartet

/-- Settles O35: with the inverse powers of one root in the table, the loop of `r4dit` is the two merging layers on residues. -/
theorem r4ditRunsOneStage : Obligations.R4ditRunsOneStage := by
  intro s bank ra k lg _ off i p q w x
  refine ⟨encode_eq_commandWord rfl, blockFaults_of_checks (exec_r4dit s bank ra k lg) (by simp) (fun _ => rfl)
    (absurd trivial), fun hl hmax hfits htable hlazy htrue => ?_⟩
  obtain ⟨hlen, hlist, hstage⟩ := r4dit_stage hl hmax ((htable.upTo htrue).inverse hmax) (s.length_block bank off lg.val)
    (s.lazyList_block hlazy)
  obtain ⟨t, hexec, honly, hcanon, hword⟩ := State.transform_spec (off := off) rfl (stage_admitted hl hmax) hfits
    (s.firstFault_tableChecks_pass htable) hlazy hlen hlist
  refine ⟨t, hexec, honly, hcanon, fun j (hj : j < 2 ^ (lg.val - 2)) => ?_⟩
  -- `whole` bounds the four places of the quartet by the block; there both blocks' residues are words.
  have hquarter := whole hl
  have hquartet := hstage j hj
  simp (disch := omega) only [hword, s.resF_block] at hquartet
  simp only [← ZMod.intCast_eq_intCast_iff, Nat.add_assoc]
  push_cast
  exact hquartet

end Sys2Proof
end

section
/-! Proofs. The block transforms `KDIF`, `KDIT`, `NTTF` and `NTTI` (R146, R147, R154, R155): on a lazy block that its checks pass,
each leaves the canonical words of one network of its residues, which is the sum that defines the transform (R141, R156 (1)). -/

namespace Sys2Proof.Machine

section Exec

variable (s : State) (bank : Bank) (ra : Reg) (k : Modulus) (lg : Lg)

theorem exec_kdif : exec (.kdif bank ra k lg) s =
    s.transform (decide (3 < lg.val)) bank ra k lg.val [] (kdif s.cfg k lg.val) := rfl

theorem exec_kdit : exec (.kdit bank ra k lg) s =
    s.transform (decide (3 < lg.val)) bank ra k lg.val [] (kdit s.cfg k lg.val) := rfl

theorem exec_nttf : exec (.nttf bank ra k lg) s =
    s.transform (decide (s.cfg.logThresh < lg.val) || decide (s.cfg.logNmax < lg.val)) bank ra k lg.val
      (s.tableChecksFrom4 k lg.val) (nttf s.cfg k s.twfAt lg.val) := rfl

theorem exec_ntti : exec (.ntti bank ra k lg) s =
    s.transform (decide (s.cfg.logThresh < lg.val) || decide (s.cfg.logNmax < lg.val)) bank ra k lg.val
      (s.tableChecksFrom4 k lg.val) (ntti s.cfg k s.twiAt lg.val) := rfl

end Exec

namespace State

variable {c : Config} {k : Modulus} {s t : State} {b : Bank} {r : Reg} {off l : Nat} {g : (Nat → c.F k) → Nat → c.F k}

/-! ### What a block command does, on residues -/

/-- A block command under the configuration c took s to t: the block's words became the canonical words of the residues that g
makes of its words, and nothing else changed. -/
structure BlockBecomes (c : Config) (k : Modulus) (s t : State) (b : Bank) (off l : Nat)
    (g : (Nat → c.F k) → Nat → c.F k) : Prop where
  cfg       : t.cfg = c
  only      : s.OnlyWords t (InBlock b off l)
  canonical : t.CanonicalBlock b off l k
  words     : ∀ i < 2 ^ l, (t.wordAt b (off + i) : c.F k) = g (fun j => s.wordAt b (off + j)) i

theorem BlockBecomes.lt (h : BlockBecomes c k s t b off l g) {i : Nat} (hi : i < 2 ^ l) : t.wordAt b (off + i) < c.p k := by
  rw [← h.cfg]
  exact h.canonical i hi

/-- A word of the block is determined by its residue. -/
theorem BlockBecomes.word_eq (h : BlockBecomes c k s t b off l g) {i x : Nat} (hi : i < 2 ^ l) (hx : x < c.p k)
    (hword : (x : c.F k) = g (fun j => s.wordAt b (off + j)) i) : t.wordAt b (off + i) = x :=
  c.nat_eq_of_cast k (h.lt hi) hx ((h.words i hi).trans hword.symm)

/-- A transform whose function computes g, where its checks pass. -/
theorem transform_becomes {bad : Bool} {table : List Check} {f : List Nat → List Nat} (hcfg : s.cfg = c)
    (hoff : s.val r = off) (hbad : bad = false) (hfits : s.Fits b off l) (htable : firstFault table = none)
    (hlazy : s.LazyBlock b off l k) (hf : Computes c k l f g)
    (hg : ∀ {x y : Nat → c.F k}, (∀ j < 2 ^ l, x j = y j) → ∀ {i}, i < 2 ^ l → g x i = g y i) :
    ∃ t, s.transform bad b r k l table f = .next t ∧ BlockBecomes c k s t b off l g := by
  subst hcfg
  obtain ⟨hlen, hlist, hres⟩ := hf _ (s.length_block b off l) (s.lazyList_block hlazy)
  obtain ⟨t, hexec, honly, hcanon, hword⟩ := transform_spec hoff hbad hfits htable hlazy hlen hlist
  refine ⟨t, hexec, by rw [honly.1], honly, hcanon, fun i hi => ?_⟩
  rw [← hword i hi, hres i hi]
  exact hg (fun j hj => s.resF_block k b off hj) hi

/-! ### The cache-resident transforms -/

/-- What `NTTF` and `NTTI` of a block ask for under the configuration c, but for its words being lazy (R154, R155). -/
structure TransformReady (c : Config) (s : State) (b : Bank) (r : Reg) (off : Nat) (k : Modulus) (l : Nat) : Prop where
  cfg       : s.cfg = c
  offset    : s.val r = off
  thresh    : l ≤ c.logThresh
  nmax      : l ≤ c.logNmax
  fits      : s.Fits b off l
  table     : 4 ≤ l → s.TableReady k l
  tableTrue : s.TableTrue

namespace TransformReady

variable (h : s.TransformReady c b r off k l)
include h

theorem lengthCheck_eq : (decide (s.cfg.logThresh < l) || decide (s.cfg.logNmax < l)) = false := by
  rw [h.cfg]
  exact Bool.or_eq_false_iff.2 ⟨decide_eq_false (not_lt.2 h.thresh), decide_eq_false (not_lt.2 h.nmax)⟩

theorem tableChecks_pass : firstFault (s.tableChecksFrom4 k l) = none := by
  rw [tableChecksFrom4]
  split
  · exact s.firstFault_tableChecks_pass (h.table ‹_›)
  · rfl

theorem forward (h4 : 4 ≤ l) : Twiddles c k (c.rootF k) s.twfAt l := by
  obtain rfl := h.cfg
  exact ((h.table h4).upTo h.tableTrue).forward

theorem inverse (h4 : 4 ≤ l) : Twiddles c k (c.rootIF k) s.twiAt l := by
  obtain rfl := h.cfg
  exact ((h.table h4).upTo h.tableTrue).inverse h.nmax

end TransformReady

/-- `NTTF` leaves the forward network of the block (R154, R156 (4)). -/
theorem exec_nttf_becomes {lg : Lg} (h : s.TransformReady c b r off k lg.val) (hlazy : s.LazyBlock b off lg.val k) :
    ∃ t, exec (.nttf b r k lg) s = .next t ∧ BlockBecomes c k s t b off lg.val (difF (c.rootF k lg.val) lg.val) := by
  rw [exec_nttf, h.cfg]
  exact transform_becomes h.cfg h.offset (h.cfg ▸ h.lengthCheck_eq) h.fits h.tableChecks_pass hlazy
    (nttf_computes h.nmax h.forward) (difF_congr _ _)

/-- `NTTI` leaves the inverse network of the image that the block held (R155). -/
theorem exec_ntti_becomes {lg : Lg} (h : s.TransformReady c b r off k lg.val) (hlazy : s.LazyBlock b off lg.val k) :
    ∃ t, exec (.ntti b r k lg) s = .next t ∧ BlockBecomes c k s t b off lg.val (ditF (c.rootIF k lg.val) lg.val) := by
  rw [exec_ntti, h.cfg]
  exact transform_becomes h.cfg h.offset (h.cfg ▸ h.lengthCheck_eq) h.fits h.tableChecks_pass hlazy
    (ntti_computes h.nmax h.inverse) (ditF_congr _ _)

/-! ### The networks as sums -/

/-- The forward network leaves `X_m` at `brev m` (R156 (1)). -/
theorem BlockBecomes.dft_eq (h : BlockBecomes c k s t b off l (difF (c.rootF k l) l)) (hl : l ≤ c.logNmax) {m : Nat}
    (hm : m < 2 ^ l) : t.wordAt b (off + brev l m) = dft c k l (fun j => s.wordAt b (off + j)) m :=
  h.word_eq (brev_lt l m) (dft_lt ..) (cast_dft hl _ hm)

/-- The inverse network leaves N times the inverse transform (R153). -/
theorem BlockBecomes.idft_eq (h : BlockBecomes c k s t b off l (ditF (c.rootIF k l) l)) (hl : l ≤ c.logNmax) {j : Nat}
    (hj : j < 2 ^ l) : t.wordAt b (off + j) = idft c k l (fun m => s.wordAt b (off + m)) j :=
  h.word_eq hj (idft_lt ..) (cast_idft hl _ hj)

end State

theorem thresh_or_nmax_iff (s : State) (l : Nat) : (decide (s.cfg.logThresh < l) || decide (s.cfg.logNmax < l)) = true ↔
    s.cfg.logThresh < l ∨ s.cfg.logNmax < l := by rw [Bool.or_eq_true, decide_eq_true_iff, decide_eq_true_iff]

theorem kernel_le_logNmax (c : Config) {l : Nat} (hl : l ≤ 3) : l ≤ c.logNmax := hl.trans c.nmax_ge

end Sys2Proof.Machine

namespace Sys2Proof

open Machine

/-- Settles O32: the kernel computes the forward network, whose words are the transform in bit-reversed order. -/
theorem kdifTransformsABlock : Obligations.KdifTransformsABlock := by
  intro s bank ra k lg _ off i
  refine ⟨encode_eq_commandWord rfl, blockFaults_of_checks (exec_kdif s bank ra k lg) decide_eq_true_iff False.elim
    (fun _ => rfl), fun hl hfits hlazy => ?_⟩
  obtain ⟨t, hexec, h⟩ := State.transform_becomes (r := ra) (table := []) rfl rfl (decide_eq_false (not_lt.2 hl)) hfits rfl
    hlazy (kdif_computes hl) (difF_congr _ _)
  exact ⟨t, hexec, h.only, fun _ => h.dft_eq (kernel_le_logNmax _ hl)⟩

/-- Settles O33: the kernel computes the inverse network, whose words are the sums over inverse powers of the root. -/
theorem kditInvertsABlock : Obligations.KditInvertsABlock := by
  intro s bank ra k lg _ off i
  refine ⟨encode_eq_commandWord rfl, blockFaults_of_checks (exec_kdit s bank ra k lg) decide_eq_true_iff False.elim
    (fun _ => rfl), fun hl hfits hlazy => ?_⟩
  obtain ⟨t, hexec, h⟩ := State.transform_becomes (r := ra) (table := []) rfl rfl (decide_eq_false (not_lt.2 hl)) hfits rfl
    hlazy (kdit_computes hl) (ditF_congr _ _)
  exact ⟨t, hexec, h.only, fun _ => h.idft_eq (kernel_le_logNmax _ hl)⟩

/-- Settles O36: the stages compute the forward network (by induction on the length), whose words are the transform in
bit-reversed order. -/
theorem nttfIsTheForwardTransform : Obligations.NttfIsTheForwardTransform := by
  intro s bank ra k lg _ off i
  refine ⟨encode_eq_commandWord rfl, blockFaults_of_checks (exec_nttf s bank ra k lg) (thresh_or_nmax_iff s _) (if_pos ·)
    (if_neg ·), fun hthresh hmax hfits htable hlazy htrue => ?_⟩
  obtain ⟨t, hexec, h⟩ := State.exec_nttf_becomes ⟨rfl, rfl, hthresh, hmax, hfits, htable, htrue⟩ hlazy
  exact ⟨t, hexec, h.only, fun _ => h.dft_eq hmax⟩

/-- Settles O37: the stages compute the inverse network (by induction on the length), whose words are the sums over inverse
powers of the root. -/
theorem nttiIsTheInverseTransform : Obligations.NttiIsTheInverseTransform := by
  intro s bank ra k lg _ off i
  refine ⟨encode_eq_commandWord rfl, blockFaults_of_checks (exec_ntti s bank ra k lg) (thresh_or_nmax_iff s _) (if_pos ·)
    (if_neg ·), fun hthresh hmax hfits htable hlazy htrue => ?_⟩
  obtain ⟨t, hexec, h⟩ := State.exec_ntti_becomes ⟨rfl, rfl, hthresh, hmax, hfits, htable, htrue⟩ hlazy
  exact ⟨t, hexec, h.only, fun _ => h.idft_eq hmax⟩

end Sys2Proof
end

section
/-! Proofs. R156 (2) to (4): a block command on a transform bank leaves everything that the next command asks for, so that the
networks of successive commands compose; on residues they are the laws of Laws/Transform.lean. -/

namespace Sys2Proof.Machine

/-! ### Pointwise commands (R171, R173) -/

theorem exec_scl (s : State) (bank : Bank) (ra rb : Reg) (k : Modulus) (lg : Lg) : exec (.scl bank ra rb k lg) s =
    s.command [s.nmaxCheck lg.val, s.extentCheck bank (s.val ra) lg.val, (notLazy s.cfg k (s.val rb), .range),
        s.rangeCheck bank (s.val ra) lg.val k]
      fun s => s.mapBlock bank (s.val ra) lg.val fun x => scaleBy s.cfg k (s.val rb) x := rfl

theorem exec_pwmul (s : State) (bankd banks : Bank) (rb : Reg) (k : Modulus) (lg : Lg) : exec (.pwmul bankd banks rb k lg) s =
    s.command ([s.nmaxCheck lg.val, aliasCheck bankd banks, s.extentCheck bankd (s.val rb) lg.val] ++ [] ++
        [s.rangeCheck bankd (s.val rb) lg.val k, s.rangeCheck banks (s.val rb) lg.val k])
      fun s => s.mapBlock bankd (s.val rb) lg.val fun x => pointwise s.cfg k x (s.block banks (s.val rb) lg.val) := rfl

namespace State

variable {c : Config} {k : Modulus} {s t u : State} {d b b' : Bank} {r rb : Reg} {off off' l l' : Nat}
  {g : (Nat → c.F k) → Nat → c.F k}

theorem mapBlock_becomes {f : List Nat → List Nat} (hcfg : s.cfg = c) (hlen : (f (s.block b off l)).length = 2 ^ l)
    (hlt : ∀ a ∈ f (s.block b off l), a < c.p k)
    (hres : ∀ i < 2 ^ l, resF c k (f (s.block b off l)) i = g (fun j => s.wordAt b (off + j)) i) :
    BlockBecomes c k s (s.mapBlock b off l f).complete b off l g := by
  subst hcfg
  obtain ⟨honly, hcanon, hword⟩ := mapBlock_spec hlen hlt
  refine ⟨by rw [honly.1], honly, hcanon, fun i hi => ?_⟩
  rw [hword i hi, ← hres i hi]

/-- `SCL` by a lazy word (R173). -/
theorem exec_scl_becomes {lg : Lg} (hcfg : s.cfg = c) (hoff : s.val r = off) (hmax : lg.val ≤ c.logNmax)
    (hfits : s.Fits b off lg.val) (hfactor : s.val rb < 2 * c.p k) (hlazy : s.LazyBlock b off lg.val k) :
    ∃ t, exec (.scl b r rb k lg) s = .next t ∧
      BlockBecomes c k s t b off lg.val (fun x i => x i * s.val rb * c.ri k) := by
  subst hcfg hoff
  obtain ⟨hlen, hlt, hres⟩ := scaleBy_spec (s.length_block b (s.val r) lg.val) (s.lazyList_block hlazy) hfactor
  refine ⟨_, (exec_scl ..).trans (command_of_pass ?_), mapBlock_becomes rfl hlen hlt fun i hi => ?_⟩
  · rw [nmaxCheck, firstFault_pass (not_lt.2 hmax), firstFault_extentCheck_pass s hfits, firstFault_cons,
      (notLazy_eq _ k _).2 hfactor, if_neg Bool.false_ne_true, firstFault_rangeCheck_pass s hlazy, firstFault_nil]
  · rw [hres i hi, s.resF_block k b _ hi]

/-- `PWMUL` of blocks in two banks (R171). -/
theorem exec_pwmul_becomes {lg : Lg} (hcfg : s.cfg = c) (hoff : s.val r = off) (hmax : lg.val ≤ c.logNmax) (hdb : d ≠ b)
    (hfits : s.Fits d off lg.val) (hlazyd : s.LazyBlock d off lg.val k) (hlazyb : s.LazyBlock b off lg.val k) :
    ∃ t, exec (.pwmul d b r k lg) s = .next t ∧
      BlockBecomes c k s t d off lg.val (fun x i => x i * s.wordAt b (off + i) * c.ri k) := by
  subst hcfg hoff
  obtain ⟨hlen, hlt, hres⟩ := pointwise_spec (s.length_block d (s.val r) lg.val) (s.length_block b (s.val r) lg.val)
    (s.lazyList_block hlazyd) (s.lazyList_block hlazyb)
  refine ⟨_, (exec_pwmul ..).trans (command_of_pass (firstFault_pair (decide_eq_false (not_lt.2 hmax)) hdb hfits rfl hlazyd
    hlazyb)), mapBlock_becomes rfl hlen hlt fun i hi => ?_⟩
  rw [hres i hi, s.resF_block k d _ hi, s.resF_block k b _ hi]

/-! ### What a block command leaves to the next one -/

namespace OnlyWords

variable {touched touched' : Bank → Nat → Prop}

theorem cfg_eq (h : s.OnlyWords t touched) : t.cfg = s.cfg := by rw [h.1]

theorem twcfg_eq (h : s.OnlyWords t touched) : t.twcfg = s.twcfg := by rw [h.1]

theorem val_eq (h : s.OnlyWords t touched) (r : Reg) : t.val r = s.val r := by
  rw [h.1]
  rfl

theorem wordAt_eq (h : s.OnlyWords t touched) {b : Bank} {i : Nat} (hout : ¬ touched b i) : t.wordAt b i = s.wordAt b i := by
  rw [wordAt, wordAt, h.2 b i hout]

theorem mono (h : s.OnlyWords t touched) (hsub : ∀ b i, touched b i → touched' b i) : s.OnlyWords t touched' :=
  ⟨h.1, fun b i hout => h.2 b i fun hin => hout (hsub b i hin)⟩

/-- Completion of a second command changes no more of `STATUS` than that of the first. -/
theorem trans (h : s.OnlyWords t touched) (h' : t.OnlyWords u touched) : s.OnlyWords u touched := by
  refine ⟨?_, fun b i hout => (h'.2 b i hout).trans (h.2 b i hout)⟩
  rw [h'.1, h.1]
  rfl

end OnlyWords

theorem not_inBlock_of_ne {i : Nat} (hne : b' ≠ b) : ¬ InBlock b off l b' i := fun hin => hne hin.1

/-- A command that changes words of one transform bank only leaves the table, the registers and the extents as they were. -/
theorem TransformReady.of_onlyWords (h : s.TransformReady c b r off k l) (honly : s.OnlyWords t (InBlock d off' l'))
    (hd : d.isTransform = true) : t.TransformReady c b r off k l where
  cfg := honly.cfg_eq.trans h.cfg
  offset := (honly.val_eq r).trans h.offset
  thresh := h.thresh
  nmax := h.nmax
  fits := by
    rw [Fits, honly.cfg_eq]
    exact h.fits
  table h4 := by
    rw [TableReady, honly.twcfg_eq]
    exact h.table h4
  tableTrue := by
    have keep {tw : Bank} (htw : tw.isTransform = false) (i : Nat) : t.bankRead tw i = s.bankRead tw i :=
      honly.2 tw i (not_inBlock_of_ne fun e => Bool.false_ne_true (htw.symm.trans (e ▸ hd)))
    exact h.tableTrue.congr honly.cfg_eq honly.twcfg_eq (keep rfl) (keep rfl)

theorem CanonicalBlock.lazy (h : s.CanonicalBlock b off l k) : s.LazyBlock b off l k := fun i hi => lazy_of_lt (h i hi)

/-- A block that a command leaves alone stays lazy. -/
theorem LazyBlock.congr (h : s.LazyBlock b off l k) (hcfg : t.cfg = s.cfg)
    (hwords : ∀ i < 2 ^ l, t.wordAt b (off + i) = s.wordAt b (off + i)) : t.LazyBlock b off l k := fun i hi => by
  rw [hwords i hi, hcfg]
  exact h i hi

end State

/-! ### The laws of the networks at the block's own roots -/

variable {c : Config} {k : Modulus} {l : Nat}

theorem ditF_difF_root (hl : l ≤ c.logNmax) (x : Nat → c.F k) {i : Nat} (hi : i < 2 ^ l) :
    ditF (c.rootIF k l) l (difF (c.rootF k l) l x) i = 2 ^ l * x i := by
  have := c.fact k
  exact ditF_difF (c.two_ne k) (c.rootF_half k hl) (fun h0 => h0 ▸ c.rootF_zero k) (c.rootIF_mul k hl) (c.rootIF_half k hl) x hi

theorem ditF_mul_difF_root (hl : l ≤ c.logNmax) (x y : Nat → Nat) {i : Nat} (hi : i < 2 ^ l) :
    ditF (c.rootIF k l) l (fun n => difF (c.rootF k l) l (fun j => (x j : c.F k)) n
      * difF (c.rootF k l) l (fun j => (y j : c.F k)) n) i = 2 ^ l * (cyclic l x y i : Nat) := by
  have := c.fact k
  rw [ditF_mul_difF (c.two_ne k) (c.rootF_half k hl) (fun h0 => h0 ▸ c.rootF_zero k) (c.rootIF_mul k hl) (c.rootIF_half k hl)
    _ _ hi, cyclic, Nat.cast_sum]
  simp only [Nat.cast_mul]

end Sys2Proof.Machine

namespace Sys2Proof

open Machine

/-- Settles O38: the inverse network undoes the forward one up to the factor N, which the scaling removes. -/
theorem transformRoundTrip : Obligations.TransformRoundTrip := by
  intro s bank ra rb k lg hbank off hthresh hmax hfits htable hlazy htrue hfactor hinverse
  have ready : s.TransformReady s.cfg bank ra off k lg.val := ⟨rfl, rfl, hthresh, hmax, hfits, htable, htrue⟩
  obtain ⟨t, hnttf, ht⟩ := State.exec_nttf_becomes ready hlazy
  have readyt := ready.of_onlyWords ht.only hbank
  obtain ⟨u, hntti, hu⟩ := State.exec_ntti_becomes readyt ht.canonical.lazy
  have readyu := readyt.of_onlyWords hu.only hbank
  have hrb : u.val rb = s.val rb := (hu.only.val_eq rb).trans (ht.only.val_eq rb)
  obtain ⟨v, hscl, hv⟩ := State.exec_scl_becomes (rb := rb) hu.cfg readyu.offset hmax readyu.fits (hrb ▸ hfactor)
    hu.canonical.lazy
  have hN : ∀ j < 2 ^ lg.val, (u.wordAt bank (off + j) : s.cfg.F k) = 2 ^ lg.val * s.wordAt bank (off + j) := fun j hj => by
    rw [hu.words j hj, ditF_congr _ _ ht.words hj, ditF_difF_root hmax _ hj]
  refine ⟨t, u, v, hnttf, hntti, fun j hj => ?_, hscl, fun j hj => ?_⟩
  · refine eq_mod_of_cast (hu.lt hj) ?_
    rw [hN j hj, Nat.cast_mul, Nat.cast_pow, Nat.cast_ofNat]
  · refine eq_mod_of_cast (hv.lt hj) ?_
    rw [s.cfg.mod_eq_iff, Nat.cast_mul, Nat.cast_pow, Nat.cast_pow, Nat.cast_ofNat] at hinverse
    calc (v.wordAt bank (off + j) : s.cfg.F k)
        = u.wordAt bank (off + j) * u.val rb * s.cfg.ri k := hv.words j hj
      _ = 2 ^ lg.val * s.wordAt bank (off + j) * s.val rb * s.cfg.ri k := by rw [hN j hj, hrb]
      _ = s.wordAt bank (off + j) * (s.val rb * 2 ^ lg.val) * s.cfg.ri k := by ring
      _ = s.wordAt bank (off + j) := by rw [State.val_eq, hinverse, mul_assoc, s.cfg.radix_mul_ri, mul_one]

end Sys2Proof
end

section
/-! Proofs. The laws of the transforms (R156 (3), (4)): `PWMUL` of two images is the image of the cyclic convolution, and a radix-4
stage followed by the transforms of the four quarters is the transform of the whole. -/

namespace Sys2Proof.Machine

variable {c : Config} {k : Modulus}

/-! ### Quarters of a block -/

theorem exists_quarter {n i : Nat} (hi : i < 2 ^ (n + 2)) : ∃ q < 4, ∃ j < 2 ^ n, i = q * 2 ^ n + j := by
  refine ⟨i / 2 ^ n, Nat.div_lt_of_lt_mul ?_, i % 2 ^ n, Nat.mod_lt _ (Nat.two_pow_pos n), (Nat.div_add_mod' i _).symm⟩
  rwa [← show 2 ^ (n + 2) = 2 ^ n * 4 from pow_add 2 n 2]

theorem quarter_le {n q : Nat} (hq : q < 4) : q * 2 ^ n + 2 ^ n ≤ 2 ^ (n + 2) := by
  have hfour : 2 ^ (n + 2) = 4 * 2 ^ n := by ring
  rw [hfour, ← Nat.succ_mul]
  exact Nat.mul_le_mul_right _ hq

/-- The forward network of a quarter of what the stage leaves is that quarter of the forward network (R148, R156 (4)). -/
theorem difF_r4dif {tw : Nat → Nat} {n : Nat} {x : List Nat} (hn : n + 2 ≤ c.logNmax)
    (ht : Twiddles c k (c.rootF k) tw (n + 2)) (hx : x.length = 2 ^ (n + 2)) (hl : LazyList c k x) {q i : Nat} (hq : q < 4)
    (hi : i < 2 ^ n) :
    difF (c.rootF k n) n (fun j => resF c k (r4dif c k tw (n + 2) x) (q * 2 ^ n + j)) i
      = difF (c.rootF k (n + 2)) (n + 2) (resF c k x) (q * 2 ^ n + i) := by
  have hsq : c.rootF k (n + 2) ^ 2 = c.rootF k (n + 1) := c.rootF_sq k hn
  have hfourth : c.rootF k (n + 2) ^ 4 = c.rootF k n := by rw [show 4 = 2 * 2 from rfl, pow_mul, hsq, c.rootF_sq k (by omega)]
  obtain ⟨-, -, hstage⟩ := r4dif_spec ht hx hl
  obtain ⟨h0, h1, h2, h3⟩ := difF_four (c.rootF k (n + 2)) n (resF c k x) hi
  rw [hfourth] at h0 h1 h2 h3
  rw [hsq] at h1 h3
  rcases sum4 q hq with rfl | rfl | rfl | rfl
  · rw [Nat.zero_mul, Nat.zero_add, h0]
    exact difF_congr _ _ (fun j hj => by rw [Nat.zero_add, (hstage j hj).1]) hi
  · rw [Nat.one_mul, h1]
    exact difF_congr _ _ (fun j hj => (hstage j hj).2.1) hi
  · rw [h2]
    exact difF_congr _ _ (fun j hj => (hstage j hj).2.2.1) hi
  · rw [h3]
    exact difF_congr _ _ (fun j hj => (hstage j hj).2.2.2) hi

namespace State

variable {s t u : State} {d b : Bank} {r r' : Reg} {off n m l : Nat}

theorem not_inBlock_quarter {q j : Nat} (hqm : q ≠ m) (hj : j < 2 ^ n) :
    ¬ InBlock d (off + m * 2 ^ n) n b (off + (q * 2 ^ n + j)) := by
  rintro ⟨-, hge, hlt⟩
  rcases Nat.lt_or_gt_of_ne hqm with h | h
  all_goals
    have := Nat.mul_le_mul_right (2 ^ n) (Nat.succ_le_of_lt h)
    rw [Nat.succ_mul] at this
    omega

theorem inBlock_of_quarter {i : Nat} (hm : m < 4) (h : InBlock d (off + m * 2 ^ n) n b i) : InBlock d off (n + 2) b i := by
  obtain ⟨hb, hge, hlt⟩ := h
  have := quarter_le (n := n) hm
  exact ⟨hb, by omega, by omega⟩

theorem TransformReady.quarter (h : s.TransformReady c d r off k (n + 2)) (hm : m < 4)
    (hoff : s.val r' = off + m * 2 ^ n) : s.TransformReady c d r' (off + m * 2 ^ n) k n where
  cfg := h.cfg
  offset := hoff
  thresh := (Nat.le_add_right n 2).trans h.thresh
  nmax := (Nat.le_add_right n 2).trans h.nmax
  fits := by
    have hfits := h.fits
    have := quarter_le (n := n) hm
    rw [Fits] at hfits ⊢
    omega
  table h4 := by
    obtain ⟨hvalid, hmod, hlen⟩ := h.table (h4.trans (Nat.le_add_right n 2))
    exact ⟨hvalid, hmod, (Nat.le_add_right n 2).trans hlen⟩
  tableTrue := h.tableTrue

/-! ### A radix-4 stage, then the quarters -/

/-- Between the stage and the last of the transforms of the quarters, in a state u reached from s: the first m quarters hold the
words whose residues are X, and the others hold what the forward network of a quarter takes to X. -/
structure QuartersDone (c : Config) (k : Modulus) (s u : State) (d : Bank) (off n : Nat) (X : Nat → c.F k) (m : Nat) :
    Prop where
  only      : s.OnlyWords u (InBlock d off (n + 2))
  canonical : u.CanonicalBlock d off (n + 2) k
  done      : ∀ q < m, ∀ i < 2 ^ n, (u.wordAt d (off + (q * 2 ^ n + i)) : c.F k) = X (q * 2 ^ n + i)
  todo      : ∀ q < 4, m ≤ q → ∀ i < 2 ^ n,
    difF (c.rootF k n) n (fun j => (u.wordAt d (off + (q * 2 ^ n + j)) : c.F k)) i = X (q * 2 ^ n + i)

variable {X : Nat → c.F k}

/-- `R4DIF` leaves four quarters whose forward networks make up that of the block (R148, R150). -/
theorem exec_r4dif_quarters {lg : Lg} (hl : n + 2 = lg.val) (h : s.TransformReady c d r off k (n + 2))
    (htable : s.TableReady k (n + 2)) (hlazy : s.LazyBlock d off (n + 2) k) :
    ∃ e, exec (.r4dif d r k lg) s = .next e ∧
      QuartersDone c k s e d off n (difF (c.rootF k (n + 2)) (n + 2) fun j => s.wordAt d (off + j)) 0 := by
  obtain rfl := h.cfg
  have htw := (htable.upTo h.tableTrue).forward
  obtain ⟨hlen, hlist, -⟩ := r4dif_spec htw (s.length_block d off (n + 2)) (s.lazyList_block hlazy)
  obtain ⟨e, hexec, honly, hcanon, hword⟩ := transform_spec h.offset (stage_admitted (Nat.le_add_left 2 n) h.nmax) h.fits
    (s.firstFault_tableChecks_pass htable) hlazy hlen hlist
  refine ⟨e, ?_, honly, hcanon, fun q hq => absurd hq (Nat.not_lt_zero q), fun q hq _ i hi => ?_⟩
  · rw [exec_r4dif, ← hl]
    exact hexec
  · have hquarter := quarter_le (n := n) hq
    calc difF (s.cfg.rootF k n) n (fun j => (e.wordAt d (off + (q * 2 ^ n + j)) : s.cfg.F k)) i
        = difF (s.cfg.rootF k n) n
            (fun j => resF s.cfg k (r4dif s.cfg k s.twfAt (n + 2) (s.block d off (n + 2))) (q * 2 ^ n + j)) i :=
          difF_congr _ _ (fun j hj => (hword _ (by omega)).symm) hi
      _ = difF (s.cfg.rootF k (n + 2)) (n + 2) (resF s.cfg k (s.block d off (n + 2))) (q * 2 ^ n + i) :=
          difF_r4dif h.nmax htw (s.length_block d off (n + 2)) (s.lazyList_block hlazy) hq hi
      _ = _ := difF_congr _ _ (fun j hj => s.resF_block k d off hj) (by omega)

/-- `NTTF` of the next quarter. -/
theorem QuartersDone.exec_nttf {lq : Lg} (h : QuartersDone c k s u d off lq.val X m) (hm : m < 4)
    (hs : s.TransformReady c d r (off + m * 2 ^ lq.val) k lq.val) (hd : d.isTransform = true) :
    ∃ t, exec (.nttf d r k lq) u = .next t ∧ QuartersDone c k s t d off lq.val X (m + 1) := by
  have hquarter := quarter_le (n := lq.val) hm
  obtain ⟨t, hexec, ht⟩ := exec_nttf_becomes (hs.of_onlyWords h.only hd) fun i hi => by
    rw [Nat.add_assoc]
    exact h.canonical.lazy _ (by omega)
  have hother {q j : Nat} (hqm : q ≠ m) (hj : j < 2 ^ lq.val) :
      t.wordAt d (off + (q * 2 ^ lq.val + j)) = u.wordAt d (off + (q * 2 ^ lq.val + j)) :=
    ht.only.wordAt_eq (not_inBlock_quarter hqm hj)
  refine ⟨t, hexec, h.only.trans (ht.only.mono fun _ _ => inBlock_of_quarter hm), fun i hi => ?_, fun q hq i hi => ?_,
    fun q hq hmq i hi => ?_⟩
  · obtain ⟨q, -, j, hj, rfl⟩ := exists_quarter hi
    by_cases hqm : q = m
    · rw [hqm, ← Nat.add_assoc]
      exact ht.canonical j hj
    · rw [hother hqm hj, ht.only.cfg_eq]
      exact h.canonical _ hi
  · by_cases hqm : q = m
    · have hword := ht.words i hi
      simp only [Nat.add_assoc] at hword
      rw [hqm, hword, h.todo m hm le_rfl i hi]
    · rw [hother hqm hi, h.done q (by omega) i hi]
  · rw [← h.todo q hq (by omega) i hi]
    exact difF_congr _ _ (fun j hj => by rw [hother (by omega) hj]) hi

/-- Once all quarters are done, so is the block. -/
theorem QuartersDone.words (h : QuartersDone c k s u d off n X 4) {i : Nat} (hi : i < 2 ^ (n + 2)) :
    (u.wordAt d (off + i) : c.F k) = X i := by
  obtain ⟨q, hq, j, hj, rfl⟩ := exists_quarter hi
  exact h.done q hq j hj

/-- `R4DIF` and `NTTF` of the four quarters leave the forward network of the block (R156 (4)). -/
theorem exec_stage_then_quarters {lg lq : Lg} {r1 r2 r3 : Reg} (hl : lq.val + 2 = lg.val) (hd : d.isTransform = true)
    (h : s.TransformReady c d r off k (lq.val + 2)) (htable : s.TableReady k (lq.val + 2))
    (hlazy : s.LazyBlock d off (lq.val + 2) k) (h1 : s.val r1 = off + 2 ^ lq.val) (h2 : s.val r2 = off + 2 * 2 ^ lq.val)
    (h3 : s.val r3 = off + 3 * 2 ^ lq.val) :
    ∃ e t0 t1 t2 t3, exec (.r4dif d r k lg) s = .next e ∧ exec (.nttf d r k lq) e = .next t0 ∧
      exec (.nttf d r1 k lq) t0 = .next t1 ∧ exec (.nttf d r2 k lq) t1 = .next t2 ∧ exec (.nttf d r3 k lq) t2 = .next t3 ∧
      QuartersDone c k s t3 d off lq.val (difF (c.rootF k (lq.val + 2)) (lq.val + 2) fun j => s.wordAt d (off + j)) 4 := by
  obtain ⟨e, he, q0⟩ := exec_r4dif_quarters hl h htable hlazy
  obtain ⟨t0, ht0, q1⟩ := q0.exec_nttf (by omega) (h.quarter (by omega) (by rw [h.offset, Nat.zero_mul, Nat.add_zero])) hd
  obtain ⟨t1, ht1, q2⟩ := q1.exec_nttf (by omega) (h.quarter (by omega) (by rw [h1, Nat.zero_add, Nat.one_mul])) hd
  obtain ⟨t2, ht2, q3⟩ := q2.exec_nttf (by omega) (h.quarter (by omega) h2) hd
  obtain ⟨t3, ht3, q4⟩ := q3.exec_nttf (by omega) (h.quarter (by omega) h3) hd
  exact ⟨e, t0, t1, t2, t3, he, ht0, ht1, ht2, ht3, q4⟩

/-! ### The convolution theorem -/

/-- `NTTF` of two blocks, `PWMUL` and `NTTI` leave the canonical words of N times their cyclic convolution (R156 (3)). -/
theorem exec_convolution {lg : Lg} (hd : d.isTransform = true) (hb : b.isTransform = true) (hdb : d ≠ b)
    (hreadyd : s.TransformReady c d r off k lg.val) (hreadyb : s.TransformReady c b r off k lg.val)
    (hlazyd : s.LazyBlock d off lg.val k) (hlazyb : s.LazyBlock b off lg.val k) :
    ∃ t u v w, exec (.nttf d r k lg) s = .next t ∧ exec (.nttf b r k lg) t = .next u ∧
      exec (.pwmul d b r k lg) u = .next v ∧ exec (.ntti d r k lg) v = .next w ∧ w.CanonicalBlock d off lg.val k ∧
      ∀ j < 2 ^ lg.val, (w.wordAt d (off + j) : c.F k) * 2 ^ 64
        = 2 ^ lg.val * (cyclic lg.val (fun j => s.wordAt d (off + j)) (fun j => s.wordAt b (off + j)) j : Nat) := by
  obtain ⟨t, hnttfd, ht⟩ := exec_nttf_becomes hreadyd hlazyd
  have hbt (i : Nat) : t.wordAt b i = s.wordAt b i := ht.only.wordAt_eq (not_inBlock_of_ne hdb.symm)
  obtain ⟨u, hnttfb, hu⟩ := exec_nttf_becomes (hreadyb.of_onlyWords ht.only hd)
    (hlazyb.congr ht.only.cfg_eq fun i _ => hbt _)
  have hdu (i : Nat) : u.wordAt d i = t.wordAt d i := hu.only.wordAt_eq (not_inBlock_of_ne hdb)
  have readyu := (hreadyd.of_onlyWords ht.only hd).of_onlyWords hu.only hb
  obtain ⟨v, hpwmul, hv⟩ := exec_pwmul_becomes hu.cfg readyu.offset readyu.nmax hdb readyu.fits
    (ht.canonical.lazy.congr hu.only.cfg_eq fun i _ => hdu _) hu.canonical.lazy
  obtain ⟨w, hntti, hw⟩ := exec_ntti_becomes (readyu.of_onlyWords hv.only hd) hv.canonical.lazy
  refine ⟨t, u, v, w, hnttfd, hnttfb, hpwmul, hntti, hw.canonical, fun j hj => ?_⟩
  have himage : ∀ i < 2 ^ lg.val, (v.wordAt d (off + i) : c.F k)
      = c.ri k * (difF (c.rootF k lg.val) lg.val (fun j => (s.wordAt d (off + j) : c.F k)) i
        * difF (c.rootF k lg.val) lg.val (fun j => (s.wordAt b (off + j) : c.F k)) i) := fun i hi => by
    have hprod := hv.words i hi
    have hb := hu.words i hi
    simp only [hdu, hbt] at hprod hb
    rw [hprod, ht.words i hi, hb, mul_comm]
  rw [hw.words j hj, ditF_congr _ _ himage hj, ditF_smul, ditF_mul_difF_root readyu.nmax (fun j => s.wordAt d (off + j))
    (fun j => s.wordAt b (off + j)) hj, mul_comm, ← mul_assoc, c.radix_mul_ri, one_mul]

end State

end Sys2Proof.Machine

namespace Sys2Proof

open Machine

/-- Settles O60: on residues the four commands of (3) are the convolution theorem, and those of (4) are the layers of the one
forward network; canonical words of equal residues are equal. -/
theorem transformLaws : Obligations.TransformLaws := by
  intro s d b r k lg hd hb off x y hthresh hmax hfits htable hlazy htrue
  have ready : s.TransformReady s.cfg d r off k lg.val := ⟨rfl, rfl, hthresh, hmax, hfits, htable, htrue⟩
  refine ⟨fun hdb hlazyb => ?_, ?_⟩
  · have fitsb : s.Fits b off lg.val := by
      rw [State.Fits, capacity_transform _ hb, ← capacity_transform s.cfg hd]
      exact hfits
    obtain ⟨t, u, v, w, ht, hu, hv, hw, hcanon, hconv⟩ :=
      State.exec_convolution hd hb hdb ready { ready with fits := fitsb } hlazy hlazyb
    refine ⟨t, u, v, w, ht, hu, hv, hw, hcanon, fun j hj => ?_⟩
    rw [s.cfg.mod_eq_iff, Nat.cast_mul, Nat.cast_mul, Nat.cast_pow, Nat.cast_pow, Nat.cast_ofNat]
    exact hconv j hj
  · obtain ⟨t, hexec, ht⟩ := State.exec_nttf_becomes ready hlazy
    refine ⟨t, hexec, ht.canonical, fun i hi => ?_, fun lq r1 r2 r3 hlq hready h1 h2 h3 => ?_⟩
    · rw [← ZMod.intCast_eq_intCast_iff, cast_difLayers hmax, Int.cast_natCast, ht.words i hi]
      exact difF_congr _ _ (fun _ _ => (Int.cast_natCast _).symm) hi
    · rw [← hlq] at ready hready ht hlazy ⊢
      obtain ⟨e, t0, t1, t2, t3, he, ht0, ht1, ht2, ht3, hdone⟩ :=
        State.exec_stage_then_quarters hlq hd ready hready hlazy h1 h2 h3
      refine ⟨e, t0, t1, t2, t3, he, ht0, ht1, ht2, ht3, fun i hi => (ht.word_eq hi ?_ (hdone.words hi)).symm⟩
      rw [← hdone.only.cfg_eq]
      exact hdone.canonical i hi

end Sys2Proof
end

section
/-! Proofs. The pointwise unit (R171 to R173): the checks of its commands pass or raise their faults in order, and each word of the
block becomes a canonical Montgomery product. -/

namespace Sys2Proof.Machine

theorem exec_pwsqr (s : State) (bank : Bank) (ra : Reg) (k : Modulus) (lg : Lg) : exec (.pwsqr bank ra k lg) s =
    s.command (s.nmaxCheck lg.val :: s.blockChecks bank (s.val ra) lg.val k [])
      fun s => s.mapBlock bank (s.val ra) lg.val fun x => pointwise s.cfg k x x := rfl

namespace State

variable {c : Config} {k : Modulus} {s t : State} {b : Bank} {r rb : Reg} {off l : Nat} {lg : Lg}

/-- A word that became a product of the engine represents the product of the words (R94). -/
theorem BlockBecomes.mul_radix_mod {a : Nat → Nat} (h : BlockBecomes c k s t b off l (fun x i => x i * a i * c.ri k)) {i : Nat}
    (hi : i < 2 ^ l) : t.wordAt b (off + i) * 2 ^ 64 % c.p k = s.wordAt b (off + i) * a i % c.p k := by
  rw [c.mod_eq_iff, Nat.cast_mul, Nat.cast_mul, Nat.cast_pow, Nat.cast_ofNat, h.words i hi, mul_assoc, c.ri_mul_radix, mul_one]

/-- `PWSQR` of a lazy block (R172). -/
theorem exec_pwsqr_becomes (hoff : s.val r = off) (hmax : lg.val ≤ s.cfg.logNmax) (hfits : s.Fits b off lg.val)
    (hlazy : s.LazyBlock b off lg.val k) :
    ∃ t, exec (.pwsqr b r k lg) s = .next t ∧
      BlockBecomes s.cfg k s t b off lg.val (fun x i => x i * s.wordAt b (off + i) * s.cfg.ri k) := by
  subst hoff
  have hlen := s.length_block b (s.val r) lg.val
  have hlist := s.lazyList_block hlazy
  obtain ⟨hlen', hlt, hres⟩ := pointwise_spec hlen hlen hlist hlist
  refine ⟨_, (exec_pwsqr ..).trans (command_of_pass (firstFault_block (decide_eq_false (not_lt.2 hmax)) hfits rfl hlazy)),
    mapBlock_becomes rfl hlen' hlt fun i hi => ?_⟩
  rw [hres i hi, s.resF_block k b _ hi]

/-! ### The faults of `SCL` (R173) -/

theorem exec_scl_length (hmax : s.cfg.logNmax < lg.val) : exec (.scl b r rb k lg) s = .next (s.raise .length) :=
  (exec_scl ..).trans (command_of_fault (firstFault_fail hmax _ _))

theorem exec_scl_bounds (hmax : ¬ s.cfg.logNmax < lg.val) (hfits : ¬ s.Fits b (s.val r) lg.val) :
    exec (.scl b r rb k lg) s = .next (s.raise .bounds) :=
  (exec_scl ..).trans (command_of_fault (by rw [nmaxCheck, firstFault_pass hmax, firstFault_extentCheck_fail s hfits]))

/-- The factor and the block are scanned one after the other, for the same fault. -/
theorem exec_scl_range (hmax : ¬ s.cfg.logNmax < lg.val) (hfits : s.Fits b (s.val r) lg.val)
    (hrange : s.val rb < 2 * s.cfg.p k → ¬ s.LazyBlock b (s.val r) lg.val k) :
    exec (.scl b r rb k lg) s = .next (s.raise .range) := by
  refine (exec_scl ..).trans (command_of_fault ?_)
  rw [nmaxCheck, firstFault_pass hmax, firstFault_extentCheck_pass s hfits, notLazy]
  by_cases hfactor : 2 * s.cfg.p k ≤ s.val rb
  · rw [firstFault_fail hfactor]
  · rw [firstFault_pass hfactor, firstFault_rangeCheck_fail s (hrange (not_le.1 hfactor))]

/-- No table is looked up, so that the two table clauses are empty. -/
theorem scl_blockFaults : BlockFaults (.scl b r rb k lg) s (s.cfg.logNmax < lg.val) b (s.val r) lg.val k False 0 :=
  ⟨exec_scl_length, exec_scl_bounds, fun _ _ => False.elim, fun _ _ => False.elim,
    fun hmax hfits _ hlazy => exec_scl_range hmax hfits fun _ => hlazy⟩

end State

end Sys2Proof.Machine

namespace Sys2Proof

open Machine

/-- Settles O39: the five checks are those of a two-bank command without a table, and the words are products of the engine. -/
theorem pwmulMultipliesPointwise : Obligations.PwmulMultipliesPointwise := by
  intro s bankd banks rb k lg _ _ off i
  refine ⟨encode_eq_commandWord rfl, pairFaults_of_checks (exec_pwmul s bankd banks rb k lg) decide_eq_true_iff False.elim
    (fun _ => rfl), fun hmax hne hfits hlazyd hlazys => ?_⟩
  obtain ⟨t, hexec, h⟩ := State.exec_pwmul_becomes (r := rb) rfl rfl hmax hne hfits hlazyd hlazys
  exact ⟨t, hexec, h.only, h.canonical, fun _ => h.mul_radix_mod⟩

/-- Settles O40: the checks are those of a one-bank command without a table, and the words are products with themselves. -/
theorem pwsqrSquaresPointwise : Obligations.PwsqrSquaresPointwise := by
  intro s bank ra k lg _ off i
  refine ⟨encode_eq_commandWord rfl, blockFaults_of_checks (exec_pwsqr s bank ra k lg) decide_eq_true_iff False.elim
    (fun _ => rfl), fun hmax hfits hlazy => ?_⟩
  obtain ⟨t, hexec, h⟩ := State.exec_pwsqr_becomes (r := ra) (off := off) rfl hmax hfits hlazy
  refine ⟨t, hexec, h.only, h.canonical, fun j hj => ?_⟩
  rw [h.mul_radix_mod hj, pow_two]

/-- Settles O41: the factor is checked as the words of the block are, and the words are products with it. -/
theorem sclScalesABlock : Obligations.SclScalesABlock := by
  intro s bank ra rb k lg _ off f i
  refine ⟨encode_eq_commandWord rfl, State.scl_blockFaults, fun hmax hfits hfactor => ?_, fun hmax hfits hfactor hlazy => ?_⟩
  · exact State.exec_scl_range (not_lt.2 hmax) hfits fun hlt => absurd hlt (not_lt.2 hfactor)
  · obtain ⟨t, hexec, h⟩ := State.exec_scl_becomes (r := ra) (rb := rb) rfl rfl hmax hfits hfactor hlazy
    exact ⟨t, hexec, h.only, h.canonical, fun _ => h.mul_radix_mod⟩

end Sys2Proof
end

section
/-! Proofs. The four-step controller (R195 to R199): what its commands leave where their checks pass. The recursion computes the
networks of the whole block whatever the threshold is; the words follow from the sums that these networks are. -/

namespace Sys2Proof.Machine

section Exec

variable (s : State) (bank bankd banks : Bank) (r : Reg) (k : Modulus) (lg : Lg) (nf : Bool)

theorem exec_fwd : exec (.fwd bank r k lg) s = s.transform (decide (s.cfg.logNmax < lg.val)) bank r k lg.val
    (s.leafTableChecks k lg.val) (fwdr s.cfg k s.twfAt lg.val) := rfl

theorem exec_cnv2 : exec (.cnv2 bankd banks r k lg nf) s = s.command (s.convChecks2 bankd banks (s.val r) lg.val k)
    fun s => s.convolve2 bankd banks (s.val r) k lg.val nf := rfl

theorem exec_cnv1 : exec (.cnv1 bankd banks r k lg nf) s = s.command (s.convChecks2 bankd banks (s.val r) lg.val k)
    fun s => s.convolve1 bankd banks (s.val r) k lg.val nf := rfl

theorem exec_cnvsq : exec (.cnvsq bank r k lg nf) s = s.command (s.convChecks1 bank (s.val r) lg.val k)
    fun s => s.convolveSq bank (s.val r) k lg.val nf := rfl

end Exec

namespace State

variable {s t : State} {d b : Bank} {off l : Nat} {k : Modulus} {nf : Bool} {touched : Bank → Nat → Prop}

/-! ### The checks of R195 -/

theorem firstFault_leafTableChecks (htable : 4 ≤ min l s.cfg.logThresh → s.TableReady k (min l s.cfg.logThresh)) :
    firstFault (s.leafTableChecks k l) = none := by
  rw [leafTableChecks, tableChecksFrom4]
  split
  · exact s.firstFault_tableChecks_pass (htable ‹_›)
  · rfl

theorem firstFault_convChecks1 (hmax : l ≤ s.cfg.logNmax) (hfits : s.Fits d off l)
    (htable : 4 ≤ min l s.cfg.logThresh → s.TableReady k (min l s.cfg.logThresh)) (hlazy : s.LazyBlock d off l k) :
    firstFault (s.convChecks1 d off l k) = none :=
  firstFault_block (decide_eq_false (not_lt.2 hmax)) hfits (firstFault_leafTableChecks htable) hlazy

theorem firstFault_convChecks2 (hmax : l ≤ s.cfg.logNmax) (hdb : d ≠ b) (hfits : s.Fits d off l)
    (htable : 4 ≤ min l s.cfg.logThresh → s.TableReady k (min l s.cfg.logThresh)) (hlazyd : s.LazyBlock d off l k)
    (hlazyb : s.LazyBlock b off l k) : firstFault (s.convChecks2 d b off l k) = none :=
  firstFault_pair (decide_eq_false (not_lt.2 hmax)) hdb hfits (firstFault_leafTableChecks htable) hlazyd hlazyb

/-! ### What the operations leave -/

/-- An operation that changes words of banks only, and then completes. -/
theorem OnlyWords.of_operation (hbanks : t = { s with banks := t.banks })
    (hframe : ∀ b i, ¬ touched b i → t.bankRead b i = s.bankRead b i) : s.OnlyWords t.complete touched := by
  refine ⟨?_, hframe⟩
  conv_lhs => rw [hbanks]
  rfl

/-- Everything the operation of `CNV1` does, whatever words the second block holds (R193, R198). -/
theorem convolve1_spec (nf : Bool) (hl : l ≤ s.cfg.logNmax) (hd : s.LazyBlock d off l k) (hb : s.LazyBlock b off l k)
    (hf : LeafTable s.cfg k (s.cfg.rootF k) s.twfAt l) (hi : LeafTable s.cfg k (s.cfg.rootIF k) s.twiAt l) :
    s.OnlyWords (s.convolve1 d b off k l nf).complete (InBlock d off l) ∧
    (s.convolve1 d b off k l nf).complete.CanonicalBlock d off l k ∧
    (∀ j < 2 ^ l, ((s.convolve1 d b off k l nf).complete.wordAt d (off + j) : s.cfg.F k) * 2 ^ 64 * 2 ^ l
      = (scaling nf l : Nat) * ditF (s.cfg.rootIF k l) l (fun n =>
          difF (s.cfg.rootF k l) l (fun j => (s.wordAt d (off + j) : s.cfg.F k)) n * s.wordAt b (off + n)) j) ∧
    ∀ a : Nat → Nat,
      (∀ n < 2 ^ l, (s.wordAt b (off + n) : s.cfg.F k) = difF (s.cfg.rootF k l) l (fun j => (a j : s.cfg.F k)) n) →
      ∀ j < 2 ^ l, ((s.convolve1 d b off k l nf).complete.wordAt d (off + j) : s.cfg.F k) * 2 ^ 64
        = (scaling nf l : Nat) * (cyclic l (fun j => s.wordAt d (off + j)) a j : Nat) := by
  have lenx := s.length_block d off l
  have leny := s.length_block b off l
  have lazyx := s.lazyList_block hd
  have lazyy := s.lazyList_block hb
  obtain ⟨hlen, hlt, hres⟩ := finish_one_spec nf hl hf hi lenx leny lazyx lazyy
  obtain ⟨honly, hcanon, hword⟩ := mapBlock_spec (s := s) (b := d) (off := off)
    (f := fun x => finishConv s.cfg k nf l (convr s.cfg k .one s.twfAt s.twiAt l x (s.block b off l)).1) hlen hlt
  refine ⟨honly, hcanon, fun j hj => ?_, fun a ha j hj => ?_⟩
  · refine (congrArg (fun w : Nat => (w : s.cfg.F k) * 2 ^ 64 * 2 ^ l) (hword j hj)).trans ((hres j hj).trans ?_)
    congr 1
    refine ditF_congr _ _ (fun n hn => ?_) hj
    rw [s.resF_block k b off hn, difF_congr _ _ (fun i hi => s.resF_block k d off hi) hn]
  · refine (congrArg (fun w : Nat => (w : s.cfg.F k) * 2 ^ 64) (hword j hj)).trans ?_
    refine (finish_one_cyclic nf hl hf hi lenx leny lazyx lazyy (b := a) (fun n hn => ?_) hj).trans ?_
    · rw [s.resF_block k b off hn, ha n hn]
    · rw [cyclic_congr (fun i hi => s.nth_block d off hi) fun _ _ => rfl]

/-- On equal blocks `CNV2` leaves in the first bank what `CNVSQ` leaves there (R199). -/
theorem bankRead_convolve2_of_block_eq (hdb : d ≠ b) (heq : s.block b off l = s.block d off l) (i : Nat) :
    (s.convolve2 d b off k l nf).bankRead d i = (s.convolveSq d off k l nf).bankRead d i := by
  rw [convolve2, bankRead_store_bank _ hdb, heq, convolveSq, convr_sq_fst]

theorem block_eq_of_wordAt_eq (h : ∀ j < 2 ^ l, s.wordAt b (off + j) = s.wordAt d (off + j)) :
    s.block b off l = s.block d off l := by
  rw [block, block, load_eq, load_eq]
  exact List.map_congr_left fun j hj => h j (List.mem_range.1 hj)

end State

/-! ### Words, transforms and residues -/

variable {c : Config} {k : Modulus} {l : Nat}

/-- Words in bit-reversed order that represent the transform of a sequence are its forward network. -/
theorem cast_image (hl : l ≤ c.logNmax) {a y : Nat → Nat} (hy : ∀ m < 2 ^ l, y (brev l m) % c.p k = dft c k l a m) {n : Nat}
    (hn : n < 2 ^ l) : (y n : c.F k) = difF (c.rootF k l) l (fun j => (a j : c.F k)) n := by
  have hm := brev_lt l n
  have h := cast_dft hl a hm (k := k)
  rwa [← hy _ hm, c.cast_mod, brev_brev l hn] at h

/-- The inverse transform of the product of an image and words in bit-reversed order, as the networks leave it. -/
theorem cast_idft_image (hl : l ≤ c.logNmax) (x y : Nat → Nat) {j : Nat} (hj : j < 2 ^ l) :
    (idft c k l (fun m => dft c k l x (brev l m) * y m) j : c.F k)
      = ditF (c.rootIF k l) l (fun n => difF (c.rootF k l) l (fun j => (x j : c.F k)) n * y n) j := by
  rw [cast_idft hl _ hj]
  refine ditF_congr _ _ (fun n hn => ?_) hj
  rw [Nat.cast_mul, cast_dft hl x (brev_lt l n), brev_brev l hn]

/-- What the command divided by and what it did not make up N (R193). -/
theorem normalised_mul_scaling (nf : Bool) (l : Nat) : (if nf then 2 ^ l else 1) * scaling nf l = 2 ^ l := by
  cases nf
  · exact Nat.one_mul _
  · exact Nat.mul_one _

theorem scaling_cast_ne (c : Config) (k : Modulus) (nf : Bool) (l : Nat) : ((scaling nf l : Nat) : c.F k) ≠ 0 := by
  have := c.fact k
  intro h
  refine pow_two_ne c k l ?_
  rw [← Nat.cast_ofNat (n := 2), ← Nat.cast_pow, ← normalised_mul_scaling nf l, Nat.cast_mul, h, mul_zero]

/-- The factor that a command leaves, cleared of its own scaling (R192, R193). -/
theorem mul_normalised_eq (nf : Bool) {w v : c.F k} (h : w * 2 ^ l = (scaling nf l : Nat) * v) :
    w * ((if nf then 2 ^ l else 1 : Nat) : c.F k) = v := by
  have := c.fact k
  refine mul_left_cancel₀ (scaling_cast_ne c k nf l) (Eq.trans ?_ h)
  rw [mul_left_comm, ← Nat.cast_mul, mul_comm (scaling nf l), normalised_mul_scaling, Nat.cast_pow, Nat.cast_ofNat]

end Sys2Proof.Machine

namespace Sys2Proof

open Machine

/-- Settles O42: the recursion computes the forward network of the block at every threshold, and its words are the transform
in bit-reversed order. -/
theorem fwdIsTheForwardTransform : Obligations.FwdIsTheForwardTransform := by
  intro s bank ra k lg _ off i leaf
  refine ⟨encode_eq_commandWord rfl, blockFaults_of_checks (exec_fwd s bank ra k lg) decide_eq_true_iff (if_pos ·) (if_neg ·),
    fun hmax hfits htable hlazy htrue => ?_⟩
  obtain ⟨t, hexec, h⟩ := State.transform_becomes (r := ra) rfl rfl (decide_eq_false (not_lt.2 hmax)) hfits
    (State.firstFault_leafTableChecks htable) hlazy (fwdr_computes hmax (State.leafTable_forward htable htrue)) (difF_congr _ _)
  exact ⟨t, hexec, h.only, fun _ => h.dft_eq hmax⟩

/-- Settles O43: the recursion multiplies the two images and goes back, which is the convolution; the second block keeps its
image. -/
theorem cnv2ConvolvesTwoBlocks : Obligations.Cnv2ConvolvesTwoBlocks := by
  intro s bankd banks rb k lg nf _ _ off i leaf x y
  refine ⟨encode_eq_commandWord rfl, pairFaults_of_checks (exec_cnv2 s bankd banks rb k lg nf) decide_eq_true_iff (if_pos ·)
    (if_neg ·), fun hmax hdb hfits htable hlazyd hlazys htrue => ?_⟩
  obtain ⟨hbanks, hframe, hcanon, hconv, himage⟩ := State.convolve2_spec (off := off) nf hdb hmax hlazyd hlazys
    (State.leafTable_forward htable htrue) (State.leafTable_inverse hmax htable htrue)
  exact ⟨_, (exec_cnv2 ..).trans (State.command_of_pass (State.firstFault_convChecks2 hmax hdb hfits htable hlazyd hlazys)),
    .of_operation hbanks hframe, hcanon, hconv, himage⟩

/-- Settles O44: the words are the inverse network of the first image times the second block; where that is an image too, the
product of images is the image of the convolution. -/
theorem cnv1ConvolvesWithAnImage : Obligations.Cnv1ConvolvesWithAnImage := by
  intro s bankd banks rb k lg nf _ _ off i leaf x y
  refine ⟨encode_eq_commandWord rfl, pairFaults_of_checks (exec_cnv1 s bankd banks rb k lg nf) decide_eq_true_iff (if_pos ·)
    (if_neg ·), fun hmax hdb hfits htable hlazyd hlazys htrue => ?_⟩
  obtain ⟨honly, hcanon, hnetwork, hconv⟩ := State.convolve1_spec (off := off) nf hmax hlazyd hlazys
    (State.leafTable_forward htable htrue) (State.leafTable_inverse hmax htable htrue)
  refine ⟨_, (exec_cnv1 ..).trans (State.command_of_pass (State.firstFault_convChecks2 hmax hdb hfits htable hlazyd hlazys)),
    honly, hcanon, fun j hj => ?_, fun a ha j hj => ?_⟩
  · refine (eq_mod_of_cast (idft_lt ..) ?_).symm
    rw [cast_idft_image hmax x y hj, Nat.cast_mul, Nat.cast_mul, Nat.cast_pow, Nat.cast_ofNat]
    exact (mul_normalised_eq nf (hnetwork j hj)).symm
  · rw [s.cfg.mod_eq_iff, Nat.cast_mul, Nat.cast_mul, Nat.cast_pow, Nat.cast_ofNat]
    exact hconv a (fun n hn => cast_image hmax ha hn) j hj

/-- Settles O45: the self-convolution is the convolution of two equal blocks. -/
theorem cnvsqConvolvesABlockWithItself : Obligations.CnvsqConvolvesABlockWithItself := by
  intro s bank ra k lg nf _ off i leaf x
  refine ⟨encode_eq_commandWord rfl, blockFaults_of_checks (exec_cnvsq s bank ra k lg nf) decide_eq_true_iff (if_pos ·)
    (if_neg ·), fun hmax hfits htable hlazy htrue => ?_⟩
  obtain ⟨hbanks, hframe, hcanon, hconv⟩ := State.convolveSq_spec (off := off) nf hmax hlazy
    (State.leafTable_forward htable htrue) (State.leafTable_inverse hmax htable htrue)
  exact ⟨_, (exec_cnvsq ..).trans (State.command_of_pass (State.firstFault_convChecks1 hmax hfits htable hlazy)),
    .of_operation hbanks hframe, hcanon, hconv⟩

/-- Settles O46: the two recursions take the same steps on the first block, so that no fact about the table is needed. -/
theorem cnvsqAgreesWithCnv2 : Obligations.CnvsqAgreesWithCnv2 := by
  intro s bank other ra rb k lg nf _ _ hne hreg off leaf heq hmax hfits htable hlazy
  have hlazy' : s.LazyBlock other off lg.val k := fun j hj => (heq j hj).symm ▸ hlazy j hj
  have hoff : s.val rb = off := congrArg BitVec.toNat hreg.symm
  refine ⟨(s.convolveSq bank off k lg.val nf).complete, (s.convolve2 bank other off k lg.val nf).complete,
    (exec_cnvsq ..).trans (State.command_of_pass (State.firstFault_convChecks1 hmax hfits htable hlazy)), ?_, fun j _ => ?_⟩
  · rw [exec_cnv2, ← hoff]
    rw [← hoff] at hfits hlazy hlazy'
    exact State.command_of_pass (State.firstFault_convChecks2 hmax hne hfits htable hlazy hlazy')
  · rw [State.wordAt_complete, State.wordAt_complete, State.wordAt, State.wordAt,
      State.bankRead_convolve2_of_block_eq hne (State.block_eq_of_wordAt_eq heq)]

end Sys2Proof
end

section
/-! Proofs. The CRT combiner and the carry propagator (R218 to R225): `CRT3` on three residues, the operations on `ACC`, and `CRTC`
on the words of the channels. -/

namespace Sys2Proof.Machine

/-- The scalar register in which `CRT3` takes the residue of a modulus (R218). -/
def residueReg (ra : Reg) : Modulus → Reg
  | .m0 => ra
  | .m1 => regAfter ra 1
  | .m2 => regAfter ra 2

/-- The residue check of `CRT3` (R218). -/
def State.residueCheck (s : State) (ra : Reg) (k : Modulus) : Check := (decide (s.cfg.p k ≤ s.val (residueReg ra k)), .range)

theorem exec_crt3 (s : State) (ra : Reg) : exec (.crt3 ra) s =
    s.command [s.residueCheck ra .m0, s.residueCheck ra .m1, s.residueCheck ra .m2] fun t => t.setV (Wide.ofNat
      (crt3 t.cfg (s.val (residueReg ra .m0)) (s.val (residueReg ra .m1)) (s.val (residueReg ra .m2)))) := rfl

theorem exec_cacc (s : State) : exec .cacc s = s.command [] State.accumulate := rfl

theorem exec_cemit (s : State) (rd : Reg) : exec (.cemit rd) s = s.command [] fun s => (s.setS rd s.acc.w0).shiftAcc := rfl

theorem exec_cclr (s : State) : exec .cclr s = s.command [] State.clearAcc := rfl

theorem exec_crtc (s : State) : exec .crtc s =
    s.command [(decide (s.clen.toNat = 0), .length), (decide (s.cfg.ncap < s.clen.toNat), .capacity)]
      fun s => s.reconstruct s.clen.toNat := rfl

namespace State

variable {s : State} {ra : Reg} {k : Modulus}

/-! ### `CRT3` -/

theorem val_regAfter (s : State) {r : Reg} {d : Nat} (h : r.val + d < 16) :
    s.val (regAfter r d) = (s.sreg[r.val + d]).toNat := by
  have hreg : regAfter r d = ⟨r.val + d, h⟩ := Fin.ext (Nat.mod_eq_of_lt h)
  rw [hreg]
  rfl

/-- The checks raise one fault, so that it does not matter which of them fails first. -/
theorem exec_crt3_range (h : s.cfg.p k ≤ s.val (residueReg ra k)) : exec (.crt3 ra) s = .next (s.raise .range) := by
  refine (exec_crt3 s ra).trans (command_of_fault ?_)
  simp only [residueCheck, firstFault_cons]
  cases k <;> simp [h]

/-- Residues below their primes are those of the integer that the combiner gives (R219). -/
theorem exec_crt3_reconstructs (h : ∀ k, s.val (residueReg ra k) < s.cfg.p k) :
    ∃ v < s.cfg.ppp, (∀ k, v % s.cfg.p k = s.val (residueReg ra k)) ∧
      exec (.crt3 ra) s = .next { s with v := Wide.ofNat v, status := s.status.completed } := by
  have hpass : firstFault [s.residueCheck ra .m0, s.residueCheck ra .m1, s.residueCheck ra .m2] = none :=
    (firstFault_pass (not_le.2 (h .m0)) _ _).trans
      ((firstFault_pass (not_le.2 (h .m1)) _ _).trans (firstFault_pass (not_le.2 (h .m2)) _ []))
  refine ⟨_, crt3_lt .., fun k => ?_, (exec_crt3 s ra).trans (command_of_pass hpass)⟩
  have hmod := (s.cfg.mod_eq_iff k _ _).2 (crt3_cast s.cfg (fun k => s.val (residueReg ra k)) k)
  exact hmod.trans (Nat.mod_eq_of_lt (h k))

/-! ### `CRTC` -/

/-- The words of the channels represent the residues of the coefficient (R98, R223). -/
theorem coefficient_mul_radix_mod (s : State) (k : Modulus) (i : Nat) :
    s.coefficient i * 2 ^ 64 % s.cfg.p k = s.wordAt (channel k) i % s.cfg.p k := by
  rw [s.cfg.mod_eq_iff, Nat.cast_mul, Nat.cast_pow, Nat.cast_ofNat, coefficient_cast, mul_assoc, s.cfg.ri_mul_radix, mul_one]

end State

end Sys2Proof.Machine

namespace Sys2Proof

open Machine

/-- Settles O47: three residues below their primes determine the integer; a larger one fails its check. -/
theorem crt3ReconstructsTheInteger : Obligations.Crt3ReconstructsTheInteger := by
  intro s ra h r0 r1 r2
  have hr1 : s.val (residueReg ra .m1) = r1 := s.val_regAfter (by omega)
  have hr2 : s.val (residueReg ra .m2) = r2 := s.val_regAfter h
  refine ⟨encode_eq_commandWord rfl, fun h0 h1 h2 => ?_, ?_⟩
  · obtain ⟨v, hlt, hmod, hexec⟩ := State.exec_crt3_reconstructs (s := s) (ra := ra) fun
      | .m0 => h0
      | .m1 => hr1.trans_lt h1
      | .m2 => hr2.trans_lt h2
    exact ⟨v, hlt, hmod .m0, (hmod .m1).trans hr1, (hmod .m2).trans hr2, hexec⟩
  · rintro (h0 | h1 | h2)
    · exact State.exec_crt3_range (k := .m0) h0
    · exact State.exec_crt3_range (k := .m1) (h1.trans_eq hr1.symm)
    · exact State.exec_crt3_range (k := .m2) (h2.trans_eq hr2.symm)

/-- Settles O48: a sum of wide registers has the value of the sum modulo 2^192. -/
theorem caccAddsIntoTheAccumulator : Obligations.CaccAddsIntoTheAccumulator := fun s =>
  ⟨encode_eq_commandWord rfl, s.acc.add s.v, s.acc.val_add s.v, (exec_cacc s).trans (State.command_of_pass firstFault_nil)⟩

/-- Settles O49: the shift of `ACC` moves its words down, and the write of the scalar register took the old low word. -/
theorem cemitEmitsTheLowWord : Obligations.CemitEmitsTheLowWord := fun s rd =>
  ⟨encode_eq_commandWord rfl, (exec_cemit s rd).trans (State.command_of_pass firstFault_nil)⟩

/-- Settles O50: there is no check, and the operation is the write of 0. -/
theorem cclrClearsTheAccumulator : Obligations.CclrClearsTheAccumulator := fun s =>
  ⟨encode_eq_commandWord rfl, (exec_cclr s).trans (State.command_of_pass firstFault_nil)⟩

/-- Settles O51: the coefficients are those the combiner makes of the channels' words, and the carry loop keeps their value. -/
theorem crtcReconstructsAndCarries : Obligations.CrtcReconstructsAndCarries := by
  intro s n
  rw [exec_crtc]
  refine ⟨encode_eq_commandWord rfl, fun hzero => ?_, fun hbig => ?_, fun hne hcap => ?_⟩
  · exact State.command_of_fault (firstFault_fail hzero _ _)
  · exact State.command_of_fault ((firstFault_pass (Nat.ne_zero_of_lt hbig) _ _).trans (firstFault_fail hbig _ _))
  · have hpass := (firstFault_pass hne .length _).trans (firstFault_pass (not_lt.2 hcap) .capacity [])
    obtain ⟨t, ht, hstate, hframe, hvalue⟩ := s.reconstruct_spec n hne
    refine ⟨t.complete, s.coefficient, ?_, fun i _ => ⟨s.coefficient_lt i, fun k => s.coefficient_mul_radix_mod k i⟩, hvalue,
      congrArg State.complete hstate, hframe⟩
    rw [State.command_of_pass hpass, ht]

end Sys2Proof
end

section
/-! Proofs. `LDM` (R246): its checks decide between the faults and the load, which converts the limbs and pads them with zeros. -/

namespace Sys2Proof.Machine

/-- The checks of `LDM` on an operand of n limbs (R246). -/
def State.ldmChecks (s : State) (n l : Nat) : List Check :=
  [s.nmaxCheck l, (decide (n = 0) || decide (2 ^ l < n), .length), (decide (s.cfg.ncap < 2 ^ l), .bounds)]

theorem exec_ldm (s : State) (bank src : Bank) (k : Modulus) (lg : Lg) : exec (.ldm bank src k lg) s =
    s.command (s.ldmChecks (s.lengthOf src) lg.val) fun s => s.loadOperand bank src k lg.val := rfl

namespace State

variable {s : State} {n l : Nat}

theorem lengthOf_eq (s : State) {src : Bank} (h : src = .ina ∨ src = .inb) :
    s.lengthOf src = if src = .ina then s.len1.toNat else s.len2.toNat := by
  rcases h with rfl | rfl <;> rfl

/-- Both length checks raise one fault, so that it does not matter which of them fails first. -/
theorem firstFault_ldmChecks_length (h : s.cfg.logNmax < l ∨ n = 0 ∨ 2 ^ l < n) :
    firstFault (s.ldmChecks n l) = some .length := by
  rw [ldmChecks, nmaxCheck]
  by_cases hmax : s.cfg.logNmax < l
  · exact firstFault_fail hmax _ _
  · rw [firstFault_pass hmax, firstFault_cons, if_pos]
    rw [← Bool.decide_or]
    exact decide_eq_true (h.resolve_left hmax)

/-- Past its length checks `LDM` looks at the extent of the block alone. -/
theorem firstFault_ldmChecks (hmax : l ≤ s.cfg.logNmax) (hne : n ≠ 0) (hle : n ≤ 2 ^ l) :
    firstFault (s.ldmChecks n l) = if s.cfg.ncap < 2 ^ l then some .bounds else none := by
  rw [ldmChecks, nmaxCheck, firstFault_pass (not_lt.2 hmax), ← Bool.decide_or, firstFault_pass (by omega), firstFault_cons,
    firstFault_nil]
  simp only [decide_eq_true_eq]

/-- What `LDM` leaves (R246): the words of its block are the limbs' Montgomery words, then zeros; nothing else changes. -/
theorem loadOperand_onlyWords {d src : Bank} {k : Modulus} (hle : s.lengthOf src ≤ 2 ^ l) :
    s.OnlyWords (s.loadOperand d src k l).complete (InBlock d 0 l) ∧
    ∀ j < 2 ^ l, (s.loadOperand d src k l).complete.wordAt d j
      = if j < s.lengthOf src then s.wordAt src j * 2 ^ 64 % s.cfg.p k else 0 := by
  obtain ⟨hframe, hword⟩ := s.loadOperand_spec (d := d) (k := k) hle
  refine ⟨.of_operation (s.loadOperand_eq d src k l) fun b i hout => hframe b i fun hin => hout ⟨hin.1, Nat.zero_le i, by omega⟩,
    fun j hj => ?_⟩
  rw [wordAt_complete, hword j hj, pad, s.cfg.mont_eq]

end State

end Sys2Proof.Machine

namespace Sys2Proof

open Machine

/-- Settles O52: the checks decide between the faults and the load, whose words are the limbs' and whose frame is the rest. -/
theorem ldmLoadsAndPads : Obligations.LdmLoadsAndPads := by
  intro s bank src k lg _ hsrc i n
  have hn : s.lengthOf src = n := s.lengthOf_eq hsrc
  rw [exec_ldm, hn]
  refine ⟨encode_eq_commandWord rfl, fun hlength => ?_, fun hmax hne hle hbig => ?_, fun hmax hne hle hcap => ?_⟩
  · exact State.command_of_fault (State.firstFault_ldmChecks_length hlength)
  · exact State.command_of_fault ((State.firstFault_ldmChecks hmax hne hle).trans (if_pos hbig))
  · obtain ⟨honly, hword⟩ := State.loadOperand_onlyWords (d := bank) (k := k) (hn.trans_le hle)
    rw [hn] at hword
    exact ⟨_, State.command_of_pass ((State.firstFault_ldmChecks hmax hne hle).trans (if_neg (not_lt.2 hcap))), honly, hword⟩

end Sys2Proof
end

section
/-! Proofs. The end states of `MUL` and `SQR` (R248 to R253, R257). Both run three modulus passes and then `CRTC`: `Passed` says
once what the passes leave, and all that `CRTC` makes of it depends on the coefficients alone. -/

namespace Sys2Proof

theorem Bank.eq_of_isTransform {b : Bank} (h : b.isTransform = true) : (∃ k, b = Machine.channel k) ∨ b = .scr := by
  cases b
  case ch0 => exact .inl ⟨.m0, rfl⟩
  case ch1 => exact .inl ⟨.m1, rfl⟩
  case ch2 => exact .inl ⟨.m2, rfl⟩
  case scr => exact .inr rfl
  all_goals cases h

theorem Bank.eq_of_isTwiddle {b : Bank} (h : b.isTwiddle = true) : b = .twf ∨ b = .twi := by
  cases b
  case twf => exact .inl rfl
  case twi => exact .inr rfl
  all_goals cases h

end Sys2Proof

namespace Sys2Proof.Machine

namespace State

variable {s s' u u' : State} {touched touched' : Bank → Prop} {l n n1 n2 : Nat} {a a' b b' : Nat → Nat}

/-! ### The checks of R248 -/

theorem firstFault_orchChecks_length (h : n1 = 0 ∨ n2 = 0) : firstFault (s.orchChecks n1 n2) = some .length := by
  rw [orchChecks, ← Bool.decide_or, firstFault_fail h]

theorem firstFault_orchChecks_capacity (h1 : n1 ≠ 0) (h2 : n2 ≠ 0) (h : s.cfg.ncap < n1 + n2 - 1) :
    firstFault (s.orchChecks n1 n2) = some .capacity := by
  rw [orchChecks, ← Bool.decide_or, firstFault_pass (by omega), firstFault_fail h]

theorem exec_mul_fault {f : FaultCode} (h : firstFault (s.orchChecks s.len1.toNat s.len2.toNat) = some f) :
    exec .mul s = .next (s.raise f) := by rw [exec, execMul, command_of_fault h]

theorem exec_sqr_fault {f : FaultCode} (h : firstFault (s.orchChecks s.len1.toNat s.len1.toNat) = some f) :
    exec .sqr s = .next (s.raise f) := by rw [exec, execSqr, command_of_fault h]

/-! ### The three passes -/

/-- The end of `MUL` and of `SQR` on n coefficients: `CRTC`, then completion (R250, R251). -/
def afterCrtc (u : State) (n : Nat) : State := (u.reconstruct n).complete

/-- u is s after the three modulus passes on operands a of n1 limbs and b of n2 limbs, of transforms of length `2^l` (R249): the
channels hold the linear convolution and the twiddle banks the table of modulus 2; of the transform banks only those `touched`
were written. -/
structure Passed (s u : State) (touched : Bank → Prop) (l n1 n2 : Nat) (a b : Nat → Nat) : Prop where
  state    : u = { s.setLengths (n1 + n2 - 1) with banks := u.banks, twcfg := ⟨.m2, s.tableExp l, true⟩ }
  channels : ∀ k, ∀ i < 2 ^ l, u.wordAt (channel k) i = linear n1 n2 a b i * 2 ^ 64 % s.cfg.p k
  table    : u.TableUpTo .m2 (min l s.cfg.logThresh)
  words    : ∀ b i, ¬ (touched b ∧ i < 2 ^ l) → ¬ ((b = .twf ∨ b = .twi) ∧ i < 2 ^ min l s.cfg.logThresh) →
    u.bankRead b i = s.bankRead b i

/-- `MUL` past its checks: the passes, which leave the image of the second operand in `SCR` too, then `CRTC` (R250, R253). -/
theorem exec_mul_passed (h1 : s.len1.toNat ≠ 0) (h2 : s.len2.toNat ≠ 0) (hn : s.len1.toNat + s.len2.toNat - 1 ≤ s.cfg.ncap)
    (hl : IsLeastLog (s.len1.toNat + s.len2.toNat - 1) l) :
    ∃ u, exec .mul s = .next (u.afterCrtc (s.len1.toNat + s.len2.toNat - 1)) ∧
      s.Passed u (fun b => b = .ch0 ∨ b = .ch1 ∨ b = .ch2 ∨ b = .scr) l s.len1.toNat s.len2.toNat (s.wordAt .ina)
        (s.wordAt .inb) ∧
      ∀ m < 2 ^ l, u.wordAt .scr (brev l m)
        = dft s.cfg .m2 l (fun j => if j < s.len2.toNat then s.wordAt .inb j * 2 ^ 64 % s.cfg.p .m2 else 0) m := by
  obtain ⟨u, hu, hstate, hchannels, hscr, htable, hwords⟩ :=
    (s.setLengths (s.len1.toNat + s.len2.toNat - 1)).mulPasses_spec (hl.le_nmax hn) h1 h2 hl.1
  simp only [Config.mont_eq] at hscr
  exact ⟨u, by rw [exec, s.execMul_eq h1 h2 hn hl, hu, afterCrtc], ⟨hstate, hchannels, htable, hwords⟩, hscr⟩

/-- `SQR` past its checks: the passes, with one operand for both, then `CRTC` (R251, R253). -/
theorem exec_sqr_passed (h1 : s.len1.toNat ≠ 0) (hn : 2 * s.len1.toNat - 1 ≤ s.cfg.ncap)
    (hl : IsLeastLog (2 * s.len1.toNat - 1) l) :
    ∃ u, exec .sqr s = .next (u.afterCrtc (s.len1.toNat + s.len1.toNat - 1)) ∧
      s.Passed u (fun b => b = .ch0 ∨ b = .ch1 ∨ b = .ch2) l s.len1.toNat s.len1.toNat (s.wordAt .ina) (s.wordAt .ina) := by
  obtain ⟨u, hu, hstate, hchannels, htable, hwords⟩ :=
    (s.setLengths (2 * s.len1.toNat - 1)).sqrPasses_spec (hl.le_nmax hn) h1 hl.1
  rw [two_mul] at hstate
  refine ⟨u, ?_, hstate, hchannels, htable, hwords⟩
  rw [exec, s.execSqr_eq h1 hn hl, hu, two_mul, afterCrtc]

/-- The words of an image in bit-reversed order are those that the transformed sequence determines (R141). -/
theorem bankRead_eq_of_images {c : Config} {k : Modulus} {b : Bank} {x y : Nat → Nat}
    (h : ∀ m < 2 ^ l, u.wordAt b (brev l m) = dft c k l x m) (h' : ∀ m < 2 ^ l, u'.wordAt b (brev l m) = dft c k l y m)
    (hxy : ∀ j < 2 ^ l, y j = x j) {i : Nat} (hi : i < 2 ^ l) : u'.bankRead b i = u.bankRead b i := by
  refine BitVec.eq_of_toNat_eq (?_ : u'.wordAt b i = u.wordAt b i)
  rw [← brev_brev l hi, h _ (brev_lt l i), h' _ (brev_lt l i), dft_congr c k hxy]

/-- The words of a table are those that its configuration, modulus and length determine (R122). -/
theorem TableUpTo.words_eq {k : Modulus} (h : s.TableUpTo k n) (h' : s'.TableUpTo k n) (hc : s'.cfg = s.cfg) {b : Bank}
    (hb : b = .twf ∨ b = .twi) {i : Nat} (hi : i < 2 ^ n) : s'.bankRead b i = s.bankRead b i := by
  refine BitVec.eq_of_toNat_eq (?_ : s'.wordAt b i = s.wordAt b i)
  obtain ⟨⟨hfzero, hizero⟩, hsub⟩ := h
  obtain ⟨⟨hfzero', hizero'⟩, hsub'⟩ := h'
  rw [hc] at hfzero' hizero' hsub'
  rcases Nat.eq_zero_or_pos i with rfl | hpos
  · rcases hb with rfl | rfl
    · exact hfzero'.trans hfzero.symm
    · exact hizero'.trans hizero.symm
  · have hm : i.log2 < n := (Nat.log2_lt hpos.ne').2 hi
    have hlt := Nat.lt_log2_self (n := i)
    obtain ⟨j, hj⟩ := Nat.exists_eq_add_of_le (Nat.log2_self_le hpos.ne')
    generalize i.log2 = m at *
    subst hj
    obtain ⟨hf, hi⟩ := hsub m hm j (by omega)
    obtain ⟨hf', hi'⟩ := hsub' m hm j (by omega)
    rcases hb with rfl | rfl
    · exact hf'.trans hf.symm
    · exact hi'.trans hi.symm

/-! ### What `CRTC` leaves of the passes -/

/-- `CRTC` on n coefficients, and completion, leave every word as it was but those of `OUT` up to n (R223). -/
theorem bankRead_afterCrtc (u : State) (hn : n ≠ 0) {b : Bank} {i : Nat} (h : ¬ (b = .out ∧ i ≤ n)) :
    (u.afterCrtc n).bankRead b i = u.bankRead b i := by
  obtain ⟨t, ht, -, hframe, -⟩ := u.reconstruct_spec n hn
  rw [afterCrtc, ht, bankRead_complete, hframe b i h]

theorem wordAt_afterCrtc (u : State) (hn : n ≠ 0) {b : Bank} (hb : b ≠ .out) (i : Nat) :
    (u.afterCrtc n).wordAt b i = u.wordAt b i := by
  rw [wordAt, wordAt, u.bankRead_afterCrtc hn fun h => hb h.1]

/-- `CRTC` on n coefficients writes words of banks, `V`, `ACC` and `OLEN` only (R223). -/
theorem reconstruct_eq (u : State) (hn : n ≠ 0) : u.reconstruct n = { u with
    banks := (u.reconstruct n).banks
    v := (u.reconstruct n).v
    acc := (u.reconstruct n).acc
    olen := Word.ofNat (n + 1) } := by
  obtain ⟨t, ht, hstate, -, -⟩ := u.reconstruct_spec n hn
  have hv : t.v = Wide.ofNat (u.coefficient (n - 1)) := congrArg State.v hstate
  rw [ht, hv]
  exact hstate

namespace Passed

theorem cfg_eq (h : s.Passed u touched l n1 n2 a b) : u.cfg = s.cfg := by
  rw [h.state]
  rfl

theorem end_twcfg (h : s.Passed u touched l n1 n2 a b) (hn : n1 + n2 - 1 ≠ 0) :
    (u.afterCrtc (n1 + n2 - 1)).twcfg = ⟨.m2, s.tableExp l, true⟩ :=
  (congrArg State.twcfg (u.reconstruct_eq hn)).trans (congrArg State.twcfg h.state)

/-- The registers at the end: those that neither the passes nor `CRTC` write are unchanged (R253). -/
theorem end_state (h : s.Passed u touched l n1 n2 a b) (hn : n1 + n2 - 1 ≠ 0) (hl : IsLeastLog (n1 + n2 - 1) l) :
    (u.afterCrtc (n1 + n2 - 1)) = { s with
      banks := (u.afterCrtc (n1 + n2 - 1)).banks
      v := (u.afterCrtc (n1 + n2 - 1)).v
      acc := (u.afterCrtc (n1 + n2 - 1)).acc
      twcfg := (u.afterCrtc (n1 + n2 - 1)).twcfg
      clen := Word.ofNat (n1 + n2 - 1)
      lgn := Word.ofNat l
      olen := Word.ofNat (n1 + n2)
      status := s.status.completed } := by
  have hlen : n1 + n2 - 1 + 1 = n1 + n2 := by omega
  have hr := u.reconstruct_eq hn
  rw [h.end_twcfg hn, afterCrtc]
  generalize u.reconstruct (n1 + n2 - 1) = t at hr ⊢
  conv_lhs => rw [hr, h.state, setLengths, hl.eq_clog2, hlen]
  rfl

/-- The table at the end is that of modulus 2 (R252, R253). -/
theorem end_table (h : s.Passed u touched l n1 n2 a b) (hn : n1 + n2 - 1 ≠ 0) :
    (u.afterCrtc (n1 + n2 - 1)).TableUpTo .m2 (min l s.cfg.logThresh) := by
  have hcfg : (u.afterCrtc (n1 + n2 - 1)).cfg = u.cfg := (Kept.reconstruct u _).cfg
  have keep {tw : Bank} (htw : tw ≠ .out) (i : Nat) := u.bankRead_afterCrtc hn (b := tw) (i := i) fun hout => htw hout.1
  exact h.table.congr hcfg (keep (by decide)) (keep (by decide))

/-- `TWCFG` at the end describes that table (R252, R253). -/
theorem end_tableReady (h : s.Passed u touched l n1 n2 a b) (hn : n1 + n2 - 1 ≠ 0) :
    (u.afterCrtc (n1 + n2 - 1)).TableReady .m2 (min l s.cfg.logThresh) ∧
    (u.afterCrtc (n1 + n2 - 1)).twcfg.tlg.val = min l s.cfg.logThresh ∧
    (u.afterCrtc (n1 + n2 - 1)).TableTrue := by
  rw [TableReady, TableTrue, h.end_twcfg hn, val_tableExp]
  exact ⟨⟨rfl, rfl, le_rfl⟩, rfl, fun _ => h.end_table hn⟩

/-- Every word outside the blocks of the passes, the table and the product is unchanged (R253). -/
theorem end_words (h : s.Passed u touched l n1 n2 a b) (hn : n1 + n2 - 1 ≠ 0) {b : Bank} {i : Nat}
    (hblock : ¬ (touched b ∧ i < 2 ^ l)) (htable : ¬ ((b = .twf ∨ b = .twi) ∧ i < 2 ^ min l s.cfg.logThresh))
    (hout : ¬ (b = .out ∧ i < n1 + n2)) : (u.afterCrtc (n1 + n2 - 1)).bankRead b i = s.bankRead b i := by
  rw [u.bankRead_afterCrtc hn fun h => hout ⟨h.1, by omega⟩, h.words b i hblock htable]

/-- The channels at the end hold the linear convolution (R253). -/
theorem end_channels (h : s.Passed u touched l n1 n2 a b) (hn : n1 + n2 - 1 ≠ 0) (k : Modulus) {i : Nat} (hi : i < 2 ^ l) :
    (u.afterCrtc (n1 + n2 - 1)).wordAt (channel k) i = linear n1 n2 a b i * 2 ^ 64 % s.cfg.p k := by
  rw [u.wordAt_afterCrtc hn (channel_ne (by decide)).symm, h.channels k i hi]

/-! ### Two runs on the same operands -/

/-- Passes on the same operands leave the same channels. -/
theorem channels_eq (h : s.Passed u touched l n1 n2 a b) (h' : s'.Passed u' touched' l n1 n2 a' b') (hc : s'.cfg = s.cfg)
    (ha : ∀ j < n1, a' j = a j) (hb : ∀ j < n2, b' j = b j) (k : Modulus) {i : Nat} (hi : i < 2 ^ l) :
    u'.bankRead (channel k) i = u.bankRead (channel k) i := by
  refine BitVec.eq_of_toNat_eq ((h'.channels k i hi).trans ?_)
  rw [linear_congr ha hb, hc]
  exact (h.channels k i hi).symm

/-- `CRTC` keeps the channels, and leaves the same words in `OUT`, the same `V` and the same `ACC`. -/
theorem end_product_eq (h : s.Passed u touched l n1 n2 a b) (h' : s'.Passed u' touched' l n1 n2 a' b') (hc : s'.cfg = s.cfg)
    (ha : ∀ j < n1, a' j = a j) (hb : ∀ j < n2, b' j = b j) (hn : n1 + n2 - 1 ≠ 0) (hle : n1 + n2 - 1 ≤ 2 ^ l) :
    (u'.afterCrtc (n1 + n2 - 1)).v = (u.afterCrtc (n1 + n2 - 1)).v ∧
    (u'.afterCrtc (n1 + n2 - 1)).acc = (u.afterCrtc (n1 + n2 - 1)).acc ∧
    (∀ i < n1 + n2, (u'.afterCrtc (n1 + n2 - 1)).bankRead .out i
      = (u.afterCrtc (n1 + n2 - 1)).bankRead .out i) ∧
    ∀ k, ∀ i < 2 ^ l, (u'.afterCrtc (n1 + n2 - 1)).bankRead (channel k) i
      = (u.afterCrtc (n1 + n2 - 1)).bankRead (channel k) i := by
  have hcfg : u'.cfg = u.cfg := h'.cfg_eq.trans (hc.trans h.cfg_eq.symm)
  have hchannels := fun k i => h.channels_eq h' hc ha hb k (i := i)
  obtain ⟨hout, hv, hacc⟩ := reconstruct_congr hn fun i hi => coefficient_congr hcfg fun k => hchannels k i (hi.trans_le hle)
  refine ⟨hv, hacc, fun i hi => hout i (by omega), fun k i hi => ?_⟩
  have hne : channel k ≠ .out := (channel_ne (by decide)).symm
  rw [u'.bankRead_afterCrtc hn fun e => hne e.1, u.bankRead_afterCrtc hn fun e => hne e.1, hchannels k i hi]

/-- The lengths, the exponent and `TWCFG` at the end are those of the lengths of the operands. -/
theorem end_registers_eq (h : s.Passed u touched l n1 n2 a b) (h' : s'.Passed u' touched' l n1 n2 a' b') (hc : s'.cfg = s.cfg)
    (hn : n1 + n2 - 1 ≠ 0) (hl : IsLeastLog (n1 + n2 - 1) l) :
    (u'.afterCrtc (n1 + n2 - 1)).clen = (u.afterCrtc (n1 + n2 - 1)).clen ∧
    (u'.afterCrtc (n1 + n2 - 1)).lgn = (u.afterCrtc (n1 + n2 - 1)).lgn ∧
    (u'.afterCrtc (n1 + n2 - 1)).olen = (u.afterCrtc (n1 + n2 - 1)).olen ∧
    (u'.afterCrtc (n1 + n2 - 1)).twcfg = (u.afterCrtc (n1 + n2 - 1)).twcfg := by
  have hstate := h.end_state hn hl
  have hstate' := h'.end_state hn hl
  refine ⟨(congrArg State.clen hstate').trans (congrArg State.clen hstate).symm,
    (congrArg State.lgn hstate').trans (congrArg State.lgn hstate).symm,
    (congrArg State.olen hstate').trans (congrArg State.olen hstate).symm, ?_⟩
  rw [h.end_twcfg hn, h'.end_twcfg hn, tableExp, tableExp, hc]

/-- The table at the end is that of the lengths and the configuration. -/
theorem end_table_eq (h : s.Passed u touched l n1 n2 a b) (h' : s'.Passed u' touched' l n1 n2 a' b') (hc : s'.cfg = s.cfg)
    (hn : n1 + n2 - 1 ≠ 0) {b : Bank} (hb : b = .twf ∨ b = .twi) {i : Nat} (hi : i < 2 ^ min l s.cfg.logThresh) :
    (u'.afterCrtc (n1 + n2 - 1)).bankRead b i = (u.afterCrtc (n1 + n2 - 1)).bankRead b i := by
  have hne : b ≠ .out := by rcases hb with rfl | rfl <;> decide
  have htable' := h'.table
  rw [hc] at htable'
  rw [u'.bankRead_afterCrtc hn fun e => hne e.1, u.bankRead_afterCrtc hn fun e => hne e.1,
    h.table.words_eq htable' (h'.cfg_eq.trans (hc.trans h.cfg_eq.symm)) hb hi]

end Passed

end State

end Sys2Proof.Machine

namespace Sys2Proof

open Machine

/-- Settles O53: the checks are those of the lengths; past them the passes leave the channels, `SCR` and the table, and `CRTC`
the words of `OUT`. -/
theorem mulEndState : Obligations.MulEndState := by
  intro s n1 n2
  refine ⟨encode_eq_commandWord rfl, fun hzero => ?_, fun h1 h2 hbig => ?_, fun h1 h2 hcap l hl => ?_⟩
  · exact State.exec_mul_fault (State.firstFault_orchChecks_length hzero)
  · exact State.exec_mul_fault (State.firstFault_orchChecks_capacity h1 h2 hbig)
  · obtain ⟨u, hexec, h, hscr⟩ := State.exec_mul_passed h1 h2 hcap hl
    have hn : n1 + n2 - 1 ≠ 0 := by omega
    obtain ⟨hready, htlg, htrue⟩ := h.end_tableReady hn
    refine ⟨_, hexec, h.end_state hn hl, fun k i => h.end_channels hn k, fun m hm => ?_, hready, htlg, htrue, fun b i =>
      h.end_words hn⟩
    exact (u.wordAt_afterCrtc hn (by decide) _).trans (hscr m hm)

/-- Settles O54: as O53, with one operand for both and without `SCR`. -/
theorem sqrEndState : Obligations.SqrEndState := by
  intro s n
  refine ⟨encode_eq_commandWord rfl, fun hzero => ?_, fun h1 hbig => ?_, fun h1 hcap l hl => ?_⟩
  · exact State.exec_sqr_fault (State.firstFault_orchChecks_length (.inl hzero))
  · exact State.exec_sqr_fault (State.firstFault_orchChecks_capacity h1 h1 (two_mul n ▸ hbig))
  · obtain ⟨u, hexec, h⟩ := State.exec_sqr_passed h1 hcap hl
    rw [two_mul] at hl ⊢
    have hn : n + n - 1 ≠ 0 := by omega
    obtain ⟨hready, htlg, htrue⟩ := h.end_tableReady hn
    exact ⟨_, hexec, h.end_state hn hl, fun k i => h.end_channels hn k, hready, htlg, htrue, fun b i => h.end_words hn⟩

/-- Settles O58: the coefficients, the image and the table are those of the operands, and `CRTC` adds nothing of its own. -/
theorem mulDependsOnItsInputsAlone : Obligations.MulDependsOnItsInputsAlone := by
  intro s s' l hcfg hlen1 hlen2 hina hinb h1 h2 hcap hl
  obtain ⟨u, hexec, h, himage⟩ := State.exec_mul_passed h1 h2 hcap hl
  obtain ⟨u', hexec', h', himage'⟩ := State.exec_mul_passed (s := s') (l := l) (by rwa [hlen1]) (by rwa [hlen2])
    (by rwa [hcfg, hlen1, hlen2]) (by rwa [hlen1, hlen2])
  rw [hlen1, hlen2] at hexec' h'
  rw [hcfg, hlen2] at himage'
  have hn : s.len1.toNat + s.len2.toNat - 1 ≠ 0 := by omega
  have hina' : ∀ j < s.len1.toNat, s'.wordAt .ina j = s.wordAt .ina j := fun j hj => congrArg BitVec.toNat (hina j hj)
  have hinb' : ∀ j < s.len2.toNat, s'.wordAt .inb j = s.wordAt .inb j := fun j hj => congrArg BitVec.toNat (hinb j hj)
  obtain ⟨hv, hacc, hout, hchannels⟩ := h.end_product_eq h' hcfg hina' hinb' hn hl.1
  obtain ⟨hclen, hlgn, holen, htwcfg⟩ := h.end_registers_eq h' hcfg hn hl
  refine ⟨_, _, hexec, hexec', hv, hacc, hclen, hlgn, holen, htwcfg, hout, fun b hb i hi => ?_, fun b hb i hi => ?_⟩
  · rcases Bank.eq_of_isTransform hb with ⟨k, rfl⟩ | rfl
    · exact hchannels k i hi
    · rw [u'.bankRead_afterCrtc hn (by simp), u.bankRead_afterCrtc hn (by simp)]
      refine State.bankRead_eq_of_images himage himage' (fun j _ => ?_) hi
      split
      · rw [hinb' j ‹_›]
      · rfl
  · exact h.end_table_eq h' hcfg hn (Bank.eq_of_isTwiddle hb) hi

/-- Settles O59: both leave the linear convolution of the same limbs in the channels, of which `CRTC` makes the same product. -/
theorem sqrAgreesWithMul : Obligations.SqrAgreesWithMul := by
  intro s l hlen hinb h1 hcap hl
  obtain ⟨u, hexec, h⟩ := State.exec_sqr_passed h1 hcap hl
  rw [two_mul] at hcap hl ⊢
  obtain ⟨u', hexec', h', -⟩ := State.exec_mul_passed (s := s) (l := l) h1 (by rwa [hlen]) (by rwa [hlen]) (by rwa [hlen])
  rw [hlen] at hexec' h'
  have hn : s.len1.toNat + s.len1.toNat - 1 ≠ 0 := by omega
  obtain ⟨-, -, hout, hchannels⟩ := h.end_product_eq h' rfl (fun _ _ => rfl)
    (fun j hj => congrArg BitVec.toNat (hinb j hj)) hn hl.1
  obtain ⟨hclen, hlgn, holen, -⟩ := h.end_registers_eq h' rfl hn hl
  exact ⟨_, _, hexec, hexec', hclen, holen, hlgn, hout, hchannels⟩

end Sys2Proof
end

section
/-! Proofs. `MUL` as the host's own sequence of commands (R255). No operation that the sequence runs reads the control registers,
`LGN` or the host's moves, so that each of its commands does to them as acceptance and completion do, and to the rest as the
operation of `MUL` does. -/

namespace Sys2Proof.Machine

/-- The part of a state in which the host's sequence of commands and `MUL` go different ways: what acceptance and completion of a
command write (R31, R76), `LGN` (R250), and the moves the host has left. -/
structure Control where
  cmd    : Word
  status : Status
  lgn    : Word
  host   : List HostMove

/-- s with another such part. -/
def State.withControl (s : State) (c : Control) : State :=
  { s with cmd := c.cmd, status := c.status, lgn := c.lgn, host := c.host }

theorem Status.completed_accepted (t : Status) : t.accepted.completed = t.completed := rfl

/-- `CLEN` as the host writes it before the sequence (R255). -/
def State.setClen (s : State) (n : Nat) : State := { s with clen := Word.ofNat n }

namespace State

variable (s : State) (c : Control)

@[simp] theorem withControl_cfg : (s.withControl c).cfg = s.cfg := rfl
@[simp] theorem withControl_len1 : (s.withControl c).len1 = s.len1 := rfl
@[simp] theorem withControl_len2 : (s.withControl c).len2 = s.len2 := rfl
@[simp] theorem val_withControl (r : Reg) : (s.withControl c).val r = s.val r := rfl
@[simp] theorem lengthOf_withControl (b : Bank) : (s.withControl c).lengthOf b = s.lengthOf b := rfl
@[simp] theorem twfAt_withControl : (s.withControl c).twfAt = s.twfAt := rfl
@[simp] theorem twiAt_withControl : (s.withControl c).twiAt = s.twiAt := rfl
@[simp] theorem tableExp_withControl (l : Nat) : (s.withControl c).tableExp l = s.tableExp l := rfl

@[simp] theorem load_withControl (b : Bank) (i n : Nat) : (s.withControl c).load b i n = s.load b i n :=
  load_congr fun _ _ => rfl

@[simp] theorem block_withControl (b : Bank) (off l : Nat) : (s.withControl c).block b off l = s.block b off l :=
  load_withControl ..

theorem withControl_update (cmd cmd' lgn lgn' : Word) (t : Status) (moves : List HostMove) :
    ({ s.withControl ⟨cmd, t, lgn, moves⟩ with lgn := lgn', cmd := cmd' } : State) = s.withControl ⟨cmd', t, lgn', moves⟩ :=
  rfl

theorem complete_withControl : (s.withControl c).complete = s.withControl { c with status := c.status.completed } := rfl

/-! ### The operations -/

@[simp] theorem store_withControl (b : Bank) (i : Nat) (xs : List Nat) :
    (s.withControl c).store b i xs = (s.store b i xs).withControl c := by
  induction xs generalizing s i with
  | nil => rfl
  | cons x xs ih => exact ih (s.bankStore b i (Word.ofNat x)) (i + 1)

@[simp] theorem buildTable_withControl (k : Modulus) (t : Lg) :
    (s.withControl c).buildTable k t = (s.buildTable k t).withControl c := by
  simp only [buildTable, store_withControl, withControl_cfg]
  rfl

@[simp] theorem loadOperand_withControl (d src : Bank) (k : Modulus) (l : Nat) :
    (s.withControl c).loadOperand d src k l = (s.loadOperand d src k l).withControl c := by
  simp only [loadOperand, store_withControl, load_withControl, lengthOf_withControl, withControl_cfg]

@[simp] theorem convolve2_withControl (d b : Bank) (off : Nat) (k : Modulus) (l : Nat) (nf : Bool) :
    (s.withControl c).convolve2 d b off k l nf = (s.convolve2 d b off k l nf).withControl c := by
  simp only [convolve2, store_withControl, block_withControl, twfAt_withControl, twiAt_withControl, withControl_cfg]

@[simp] theorem mulPass_withControl (k : Modulus) (l : Nat) :
    (s.withControl c).mulPass k l = (s.mulPass k l).withControl c := by
  simp only [mulPass, buildTable_withControl, loadOperand_withControl, convolve2_withControl, tableExp_withControl]

theorem crtcLoop_withControl (n i : Nat) : crtcLoop n i (s.withControl c) = (crtcLoop n i s).withControl c := by
  induction n generalizing s i with
  | zero => rfl
  | succ n ih => exact ih (s.crtcStep i) (i + 1)

@[simp] theorem reconstruct_withControl (n : Nat) : (s.withControl c).reconstruct n = (s.reconstruct n).withControl c := by
  have hloop := crtcLoop_withControl s.clearAcc c n 0
  rw [reconstruct, reconstruct]
  exact congrArg (fun t : State => { t.emitOut n with olen := Word.ofNat (n + 1) }) hloop

end State

/-! ### Commands that complete -/

/-- Whatever the control registers hold, the command completes, and takes the rest of s to the rest of t. -/
def Completes (i : Instr) (s t : State) : Prop := ∀ c, exec i (s.withControl c) = .next (t.withControl c).complete

section Completes

variable {s : State} {k : Modulus} {lg : Lg}

theorem completes_twb (hmax : lg.val ≤ s.cfg.logNmax) (hcap : 2 ^ lg.val ≤ s.cfg.twcap) :
    Completes (.twb k lg) s (s.buildTable k lg) := by
  intro c
  rw [exec_twb, State.command_of_pass, State.buildTable_withControl]
  exact (firstFault_pass (not_lt.2 hmax) _ _).trans (firstFault_pass (not_lt.2 hcap) _ _)

theorem completes_ldm {d src : Bank} (hmax : lg.val ≤ s.cfg.logNmax) (hne : s.lengthOf src ≠ 0)
    (hle : s.lengthOf src ≤ 2 ^ lg.val) (hcap : 2 ^ lg.val ≤ s.cfg.ncap) :
    Completes (.ldm d src k lg) s (s.loadOperand d src k lg.val) := by
  intro c
  rw [exec_ldm, State.command_of_pass, State.loadOperand_withControl]
  exact (State.firstFault_ldmChecks (s := s.withControl c) hmax hne hle).trans (if_neg (not_lt.2 hcap))

theorem completes_cnv2 {d b : Bank} {r : Reg} {nf : Bool} (hmax : lg.val ≤ s.cfg.logNmax) (hdb : d ≠ b)
    (hfits : s.Fits d (s.val r) lg.val) (htable : s.TableReady k (min lg.val s.cfg.logThresh))
    (hlazyd : s.LazyBlock d (s.val r) lg.val k) (hlazyb : s.LazyBlock b (s.val r) lg.val k) :
    Completes (.cnv2 d b r k lg nf) s (s.convolve2 d b (s.val r) k lg.val nf) := by
  intro c
  rw [exec_cnv2, State.command_of_pass, State.val_withControl, State.convolve2_withControl]
  exact State.firstFault_convChecks2 (s := s.withControl c) hmax hdb hfits (fun _ => htable) hlazyd hlazyb

theorem completes_crtc {n : Nat} (hn : s.clen.toNat = n) (hne : n ≠ 0) (hcap : n ≤ s.cfg.ncap) :
    Completes .crtc s (s.reconstruct n) := by
  subst hn
  intro c
  rw [exec_crtc, State.command_of_pass, State.reconstruct_withControl]
  · rfl
  · exact (firstFault_pass hne _ _).trans (firstFault_pass (not_lt.2 hcap) _ _)

end Completes

/-- Commands that complete one after the other take the rest of s to the rest of t. -/
inductive Sequence : State → List Instr → State → Prop
  | nil (s : State) : Sequence s [] s
  | cons {s t u : State} {i : Instr} {is : List Instr} (wellFormed : i.wellFormed = true) (head : Completes i s t)
      (tail : Sequence t is u) : Sequence s (i :: is) u

theorem Sequence.append {s t u : State} {is js : List Instr} (h : Sequence s is t) (h' : Sequence t js u) :
    Sequence s (is ++ js) u := by
  induction h with
  | nil => exact h'
  | cons wellFormed head _ ih => exact .cons wellFormed head (ih h')

/-! ### A modulus pass -/

namespace State

@[simp] theorem mulPass_sreg (s : State) (k : Modulus) (l : Nat) : (s.mulPass k l).sreg = s.sreg := by
  simp [mulPass, loadOperand, convolve2]

@[simp] theorem mulPass_clen (s : State) (k : Modulus) (l : Nat) : (s.mulPass k l).clen = s.clen := by
  simp [mulPass, loadOperand, convolve2]

/-- The operands and the offset of a pass of exponent l are admitted by the checks of its commands (R246, R248). -/
structure PassReady (s : State) (l : Nat) : Prop where
  exponent : l ≤ s.cfg.logNcap
  len1_ne  : s.len1.toNat ≠ 0
  len1_le  : s.len1.toNat ≤ 2 ^ l
  len2_ne  : s.len2.toNat ≠ 0
  len2_le  : s.len2.toNat ≤ 2 ^ l
  offset   : s.val 0 = 0

namespace PassReady

variable {s t : State} {k : Modulus} {l : Nat} {lg : Lg}

theorem nmax (h : s.PassReady l) : l ≤ s.cfg.logNmax := h.exponent.trans s.cfg.ncap_le_nmax

theorem ncap (h : s.PassReady l) : 2 ^ l ≤ s.cfg.ncap := Nat.pow_le_pow_right (by norm_num) h.exponent

theorem of_kept (h : s.PassReady l) (hk : Kept s t) (hs : t.sreg = s.sreg) : t.PassReady l where
  exponent := by rw [hk.cfg]; exact h.exponent
  len1_ne := by rw [hk.len1]; exact h.len1_ne
  len1_le := by rw [hk.len1]; exact h.len1_le
  len2_ne := by rw [hk.len2]; exact h.len2_ne
  len2_le := by rw [hk.len2]; exact h.len2_le
  offset := by rw [val, getS, hs]; exact h.offset

theorem buildTable (h : s.PassReady l) (k : Modulus) (t : Lg) : (s.buildTable k t).PassReady l :=
  h.of_kept (.buildTable s k t) (s.buildTable_sreg k t)

theorem loadOperand (h : s.PassReady l) (d src : Bank) (k : Modulus) : (s.loadOperand d src k l).PassReady l :=
  h.of_kept (.store ..) (store_sreg ..)

theorem mulPass (h : s.PassReady l) (k : Modulus) : (s.mulPass k l).PassReady l :=
  h.of_kept (.mulPass s k l) (s.mulPass_sreg k l)

theorem completes_ina (h : s.PassReady lg.val) (d : Bank) (k : Modulus) :
    Completes (.ldm d .ina k lg) s (s.loadOperand d .ina k lg.val) :=
  completes_ldm h.nmax h.len1_ne h.len1_le h.ncap

theorem completes_inb (h : s.PassReady lg.val) (d : Bank) (k : Modulus) :
    Completes (.ldm d .inb k lg) s (s.loadOperand d .inb k lg.val) :=
  completes_ldm h.nmax h.len2_ne h.len2_le h.ncap

end PassReady

/-- `LDM` leaves a lazy block (R246). -/
theorem lazyBlock_loadOperand {s : State} {src : Bank} {l : Nat} (d : Bank) (k : Modulus) (hle : s.lengthOf src ≤ 2 ^ l) :
    (s.loadOperand d src k l).LazyBlock d 0 l k := by
  obtain ⟨-, hword⟩ := s.loadOperand_spec (d := d) (k := k) hle
  intro j hj
  rw [Nat.zero_add, hword j hj, loadOperand_eq]
  exact lazy_of_lt (pad_mont_lt ..)

/-- `CNV2` of a pass completes: `LDM` left both blocks lazy, and the table as it was (R249). -/
theorem PassReady.completes_cnv2 {s : State} {k : Modulus} {lg : Lg} (h : s.PassReady lg.val)
    (htable : s.TableReady k (min lg.val s.cfg.logThresh)) :
    Completes (.cnv2 (channel k) .scr 0 k lg true)
      ((s.loadOperand (channel k) .ina k lg.val).loadOperand .scr .inb k lg.val)
      (((s.loadOperand (channel k) .ina k lg.val).loadOperand .scr .inb k lg.val).convolve2 (channel k) .scr 0 k lg.val
        true) := by
  have hina := h.loadOperand (channel k) .ina k
  have hinb := hina.loadOperand .scr .inb k
  have hne : channel k ≠ .scr := (channel_ne (by decide)).symm
  have hlazyd := lazyBlock_loadOperand (channel k) k (src := .ina) h.len1_le
  have hlazyb := lazyBlock_loadOperand .scr k (src := .inb) hina.len2_le
  have hlazyd' := hlazyd.congr (t := (s.loadOperand (channel k) .ina k lg.val).loadOperand .scr .inb k lg.val)
    (by rw [loadOperand_eq]) fun i _ => congrArg BitVec.toNat (bankRead_store_bank _ hne ..)
  have hcnv2 := Machine.completes_cnv2 (nf := true) (r := 0) hinb.nmax hne (k := k)
  rw [hinb.offset, Fits, capacity_channel, Nat.zero_add] at hcnv2
  refine hcnv2 hinb.ncap ?_ hlazyd' hlazyb
  rw [loadOperand_eq, loadOperand_eq]
  exact htable

/-- The commands that do a modulus pass, with `2^t` the length of the table (R255). -/
def passCommands (lg t : Lg) (k : Modulus) : List Instr :=
  [.twb k t, .ldm (channel k) .ina k lg, .ldm .scr .inb k lg, .cnv2 (channel k) .scr 0 k lg true]

namespace PassReady

variable {s : State} {lg t : Lg}

/-- The commands of a modulus pass complete, and do what the pass of `MUL` does (R249). -/
theorem sequence (h : s.PassReady lg.val) (ht : t.val = min lg.val s.cfg.logThresh) (k : Modulus) :
    Sequence s (passCommands lg t k) (s.mulPass k lg.val) := by
  obtain rfl : s.tableExp lg.val = t := Fin.ext ((val_tableExp s lg.val).trans ht.symm)
  have hbuilt := h.buildTable k (s.tableExp lg.val)
  have htable : (s.buildTable k (s.tableExp lg.val)).TableReady k (min lg.val s.cfg.logThresh) := by
    rw [TableReady, buildTable_twcfg]
    exact ⟨rfl, rfl, ht.ge⟩
  have htwb : Completes (.twb k (s.tableExp lg.val)) s (s.buildTable k (s.tableExp lg.val)) := by
    have hnmax := h.nmax
    have hncap := h.exponent
    exact completes_twb (by omega) (Nat.pow_le_pow_right (by norm_num) (by omega))
  have hina := hbuilt.completes_ina (channel k) k
  have hinb := (hbuilt.loadOperand (channel k) .ina k).completes_inb .scr k
  have hcnv2 := hbuilt.completes_cnv2 (by rwa [buildTable_cfg])
  exact .cons rfl htwb (.cons (by cases k <;> rfl) hina (.cons rfl hinb (.cons (by cases k <;> rfl) hcnv2 (.nil _))))

/-- The commands of the three passes (R255). -/
theorem sequence_passes (h : s.PassReady lg.val) (ht : t.val = min lg.val s.cfg.logThresh) :
    Sequence s (passCommands lg t .m0 ++ passCommands lg t .m1 ++ passCommands lg t .m2)
      (((s.mulPass .m0 lg.val).mulPass .m1 lg.val).mulPass .m2 lg.val) := by
  have hcfg := (Kept.mulPass s .m0 lg.val).cfg
  have hcfg' := (Kept.mulPass (s.mulPass .m0 lg.val) .m1 lg.val).cfg.trans hcfg
  have h1 := h.mulPass .m0
  have h2 := h1.mulPass .m1
  exact ((h.sequence ht .m0).append (h1.sequence (by rw [hcfg, ht]) .m1)).append (h2.sequence (by rw [hcfg', ht]) .m2)

end PassReady

end State

/-! ### Runs -/

theorem run_succ {M : Host.Core} {s t : M.State} (h : M.step s = .next t) (n : Nat) : M.run (n + 1) s = M.run n t := by
  rw [Host.Core.run, h]

theorem run_of_step {s t : State} (h : step s = .next t) (n : Nat) :
    Host.Core.run Sys2Proof.core (n + 1) s = Host.Core.run Sys2Proof.core n t := run_succ (M := Sys2Proof.core) h n

/-- The write of a command's word to `CMD`, in a block that is neither busy nor stopped (R31). -/
theorem step_issue {i : Instr} {s : State} {c : Control} {rest : List HostMove} (hi : i.wellFormed = true)
    (hb : c.status.busy = false) (hf : c.status.fault = false) (hc : c.host = .writeReg 0 (encode i) :: rest) :
    step (s.withControl c) = exec i (s.withControl ⟨encode i, c.status.accepted, c.lgn, rest⟩) := by
  rw [step_writeCmd (s := s.withControl c) hb hc]
  exact State.issue_of_decode (s := { s.withControl c with host := rest }) hf (decode_encode hi)

/-- The host issues a command that completes (R31, R76). -/
theorem run_issue {i : Instr} {s t : State} (hi : i.wellFormed = true) (hx : Completes i s t) {st : Status}
    (hb : st.busy = false) (hf : st.fault = false) (cmd lgn : Word) (rest : List HostMove) (n : Nat) :
    Host.Core.run Sys2Proof.core (n + 1) (s.withControl ⟨cmd, st, lgn, .writeReg 0 (encode i) :: rest⟩)
      = Host.Core.run Sys2Proof.core n (t.withControl ⟨encode i, st.completed, lgn, rest⟩) := by
  refine run_of_step ?_ n
  rw [step_issue hi hb hf rfl, hx, State.complete_withControl, Status.completed_accepted]

/-- The host writes `CLEN` (R24, R28). -/
theorem run_writeClen {s : State} (hb : s.status.busy = false) (n : Nat) (rest : List HostMove) (m : Nat) :
    Host.Core.run Sys2Proof.core (m + 1) ({ s with host := .writeReg 4 (Word.ofNat n) :: rest } : State)
      = Host.Core.run Sys2Proof.core m ((s.setClen n).withControl ⟨s.cmd, s.status, s.lgn, rest⟩) := by
  refine run_of_step ?_ m
  exact step_writeReg (s := { s with host := .writeReg 4 (Word.ofNat n) :: rest }) hb (by decide) rfl

/-- The host issues a sequence of commands that complete, the last of which stays in `CMD`. -/
theorem Sequence.run {s t u : State} {is : List Instr} {i : Instr} (h : Sequence s is t) (hi : i.wellFormed = true)
    (hx : Completes i t u) {st : Status} (hb : st.busy = false) (hf : st.fault = false) (cmd lgn : Word) :
    Host.Core.run Sys2Proof.core (is.length + 1)
        (s.withControl ⟨cmd, st, lgn, (is ++ [i]).map fun i => .writeReg 0 (encode i)⟩)
      = .next (u.withControl ⟨encode i, st.completed, lgn, []⟩) := by
  induction h generalizing cmd st with
  | nil => exact run_issue hi hx hb hf cmd lgn [] 0
  | cons wellFormed head _ ih => exact (run_issue wellFormed head hb hf cmd lgn _ _).trans (ih hx (st := st.completed) rfl hf _)

/-! ### `MUL` and the sequence -/

section Product

variable {s : State} {lg t : Lg} {n : Nat} (hb : s.status.busy = false) (hf : s.status.fault = false) (h1 : s.len1.toNat ≠ 0)
  (h2 : s.len2.toNat ≠ 0) (hsum : s.len1.toNat + s.len2.toNat - 1 = n) (hn : n ≤ s.cfg.ncap) (hl : IsLeastLog n lg.val)

include h1 h2 hsum hn hl

/-- `MUL` past its checks, whatever the control registers hold (R250). -/
theorem exec_mul_withControl (c : Control) : exec .mul (s.withControl c) = .next
    ((((((s.setClen n).mulPass .m0 lg.val).mulPass .m1 lg.val).mulPass .m2 lg.val).reconstruct n).withControl
      { c with status := c.status.completed, lgn := Word.ofNat lg.val }) := by
  subst hsum
  have hset : (s.withControl c).setLengths (s.len1.toNat + s.len2.toNat - 1)
      = (s.setClen (s.len1.toNat + s.len2.toNat - 1)).withControl { c with lgn := Word.ofNat lg.val } := by
    rw [State.setLengths, hl.eq_clog2]
    rfl
  rw [exec, (s.withControl c).execMul_eq h1 h2 hn hl]
  simp only [State.withControl_len1, State.withControl_len2, hset, State.mulPass_withControl, State.reconstruct_withControl,
    State.complete_withControl]

theorem passReady_setClen (h0 : s.getS 0 = 0) : (s.setClen n).PassReady lg.val := by
  have hle := hl.1
  exact {
    exponent := hl.2 _ hn
    len1_ne := h1
    len1_le := (by omega : s.len1.toNat ≤ 2 ^ lg.val)
    len2_ne := h2
    len2_le := (by omega : s.len2.toNat ≤ 2 ^ lg.val)
    offset := congrArg BitVec.toNat h0 }

include hb hf

/-- The host issues `MUL` (R250). -/
theorem run_mul : Host.Core.run Sys2Proof.core 1 ({ s with host := [.writeReg 0 (encode .mul)] } : State) = .next
    ((((((s.setClen n).mulPass .m0 lg.val).mulPass .m1 lg.val).mulPass .m2 lg.val).reconstruct n).withControl
      ⟨encode .mul, s.status.completed, Word.ofNat lg.val, []⟩) := by
  refine run_of_step ?_ 0
  rw [← Status.completed_accepted]
  exact (step_issue (i := .mul) (c := ⟨s.cmd, s.status, s.lgn, [.writeReg 0 (encode .mul)]⟩) rfl hb hf rfl).trans
    (exec_mul_withControl h1 h2 hsum hn hl _)

/-- The host writes `CLEN` and issues the commands of the three passes and `CRTC` (R255). -/
theorem run_commands (h0 : s.getS 0 = 0) (ht : t.val = min lg.val s.cfg.logThresh) : Host.Core.run Sys2Proof.core 14
    ({ s with host := .writeReg 4 (Word.ofNat n) :: (State.passCommands lg t .m0 ++ State.passCommands lg t .m1
      ++ State.passCommands lg t .m2 ++ [Instr.crtc]).map fun i => .writeReg 0 (encode i) } : State) = .next
    ((((((s.setClen n).mulPass .m0 lg.val).mulPass .m1 lg.val).mulPass .m2 lg.val).reconstruct n).withControl
      ⟨encode .crtc, s.status.completed, s.lgn, []⟩) := by
  have hready := passReady_setClen h1 h2 hsum hn hl h0
  have hready' := ((hready.mulPass .m0).mulPass .m1).mulPass .m2
  have hpasses := hready.sequence_passes ht
  have hclen : (((((s.setClen n).mulPass .m0 lg.val).mulPass .m1 lg.val).mulPass .m2 lg.val).clen).toNat = n := by
    have := s.cfg.ncap_le
    rw [State.mulPass_clen, State.mulPass_clen, State.mulPass_clen]
    exact Nat.mod_eq_of_lt (by omega : n < 2 ^ 64)
  have hne : n ≠ 0 := by omega
  exact (run_writeClen hb n _ 13).trans (hpasses.run rfl (completes_crtc hclen hne (hl.1.trans hready'.ncap)) hb hf s.cmd s.lgn)

end Product

end Sys2Proof.Machine

namespace Sys2Proof

open Machine

/-- Settles O57: each pass of `MUL` is its four commands, run one after the other, and the rest of `MUL` is `CRTC`. -/
theorem mulIsItsCommandSequence : Obligations.MulIsItsCommandSequence :=
  fun _ _ _ hbusy hfault h1 h2 hcap h0 hl ht =>
    ⟨_, run_mul hbusy hfault h1 h2 rfl hcap hl, (run_commands hbusy hfault h1 h2 rfl hcap hl h0 ht).trans
      (congrArg Host.Outcome.next (State.withControl_update ..).symm)⟩

end Sys2Proof
end

section
/-! Proofs. Faults and their permanence: a command completes or faults (R274), so that an idle block has a next state (R270), and a
stopped block keeps `STATUS`, `FINFO` and `CMD` until reset (R276). -/

namespace Sys2Proof.Machine

/-! ### What a write of `CMD` answers -/

namespace State

variable {s t : State}

/-- A write of `CMD` of a block that is not stopped completes or faults, whatever the word (R274). -/
theorem issue_cases (hf : s.status.fault = false) (c : Word) :
    ∃ t, s.issue c = .next t ∧ ((∃ u, Kept (s.accept c) u ∧ t = u.complete) ∨ ∃ f, t = (s.accept c).raise f) := by
  cases hdec : decode c with
  | error e => exact ⟨_, issue_of_illegal hf hdec, .inr ⟨.illegal, rfl⟩⟩
  | ok i => exact issue_of_decode hf hdec ▸ exec_cases i (s.accept c)

theorem exists_issue (s : State) (c : Word) : ∃ t, s.issue c = .next t := by
  cases hf : s.status.fault
  · exact (issue_cases hf c).imp fun _ h => h.1
  · exact ⟨s, issue_of_fault hf c⟩

/-! ### The moves of the host -/

/-- An idle block answers every move of the host (R270). -/
theorem exists_hostMove (hb : s.status.busy = false) (m : HostMove) : ∃ t, s.hostMove m = .next t := by
  cases m with
  | writeReg idx v =>
    by_cases hidx : idx = 0
    · rw [hidx, hostMove_writeCmd hb]
      exact exists_issue s v
    · exact ⟨_, hostMove_writeReg hb hidx v⟩
  | readReg idx => exact ⟨_, hostMove_readReg hb idx⟩
  | writeBank bank i v => exact ⟨_, hostMove_writeBank hb bank i v⟩
  | readBank bank i => exact ⟨_, hostMove_readBank hb bank i⟩
  | reset => exact ⟨_, hostMove_reset⟩

/-- t has the registers in which s records a fault (R276). -/
def SameRecord (s t : State) : Prop := t.status = s.status ∧ t.finfo = s.finfo ∧ t.cmd = s.cmd

theorem sameRecord_regWrite (s : State) (idx : BitVec 7) (v : Word) : s.SameRecord (s.regWrite idx v) := by
  rw [regWrite]
  split
  case h_10 => split <;> exact ⟨rfl, rfl, rfl⟩
  all_goals exact ⟨rfl, rfl, rfl⟩

theorem sameRecord_portWrite (s : State) (bank : BitVec 4) (i : Nat) (v : Word) : s.SameRecord (s.portWrite bank i v) := by
  rw [portWrite]
  split
  · exact ⟨s.memWrite_status .., s.memWrite_finfo .., s.memWrite_cmd ..⟩
  · exact ⟨rfl, rfl, rfl⟩

/-- A stopped block keeps its record through every move but reset, busy or not (R59, R276). -/
theorem sameRecord_of_hostMove (hf : s.status.fault = true) {m : HostMove} (hm : m ≠ .reset) (ht : s.hostMove m = .next t) :
    s.SameRecord t := by
  rw [hostMove.eq_def] at ht
  split at ht
  · cases ht
  · cases m with
    | writeReg idx v =>
      dsimp only at ht
      split at ht
      · rw [issue_of_fault hf] at ht
        cases ht
        exact ⟨rfl, rfl, rfl⟩
      · cases ht
        exact s.sameRecord_regWrite idx v
    | readReg idx | readBank bank i =>
      cases ht
      exact ⟨rfl, rfl, rfl⟩
    | writeBank bank i v =>
      cases ht
      exact s.sameRecord_portWrite bank i v
    | reset => exact absurd rfl hm

end State

/-! ### Steps -/

variable {s t : State}

theorem exists_step (hb : s.status.busy = false) : ∃ t, step s = .next t := by
  cases hhost : s.host with
  | nil => exact ⟨s, step_nil hhost⟩
  | cons m rest =>
    rw [step_cons hhost]
    exact State.exists_hostMove (s := { s with host := rest }) hb m

/-- A stopped block keeps its record through every step that is not reset (R276). -/
theorem sameRecord_of_step (hf : s.status.fault = true) (hreset : ∀ rest, s.host ≠ .reset :: rest) (ht : step s = .next t) :
    s.SameRecord t := by
  cases hhost : s.host with
  | nil =>
    rw [step_nil hhost] at ht
    cases ht
    exact ⟨rfl, rfl, rfl⟩
  | cons m rest =>
    rw [step_cons hhost] at ht
    have hm : m ≠ .reset := by
      rintro rfl
      exact hreset rest hhost
    exact State.sameRecord_of_hostMove (s := { s with host := rest }) hf hm ht

end Sys2Proof.Machine

namespace Sys2Proof

open Machine

/-- Settles O6: an illegal word faults; a command is checks and an operation that keeps the control registers of acceptance, which
completion then changes to `DONE`, and a failing check to the fault's record. -/
theorem commandsCompleteOrFaultPrecisely : Obligations.CommandsCompleteOrFaultPrecisely := by
  intro s c hfault
  obtain ⟨_, ht, ⟨u, hkept, rfl⟩ | ⟨f, rfl⟩⟩ := State.issue_cases hfault c
  · have hstatus : u.status.completed = ⟨false, true, false, s.status.fcode⟩ := by
      rw [hkept.status, State.accept_status, Status.completed_accepted, Status.completed, hfault]
    exact ⟨_, ht, .inl ⟨hstatus, hkept.finfo, hkept.cmd⟩⟩
  · exact ⟨_, ht, .inr ⟨f, rfl⟩⟩

/-- Settles O7: a command completes or faults, and every other move of the host answers at once. -/
theorem everyIdleStepHasANextState : Obligations.EveryIdleStepHasANextState := fun _ => exists_step

/-- Settles O8: the issue of a word to a stopped block does nothing, and no move but reset reaches the registers of the record. -/
theorem faultsAreStickyUntilReset : Obligations.FaultsAreStickyUntilReset := by
  intro s hfault
  refine ⟨fun c rest hbusy hhost => ?_, fun t hreset ht => sameRecord_of_step hfault hreset ht⟩
  rw [step_writeCmd hbusy hhost, State.issue_of_fault (s := { s with host := rest }) hfault]

end Sys2Proof
end
